-- ==== Sys2Proof/Word.lean ====
section
/-!
DEFINITION. Word types, the internal instruction word's fields, and the fixed sets of names the
manual uses for element types, rounding modes, scopes, queues and engines.
-/

namespace Sys2Proof

abbrev Byte := BitVec 8
/-- A 64-bit register or address (R65). -/
abbrev Word := BitVec 64

/-- The fields of the internal word (Table 3.2, R39) that an instruction carries besides its opcode:
END, FN, PRED, the four specifiers, their element views, and the 32-bit immediate. LEN and OPC are not
here: LEN only says where the next instruction starts, OPC is the constructor. -/
structure Fields where
  fin   : Bool := true
  fn    : BitVec 6 := 0
  pred  : BitVec 4 := 0
  d     : BitVec 8 := 0
  s1    : BitVec 8 := 0
  s2    : BitVec 8 := 0
  s3    : BitVec 8 := 0
  modD  : BitVec 2 := 0
  modS1 : BitVec 2 := 0
  modS2 : BitVec 2 := 0
  modS3 : BitVec 2 := 0
  imm   : BitVec 32 := 0
  deriving DecidableEq, Repr

/-- The element types of Table 3.8 (R51). -/
inductive Ty where
  | f32 | bf16 | f16 | e4m3 | e5m2 | pt8 | i8 | n8 | i16 | n16 | i32 | n32 | i4 | n4 | table | reserved
  deriving DecidableEq, Repr

/-- The rounding modes of FRM (Table 4.5). -/
inductive RMode where
  | rne | rtz | rdn | rup
  deriving DecidableEq, Repr

/-- The three engine queues of a stream (R15). -/
inductive QueueId where
  | cpy | vec | mtx
  deriving DecidableEq, Repr

/-- Where an error of the protected state is found (R359): a sector of global memory, or a granule or
word of one core. -/
inductive ErrSite where
  | sector (sector : Nat)
  | spm (core granule : Nat)
  | vreg (core container : Nat)
  | mask (core mask : Nat)
  | acc (core word : Nat)
  | bnd (core cell : Nat)
  | icache (core : Nat) (sector : Nat)
  | l1 (core sector : Nat)
  | slice (n : Nat)
  | stack (n : Nat)
  | link (n : Nat)
  deriving DecidableEq, Repr

/-- A request that another package performs at a home of this one (R353), or a signature that it posts, at TENANT of a virtual function or at SYSTEM
(R132, R344). -/
inductive RemoteRequest where
  | read (pa n : Nat)
  | write (pa : Nat) (data : List Byte)
  | atom (op : Nat) (wide unsigned : Bool) (pa : Nat) (x e : Word)
  | post (vf : Option Nat) (sig : BitVec 512)
  deriving DecidableEq, Repr

/-- The configuration record of Table 17.9 as Noon reads it, with the outcome of its two signature checks. -/
structure ConfigRecord where
  edOk     : Bool
  mlOk     : Bool
  pkgId    : BitVec 8
  bays     : BitVec 20
  links    : BitVec 16
  hbm      : BitVec 256
  roles    : BitVec 32
  power    : BitVec 32
  deriving DecidableEq, Repr

/-- A boot image as the boot ROM judges it (R356): the two signature checks and the version it carries. -/
structure BootImage where
  edOk    : Bool
  mlOk    : Bool
  version : Nat
  deriving DecidableEq, Repr

end Sys2Proof
end

