-- ==== Sys2Proof/Machine/Bits.lean ====
section
/-!
DEFINITION. Bit fields, sign extension and byte order (R2), as the machine and the decoder use them.
-/

namespace Sys2Proof.Bits

/-- bits(x, h, l) of Table 0.2 for a natural number: the field [h:l]. -/
def field (x hi lo : Nat) : Nat := (x / 2 ^ lo) % 2 ^ (hi + 1 - lo)

/-- Bit i of a number. -/
def bit (x i : Nat) : Bool := x / 2 ^ i % 2 = 1

/-- The value of a w-bit pattern read as two's complement. -/
def signed (w x : Nat) : Int := if 2 ^ (w - 1) ≤ x % 2 ^ w then (x % 2 ^ w : Nat) - (2 ^ w : Nat) else (x % 2 ^ w : Nat)

/-- An integer reduced to an unsigned w-bit pattern. -/
def wrap (w : Nat) (x : Int) : Nat := (x % ((2 ^ w : Nat) : Int)).toNat

/-- Sign-extend a 32-bit immediate to 64 bits (R85, R93). -/
def sext (i : BitVec 32) : Word := i.signExtend 64

/-- The n bytes of a value, lowest first (R2). -/
def toBytes (n x : Nat) : List Byte := (List.range n).map fun i => BitVec.ofNat 8 (x / 256 ^ i)

/-- The value of bytes stored lowest first (R2). -/
def ofBytes : List Byte → Nat
  | [] => 0
  | b :: r => b.toNat + 256 * ofBytes r

/-- The bytes of an instruction's value W, first byte most significant (R36). -/
def toBytesBE (n x : Nat) : List Byte := (toBytes n x).reverse

/-- The value W of an instruction's bytes (R36). -/
def ofBytesBE (l : List Byte) : Nat := ofBytes l.reverse

/-- The number of bits of x, among the lowest w, that are 1. -/
def popcount (w x : Nat) : Nat := ((List.range w).filter fun i => bit x i).length

/-- The highest bit of x among the lowest w that is 1. -/
def topBit (w x : Nat) : Option Nat := ((List.range w).reverse.find? fun i => bit x i)

/-- The lowest bit of x among the lowest w that is 1. -/
def lowBit (w x : Nat) : Option Nat := (List.range w).find? fun i => bit x i

/-- Cut a pattern into n elements of w bits, element 0 lowest (R156). -/
def elements (w n x : Nat) : List Nat := (List.range n).map fun i => x / 2 ^ (w * i) % 2 ^ w

/-- Join w-bit elements, element 0 lowest. -/
def ofElements (w : Nat) : List Nat → Nat
  | [] => 0
  | e :: r => e % 2 ^ w + 2 ^ w * ofElements w r

/-- Replace the field [hi:lo] of x. -/
def setField (x hi lo v : Nat) : Nat :=
  x % 2 ^ lo + 2 ^ lo * (v % 2 ^ (hi + 1 - lo)) + 2 ^ (hi + 1) * (x / 2 ^ (hi + 1))

end Sys2Proof.Bits
end

