-- ==== Sys2Proof/Syntax.lean ====
section
/-!
DEFINITION. The instruction set as syntax: ONE inductive, one constructor for each row of
spec/opcode_table.json. An instruction of Table 3.12 carries the fields of its internal word (Table 3.2);
a row of Table 3.4 (the short forms, named _B2 in the table) carries END and the fields d and e of its two
bytes; a row that is a step of the device and no encoded instruction carries the agents and data the step
concerns.
-/

namespace Sys2Proof

/-- One constructor for each row of the opcode table. -/
inductive Instr where
  /-- ADD: Adds two scalar registers, whole 64-bit or packed container lanes, wrapping (R84). -/
  | add (f : Fields)
  /-- ADD_B2: Short form of ADD in which the second source is the destination (R41). -/
  | addB2 (fin : Bool) (d : BitVec 5) (e : BitVec 4)
  /-- SUB: Subtracts two scalar registers, wrapping (R84). -/
  | sub (f : Fields)
  /-- SUB_B2: Short form of SUB computing s(d) := s(e) - s(d) (R41). -/
  | subB2 (fin : Bool) (d : BitVec 5) (e : BitVec 4)
  /-- MUL: Multiplies two scalar registers and keeps the low bits (R84). -/
  | mul (f : Fields)
  /-- MULH: Multiplies two scalar registers and keeps the high half, signed or unsigned (R84). -/
  | mulh (f : Fields)
  /-- AND: Bitwise AND of two scalar registers (R84). -/
  | and (f : Fields)
  /-- AND_B2: Short form of AND in which the second source is the destination (R41). -/
  | andB2 (fin : Bool) (d : BitVec 5) (e : BitVec 4)
  /-- OR: Bitwise OR of two scalar registers (R84). -/
  | or (f : Fields)
  /-- OR_B2: Short form of OR in which the second source is the destination (R41). -/
  | orB2 (fin : Bool) (d : BitVec 5) (e : BitVec 4)
  /-- XOR: Bitwise XOR of two scalar registers (R84). -/
  | xor (f : Fields)
  /-- XOR_B2: Short form of XOR in which the second source is the destination (R41). -/
  | xorB2 (fin : Bool) (d : BitVec 5) (e : BitVec 4)
  /-- ANDN: Computes the first source AND NOT the second source (R84). -/
  | andn (f : Fields)
  /-- SHL: Shifts a scalar left by a register plus an immediate count (R84). -/
  | shl (f : Fields)
  /-- SHL_B2: Short form of SHL in which the second source is the destination (R41). -/
  | shlB2 (fin : Bool) (d : BitVec 5) (e : BitVec 4)
  /-- SHR: Shifts a scalar right logically (R84). -/
  | shr (f : Fields)
  /-- SHR_B2: Short form of SHR in which the second source is the destination (R41). -/
  | shrB2 (fin : Bool) (d : BitVec 5) (e : BitVec 4)
  /-- SHA: Shifts a scalar right arithmetically (R84). -/
  | sha (f : Fields)
  /-- ROT: Rotates a scalar left (R84). -/
  | rot (f : Fields)
  /-- MIN: Takes the minimum of two scalars, signed or unsigned (R84). -/
  | min (f : Fields)
  /-- MIN_B2: Short form of MIN in which the second source is the destination (R41). -/
  | minB2 (fin : Bool) (d : BitVec 5) (e : BitVec 4)
  /-- MAX: Takes the maximum of two scalars, signed or unsigned (R84). -/
  | max (f : Fields)
  /-- MAX_B2: Short form of MAX in which the second source is the destination (R41). -/
  | maxB2 (fin : Bool) (d : BitVec 5) (e : BitVec 4)
  /-- SADD: Adds two scalars with saturation to the range of the type (R84). -/
  | sadd (f : Fields)
  /-- SSUB: Subtracts two scalars with saturation to the range of the type (R84). -/
  | ssub (f : Fields)
  /-- ADDI: Adds a sign-extended immediate to a scalar (R85). -/
  | addi (f : Fields)
  /-- ADDI_B2: Short form of ADDI with a 4-bit signed addend and D = S1 (R41). -/
  | addiB2 (fin : Bool) (d : BitVec 5) (e : BitVec 4)
  /-- MOVI: Loads a sign-extended immediate, or with .h sets the high 32 bits (R85). -/
  | movi (f : Fields)
  /-- POPC: Counts the set bits of a 64-bit scalar (R86). -/
  | popc (f : Fields)
  /-- POPC_B2: Short form of POPC (R41). -/
  | popcB2 (fin : Bool) (d : BitVec 5) (e : BitVec 4)
  /-- CLZ: Counts the leading zero bits of a scalar (R86). -/
  | clz (f : Fields)
  /-- CTZ: Counts the trailing zero bits of a scalar (R86). -/
  | ctz (f : Fields)
  /-- BFX: Extracts a bit field, optionally sign-extended (R87). -/
  | bfx (f : Fields)
  /-- BFI: Inserts the low bits of a source into a bit field of the destination (R87). -/
  | bfi (f : Fields)
  /-- SEL: Selects one of two scalars by a condition register (R88). -/
  | sel (f : Fields)
  /-- MOV: Copies a scalar, or merges a container view (R88). -/
  | mov (f : Fields)
  /-- MOV_B2: Short form of MOV (R41). -/
  | movB2 (fin : Bool) (d : BitVec 5) (e : BitVec 4)
  /-- XMOV: Moves a whole register from one cluster to another (R88). -/
  | xmov (f : Fields)
  /-- DIV: Divides two scalars with truncation, faulting DIVIDE on a zero divisor (R89). -/
  | div (f : Fields)
  /-- REM: Gives the remainder of a scalar division (R89). -/
  | rem (f : Fields)
  /-- RANK: Computes the packed slot of a position in a survivor bitmap (R90). -/
  | rank (f : Fields)
  /-- FCVT: Converts one scalar element between number formats (R91). -/
  | fcvt (f : Fields)
  /-- FMAS: Performs a scalar fused multiply-add with one rounding (R92). -/
  | fmas (f : Fields)
  /-- AADD: Adds a scalar and an immediate to an address register and keeps its tag (R93). -/
  | aadd (f : Fields)
  /-- AADD_B2: Short form of AADD with no immediate (R41). -/
  | aaddB2 (fin : Bool) (d : BitVec 5) (e : BitVec 4)
  /-- AIDX: Forms a scaled-index address (R93). -/
  | aidx (f : Fields)
  /-- AMOV: Moves values between address and scalar registers (R93). -/
  | amov (f : Fields)
  /-- ALDI: Loads an address immediate in a chosen space (R94). -/
  | aldi (f : Fields)
  /-- LD: Loads 1 to 8 bytes from global, local or peer space into a scalar (R95). -/
  | ld (f : Fields)
  /-- ST: Stores the low bytes of a scalar (R95). -/
  | st (f : Fields)
  /-- LDA: Loads 8 bytes into an address register (R95). -/
  | lda (f : Fields)
  /-- STA: Stores an address register as 8 bytes (R95). -/
  | sta (f : Fields)
  /-- PUSH: Pushes a register onto the stream's stack (R97). -/
  | push (f : Fields)
  /-- POP: Pops a register from the stream's stack (R97). -/
  | pop (f : Fields)
  /-- PRFM: Prefetches a global line into L1 or its L2 home (R98). -/
  | prfm (f : Fields)
  /-- ACMP: Compares two address registers into a condition register (R99). -/
  | acmp (f : Fields)
  /-- PBR: Prepares a PC-relative branch target (R100). -/
  | pbr (f : Fields)
  /-- PBRA: Prepares a branch target from an address register (R100). -/
  | pbra (f : Fields)
  /-- CMP: Compares two scalars into a condition register (R101). -/
  | cmp (f : Fields)
  /-- CMPI: Compares a scalar with an immediate into a condition register (R101). -/
  | cmpi (f : Fields)
  /-- BR: Transfers when the condition is 1, after two delay slots (R102). -/
  | br (f : Fields)
  /-- BRN: Transfers when the condition is 0, after two delay slots (R102). -/
  | brn (f : Fields)
  /-- JMP: Transfers unconditionally after two delay slots (R102). -/
  | jmp (f : Fields)
  /-- CALL: Pushes the return address and transfers after two delay slots (R102). -/
  | call (f : Fields)
  /-- RET: Pops the return address and transfers after two delay slots (R102). -/
  | ret (f : Fields)
  /-- LOOP: Decrements a loop counter, shifts the gate window and branches back to the body (R106). -/
  | loop (f : Fields)
  /-- LSET: Defines a pipelined loop and resets the gate window (R105). -/
  | lset (f : Fields)
  /-- VANY: Sets a condition register if any mask lane below VL is 1 (R108). -/
  | vany (f : Fields)
  /-- VALL: Sets a condition register if every mask lane below VL is 1 (R108). -/
  | vall (f : Fields)
  /-- GSET: Exchanges the stage-gate window with a register or immediate (R107). -/
  | gset (f : Fields)
  /-- NOP: Changes no state (R109). -/
  | nop (f : Fields)
  /-- NOP_B2: Two-byte form of NOP (R42). -/
  | nopB2 (fin : Bool)
  /-- TSET: Sets a token counter's count and ceiling (R140). -/
  | tset (f : Fields)
  /-- TPOST: Posts one token to a counter, faulting above the ceiling (R140). -/
  | tpost (f : Fields)
  /-- TPOST_B2: Short form of TPOST (R41). -/
  | tpostB2 (fin : Bool) (d : BitVec 5) (e : BitVec 4)
  /-- TWAIT: Stalls until a counter is at least 1, then takes one token (R140). -/
  | twait (f : Fields)
  /-- TWAIT_B2: Short form of TWAIT (R41). -/
  | twaitB2 (fin : Bool) (d : BitVec 5) (e : BitVec 4)
  /-- SWINIT: Initialises a local sync word with a target and clears its counts and flags (R141). -/
  | swinit (f : Fields)
  /-- SWARM: Arms a sync word, optionally with auto re-arm (R141). -/
  | swarm (f : Fields)
  /-- SWWAIT: Parks until a sync word's GEN differs from a value (R143). -/
  | swwait (f : Fields)
  /-- SWARRIVE: Delivers a data-less arrival of n bytes to a local or peer sync word (R142). -/
  | swarrive (f : Fields)
  /-- PUBLISH: Writes back dirty L1 bytes and posts pending signatures up to a scope (R134). -/
  | publish (f : Fields)
  /-- ACQUIRE: Applies the boards' signatures up to a scope by invalidating matching clean L1 bytes (R135). -/
  | acquire (f : Fields)
  /-- FENCE: Stalls until the selected queues' earlier commands complete, optionally to visibility (R146). -/
  | fence (f : Fields)
  /-- ATOM: Performs an indivisible read-modify-write at the home, with optional release and acquire (R147). -/
  | atom (f : Fields)
  /-- GARRIVE: Arrives at the gang barrier and ends a phase when every member has arrived (R148). -/
  | garrive (f : Fields)
  /-- GWAIT: Stalls until the barrier phase of the member's arrival completes (R148). -/
  | gwait (f : Fields)
  /-- WATCH: Registers a watch entry at the home slice of a global word (R150). -/
  | watch (f : Fields)
  /-- UNWATCH: Removes a watch entry once no notification of it is undelivered (R153). -/
  | unwatch (f : Fields)
  /-- TRAP: Raises TRAP with its code in EADDR (R110). -/
  | trap (f : Fields)
  /-- EXIT: Waits for the stream's queues, then performs the implied PUBLISH and ends the stream (R111). -/
  | exit (f : Fields)
  /-- SYSRD: Reads a system register into a scalar (R112). -/
  | sysrd (f : Fields)
  /-- SYSWR: Writes a system register with the effects of Table 5.12 (R112). -/
  | syswr (f : Fields)
  /-- SPLIT: Drains the joined stream's queues and starts four split streams (R67). -/
  | split (f : Fields)
  /-- JOIN: Parks a split stream and returns the core to joined mode when all four have parked (R68). -/
  | join (f : Fields)
  /-- LEASE: Sets the length of the stream's matrix lease (R114). -/
  | lease (f : Fields)
  /-- LREL: Ends the stream's current lease once its earlier matrix commands have started (R114). -/
  | lrel (f : Fields)
  /-- YIELD: Takes a pending pre-emption as a forced pre-emption, otherwise does nothing (R115). -/
  | yield (f : Fields)
  /-- QCFG: Binds a queue control word to one of the stream's queues after draining it (R116). -/
  | qcfg (f : Fields)
  /-- GENF: Increments GEN and enqueues a generation fence into all three queues (R117). -/
  | genf (f : Fields)
  /-- FTSET: Writes an entry of the stream's format table (R118). -/
  | ftset (f : Fields)
  /-- BOUNDCFG: Sets an accumulator's bound threshold, mode and action in one step (R119). -/
  | boundcfg (f : Fields)
  /-- TICK: Reads FRAME_TICK, optionally after waiting until it reaches a value (R120). -/
  | tick (f : Fields)
  /-- DBGBRK: Suspends the point at a debug stop when debug stops are enabled (R121). -/
  | dbgbrk (f : Fields)
  /-- OAXDEF: Binds or unbinds an open-axis register to a descriptor (R295). -/
  | oaxdef (f : Fields)
  /-- INSTALL: Captures the next command word as the body of a standing rule (R296). -/
  | install (f : Fields)
  /-- REVOKE: Lowers a rule's horizon so that it leaves the table (R303). -/
  | revoke (f : Fields)
  /-- SLCOMMIT: Publishes and then commits slices on an open axis, optionally closing it (R299). -/
  | slcommit (f : Fields)
  /-- SLWAIT: Stalls until an axis's retire count reaches a value (R302). -/
  | slwait (f : Fields)
  /-- RSTAT: Reads a field of a rule entry (R304). -/
  | rstat (f : Fields)
  /-- RSUSP: Suspends an active rule (R305). -/
  | rsusp (f : Fields)
  /-- RRESUME: Resumes a suspended rule, or skips its held slice (R306). -/
  | rresume (f : Fields)
  /-- VADD: Adds floating-point vector elements (R190). -/
  | vadd (f : Fields)
  /-- VSUB: Subtracts floating-point vector elements (R190). -/
  | vsub (f : Fields)
  /-- VMUL: Multiplies floating-point vector elements (R190). -/
  | vmul (f : Fields)
  /-- VFMA: Performs an elementwise fused multiply-add into the destination (R190). -/
  | vfma (f : Fields)
  /-- VMAX: Takes the elementwise floating-point maximum (R190). -/
  | vmax (f : Fields)
  /-- VMIN: Takes the elementwise floating-point minimum (R190). -/
  | vmin (f : Fields)
  /-- VDIV: Divides vector elements with correct rounding (R174). -/
  | vdiv (f : Fields)
  /-- VSQRT: Takes the correctly rounded square root of vector elements (R174). -/
  | vsqrt (f : Fields)
  /-- VEXP2: Takes the correctly rounded power of two of vector elements (R174). -/
  | vexp2 (f : Fields)
  /-- VLOG2: Takes the correctly rounded base-2 logarithm of vector elements (R174). -/
  | vlog2 (f : Fields)
  /-- VRCP: Takes the correctly rounded reciprocal of vector elements (R174). -/
  | vrcp (f : Fields)
  /-- VRSQ: Takes the correctly rounded reciprocal square root of vector elements (R174). -/
  | vrsq (f : Fields)
  /-- VABS: Takes the absolute value of vector elements (R190). -/
  | vabs (f : Fields)
  /-- VNEG: Negates vector elements (R190). -/
  | vneg (f : Fields)
  /-- VSCALE: Multiplies vector elements by a power of two taken from integers (R190). -/
  | vscale (f : Fields)
  /-- VCMP: Compares floating-point elements into a mask (R191). -/
  | vcmp (f : Fields)
  /-- VIADD: Adds integer vector elements, wrapping or saturating (R192). -/
  | viadd (f : Fields)
  /-- VISUB: Subtracts integer vector elements, wrapping or saturating (R192). -/
  | visub (f : Fields)
  /-- VIMUL: Multiplies integer vector elements, keeping the low or high part or clamping (R192). -/
  | vimul (f : Fields)
  /-- VAND: Bitwise AND of vector elements (R192). -/
  | vand (f : Fields)
  /-- VOR: Bitwise OR of vector elements (R192). -/
  | vor (f : Fields)
  /-- VXOR: Bitwise XOR of vector elements (R192). -/
  | vxor (f : Fields)
  /-- VSHL: Shifts vector elements left (R192). -/
  | vshl (f : Fields)
  /-- VSHR: Shifts vector elements right, logically or arithmetically by type (R192). -/
  | vshr (f : Fields)
  /-- VSEL: Selects elements from two vectors by a mask (R193). -/
  | vsel (f : Fields)
  /-- VPERM: Permutes vector elements by indices (R193). -/
  | vperm (f : Fields)
  /-- VBCAST: Broadcasts a scalar to every vector element (R193). -/
  | vbcast (f : Fields)
  /-- VIOTA: Writes a scalar start plus the element index into each element (R193). -/
  | viota (f : Fields)
  /-- VSCAN: Computes an inclusive or exclusive prefix sum (R193). -/
  | vscan (f : Fields)
  /-- VPOPC: Counts the set bits of each vector element (R192). -/
  | vpopc (f : Fields)
  /-- VMOV: Copies vector elements unchanged (R193). -/
  | vmov (f : Fields)
  /-- VICMP: Compares integer elements into a mask (R191). -/
  | vicmp (f : Fields)
  /-- VLD: Loads contiguous vector elements from any space (R194). -/
  | vld (f : Fields)
  /-- VST: Stores contiguous vector elements to any space (R194). -/
  | vst (f : Fields)
  /-- VLDS: Loads vector elements at a signed byte stride (R194). -/
  | vlds (f : Fields)
  /-- VGATH: Gathers vector elements at indexed byte offsets (R195). -/
  | vgath (f : Fields)
  /-- VSCAT: Scatters vector elements to indexed byte offsets (R195). -/
  | vscat (f : Fields)
  /-- VRED: Reduces vector elements by a fixed balanced tree into element 0 (R197). -/
  | vred (f : Fields)
  /-- VSEGRED: Reduces each mask-delimited segment by the fixed tree (R198). -/
  | vsegred (f : Fields)
  /-- VMLD: Loads mask lanes from packed bits (R196). -/
  | vmld (f : Fields)
  /-- MLOGIC: Combines masks by a logic operation (R199). -/
  | mlogic (f : Fields)
  /-- MPOPC: Counts the set lanes of a mask into container 0 (R199). -/
  | mpopc (f : Fields)
  /-- VSETL: Sets the stream's vector length, capped by type (R185). -/
  | vsetl (f : Fields)
  /-- VTRN: Transposes a row-major matrix held in a vector (R200). -/
  | vtrn (f : Fields)
  /-- AREAD: Reads accumulator rows into a vector, converting them (R205). -/
  | aread (f : Fields)
  /-- AWRITE: Writes vector elements into accumulator rows (R206). -/
  | awrite (f : Fields)
  /-- VCVT: Converts vector elements between formats, optionally updating a bound vector (R201). -/
  | vcvt (f : Fields)
  /-- VQNT: Quantises f32 elements into blocks with bf16 scales (R203). -/
  | vqnt (f : Fields)
  /-- VDQNT: Dequantises scaled elements into f32 (R204). -/
  | vdqnt (f : Fields)
  /-- BRD: Reads the 128 cells of a bound file into a vector (R207). -/
  | brd (f : Fields)
  /-- BWR: Writes the 128 cells of a bound file from a vector (R207). -/
  | bwr (f : Fields)
  /-- MMA: Adds the product of local A and B tiles into an accumulator (R221). -/
  | mma (f : Fields)
  /-- MMAS: Adds a product whose B tile is streamed from global memory (R224). -/
  | mmas (f : Fields)
  /-- MMAZ: Clears the accumulator, then adds a product (R221). -/
  | mmaz (f : Fields)
  /-- ACLR: Sets an accumulator to CLEAR and releases its partner (R225). -/
  | aclr (f : Fields)
  /-- ASTORE: Stores an accumulator tile converted to a type, optionally with its bound plane (R226). -/
  | astore (f : Fields)
  /-- ALOAD: Loads an accumulator tile exactly, optionally with its bound plane (R227). -/
  | aload (f : Fields)
  /-- ABOUND: Sets, maxes, adds or gets a bound file against a local plane (R228). -/
  | abound (f : Fields)
  /-- CPY: Copies the blocks of the copy nest between spaces (R262). -/
  | cpy (f : Fields)
  /-- CPYM: Multicasts each piece to every member of a gang mask (R263). -/
  | cpym (f : Fields)
  /-- CPYR: Contributes to a combining f32 reduction into a destination (R264). -/
  | cpyr (f : Fields)
  /-- CPYG: Gathers blocks through a local index list (R266). -/
  | cpyg (f : Fields)
  /-- CPYS: Scatters blocks through a local index list (R266). -/
  | cpys (f : Fields)
  /-- CPYF: Fills blocks with a 64-bit pattern (R267). -/
  | cpyf (f : Fields)
  /-- NSET: Writes the count and strides of one copy-nest level (R252). -/
  | nset (f : Fields)
  /-- NCLR: Resets every copy-nest level to count 1 and strides 0 (R252). -/
  | nclr (f : Fields)
  /-- KVMAP: Binds the stream's KV sequence table in copy-queue order (R271). -/
  | kvmap (f : Fields)
  /-- KVGATH: Gathers the present rows of a position range and writes a count-and-mask record (R275). -/
  | kvgath (f : Fields)
  /-- KVAPP: Appends rows to a KV sequence (R272). -/
  | kvapp (f : Fields)
  /-- KVCOMP: Appends draft-slot rows along a path (R274). -/
  | kvcomp (f : Fields)
  /-- KVEVICT: Clears survivor bits of a block and packs its page (R273). -/
  | kvevict (f : Fields)
  /-- KVRANK: Writes the slot of each position in a range, or an absent marker (R276). -/
  | kvrank (f : Fields)
  /-- LAUNCH: Publishes and then submits a nest record from scratchpad as a new launch (R336). -/
  | launch (f : Fields)
  /-- FRREAD: Reads a launch's frontier state from its home dispatcher (R337). -/
  | frread (f : Fields)
  /-- PTINFO: Reads a value of the issuing point's launch (R338). -/
  | ptinfo (f : Fields)
  /-- COMMAND_START: An engine starts a queued command once its tokens and ranges allow, taking its waits (R23). -/
  | commandStart (core stream : Nat) (q : QueueId)
  /-- COMMAND_COMPLETION: An engine command completes, posts its completion token and leaves the range checker (R23). -/
  | commandCompletion (core age : Nat)
  /-- COPY_VISIBILITY: A copy's writes become visible at their destinations and its visibility token is posted (R258). -/
  | copyVisibility (core age : Nat)
  /-- K_BLOCK: The array applies one k-block, updates the bound cells and tests the threshold (R232). -/
  | kBlock (core age : Nat)
  /-- COPY_PIECE: A piece of a copy block is written at its destination (R257). -/
  | copyPiece (core age : Nat)
  /-- ARRIVAL: An arrival updates a sync word indivisibly and may advance its generation (R27). -/
  | arrival (k : Nat)
  /-- CPYR_CONTRIBUTION: A contribution reaches the bay switch's combining table and is combined in rank order (R265). -/
  | cpyrContribution (k : Nat)
  /-- PEER_ACCESS: Another core's access arrives at this core's scratchpad outside the range checker (R21). -/
  | peerAccess (core off : Nat) (data : List Byte)
  /-- L1_EVICTION: The L1 evicts a sector and writes its dirty bytes to the home (R130). -/
  | l1Eviction (core sector : Nat)
  /-- ICACHE_FILL: The instruction cache fills a sector and expands its instructions into internal words (R38). -/
  | icacheFill (core : Nat) (va : Word)
  /-- FAULT_DELIVERY: A pending fault is taken at an issue boundary and goes to the handler or suspends the point (R78). -/
  | faultDelivery (core stream : Nat)
  /-- STATUS_RESUME: Writing STATUS.RESUME returns from the in-point handler and resumes the faulted command (R79). -/
  | statusResume (core stream : Nat)
  /-- STATUS_DISCARD: RESUME with DISCARD removes the faulted command instead (R79). -/
  | statusDiscard (core stream : Nat)
  /-- LEASE_GRANT: The matrix engine grants a lease to the next stream with a startable head (R219). -/
  | leaseGrant (core : Nat)
  /-- LEASE_IDLE_END: A lease ends after its holder has no startable matrix head for 16 clocks (R219). -/
  | leaseIdleEnd (core : Nat)
  /-- WATCH_MATCH: A write performed at the home matches a watch entry (R152). -/
  | watchMatch (pa n : Nat)
  /-- NOTIFICATION: A watch notification reaches its core, writes the note and posts a token (R152). -/
  | notification (handle : Nat)
  /-- COMMIT_WATCH: A commit-word notification raises an axis's N or closes it (R289). -/
  | commitWatch (core axis : Nat)
  /-- FIRING: The rule dispatcher enqueues one firing of a rule for a committed slice (R300). -/
  | firing (core axis : Nat)
  /-- REGISTERED_LAUNCH_PUSH: A queue-scheduling thread admits a fresh launch from a registration entry (R362). -/
  | registeredLaunchPush (entry : Nat)
  /-- POINT_DISPATCH: The dispatcher places a chosen point on a free gang slot and loads its state (R323). -/
  | pointDispatch (die : Nat)
  /-- POINT_DONE: A point whose streams have all completed EXIT is marked done in the frontier (R317). -/
  | pointDone (launch o m n : Nat)
  /-- LAUNCH_COMPLETION: A complete launch raises its completion word, meets dependences and frees its entry (R318). -/
  | launchCompletion (launch : Nat)
  /-- RELEASE: A launch becomes released when FRAME_TICK reaches its release tick (R324). -/
  | release (launch : Nat)
  /-- SLIPPED: A launch incomplete when FRAME_TICK reaches its deadline is marked SLIPPED (R325). -/
  | slipped (launch : Nat)
  /-- FRAME_TICK: FRAME_TICK advances by one every TICK_PERIOD reference cycles (R360). -/
  | frameTick
  /-- LAUNCH_SAVE: Once no point is in flight, the frontier record is written and the launch becomes saved (R330). -/
  | launchSave (launch : Nat)
  /-- CONTEXT_SAVE: After the engines run forward and the links drain, each core writes its context record (R331). -/
  | contextSave (core : Nat)
  /-- NOP_PACKET: A NOP packet completes at once (R348). -/
  | nopPacket (ring : Nat)
  /-- LAUNCH_PACKET: A LAUNCH packet is checked and admitted as a launch (R348). -/
  | launchPacket (ring : Nat)
  /-- INVOKE: An INVOKE packet admits a launch from a resident slot's template (R328). -/
  | invoke (ring : Nat)
  /-- FENCE_PACKET: A FENCE packet completes when its dependences are met (R348). -/
  | fencePacket (ring : Nat)
  /-- INVAL: An INVAL packet drops the named translations from every TLB and walker (R348). -/
  | inval (ring : Nat)
  /-- PREEMPT: A PREEMPT packet requests point-boundary or forced pre-emption of a launch (R364). -/
  | preempt (ring : Nat)
  /-- RESTORE: A RESTORE packet reloads a saved frontier and places its held points (R334). -/
  | restore (ring : Nat)
  /-- RESUME: A RESUME packet ends the suspension of one stream with a chosen action (R367). -/
  | resume (ring : Nat)
  /-- SLOTLOAD: A SLOTLOAD packet loads a resident slot and zeroes its persistent regions (R368). -/
  | slotload (ring : Nat)
  /-- SLOTUNLOAD: A SLOTUNLOAD packet frees a slot once no launch of it remains admitted (R368). -/
  | slotunload (ring : Nat)
  /-- RING_RESUME: Writing a ring number moves that ring from FETCH_BLOCKED back to ACTIVE (R342). -/
  | ringResume (ring : Nat)
  /-- RING_ENABLE: Writing EN of a ring descriptor puts the ring into service (R345). -/
  | ringEnable (ring : Nat) (desc : BitVec 1024)
  /-- VF_RECORD_WRITE: Writing a VF record either takes effect or is refused with an event (R343). -/
  | vfRecordWrite (vf : Nat) (rec : BitVec 256)
  /-- CONTROL_WINDOW_WRITE: A write to any other control-window register, with illegal values ignored (R342). -/
  | controlWindowWrite (off : Nat) (v : Word)
  /-- DAWN: At power-on the boot ROM verifies the boot image and starts the Onyx die (R356). -/
  | dawn (img : BootImage)
  /-- NOON: The configuration record is verified and applied, and the dispatchers are released (R357). -/
  | noon (rec : ConfigRecord)
  /-- THERMAL_STEP: The arithmetic clock steps down or up by 100 MHz on temperature or power (R360). -/
  | thermalStep (up : Bool) (temp : Word)
  /-- THERMAL_RESET: At 110 °C the compute dies are held in reset and the part returns to Dawn (R360). -/
  | thermalReset
  /-- FLIT_RETRY: A flit that fails its CRC is retried on its link and counted (R353). -/
  | flitRetry (link : Nat)
  /-- LINK_DOWN: A link over its retry limit goes down and ends its outstanding requests (R354). -/
  | linkDown (link : Nat) (lostWrites : Nat)
  /-- RING_TIMEOUT: A successor that misses a step within TIMEOUT raises a ring-timeout (R355). -/
  | ringTimeout (group member : Nat)
  /-- RING_ABORT: A faulting, reset or unlinked member raises a ring-abort (R355). -/
  | ringAbort (group member : Nat)
  /-- UNCORRECTABLE_ERROR: An uncorrectable error poisons its sector or word and writes an event (R359). -/
  | uncorrectableError (site : ErrSite)
  /-- CORRECTED_ERROR: A soft error is corrected and counted in CE_COUNT or in the counts of its slice, stack or link (R359). -/
  | correctedError (site : ErrSite)
  /-- INBOUND_DMA_WRITE: An endpoint behind an IO or STOR group writes P9 memory by DMA, translated through its function's tables and performed at the L2 home (R351). -/
  | inboundDmaWrite (vf : Nat) (va : Word) (data : List Byte)
  /-- REMOTE_LINK_REQUEST: A read, write or ATOM from another package arrives over a Llynit link and is performed at the home in the order sent (R353). -/
  | remoteLinkRequest (req : RemoteRequest)
  /-- NEW_BOOT_IMAGE: A part held at Dawn after a failed check accepts a new boot image through management (R356). -/
  | newBootImage (img : BootImage)
  deriving DecidableEq, Repr

end Sys2Proof
end

