-- ==== Sys2Proof/Decode.lean ====
section
/-!
DEFINITION. Decoding and encoding (03_encoding.md): the five byte forms (R35, R36), their expansion into the
internal word (R39 to R41), the opcode map (R58), and the encoder that picks the shortest form whose
expansion reproduces the internal word (R42). Decoding is total and rejects by name.
-/

namespace Sys2Proof

/-- Why a byte sequence is no instruction. The first two are the poison cases of Table 3.7 that the bytes
alone show; `reservedOpcode` is check 2 of R60; `truncated` says that the list ends inside the instruction. -/
inductive DecodeError where
  | reservedPrefix
  | badShort
  | reservedOpcode (opc len : Nat) (fin : Bool)
  | truncated
  deriving DecidableEq, Repr

/-! ### Packed fields -/

/-- Join fields given as (width, value), the first one most significant. -/
def packFields : List (Nat × Nat) → Nat
  | [] => 0
  | (w, v) :: r => v % 2 ^ w * 2 ^ (r.map (·.1)).sum + packFields r

/-- Cut a word into fields of the given widths, the first one most significant. -/
def unpackFields (ws : List Nat) (x : Nat) : List Nat :=
  match ws with
  | [] => []
  | w :: r => x / 2 ^ r.sum % 2 ^ w :: unpackFields r x

/-! ### Byte forms (Tables 3.1 and 3.3) -/

/-- The byte forms of Table 3.1. -/
inductive Form where
  | b2 | b4 | b6 | b8 | b12
  deriving DecidableEq, Repr

/-- The form that a first byte selects; 1111 1xxx is reserved. -/
def formOf (b : Byte) : Option Form :=
  if b.toNat < 128 then some .b2
  else if b.toNat < 192 then some .b4
  else if b.toNat < 224 then some .b6
  else if b.toNat < 240 then some .b8
  else if b.toNat < 248 then some .b12
  else none

def formLen : Form → Nat
  | .b2 => 2
  | .b4 => 4
  | .b6 => 6
  | .b8 => 8
  | .b12 => 12

/-- The fields of a form from its top bit down: the form's leading bits, then its payload (R41, Table 3.3).
B2: END, SOP, d, e. B4: END, OPC, D, S1, S2, IMM. B6 adds FN, B8 adds FN and PRED after OPC. B12: END, OPC,
FN, PRED, D, S1, S2, S3, four MOD codes, IMM. -/
def formWidths : Form → List Nat
  | .b2 => [1, 1, 5, 5, 4]
  | .b4 => [2, 1, 8, 5, 5, 5, 6]
  | .b6 => [3, 1, 8, 6, 6, 6, 6, 12]
  | .b8 => [4, 1, 8, 6, 4, 8, 8, 8, 17]
  | .b12 => [5, 1, 8, 6, 4, 8, 8, 8, 8, 2, 2, 2, 2, 32]

/-- The leading bits of a form (Table 3.1). -/
def formLead : Form → Nat
  | .b2 => 0
  | .b4 => 2
  | .b6 => 6
  | .b8 => 14
  | .b12 => 30

/-- A w-bit immediate sign-extended to 32 bits (R40). -/
def extendImm (w x : Nat) : BitVec 32 := BitVec.signExtend 32 (BitVec.ofNat w x)

/-- The internal word's opcode and fields of a B4, B6, B8 or B12 word (R40). -/
def expandWide (form : Form) (w : Nat) : Nat × Fields :=
  match form, unpackFields (formWidths form) w with
  | .b4, [_, e, opc, d, s1, s2, i] =>
    (opc, { fin := e = 1, d := BitVec.ofNat 8 d, s1 := BitVec.ofNat 8 s1, s2 := BitVec.ofNat 8 s2, imm := extendImm 6 i })
  | .b6, [_, e, opc, fn, d, s1, s2, i] =>
    (opc, { fin := e = 1, fn := BitVec.ofNat 6 fn, d := BitVec.ofNat 8 d, s1 := BitVec.ofNat 8 s1,
            s2 := BitVec.ofNat 8 s2, imm := extendImm 12 i })
  | .b8, [_, e, opc, fn, p, d, s1, s2, i] =>
    (opc, { fin := e = 1, fn := BitVec.ofNat 6 fn, pred := BitVec.ofNat 4 p, d := BitVec.ofNat 8 d,
            s1 := BitVec.ofNat 8 s1, s2 := BitVec.ofNat 8 s2, imm := extendImm 17 i })
  | .b12, [_, e, opc, fn, p, d, s1, s2, s3, md, m1, m2, m3, i] =>
    (opc, { fin := e = 1, fn := BitVec.ofNat 6 fn, pred := BitVec.ofNat 4 p, d := BitVec.ofNat 8 d,
            s1 := BitVec.ofNat 8 s1, s2 := BitVec.ofNat 8 s2, s3 := BitVec.ofNat 8 s3, modD := BitVec.ofNat 2 md,
            modS1 := BitVec.ofNat 2 m1, modS2 := BitVec.ofNat 2 m2, modS3 := BitVec.ofNat 2 m3,
            imm := BitVec.ofNat 32 i })
  | _, _ => (255, {})

/-! ### B2 short operations (Table 3.4) -/

/-- The internal word of a row of Table 3.4. -/
def shortWord (sop : Nat) (fin : Bool) (d : BitVec 5) (e : BitVec 4) : Nat × Fields :=
  let d8 := d.setWidth 8
  let e8 := e.setWidth 8
  let two : Fields := { fin := fin, d := d8, s1 := e8, s2 := d8 }
  let one : Fields := { fin := fin, d := d8, s1 := e8 }
  match sop with
  | 1 => (0x00, two) | 2 => (0x01, two) | 3 => (0x04, two) | 4 => (0x05, two) | 5 => (0x06, two)
  | 6 => (0x08, two) | 7 => (0x09, two) | 8 => (0x18, one) | 9 => (0x0C, two) | 10 => (0x0D, two)
  | 11 => (0x12, one)
  | 12 => (0x10, { fin := fin, d := d8, s1 := d8, imm := e.signExtend 32 })
  | 13 => (0x20, one)
  | 14 => (0x41, { fin := fin, d := d8 })
  | 15 => (0x42, { fin := fin, d := d8 })
  | _ => (0x3E, { fin := fin })

/-- The B2 instruction of a SOP with its d and e, where the limits of Table 3.4 allow it. -/
def ofShort (sop : Nat) (fin : Bool) (d : BitVec 5) (e : BitVec 4) : Option Instr :=
  match sop with
  | 0 => if d = 0 ∧ e = 0 then some (.nopB2 fin) else none
  | 1 => some (.addB2 fin d e) | 2 => some (.subB2 fin d e) | 3 => some (.andB2 fin d e)
  | 4 => some (.orB2 fin d e) | 5 => some (.xorB2 fin d e) | 6 => some (.shlB2 fin d e)
  | 7 => some (.shrB2 fin d e) | 8 => some (.movB2 fin d e) | 9 => some (.minB2 fin d e)
  | 10 => some (.maxB2 fin d e) | 11 => some (.popcB2 fin d e) | 12 => some (.addiB2 fin d e)
  | 13 => if d.toNat ≤ 15 then some (.aaddB2 fin d e) else none
  | 14 => if e = 0 then some (.tpostB2 fin d e) else none
  | 15 => if e = 0 then some (.twaitB2 fin d e) else none
  | _ => none

/-! ### The opcode map (Table 3.12) -/

/-- Table 3.12, scalar ALU: codes 0x00 to 0x0F. -/
def opcodeGroup0 (k : Nat) (f : Fields) : Option Instr :=
  match k with
  | 0 => some (.add f) | 1 => some (.sub f) | 2 => some (.mul f)
  | 3 => some (.mulh f) | 4 => some (.and f) | 5 => some (.or f)
  | 6 => some (.xor f) | 7 => some (.andn f) | 8 => some (.shl f)
  | 9 => some (.shr f) | 10 => some (.sha f) | 11 => some (.rot f)
  | 12 => some (.min f) | 13 => some (.max f) | 14 => some (.sadd f)
  | _ => some (.ssub f)

/-- Table 3.12, scalar misc: codes 0x10 to 0x1F. -/
def opcodeGroup1 (k : Nat) (f : Fields) : Option Instr :=
  match k with
  | 0 => some (.addi f) | 1 => some (.movi f) | 2 => some (.popc f)
  | 3 => some (.clz f) | 4 => some (.ctz f) | 5 => some (.bfx f)
  | 6 => some (.bfi f) | 7 => some (.sel f) | 8 => some (.mov f)
  | 9 => some (.xmov f) | 10 => some (.div f) | 11 => some (.rem f)
  | 12 => some (.rank f) | 13 => some (.fcvt f) | 14 => some (.fmas f)
  | _ => none

/-- Table 3.12, address and memory: codes 0x20 to 0x2F. -/
def opcodeGroup2 (k : Nat) (f : Fields) : Option Instr :=
  match k with
  | 0 => some (.aadd f) | 1 => some (.aidx f) | 2 => some (.amov f)
  | 3 => some (.aldi f) | 4 => some (.ld f) | 5 => some (.st f)
  | 6 => some (.lda f) | 7 => some (.sta f) | 8 => some (.push f)
  | 9 => some (.pop f) | 10 => some (.prfm f) | 11 => some (.acmp f)
  | _ => none

/-- Table 3.12, control: codes 0x30 to 0x3F. -/
def opcodeGroup3 (k : Nat) (f : Fields) : Option Instr :=
  match k with
  | 0 => some (.pbr f) | 1 => some (.pbra f) | 2 => some (.cmp f)
  | 3 => some (.cmpi f) | 4 => some (.br f) | 5 => some (.brn f)
  | 6 => some (.jmp f) | 7 => some (.call f) | 8 => some (.ret f)
  | 9 => some (.loop f) | 10 => some (.lset f) | 11 => some (.vany f)
  | 12 => some (.vall f) | 13 => some (.gset f) | 14 => some (.nop f)
  | _ => none

/-- Table 3.12, synchronisation: codes 0x40 to 0x4F. -/
def opcodeGroup4 (k : Nat) (f : Fields) : Option Instr :=
  match k with
  | 0 => some (.tset f) | 1 => some (.tpost f) | 2 => some (.twait f)
  | 3 => some (.swinit f) | 4 => some (.swarm f) | 5 => some (.swwait f)
  | 6 => some (.swarrive f) | 7 => some (.publish f) | 8 => some (.acquire f)
  | 9 => some (.fence f) | 10 => some (.atom f) | 11 => some (.garrive f)
  | 12 => some (.gwait f) | 13 => some (.watch f) | 14 => some (.unwatch f)
  | _ => none

/-- Table 3.12, system: codes 0x50 to 0x5F. -/
def opcodeGroup5 (k : Nat) (f : Fields) : Option Instr :=
  match k with
  | 0 => some (.trap f) | 1 => some (.exit f) | 2 => some (.sysrd f)
  | 3 => some (.syswr f) | 4 => some (.split f) | 5 => some (.join f)
  | 6 => some (.lease f) | 7 => some (.lrel f) | 8 => some (.yield f)
  | 9 => some (.qcfg f) | 10 => some (.genf f) | 11 => some (.ftset f)
  | 12 => some (.boundcfg f) | 13 => some (.tick f) | 14 => some (.dbgbrk f)
  | _ => none

/-- Table 3.12, standing rules: codes 0x60 to 0x6F. -/
def opcodeGroup6 (k : Nat) (f : Fields) : Option Instr :=
  match k with
  | 0 => some (.oaxdef f) | 1 => some (.install f) | 2 => some (.revoke f)
  | 3 => some (.slcommit f) | 4 => some (.slwait f) | 5 => some (.rstat f)
  | 6 => some (.rsusp f) | 7 => some (.rresume f)
  | _ => none

/-- Table 3.12, vector floating point: codes 0x70 to 0x7F. -/
def opcodeGroup7 (k : Nat) (f : Fields) : Option Instr :=
  match k with
  | 0 => some (.vadd f) | 1 => some (.vsub f) | 2 => some (.vmul f)
  | 3 => some (.vfma f) | 4 => some (.vmax f) | 5 => some (.vmin f)
  | 6 => some (.vdiv f) | 7 => some (.vsqrt f) | 8 => some (.vexp2 f)
  | 9 => some (.vlog2 f) | 10 => some (.vrcp f) | 11 => some (.vrsq f)
  | 12 => some (.vabs f) | 13 => some (.vneg f) | 14 => some (.vscale f)
  | _ => some (.vcmp f)

/-- Table 3.12, vector integer: codes 0x80 to 0x8F. -/
def opcodeGroup8 (k : Nat) (f : Fields) : Option Instr :=
  match k with
  | 0 => some (.viadd f) | 1 => some (.visub f) | 2 => some (.vimul f)
  | 3 => some (.vand f) | 4 => some (.vor f) | 5 => some (.vxor f)
  | 6 => some (.vshl f) | 7 => some (.vshr f) | 8 => some (.vsel f)
  | 9 => some (.vperm f) | 10 => some (.vbcast f) | 11 => some (.viota f)
  | 12 => some (.vscan f) | 13 => some (.vpopc f) | 14 => some (.vmov f)
  | _ => some (.vicmp f)

/-- Table 3.12, vector memory, reduce and mask: codes 0x90 to 0x9F. -/
def opcodeGroup9 (k : Nat) (f : Fields) : Option Instr :=
  match k with
  | 0 => some (.vld f) | 1 => some (.vst f) | 2 => some (.vlds f)
  | 3 => some (.vgath f) | 4 => some (.vscat f) | 5 => some (.vred f)
  | 6 => some (.vsegred f) | 7 => some (.vmld f) | 8 => some (.mlogic f)
  | 9 => some (.mpopc f) | 10 => some (.vsetl f) | 11 => some (.vtrn f)
  | 12 => some (.aread f) | 13 => some (.awrite f)
  | _ => none

/-- Table 3.12, vector convert and bounds: codes 0xA0 to 0xAF. -/
def opcodeGroupA (k : Nat) (f : Fields) : Option Instr :=
  match k with
  | 0 => some (.vcvt f) | 1 => some (.vqnt f) | 2 => some (.vdqnt f)
  | 3 => some (.brd f) | 4 => some (.bwr f)
  | _ => none

/-- Table 3.12, matrix: codes 0xB0 to 0xBF. -/
def opcodeGroupB (k : Nat) (f : Fields) : Option Instr :=
  match k with
  | 0 => some (.mma f) | 1 => some (.mmas f) | 2 => some (.mmaz f)
  | 3 => some (.aclr f) | 4 => some (.astore f) | 5 => some (.aload f)
  | 6 => some (.abound f)
  | _ => none

/-- Table 3.12, copy: codes 0xC0 to 0xCF. -/
def opcodeGroupC (k : Nat) (f : Fields) : Option Instr :=
  match k with
  | 0 => some (.cpy f) | 1 => some (.cpym f) | 2 => some (.cpyr f)
  | 3 => some (.cpyg f) | 4 => some (.cpys f) | 5 => some (.cpyf f)
  | 6 => some (.nset f) | 7 => some (.nclr f)
  | _ => none

/-- Table 3.12, KV: codes 0xD0 to 0xDF. -/
def opcodeGroupD (k : Nat) (f : Fields) : Option Instr :=
  match k with
  | 0 => some (.kvmap f) | 1 => some (.kvgath f) | 2 => some (.kvapp f)
  | 3 => some (.kvcomp f) | 4 => some (.kvevict f) | 5 => some (.kvrank f)
  | _ => none

/-- Table 3.12, launch: codes 0xE0 to 0xEF. -/
def opcodeGroupE (k : Nat) (f : Fields) : Option Instr :=
  match k with
  | 0 => some (.launch f) | 1 => some (.frread f) | 2 => some (.ptinfo f)
  | _ => none

/-- The instruction of a major opcode (R58); the other 85 codes have none. -/
def ofOpcode (opc : Nat) (f : Fields) : Option Instr :=
  match opc / 16 with
  | 0 => opcodeGroup0 (opc % 16) f
  | 1 => opcodeGroup1 (opc % 16) f
  | 2 => opcodeGroup2 (opc % 16) f
  | 3 => opcodeGroup3 (opc % 16) f
  | 4 => opcodeGroup4 (opc % 16) f
  | 5 => opcodeGroup5 (opc % 16) f
  | 6 => opcodeGroup6 (opc % 16) f
  | 7 => opcodeGroup7 (opc % 16) f
  | 8 => opcodeGroup8 (opc % 16) f
  | 9 => opcodeGroup9 (opc % 16) f
  | 10 => opcodeGroupA (opc % 16) f
  | 11 => opcodeGroupB (opc % 16) f
  | 12 => opcodeGroupC (opc % 16) f
  | 13 => opcodeGroupD (opc % 16) f
  | 14 => opcodeGroupE (opc % 16) f
  | _ => none

/-! ### Decoding -/

/-- The instruction of a B2 word. -/
def decodeShort (w : Nat) : Except DecodeError Instr :=
  match unpackFields (formWidths .b2) w with
  | [_, e, sop, d, s] =>
    match ofShort sop (e = 1) (BitVec.ofNat 5 d) (BitVec.ofNat 4 s) with
    | some i => .ok i
    | none => .error .badShort
  | _ => .error .badShort

/-- The instruction of a B4, B6, B8 or B12 word. -/
def decodeWide (form : Form) (w : Nat) : Except DecodeError Instr :=
  let x := expandWide form w
  match ofOpcode x.1 x.2 with
  | some i => .ok i
  | none => .error (.reservedOpcode x.1 (formLen form) x.2.fin)

/-- The instruction that starts a list of bytes, and its length (R35 to R42). -/
def decode (bytes : List Byte) : Except DecodeError (Instr × Nat) :=
  match bytes with
  | [] => .error .truncated
  | b :: _ =>
    match formOf b with
    | none => .error .reservedPrefix
    | some form =>
      if bytes.length < formLen form then .error .truncated
      else
        let w := Bits.ofBytesBE (bytes.take (formLen form))
        match (if form = .b2 then decodeShort w else decodeWide form w) with
        | .ok i => .ok (i, formLen form)
        | .error e => .error e

/-- The decoder on a word as spec/opcode_table.json numbers its bits: `nbits` bits, the first byte most
significant (R36), and zero bytes after it up to the longest form. -/
def decodeTableWord (nbits w : Nat) : Option Instr :=
  match decode (Bits.toBytesBE (nbits / 8) w ++ List.replicate 12 0) with
  | .ok (i, _) => some i
  | .error _ => none

/-- The opcode and fields of the internal word of an encoded instruction (R39, Tables 3.4 and 3.12); an event has none. -/
def internalOf (i : Instr) : Option (Nat × Fields) :=
  match i with
  | .add f => some (0x00, f)
  | .addB2 fin d e => some (shortWord 1 fin d e)
  | .sub f => some (0x01, f)
  | .subB2 fin d e => some (shortWord 2 fin d e)
  | .mul f => some (0x02, f)
  | .mulh f => some (0x03, f)
  | .and f => some (0x04, f)
  | .andB2 fin d e => some (shortWord 3 fin d e)
  | .or f => some (0x05, f)
  | .orB2 fin d e => some (shortWord 4 fin d e)
  | .xor f => some (0x06, f)
  | .xorB2 fin d e => some (shortWord 5 fin d e)
  | .andn f => some (0x07, f)
  | .shl f => some (0x08, f)
  | .shlB2 fin d e => some (shortWord 6 fin d e)
  | .shr f => some (0x09, f)
  | .shrB2 fin d e => some (shortWord 7 fin d e)
  | .sha f => some (0x0A, f)
  | .rot f => some (0x0B, f)
  | .min f => some (0x0C, f)
  | .minB2 fin d e => some (shortWord 9 fin d e)
  | .max f => some (0x0D, f)
  | .maxB2 fin d e => some (shortWord 10 fin d e)
  | .sadd f => some (0x0E, f)
  | .ssub f => some (0x0F, f)
  | .addi f => some (0x10, f)
  | .addiB2 fin d e => some (shortWord 12 fin d e)
  | .movi f => some (0x11, f)
  | .popc f => some (0x12, f)
  | .popcB2 fin d e => some (shortWord 11 fin d e)
  | .clz f => some (0x13, f)
  | .ctz f => some (0x14, f)
  | .bfx f => some (0x15, f)
  | .bfi f => some (0x16, f)
  | .sel f => some (0x17, f)
  | .mov f => some (0x18, f)
  | .movB2 fin d e => some (shortWord 8 fin d e)
  | .xmov f => some (0x19, f)
  | .div f => some (0x1A, f)
  | .rem f => some (0x1B, f)
  | .rank f => some (0x1C, f)
  | .fcvt f => some (0x1D, f)
  | .fmas f => some (0x1E, f)
  | .aadd f => some (0x20, f)
  | .aaddB2 fin d e => some (shortWord 13 fin d e)
  | .aidx f => some (0x21, f)
  | .amov f => some (0x22, f)
  | .aldi f => some (0x23, f)
  | .ld f => some (0x24, f)
  | .st f => some (0x25, f)
  | .lda f => some (0x26, f)
  | .sta f => some (0x27, f)
  | .push f => some (0x28, f)
  | .pop f => some (0x29, f)
  | .prfm f => some (0x2A, f)
  | .acmp f => some (0x2B, f)
  | .pbr f => some (0x30, f)
  | .pbra f => some (0x31, f)
  | .cmp f => some (0x32, f)
  | .cmpi f => some (0x33, f)
  | .br f => some (0x34, f)
  | .brn f => some (0x35, f)
  | .jmp f => some (0x36, f)
  | .call f => some (0x37, f)
  | .ret f => some (0x38, f)
  | .loop f => some (0x39, f)
  | .lset f => some (0x3A, f)
  | .vany f => some (0x3B, f)
  | .vall f => some (0x3C, f)
  | .gset f => some (0x3D, f)
  | .nop f => some (0x3E, f)
  | .nopB2 fin => some (shortWord 0 fin 0 0)
  | .tset f => some (0x40, f)
  | .tpost f => some (0x41, f)
  | .tpostB2 fin d e => some (shortWord 14 fin d e)
  | .twait f => some (0x42, f)
  | .twaitB2 fin d e => some (shortWord 15 fin d e)
  | .swinit f => some (0x43, f)
  | .swarm f => some (0x44, f)
  | .swwait f => some (0x45, f)
  | .swarrive f => some (0x46, f)
  | .publish f => some (0x47, f)
  | .acquire f => some (0x48, f)
  | .fence f => some (0x49, f)
  | .atom f => some (0x4A, f)
  | .garrive f => some (0x4B, f)
  | .gwait f => some (0x4C, f)
  | .watch f => some (0x4D, f)
  | .unwatch f => some (0x4E, f)
  | .trap f => some (0x50, f)
  | .exit f => some (0x51, f)
  | .sysrd f => some (0x52, f)
  | .syswr f => some (0x53, f)
  | .split f => some (0x54, f)
  | .join f => some (0x55, f)
  | .lease f => some (0x56, f)
  | .lrel f => some (0x57, f)
  | .yield f => some (0x58, f)
  | .qcfg f => some (0x59, f)
  | .genf f => some (0x5A, f)
  | .ftset f => some (0x5B, f)
  | .boundcfg f => some (0x5C, f)
  | .tick f => some (0x5D, f)
  | .dbgbrk f => some (0x5E, f)
  | .oaxdef f => some (0x60, f)
  | .install f => some (0x61, f)
  | .revoke f => some (0x62, f)
  | .slcommit f => some (0x63, f)
  | .slwait f => some (0x64, f)
  | .rstat f => some (0x65, f)
  | .rsusp f => some (0x66, f)
  | .rresume f => some (0x67, f)
  | .vadd f => some (0x70, f)
  | .vsub f => some (0x71, f)
  | .vmul f => some (0x72, f)
  | .vfma f => some (0x73, f)
  | .vmax f => some (0x74, f)
  | .vmin f => some (0x75, f)
  | .vdiv f => some (0x76, f)
  | .vsqrt f => some (0x77, f)
  | .vexp2 f => some (0x78, f)
  | .vlog2 f => some (0x79, f)
  | .vrcp f => some (0x7A, f)
  | .vrsq f => some (0x7B, f)
  | .vabs f => some (0x7C, f)
  | .vneg f => some (0x7D, f)
  | .vscale f => some (0x7E, f)
  | .vcmp f => some (0x7F, f)
  | .viadd f => some (0x80, f)
  | .visub f => some (0x81, f)
  | .vimul f => some (0x82, f)
  | .vand f => some (0x83, f)
  | .vor f => some (0x84, f)
  | .vxor f => some (0x85, f)
  | .vshl f => some (0x86, f)
  | .vshr f => some (0x87, f)
  | .vsel f => some (0x88, f)
  | .vperm f => some (0x89, f)
  | .vbcast f => some (0x8A, f)
  | .viota f => some (0x8B, f)
  | .vscan f => some (0x8C, f)
  | .vpopc f => some (0x8D, f)
  | .vmov f => some (0x8E, f)
  | .vicmp f => some (0x8F, f)
  | .vld f => some (0x90, f)
  | .vst f => some (0x91, f)
  | .vlds f => some (0x92, f)
  | .vgath f => some (0x93, f)
  | .vscat f => some (0x94, f)
  | .vred f => some (0x95, f)
  | .vsegred f => some (0x96, f)
  | .vmld f => some (0x97, f)
  | .mlogic f => some (0x98, f)
  | .mpopc f => some (0x99, f)
  | .vsetl f => some (0x9A, f)
  | .vtrn f => some (0x9B, f)
  | .aread f => some (0x9C, f)
  | .awrite f => some (0x9D, f)
  | .vcvt f => some (0xA0, f)
  | .vqnt f => some (0xA1, f)
  | .vdqnt f => some (0xA2, f)
  | .brd f => some (0xA3, f)
  | .bwr f => some (0xA4, f)
  | .mma f => some (0xB0, f)
  | .mmas f => some (0xB1, f)
  | .mmaz f => some (0xB2, f)
  | .aclr f => some (0xB3, f)
  | .astore f => some (0xB4, f)
  | .aload f => some (0xB5, f)
  | .abound f => some (0xB6, f)
  | .cpy f => some (0xC0, f)
  | .cpym f => some (0xC1, f)
  | .cpyr f => some (0xC2, f)
  | .cpyg f => some (0xC3, f)
  | .cpys f => some (0xC4, f)
  | .cpyf f => some (0xC5, f)
  | .nset f => some (0xC6, f)
  | .nclr f => some (0xC7, f)
  | .kvmap f => some (0xD0, f)
  | .kvgath f => some (0xD1, f)
  | .kvapp f => some (0xD2, f)
  | .kvcomp f => some (0xD3, f)
  | .kvevict f => some (0xD4, f)
  | .kvrank f => some (0xD5, f)
  | .launch f => some (0xE0, f)
  | .frread f => some (0xE1, f)
  | .ptinfo f => some (0xE2, f)
  | .commandStart _ _ _ => none
  | .commandCompletion _ _ => none
  | .copyVisibility _ _ => none
  | .kBlock _ _ => none
  | .copyPiece _ _ => none
  | .arrival _ => none
  | .cpyrContribution _ => none
  | .peerAccess _ _ _ => none
  | .l1Eviction _ _ => none
  | .icacheFill _ _ => none
  | .faultDelivery _ _ => none
  | .statusResume _ _ => none
  | .statusDiscard _ _ => none
  | .leaseGrant _ => none
  | .leaseIdleEnd _ => none
  | .watchMatch _ _ => none
  | .notification _ => none
  | .commitWatch _ _ => none
  | .firing _ _ => none
  | .registeredLaunchPush _ => none
  | .pointDispatch _ => none
  | .pointDone _ _ _ _ => none
  | .launchCompletion _ => none
  | .release _ => none
  | .slipped _ => none
  | .frameTick => none
  | .launchSave _ => none
  | .contextSave _ => none
  | .nopPacket _ => none
  | .launchPacket _ => none
  | .invoke _ => none
  | .fencePacket _ => none
  | .inval _ => none
  | .preempt _ => none
  | .restore _ => none
  | .resume _ => none
  | .slotload _ => none
  | .slotunload _ => none
  | .ringResume _ => none
  | .ringEnable _ _ => none
  | .vfRecordWrite _ _ => none
  | .controlWindowWrite _ _ => none
  | .dawn _ => none
  | .noon _ => none
  | .thermalStep _ _ => none
  | .thermalReset => none
  | .flitRetry _ => none
  | .linkDown _ _ => none
  | .ringTimeout _ _ => none
  | .ringAbort _ _ => none
  | .uncorrectableError _ => none
  | .correctedError _ => none
  | .inboundDmaWrite _ _ _ => none
  | .remoteLinkRequest _ => none
  | .newBootImage _ => none

/-! ### Encoding -/

/-- The form's fields that carry an internal word, without the form's leading bits. -/
def wideFields (form : Form) (opc : Nat) (f : Fields) : List Nat :=
  let e := if f.fin then 1 else 0
  match form with
  | .b2 => []
  | .b4 => [e, opc, f.d.toNat, f.s1.toNat, f.s2.toNat, f.imm.toNat]
  | .b6 => [e, opc, f.fn.toNat, f.d.toNat, f.s1.toNat, f.s2.toNat, f.imm.toNat]
  | .b8 => [e, opc, f.fn.toNat, f.pred.toNat, f.d.toNat, f.s1.toNat, f.s2.toNat, f.imm.toNat]
  | .b12 => [e, opc, f.fn.toNat, f.pred.toNat, f.d.toNat, f.s1.toNat, f.s2.toNat, f.s3.toNat, f.modD.toNat,
             f.modS1.toNat, f.modS2.toNat, f.modS3.toNat, f.imm.toNat]

/-- The word of a form that carries an internal word's fields, each cut to the form's width. -/
def wideWord (form : Form) (opc : Nat) (f : Fields) : Nat :=
  packFields ((formWidths form).zip (formLead form :: wideFields form opc f))

/-- Whether a form's expansion reproduces the internal word (R42). -/
def formFits (form : Form) (opc : Nat) (f : Fields) : Bool :=
  decide (expandWide form (wideWord form opc f) = (opc, f))

/-- The shortest of B4, B6, B8 and B12 whose expansion reproduces the internal word (R42). -/
def shortestForm (opc : Nat) (f : Fields) : Form :=
  if formFits .b4 opc f then .b4
  else if formFits .b6 opc f then .b6
  else if formFits .b8 opc f then .b8
  else .b12

/-- The bytes of an internal word in its shortest wide form. -/
def encodeWide (opc : Nat) (f : Fields) : List Byte :=
  let form := shortestForm opc f
  Bits.toBytesBE (formLen form) (wideWord form opc f)

/-- The two bytes of a row of Table 3.4. -/
def encodeShort (sop : Nat) (fin : Bool) (d : BitVec 5) (e : BitVec 4) : List Byte :=
  Bits.toBytesBE 2 (packFields ((formWidths .b2).zip [0, if fin then 1 else 0, sop, d.toNat, e.toNat]))

/-- The SOP of a B2 instruction with its END, d and e (Table 3.4). -/
def shortOf (i : Instr) : Option (Nat × Bool × BitVec 5 × BitVec 4) :=
  match i with
  | .nopB2 fin => some (0, fin, 0, 0)
  | .addB2 fin d e => some (1, fin, d, e)
  | .subB2 fin d e => some (2, fin, d, e)
  | .andB2 fin d e => some (3, fin, d, e)
  | .orB2 fin d e => some (4, fin, d, e)
  | .xorB2 fin d e => some (5, fin, d, e)
  | .shlB2 fin d e => some (6, fin, d, e)
  | .shrB2 fin d e => some (7, fin, d, e)
  | .movB2 fin d e => some (8, fin, d, e)
  | .minB2 fin d e => some (9, fin, d, e)
  | .maxB2 fin d e => some (10, fin, d, e)
  | .popcB2 fin d e => some (11, fin, d, e)
  | .addiB2 fin d e => some (12, fin, d, e)
  | .aaddB2 fin d e => some (13, fin, d, e)
  | .tpostB2 fin d e => some (14, fin, d, e)
  | .twaitB2 fin d e => some (15, fin, d, e)
  | _ => none

/-- The bytes of an instruction: a B2 row keeps its two bytes, every other encoded instruction takes its
shortest wide form; an event of the device has no encoding. -/
def encode (i : Instr) : List Byte :=
  match shortOf i with
  | some (sop, fin, d, e) => encodeShort sop fin d e
  | none =>
    match internalOf i with
    | some (opc, f) => encodeWide opc f
    | none => []

/-- The B2 instruction with the internal word of an instruction, where a row of Table 3.4 has it as written; else the instruction (R42,
R376). -/
def shorten (i : Instr) : Instr :=
  match internalOf i with
  | none => i
  | some (opc, f) =>
    ((List.range 16).findSome? fun sop => (List.range 16).findSome? fun n =>
      let d : BitVec 5 := f.d.setWidth 5
      let e := BitVec.ofNat 4 n
      if shortWord sop f.fin d e = (opc, f) then ofShort sop f.fin d e else none).getD i

/-- The bytes of the shortest form whose expansion reproduces the internal word, B2 among them, whatever its row says (R42, R376, log entry 127). -/
def assembleShortest (i : Instr) : List Byte :=
  match shortOf (shorten i), internalOf i with
  | none, some (opc, f) => encodeWide opc f
  | _, _ => encode (shorten i)

/-- The narrowest form that iaca gives a command, in bytes, as the rule of its row has it: a vector command B6, or B12 with a predicate or a non-zero
IMM (R188); a product B12, ASTORE and ALOAD B6, or B12 with tokens or B, ABOUND B4, or B12 with either (Table 9.6); a copy B6, or B12 with W, tokens, ENG or
a predicate (R255); KVMAP and KVRANK B6, or B12 with tokens or ENG, the other KV commands B12 (Table 11.9). Any other instruction takes the
shortest (R42, log entry 127). -/
def leastLen (opc : Nat) (f : Fields) : Nat :=
  let wider (plain : Bool) (n : Nat) := if plain then n else 12
  if 0x70 ≤ opc ∧ opc ≤ 0xA4 ∧ opc ≠ 0x9A then wider (f.pred = 0 && f.imm = 0) 6
  else if 0xB0 ≤ opc ∧ opc ≤ 0xB2 ∨ 0xD1 ≤ opc ∧ opc ≤ 0xD4 then 12
  else if opc = 0xB4 ∨ opc = 0xB5 ∨ opc = 0xD0 ∨ opc = 0xD5 then wider (f.imm = 0) 6
  else if opc = 0xB6 then wider (f.imm = 0) 4
  else if 0xC0 ≤ opc ∧ opc ≤ 0xC5 then wider (!f.fn.getLsbD 0 && f.pred = 0 && f.imm = 0) 6
  else 2

/-- The form that iaca gives an internal word: the shortest from its row's narrowest on whose expansion reproduces it. -/
def assembledForm (opc : Nat) (f : Fields) : Form :=
  (([.b4, .b6, .b8] : List Form).find? fun x => leastLen opc f ≤ formLen x && formFits x opc f).getD .b12

/-- The bytes that iaca writes for an instruction: its shortest form, B2 among them, from its row's narrowest on (R42, R188, R376). -/
def assemble (i : Instr) : List Byte :=
  match shortOf (shorten i), internalOf i with
  | none, some (opc, f) => Bits.toBytesBE (formLen (assembledForm opc f)) (wideWord (assembledForm opc f) opc f)
  | _, _ => encode (shorten i)

/-! ### Distances (R376)

A line of a program is an instruction and, where its IMM is the distance to another line (PBR, LSET, ALDI.R), the number of that line. -/

/-- The internal word of a line under a distance. -/
def lineWord (l : Instr × Option Nat) (dist : Int) : Option (Nat × Fields) :=
  (internalOf l.1).map fun w => (w.1, if l.2.isSome then { w.2 with imm := BitVec.ofInt 32 dist } else w.2)

/-- The bytes of a line in its candidate form, with no distance to carry. -/
def candidateLen (l : Instr × Option Nat) : Nat :=
  match l.2, lineWord l 0 with
  | some _, some (opc, f) => formLen (assembledForm opc f)
  | _, _ => (assemble l.1).length

/-- The address of each line from the first, under the lines' lengths. -/
def lineAddr (lens : List Nat) (n : Nat) : Nat := (lens.take n).sum

/-- The distance that line n carries. -/
def lineDist (lens : List Nat) (n : Nat) (l : Instr × Option Nat) : Int := (lineAddr lens (l.2.getD n) : Int) - lineAddr lens n

/-- The length of line n once it has been widened as far as its distance asks; a form only grows. -/
def widenLine (lens : List Nat) (n : Nat) (l : Instr × Option Nat) : Nat :=
  match l.2, lineWord l (lineDist lens n l) with
  | some _, some (opc, f) => max (lens.getD n 0) (formLen (assembledForm opc f))
  | _, _ => lens.getD n 0

/-- Widen until no line widens; every pass but the last widens a line, and none more than three times. -/
def widenLines (lines : List (Instr × Option Nat)) : Nat → List Nat → List Nat
  | 0, lens => lens
  | k + 1, lens =>
    let next := lines.zipIdx.map fun p => widenLine lens p.2 p.1
    if next = lens then lens else widenLines lines k next

/-- The lengths of a program's lines. -/
def lineLens (lines : List (Instr × Option Nat)) : List Nat := widenLines lines (3 * lines.length + 1) (lines.map candidateLen)

/-- The wide form of a length. -/
def formOfLen (n : Nat) : Form := if n = 4 then .b4 else if n = 6 then .b6 else if n = 8 then .b8 else .b12

/-- The bytes that iaca writes for a program: each distance stands in the form that the widening has reached (R376). -/
def assembleLines (lines : List (Instr × Option Nat)) : List (List Byte) :=
  let lens := lineLens lines
  lines.zipIdx.map fun p =>
    match p.1.2, lineWord p.1 (lineDist lens p.2 p.1) with
    | some _, some (opc, f) => Bits.toBytesBE (lens.getD p.2 0) (wideWord (formOfLen (lens.getD p.2 0)) opc f)
    | _, _ => assemble p.1.1

/-- The step is an instruction of Table 3.12, not an event of the device (95_what_each_step_holds.md). -/
def isEncoded (i : Instr) : Bool := (internalOf i).isSome

/-- The short form's d and e keep the limits of Table 3.4, so that a B2 word carries them. -/
def shortLimits (i : Instr) : Bool :=
  match i with
  | .aaddB2 _ d _ => decide (d.toNat ≤ 15)
  | .tpostB2 _ _ e => decide (e = 0)
  | .twaitB2 _ _ e => decide (e = 0)
  | _ => true

end Sys2Proof
end

