-- ==== Sys2Proof/Config.lean ====
section
/-!
DEFINITION. What the manual leaves open, as constants without a body: nothing in Lean can evaluate one or
prove a value of one, so a statement about a free value holds for every value. A free value that the
device may choose afresh each time is applied to the counter `Dev.fresh` (log entry 3).
-/

namespace Sys2Proof.Config

/-- A bit of a queue entry's 32 bytes: the manual gives the size of an entry (R15) and not its layout.
Applied to the fresh counter and the byte's index. -/
opaque queueByte : Nat → Nat → Byte

/-- Scratchpad at a point dispatch outside persistent regions: "hold no defined value" (R74).
A list of (offset, byte) in no particular form. -/
opaque undefScratchpad : Nat → List (Nat × Byte)

/-- Vector registers at a point dispatch (R74): (container index, value) pairs. -/
opaque undefVector : Nat → List (Nat × BitVec 32)

/-- Masks at a point dispatch (R74, R180): (lane index, bit) pairs. -/
opaque undefMask : Nat → List (Nat × Bool)

/-- A byte of a context record's state block, whose inner layout the manual leaves open (Table 15.8). -/
opaque contextByte : Nat → Nat → Byte

/-- A byte of the word of an ATOM that a link has lost: "memory unknown" (R354). -/
opaque atomByte : Nat → Nat → Byte

/-- A byte read from an I/O window of region 0x3 (R352): what a card behind the port answers is its own. -/
opaque ioByte : Nat → Nat → Byte

/-- The link that a package's traffic takes, by package number (R353): the manual gives sixteen links and no topology. -/
opaque packageLink : Nat → Nat

/-- The sign bit that the device writes for a zero term of a pt8 value whose encoding R161 leaves open
(the value ±1 with k0 = 7: "t = 0 for k = 7, whatever s holds"). -/
opaque pt8ZeroSign : Bool → Bool

end Sys2Proof.Config
end

