-- ==== Sys2Proof/Machine/Flags.lean ====
section
/-!
DEFINITION. The sticky floating-point flags of FFLAGS (Table 4.5, R80, R177), and how steps gather them.
-/

namespace Sys2Proof.Machine

/-- NV, DZ, OF, UF, NX as one step raises them. -/
structure Flags where
  nv : Bool := false
  dz : Bool := false
  of : Bool := false
  uf : Bool := false
  nx : Bool := false
  deriving DecidableEq, Repr

namespace Flags

def empty : Flags := {}

/-- The flags of two steps together. -/
def or (a b : Flags) : Flags :=
  { nv := a.nv || b.nv, dz := a.dz || b.dz, of := a.of || b.of, uf := a.uf || b.uf, nx := a.nx || b.nx }

/-- FFLAGS bits: [4] NV, [3] DZ, [2] OF, [1] UF, [0] NX. -/
def toBits (f : Flags) : BitVec 5 :=
  (if f.nv then 16 else 0) ||| (if f.dz then 8 else 0) ||| (if f.of then 4 else 0) |||
    (if f.uf then 2 else 0) ||| (if f.nx then 1 else 0)

/-- The flags of many steps together. -/
def gather (l : List Flags) : Flags := l.foldl or empty

end Flags

end Sys2Proof.Machine
end

