-- ==== Sys2Proof/Machine/Num.lean ====
section
/-!
DEFINITION. Number formats and arithmetic (07_number_formats.md): element formats, the one rounding
function, conversions, pt8, ub16, and the correctly rounded functions. Values are exact rationals until
the single rounding of R165.
-/

namespace Sys2Proof.Machine

/-! ### Types and modes -/

/-- The type of a 4-bit code (Table 3.8). -/
def tyOfCode (c : Nat) : Ty :=
  match c with
  | 0 => .f32 | 1 => .bf16 | 2 => .f16 | 3 => .e4m3 | 4 => .e5m2 | 5 => .pt8 | 6 => .i8 | 7 => .n8
  | 8 => .i16 | 9 => .n16 | 10 => .i32 | 11 => .n32 | 12 => .i4 | 13 => .n4 | 14 => .table | _ => .reserved

/-- Element bits of a type (Table 3.8); `table` and `reserved` have none of their own. -/
def tyWidth : Ty → Nat
  | .f32 | .i32 | .n32 => 32
  | .bf16 | .f16 | .i16 | .n16 => 16
  | .e4m3 | .e5m2 | .pt8 | .i8 | .n8 => 8
  | .i4 | .n4 => 4
  | .table | .reserved => 32

/-- The signed integer types. -/
def tySigned : Ty → Bool
  | .i8 | .i16 | .i32 | .i4 => true
  | _ => false

/-- The integer types, codes 6 to 13. -/
def tyInt : Ty → Bool
  | .i8 | .n8 | .i16 | .n16 | .i32 | .n32 | .i4 | .n4 => true
  | _ => false

/-- The five floating-point formats of Table 7.1. -/
def tyFloat : Ty → Bool
  | .f32 | .bf16 | .f16 | .e4m3 | .e5m2 => true
  | _ => false

/-- FRM.MODE (Table 4.5). -/
def rmodeOfCode (c : Nat) : RMode :=
  match c with
  | 0 => .rne | 1 => .rtz | 2 => .rdn | _ => .rup

/-- A rounding field: 0 uses FRM, 1 to 4 select a mode (R91, R187). -/
def rmodeOfField (c : Nat) (frm : RMode) : RMode := if c = 0 then frm else rmodeOfCode (c - 1)

/-- Exponent bits, mantissa bits and bias of a floating-point format (Table 7.1). -/
structure FloatFmt where
  exp  : Nat
  man  : Nat
  bias : Nat
  deriving DecidableEq, Repr

def fmtOf : Ty → FloatFmt
  | .f16 => ⟨5, 10, 15⟩
  | .bf16 => ⟨8, 7, 127⟩
  | .e4m3 => ⟨4, 3, 7⟩
  | .e5m2 => ⟨5, 2, 15⟩
  | _ => ⟨8, 23, 127⟩

/-! ### Exact values -/

/-- A rational power of two. -/
def pow2 (e : Int) : ℚ := if 0 ≤ e then mkRat ((2 ^ e.toNat : Nat) : Int) 1 else mkRat 1 (2 ^ (-e).toNat)

/-- floor(log2 q) of a positive rational. -/
def ilog2 (q : ℚ) : Int :=
  let e : Int := (Nat.log2 q.num.natAbs : Int) - (Nat.log2 q.den : Int)
  if pow2 e ≤ q then e else e - 1

/-- floor of a rational. -/
def floorQ (q : ℚ) : Int := q.num / (q.den : Int)

/-- The value of an element: a NaN (signalling or quiet), an infinity, or a finite value with its sign
kept apart so that zeros are signed. -/
inductive FVal where
  | nan (signalling : Bool)
  | inf (neg : Bool)
  | fin (neg : Bool) (mag : ℚ)
  deriving DecidableEq, Repr

def fvalZero : FVal := .fin false 0

/-- An exact rational as a value; a zero is +0. -/
def fvalOfRat (q : ℚ) : FVal := if q < 0 then .fin true (-q) else .fin false q

/-- The exact real of a finite value; 0 for the others. -/
def fvalRat : FVal → ℚ
  | .fin neg m => if neg then -m else m
  | _ => 0

def fvalIsNan : FVal → Bool
  | .nan _ => true
  | _ => false

def fvalIsSNan : FVal → Bool
  | .nan s => s
  | _ => false

def fvalFinite : FVal → Bool
  | .fin _ _ => true
  | _ => false

def fvalIsZero : FVal → Bool
  | .fin _ m => m = 0
  | _ => false

def fvalNeg : FVal → Bool
  | .fin n _ => n
  | .inf n => n
  | .nan _ => false

/-- The value of a floating-point element (R157, R158). -/
def floatValue (t : Ty) (x : Nat) : FVal :=
  let f := fmtOf t
  let m := x % 2 ^ f.man
  let e := x / 2 ^ f.man % 2 ^ f.exp
  let neg := Bits.bit x (f.exp + f.man)
  if t = .e4m3 ∧ e = 15 ∧ m = 7 then .nan false
  else if t ≠ .e4m3 ∧ e = 2 ^ f.exp - 1 then
    if m = 0 then .inf neg else .nan (m < 2 ^ (f.man - 1))
  else if e = 0 then .fin neg ((m : ℚ) * pow2 (1 - (f.bias : Int) - (f.man : Int)))
  else .fin neg (((2 ^ f.man + m : Nat) : ℚ) * pow2 ((e : Int) - (f.bias : Int) - (f.man : Int)))

/-- A term of a pt8 byte: (-1)^s × 2^(-k), and 0 for k = 7 (R160). -/
def pt8Term (s : Bool) (k : Nat) : ℚ := if k = 7 then 0 else if s then -pow2 (-(k : Int)) else pow2 (-(k : Int))

/-- The value t1 + t0 of a pt8 byte (R160). -/
def pt8Value (x : Nat) : ℚ :=
  pt8Term (Bits.bit x 7) (Bits.field x 6 4) + pt8Term (Bits.bit x 3) (Bits.field x 2 0)

/-- widen32: the exact value of an element of any type of codes 0 to 13 (Table 0.2, R167). -/
def elemValue (t : Ty) (x : Nat) : FVal :=
  if tyFloat t then floatValue t x
  else if t = .pt8 then fvalOfRat (pt8Value x)
  else if tySigned t then fvalOfRat (Bits.signed (tyWidth t) x : Int)
  else fvalOfRat ((x % 2 ^ tyWidth t : Nat) : ℚ)

/-! ### Rounding -/

/-- The canonical NaN of a format (Table 7.2). -/
def cnan : Ty → Nat
  | .f16 => 0x7E00 | .bf16 => 0x7FC0 | .e4m3 => 0x7F | .e5m2 => 0x7E | _ => 0x7FC00000

/-- MAX of Table 7.1. -/
def maxFinite (t : Ty) : ℚ :=
  match t with
  | .f16 => 65504 | .e4m3 => 448 | .e5m2 => 57344
  | .bf16 => (2 - pow2 (-7)) * pow2 127
  | _ => (2 - pow2 (-23)) * pow2 127

/-- T of Table 7.2: the RNE overflow threshold. -/
def overflowAt (t : Ty) : ℚ :=
  match t with
  | .f16 => 65520 | .e4m3 => 464 | .e5m2 => 61440
  | .bf16 => (2 - pow2 (-8)) * pow2 127
  | _ => (2 - pow2 (-24)) * pow2 127

/-- The exponent of the smallest normal value. -/
def minExp (t : Ty) : Int := 1 - ((fmtOf t).bias : Int)

/-- A non-negative rational rounded to an integer, for a value of sign `neg`; the flag says inexact. -/
def roundNat (mode : RMode) (neg : Bool) (q : ℚ) : Nat × Bool :=
  let f := (floorQ q).toNat
  let r := q - (f : ℚ)
  let up :=
    match mode with
    | .rne => decide (r > mkRat 1 2) || (decide (r = mkRat 1 2) && decide (f % 2 = 1))
    | .rtz => false
    | .rdn => neg && decide (r ≠ 0)
    | .rup => !neg && decide (r ≠ 0)
  (if up then f + 1 else f, decide (r ≠ 0))

/-- A result's bits together with the flags its steps raise. -/
structure Rounded where
  bits  : Nat
  flags : Flags := {}
  deriving DecidableEq, Repr

/-- The pattern of an infinity, or of the largest finite value, with its sign. -/
def beyondBits (t : Ty) (neg sat : Bool) : Nat :=
  let f := fmtOf t
  let s := if neg then 2 ^ (f.exp + f.man) else 0
  if t = .e4m3 then s + 0x7E
  else if sat then s + (2 ^ f.exp - 1) * 2 ^ f.man - 1
  else s + (2 ^ f.exp - 1) * 2 ^ f.man

/-- round(x, fmt, mode) of R165, for the five floating-point formats. A signalling NaN sets NV (R158). -/
def roundFloat (t : Ty) (mode : RMode) (x : FVal) : Rounded :=
  let f := fmtOf t
  match x with
  | .nan s => { bits := cnan t, flags := { nv := s } }
  | .inf neg =>
    if t = .e4m3 then { bits := beyondBits t neg true, flags := { of := true, nx := true } }
    else { bits := beyondBits t neg false }
  | .fin neg mag =>
    let s := if neg then 2 ^ (f.exp + f.man) else 0
    if mag = 0 then { bits := s }
    else
      let e := max (ilog2 mag) (minExp t) - (f.man : Int)
      let (n, inexact) := roundNat mode neg (mag / pow2 e)
      if (mode = .rne ∧ mag ≥ overflowAt t) ∨ (n : ℚ) * pow2 e > maxFinite t then
        let sat := decide (mode = .rtz) || (decide (mode = .rdn) && !neg) || (decide (mode = .rup) && neg)
        { bits := beyondBits t neg sat, flags := { of := true, nx := true } }
      else
        let biased := (e + (f.man : Int) + (f.bias : Int)).toNat
        { bits := s + biased * 2 ^ f.man + n - 2 ^ f.man
          flags := { nx := inexact, uf := inexact && decide (mag < pow2 (minExp t)) } }

/-! ### pt8 (R160, R161) -/

/-- The magnitudes and signs of pt8 values, one encoding each, in the device's order of preference. -/
def pt8Codes : List (Nat × Nat × Bool × Bool) :=
  (List.range 8).flatMap fun k1 => (List.range 8).flatMap fun k0 =>
    [false, true].flatMap fun s1 => [false, true].map fun s0 => (k1, k0, s1, s0)

/-- The byte the device writes for a pt8 value (R161): 0 as 0x77, otherwise the smallest k1, then the
smallest k0, then s1 = 0; a zero term's sign is left open and is free. -/
def pt8Encode (v : ℚ) : Nat :=
  if v = 0 then 0x77
  else
    match pt8Codes.find? fun (k1, k0, s1, s0) => pt8Term s1 k1 + pt8Term s0 k0 = v with
    | some (k1, k0, s1, s0) =>
      let z := if k0 = 7 then Config.pt8ZeroSign (decide (v < 0)) else s0
      (if s1 then 128 else 0) + 16 * k1 + (if z then 8 else 0) + k0
    | none => 0x77

/-- The set V of pt8 values. -/
def pt8Values : List ℚ := pt8Codes.map fun (k1, k0, s1, s0) => pt8Term s1 k1 + pt8Term s0 k0

/-- The greatest value of V not above q. -/
def pt8Below (q : ℚ) : ℚ := pt8Values.foldl (fun b v => if v ≤ q ∧ b < v then v else b) (-2)

/-- The least value of V not below q. -/
def pt8Above (q : ℚ) : ℚ := pt8Values.foldl (fun b v => if q ≤ v ∧ v < b then v else b) 2

/-- round(x, pt8, mode) of R161. -/
def roundPt8 (mode : RMode) (x : FVal) : Rounded :=
  match x with
  | .nan _ => { bits := 0x77, flags := { nv := true } }
  | .inf neg => { bits := pt8Encode (if neg then -2 else 2), flags := { of := true, nx := true } }
  | .fin neg mag =>
    if mag > 2 then { bits := pt8Encode (if neg then -2 else 2), flags := { of := true, nx := true } }
    else
      let q := if neg then -mag else mag
      let lo := pt8Below q
      let hi := pt8Above q
      let y :=
        if lo = q then q
        else
          match mode with
          | .rdn => lo
          | .rup => hi
          | .rtz => if neg then hi else lo
          | .rne =>
            if q - lo < hi - q then lo
            else if hi - q < q - lo then hi
            else if neg then hi else lo
      { bits := pt8Encode y, flags := { nx := decide (y ≠ q) } }

/-! ### Conversion -/

/-- Minimum and maximum of an integer type (Table 7.3). -/
def intMin (t : Ty) : Int := if tySigned t then -((2 ^ (tyWidth t - 1) : Nat) : Int) else 0
def intMax (t : Ty) : Int :=
  if tySigned t then ((2 ^ (tyWidth t - 1) : Nat) : Int) - 1 else ((2 ^ tyWidth t : Nat) : Int) - 1

/-- An exact rational rounded to an integer under a mode. -/
def roundInt (mode : RMode) (q : ℚ) : Int :=
  if q < 0 then -((roundNat mode true (-q)).1 : Int) else ((roundNat mode false q).1 : Int)

/-- Conversion of an exact value to an integer type (R91). -/
def roundToInt (t : Ty) (mode : RMode) (x : FVal) : Rounded :=
  match x with
  | .nan _ => { bits := 0, flags := { nv := true } }
  | .inf neg => { bits := Bits.wrap (tyWidth t) (if neg then intMin t else intMax t), flags := { nv := true } }
  | .fin _ _ =>
    let v := fvalRat x
    let q := roundInt mode v
    let y := max (intMin t) (min (intMax t) q)
    { bits := Bits.wrap (tyWidth t) y
      flags := { nv := decide (y ≠ q), nx := decide ((q : ℚ) ≠ v) } }

/-- round(v, destination, mode) for every destination type of codes 0 to 13 (R161, R165, R167, R91). -/
def convert (t : Ty) (mode : RMode) (x : FVal) : Rounded :=
  if tyFloat t then roundFloat t mode x
  else if t = .pt8 then roundPt8 mode x
  else roundToInt t mode x

/-! ### Arithmetic: exact results with their invalid-operation flags (R158, R166, R190) -/

/-- An exact result before its rounding. -/
structure Exact where
  val   : FVal
  flags : Flags := {}
  deriving DecidableEq, Repr

def anySNan (l : List FVal) : Bool := l.any fvalIsSNan

/-- x + y; an exact zero takes the sign that R166 gives. -/
def addExact (mode : RMode) (x y : FVal) : Exact :=
  match x, y with
  | .nan s, v => { val := .nan false, flags := { nv := s || fvalIsSNan v } }
  | v, .nan s => { val := .nan false, flags := { nv := s || fvalIsSNan v } }
  | .inf a, .inf b => if a = b then { val := .inf a } else { val := .nan false, flags := { nv := true } }
  | .inf a, .fin _ _ => { val := .inf a }
  | .fin _ _, .inf b => { val := .inf b }
  | .fin a p, .fin b q =>
    let s := fvalRat (.fin a p) + fvalRat (.fin b q)
    if s = 0 then
      if p = 0 ∧ q = 0 ∧ a = b then { val := .fin a 0 } else { val := .fin (decide (mode = .rdn)) 0 }
    else { val := fvalOfRat s }

/-- -x, with NaNs kept. -/
def negVal : FVal → FVal
  | .nan s => .nan s
  | .inf n => .inf (!n)
  | .fin n m => .fin (!n) m

/-- |x|, with NaNs kept. -/
def absVal : FVal → FVal
  | .nan s => .nan s
  | .inf _ => .inf false
  | .fin _ m => .fin false m

/-- x × y. -/
def mulExact (x y : FVal) : Exact :=
  match x, y with
  | .nan s, v => { val := .nan false, flags := { nv := s || fvalIsSNan v } }
  | v, .nan s => { val := .nan false, flags := { nv := s || fvalIsSNan v } }
  | .inf a, .inf b => { val := .inf (a != b) }
  | .inf a, .fin b q => if q = 0 then { val := .nan false, flags := { nv := true } } else { val := .inf (a != b) }
  | .fin a p, .inf b => if p = 0 then { val := .nan false, flags := { nv := true } } else { val := .inf (a != b) }
  | .fin a p, .fin b q => { val := .fin (a != b) (p * q) }

/-- x × y + d, exact. "0 × inf + d in VFMA" is invalid whatever d is (R190). -/
def fmaExact (mode : RMode) (x y d : FVal) : Exact :=
  let p := mulExact x y
  let r := addExact mode p.val d
  { val := r.val, flags := p.flags.or r.flags }

/-- x / y (R174, Table 7.7). -/
def divExact (x y : FVal) : Exact :=
  match x, y with
  | .nan s, v => { val := .nan false, flags := { nv := s || fvalIsSNan v } }
  | v, .nan s => { val := .nan false, flags := { nv := s || fvalIsSNan v } }
  | .inf _, .inf _ => { val := .nan false, flags := { nv := true } }
  | .inf a, .fin b _ => { val := .inf (a != b) }
  | .fin a _, .inf b => { val := .fin (a != b) 0 }
  | .fin a p, .fin b q =>
    if q = 0 then
      if p = 0 then { val := .nan false, flags := { nv := true } }
      else { val := .inf (a != b), flags := { dz := true } }
    else { val := .fin (a != b) (p / q) }

/-- max (R173). -/
def maxVal (x y : FVal) : Exact :=
  match x, y with
  | .nan s, v => { val := .nan false, flags := { nv := s || fvalIsSNan v } }
  | v, .nan s => { val := .nan false, flags := { nv := s || fvalIsSNan v } }
  | .inf a, v => { val := if a then v else .inf a }
  | v, .inf b => { val := if b then v else .inf b }
  | .fin a p, .fin b q =>
    if p = 0 ∧ q = 0 then { val := .fin (a && b) 0 }
    else if fvalRat (.fin a p) ≥ fvalRat (.fin b q) then { val := .fin a p } else { val := .fin b q }

/-- min (R173). -/
def minVal (x y : FVal) : Exact :=
  let r := maxVal (negVal x) (negVal y)
  { val := negVal r.val, flags := r.flags }

/-! ### Integer square root and the correctly rounded functions (R174) -/

/-- Newton steps of the integer square root from an upper estimate. -/
def isqrtLoop (n : Nat) : Nat → Nat → Nat
  | 0, x => x
  | k + 1, x =>
    let y := (x + n / x) / 2
    if y < x then isqrtLoop n k y else x

/-- floor of the square root. -/
def isqrt (n : Nat) : Nat := if n = 0 then 0 else isqrtLoop n 600 (2 ^ (Nat.log2 n / 2 + 1))

/-- Binary places kept by the enclosures below. -/
def enclosureBits : Nat := 256

/-- The square root of a positive rational: exact when it is a multiple of 2^-200, otherwise a value
strictly between the two neighbours at that spacing that enclose the root. -/
def sqrtQ (q : ℚ) : ℚ :=
  let t := q * pow2 400
  let n := (floorQ t).toNat
  let s := isqrt n
  if s * s = n ∧ (n : ℚ) = t then (s : ℚ) * pow2 (-200) else ((2 * s + 1 : Nat) : ℚ) * pow2 (-201)

/-- The product of the factors 2^(2^-i) for the one bits of a fraction (bit P - i has weight 2^-i). -/
def exp2Loop (frac : Nat) : Nat → Nat → Nat → Nat
  | 0, _, r => r
  | i + 1, c, r =>
    let c' := isqrt (c * 2 ^ enclosureBits)
    exp2Loop frac i c' (if Bits.bit frac i then r * c' / 2 ^ enclosureBits else r)

/-- 2^f for 0 < f < 1 with a fraction of at most 256 bits: the middle of an enclosure of width 2^-246. -/
def exp2Frac (f : ℚ) : ℚ :=
  let frac := (floorQ (f * pow2 enclosureBits)).toNat
  let r := exp2Loop frac enclosureBits (2 ^ (enclosureBits + 1)) (2 ^ enclosureBits)
  ((r + 512 : Nat) : ℚ) * pow2 (-(enclosureBits : Int))

/-- 2^x: exact for an integer x, otherwise a value in the enclosure of the exact one. Outside the range
of every format, a value beyond that range stands for it. -/
def exp2Q (x : ℚ) : ℚ :=
  if x ≥ 1024 then pow2 1024 else if x ≤ -1100 then pow2 (-1100)
  else
    let n := floorQ x
    let f := x - (n : ℚ)
    if f = 0 then pow2 n else exp2Frac f * pow2 n

/-- Bits of log2 m by repeated squaring of m in [1, 2), held with 512 binary places. -/
def log2Loop : Nat → Nat → Nat → Nat
  | 0, _, acc => acc
  | i + 1, z, acc =>
    let y := z * z / 2 ^ 512
    if 2 ^ 513 ≤ y then log2Loop i (y / 2) (2 * acc + 1) else log2Loop i y (2 * acc)

/-- log2 of a positive rational: exact for a power of two, otherwise the middle of an enclosure of width 2^-200. -/
def log2Q (q : ℚ) : ℚ :=
  let e := ilog2 q
  let m := q / pow2 e
  if m = 1 then (e : ℚ)
  else
    let l := log2Loop 200 (floorQ (m * pow2 512)).toNat 0
    (e : ℚ) + ((2 * l + 1 : Nat) : ℚ) * pow2 (-201)

/-- VSQRT (Table 7.7). -/
def sqrtExact (x : FVal) : Exact :=
  match x with
  | .nan s => { val := .nan false, flags := { nv := s } }
  | .inf neg => if neg then { val := .nan false, flags := { nv := true } } else { val := .inf false }
  | .fin neg m =>
    if m = 0 then { val := .fin neg 0 }
    else if neg then { val := .nan false, flags := { nv := true } }
    else { val := .fin false (sqrtQ m) }

/-- VRCP (Table 7.7). -/
def rcpExact (x : FVal) : Exact :=
  match x with
  | .nan s => { val := .nan false, flags := { nv := s } }
  | .inf neg => { val := .fin neg 0 }
  | .fin neg m => if m = 0 then { val := .inf neg, flags := { dz := true } } else { val := .fin neg (1 / m) }

/-- VRSQ (Table 7.7). -/
def rsqExact (x : FVal) : Exact :=
  match x with
  | .nan s => { val := .nan false, flags := { nv := s } }
  | .inf neg => if neg then { val := .nan false, flags := { nv := true } } else { val := .fin false 0 }
  | .fin neg m =>
    if m = 0 then { val := .inf neg, flags := { dz := true } }
    else if neg then { val := .nan false, flags := { nv := true } }
    else { val := .fin false (sqrtQ (1 / m)) }

/-- VEXP2 (Table 7.7). -/
def exp2Exact (x : FVal) : Exact :=
  match x with
  | .nan s => { val := .nan false, flags := { nv := s } }
  | .inf neg => if neg then { val := .fin false 0 } else { val := .inf false }
  | .fin _ _ => { val := .fin false (exp2Q (fvalRat x)) }

/-- VLOG2 (Table 7.7). -/
def log2Exact (x : FVal) : Exact :=
  match x with
  | .nan s => { val := .nan false, flags := { nv := s } }
  | .inf neg => if neg then { val := .nan false, flags := { nv := true } } else { val := .inf false }
  | .fin neg m =>
    if m = 0 then { val := .inf true, flags := { dz := true } }
    else if neg then { val := .nan false, flags := { nv := true } }
    else { val := fvalOfRat (log2Q m) }

/-- One rounding of an exact result, with both sets of flags. -/
def finish (t : Ty) (mode : RMode) (e : Exact) : Rounded :=
  let r := roundFloat t mode e.val
  { bits := r.bits, flags := e.flags.or r.flags }

/-! ### ub16 (R163, R164) -/

/-- A bound: a non-negative rational or +inf. -/
inductive Bound where
  | fin (q : ℚ)
  | inf
  deriving DecidableEq, Repr

/-- The value of a ub16 pattern (R163). -/
def ub16Value (x : BitVec 16) : Bound :=
  let e := x.toNat / 256
  let m := x.toNat % 256
  if e = 255 then .inf
  else if e = 0 then .fin ((m : ℚ) * pow2 (-134))
  else .fin (((256 + m : Nat) : ℚ) * pow2 ((e : Int) - 135))

/-- ub16_up of R164. -/
def ub16Up (x : Bound) : BitVec 16 :=
  match x with
  | .inf => 0xFF00
  | .fin q =>
    if q ≤ 0 then 0
    else if q > pow2 127 * mkRat 511 256 then 0xFF00
    else
      let e := max (ilog2 q) (-126) - 8
      let n := (roundNat .rup false (q / pow2 e)).1
      BitVec.ofNat 16 (((e + 135).toNat) * 256 + n - 256)

/-- Sum of bounds; +inf absorbs. -/
def boundAdd : Bound → Bound → Bound
  | .fin a, .fin b => .fin (a + b)
  | _, _ => .inf

/-- Product of bounds; "a product with a factor of +inf is +inf, even when the other factor is 0" (R234). -/
def boundMul : Bound → Bound → Bound
  | .fin a, .fin b => .fin (a * b)
  | _, _ => .inf

/-- A bound as the device writes it: +inf is 0xFF00, whatever M an entry held (R163). -/
def ub16Write (x : BitVec 16) : BitVec 16 := if 0xFF00 ≤ x.toNat then 0xFF00 else x

/-- The larger of two bounds, as patterns: their order is that of the values. -/
def ub16Max (a b : BitVec 16) : BitVec 16 := if b.toNat ≤ a.toNat then a else b

/-- ex(y) of R232: floor(log2 |y|) of a normal f32 value, -126 for a subnormal or zero. -/
def exponentOf (y : FVal) : Int :=
  match y with
  | .fin _ m => if m < pow2 (-126) then -126 else ilog2 m
  | _ => 127

/-! ### Reductions (R172) -/

/-- One level of the balanced tree: node 2i with node 2i + 1. -/
def pairUp {α : Type} (f : α → α → α) : List α → List α
  | a :: b :: r => f a b :: pairUp f r
  | l => l

/-- The balanced tree over a list whose length is a power of two; `k` bounds the levels. -/
def treeFold {α : Type} (f : α → α → α) (d : α) : Nat → List α → α
  | 0, l => l.headD d
  | k + 1, l => if l.length ≤ 1 then l.headD d else treeFold f d k (pairUp f l)

/-- The least power of two at or above n, and 1 for n = 0. -/
def powTwoAbove (n : Nat) : Nat := if n ≤ 1 then 1 else 2 ^ (Nat.log2 (n - 1) + 1)

/-- Reduce lanes by the fixed balanced tree, padding with the identity (R172). -/
def reduceTree {α : Type} (f : α → α → α) (ident : α) (lanes : List α) : α :=
  treeFold f ident 32 (lanes ++ List.replicate (powTwoAbove lanes.length - lanes.length) ident)

end Sys2Proof.Machine
end

