-- ==== Sys2Proof/Machine/Sparse.lean ====
section
/-!
DEFINITION. Sparse maps as plain data: a list of (key, value) pairs in rising key order. Memory, scratchpad,
register files, and every table of the device are held this way; `get` reads the first entry of a key,
and the writers below keep the form `Sparse.wf` (keys strictly rising, no entry equal to the value an
unlisted key reads as).
-/

namespace Sys2Proof.Sparse

variable {α : Type}

/-- The value of key `k`, if it is listed. -/
def find? (m : List (Nat × α)) (k : Nat) : Option α :=
  match m with
  | [] => none
  | (j, v) :: r => if j = k then some v else find? r k

/-- The value of key `k`; an unlisted key reads as `d`. -/
def get (m : List (Nat × α)) (d : α) (k : Nat) : α := (find? m k).getD d

/-- Drop key `k`. -/
def erase (m : List (Nat × α)) (k : Nat) : List (Nat × α) := m.filter fun p => p.1 ≠ k

/-- Place an entry before the first larger key. -/
def place (m : List (Nat × α)) (k : Nat) (v : α) : List (Nat × α) :=
  match m with
  | [] => [(k, v)]
  | p :: r => if k < p.1 then (k, v) :: p :: r else p :: place r k v

/-- Store `v` under key `k`, whatever `v` is (tables of records). -/
def insert (m : List (Nat × α)) (k : Nat) (v : α) : List (Nat × α) := place (erase m k) k v

/-- Store `v` under key `k`; storing what an unlisted key reads as removes the entry (bytes and words). -/
def set [DecidableEq α] (m : List (Nat × α)) (d : α) (k : Nat) (v : α) : List (Nat × α) :=
  if v = d then erase m k else insert m k v

/-- The entries that list the values `vs` from key `lo` on, leaving out those equal to `d`. -/
def entries [DecidableEq α] (d : α) (lo : Nat) : List α → List (Nat × α)
  | [] => []
  | v :: r => if v = d then entries d (lo + 1) r else (lo, v) :: entries d (lo + 1) r

/-- Overwrite the keys `lo` to `lo + vs.length - 1`. -/
def setRange [DecidableEq α] (m : List (Nat × α)) (d : α) (lo : Nat) (vs : List α) : List (Nat × α) :=
  m.filter (fun p => p.1 < lo) ++ entries d lo vs ++ m.filter (fun p => lo + vs.length ≤ p.1)

/-- Remove every entry of the keys `lo` to `lo + n - 1`. -/
def clearRange (m : List (Nat × α)) (lo n : Nat) : List (Nat × α) :=
  m.filter fun p => p.1 < lo ∨ lo + n ≤ p.1

/-- The entries of the keys `lo` to `lo + n - 1`, with their keys counted from `lo`. -/
def slice (m : List (Nat × α)) (lo n : Nat) : List (Nat × α) :=
  (m.filter fun p => lo ≤ p.1 ∧ p.1 < lo + n).map fun p => (p.1 - lo, p.2)

/-- The values of the keys `lo` to `lo + n - 1`. -/
def getRange (m : List (Nat × α)) (d : α) (lo n : Nat) : List α :=
  let s := slice m lo n
  (List.range n).map fun i => get s d i

/-- The values of n keys of a sorted slice from `i` on, in one pass. -/
def denseFrom (d : α) : Nat → Nat → List (Nat × α) → List α
  | 0, _, _ => []
  | n + 1, i, [] => d :: denseFrom d n (i + 1) []
  | n + 1, i, (j, v) :: r => if j = i then v :: denseFrom d n (i + 1) r else d :: denseFrom d n (i + 1) ((j, v) :: r)

/-- The canonical form: keys strictly rising. -/
def sorted (m : List (Nat × α)) : Bool :=
  match m with
  | [] => true
  | [_] => true
  | p :: q :: r => decide (p.1 < q.1) && sorted (q :: r)

/-- The values of the keys `lo` to `lo + n - 1`, as `getRange` gives them: of a sorted map in one pass. -/
def dense (m : List (Nat × α)) (d : α) (lo n : Nat) : List α :=
  let s := slice m lo n
  if sorted s then denseFrom d n 0 s else (List.range n).map fun i => get s d i

/-- A list of entries in any order, as a map: a later entry of one key wins. -/
def ofList [DecidableEq α] (d : α) (l : List (Nat × α)) : List (Nat × α) :=
  l.foldl (fun m p => set m d p.1 p.2) []

/-- Apply a function to the value of one key. -/
def modify (m : List (Nat × α)) (d : α) (k : Nat) (f : α → α) : List (Nat × α) :=
  insert m k (f (get m d k))

/-- The canonical form of a map whose unlisted keys read as `d`. -/
def wf [DecidableEq α] (d : α) (m : List (Nat × α)) : Bool :=
  sorted m && m.all fun p => decide (p.2 ≠ d)

end Sys2Proof.Sparse
end

