-- ==== Sys2Proof/Machine/State.lean ====
section
/-!
DEFINITION. The state of the device as plain data (INVENTORY.md, State). Sparse maps (Machine/Sparse.lean)
hold memory, register files and tables; an unlisted key reads as the value its accessor names.
-/

namespace Sys2Proof.Machine

/-! ### Causes and engine operations -/

/-- The fault causes of Table 4.7. -/
inductive Cause where
  | illegalEncoding | illegalInstruction | fetchFault | fetchEcc | stackFault | align | translation
  | permission | scope | tokenCeiling | address | queueCfg | lease | boundTrap | formatTable | poison
  | kvRange | ruleFault | splitJoin | divide | trap | watchFull | syncWord | frontier | residency
  deriving DecidableEq, Repr

/-- The vector commands of Table 8.3. -/
inductive VecOp where
  | vadd | vsub | vmul | vfma | vmax | vmin | vdiv | vsqrt | vexp2 | vlog2 | vrcp | vrsq | vabs | vneg | vscale | vcmp
  | viadd | visub | vimul | vand | vor | vxor | vshl | vshr | vsel | vperm | vbcast | viota | vscan | vpopc | vmov | vicmp
  | vld | vst | vlds | vgath | vscat | vred | vsegred | vmld | mlogic | mpopc | vtrn | aread | awrite
  | vcvt | vqnt | vdqnt | brd | bwr
  deriving DecidableEq, Repr

/-- The matrix commands of Table 9.6. -/
inductive MatOp where
  | mma | mmas | mmaz | aclr | astore | aload | abound
  deriving DecidableEq, Repr

/-- The copy and KV commands of Tables 11.2 and 11.9. -/
inductive CpyOp where
  | cpy | cpym | cpyr | cpyg | cpys | cpyf | kvmap | kvgath | kvapp | kvcomp | kvevict | kvrank
  deriving DecidableEq, Repr

/-- An engine command (Table 3.9). -/
inductive EngineOp where
  | vec (o : VecOp)
  | mat (o : MatOp)
  | cpy (o : CpyOp)
  deriving DecidableEq, Repr

/-! ### Streams -/

/-- One level of the copy nest (R250). -/
structure NestLevel where
  count : BitVec 32 := 1
  ss    : Word := 0
  ds    : Word := 0
  deriving DecidableEq, Repr

/-- A loop counter with the start and stage count that LSET gave it (R105). -/
structure LoopCounter where
  count  : BitVec 32 := 0
  start  : Option Word := none
  stages : Nat := 1
  deriving DecidableEq, Repr

/-- An engine command as it stands in a queue: what R182, R251, R52, R25 and R72 capture at enqueue, and
the ranges the range checker recorded for it (R19), as inclusive byte intervals of local scratchpad. `ftval` is the
format table entry as it stood at enqueue, which FTSET's ordering lets the command read (R52). `firing` names the rule and the slice of a
firing, `rseq` the install sequence number of that rule (R293). -/
structure Cmd where
  op     : EngineOp
  f      : Fields
  regD   : Word := 0
  regS1  : Word := 0
  regS2  : Word := 0
  regS3  : Word := 0
  vl     : Nat := 0
  vcnt   : Nat := 0
  frm    : RMode := .rne
  gen    : BitVec 32 := 0
  nest   : List NestLevel := []
  entry  : Nat := 0
  ftval  : BitVec 32 := 0
  index  : BitVec 32 := 0
  age    : Nat := 0
  stream : Nat := 0
  split  : Bool := false
  firing : Option (Nat × Nat) := none
  rseq   : Nat := 0
  reads  : List (Nat × Nat) := []
  writes : List (Nat × Nat) := []
  deriving DecidableEq, Repr

/-- An entry of an engine queue: a command, or a generation fence (R25). -/
inductive QEntry where
  | cmd (c : Cmd)
  | fence (age : Nat) (gen : BitVec 32)
  deriving DecidableEq, Repr

/-- The record of a fault inside an engine (R76): cause, step, internal status word, failing address. -/
structure FaultRec where
  cause : Cause
  step  : Nat := 0
  isw   : BitVec 16 := 0
  eaddr : Word := 0
  deriving DecidableEq, Repr

/-- Where a REISSUE product stands (R245). -/
inductive RunPhase where
  | plain | first | rerun
  deriving DecidableEq, Repr

/-- A piece of a copy on its way to its checked destination: the runs of bytes for their physical addresses, or the scratchpads and the
offset, with the bytes, that it is written to (R257, R258). -/
structure PieceOut where
  homes : List (Nat × List Byte) := []
  cores : List Nat := []
  off   : Nat := 0
  bytes : List Byte := []
  deriving DecidableEq, Repr

/-- A block entry as a gather has read it, with the sequence's LENGTH: they govern every position of the block (R277). -/
structure KvKept where
  page   : Nat
  s      : Nat
  length : Nat
  deriving DecidableEq, Repr

/-- A command that an engine has started: its progress, resolved types, gathered flags and, when it has
stopped at a fault, that fault. `typed` says that its types are resolved (R52, R176) and `picked` that the engine has picked it up
whole. `index` is u(i0) of the iteration that an indexed copy has begun (R266), `block` the entry of the block that a gather has begun (R277). `held` marks a held firing (R307). `done` is set when a copy has completed and its visibility is still to come. `buf` holds the
pieces already read and not yet written (R258), `kept` the source elements of a group of VCVT that a fault has divided (R202). `sig` is the signature of the global sectors it has written (R136). -/
structure Run where
  cmd     : Cmd
  tyA     : Ty := .f32
  tyB     : Ty := .f32
  tyD     : Ty := .f32
  step    : Nat := 0
  piece   : Nat := 0
  flags   : Flags := {}
  stopped : Option FaultRec := none
  held    : Bool := false
  resumed : Bool := false
  done    : Bool := false
  picked  : Bool := false
  sig     : BitVec 512 := 0
  phase   : RunPhase := .plain
  buf     : List PieceOut := []
  typed   : Bool := false
  kept    : List Nat := []
  index   : Option Nat := none
  block   : Option KvKept := none
  deriving DecidableEq, Repr

/-- The binding of a queue (Table 1.4). -/
structure QBinding where
  base  : Nat
  depth : Nat
  deriving DecidableEq, Repr

/-- An engine queue: its binding, the ring slot of the next entry, the entries not yet started, and the ages of the faulted
commands that hold it stopped (R15, R17, R76). -/
structure Queue where
  bound   : Option QBinding := none
  tail    : Nat := 0
  entries : List QEntry := []
  stopped : List Nat := []
  deriving DecidableEq, Repr

/-- A bundle of a transfer group as it was decoded with the transfer (R103): its address, the address after it, and its
instructions by slot and address. -/
structure GroupBundle where
  pc    : Word
  next  : Word
  slots : List (Nat × Word × Instr)
  deriving DecidableEq, Repr

/-- A transfer whose delay slots are still to issue (R102): bundles left, the transfer's address, the target if it is taken, and
the delay slots' bundles still to issue, as they were decoded with the transfer (R103). -/
structure Delay where
  left   : Nat
  at_    : Word
  target : Option Word
  group  : List GroupBundle := []
  deriving DecidableEq, Repr

/-- An engine fault waiting for an issue boundary (R76, R77, R308). -/
structure PendingFault where
  age    : Nat
  cause  : Cause
  ecmd   : Word := 0
  eeng   : Word := 0
  estat  : Word := 0
  eaddr  : Word := 0
  nodel  : Bool := false
  link   : Option Nat := none
  deriving DecidableEq, Repr

/-- The point a stream runs (R9, R315, R323): launch number and admission serial, index, gang rank, lowest
core of the gang, gang size, and the tick of its dispatch. -/
structure Point where
  launch : Nat
  serial : Nat
  o      : Nat
  m      : Nat
  n      : Nat
  rank   : Nat
  base   : Nat
  size   : Nat
  tick   : Word
  deriving DecidableEq, Repr

/-- What a stream is doing: nothing, issuing, parked in JOIN with its target (R68), parked after EXIT (R111). -/
inductive RunState where
  | idle
  | running
  | parked (target : Word)
  | exited
  deriving DecidableEq, Repr

/-- The per-stream system registers of Tables 4.4 and 4.5. -/
structure SysRegs where
  inh       : Bool := false
  fpend     : Bool := false
  ppend     : Bool := false
  cause     : BitVec 9 := 0
  epc       : Word := 0
  ecmd      : Word := 0
  eeng      : Word := 0
  estat     : Word := 0
  eaddr     : Word := 0
  frm       : RMode := .rne
  fflags    : BitVec 5 := 0
  vl        : BitVec 32 := 0
  vcnt      : BitVec 32 := 0xFFFFFFFF
  leaseLen  : BitVec 7 := 16
  gen       : BitVec 32 := 0
  stkBase   : BitVec 22 := 0
  stkLimit  : BitVec 22 := 0
  trapVec   : Word := 0
  deleg     : BitVec 26 := 0
  deriving DecidableEq, Repr

/-- A sequencer instruction stream (R61, R62). `ret` is a return from the handler that SYSWR of STATUS has asked for, with
DISCARD (R79); `link` and `slink` name the faulted command, by age, that the handler or system software will resume or
discard; `waitAxis` lists the local axes, each with its N, whose firings the SLCOMMITs of the last bundle wait for (R299); `wait` is the
age that the TWAITs of its stalled bundle have taken, with the bundle's slots (R24, log entry 125); `leaseReq` is what a LEASE asks for, 0 for LEASE_LEN at the grant (R114);
`halted` is set once the stream has stopped issuing for a pre-emption (R115, R331); `stood` is set at an EXIT that left live rules of
the stream standing (R31); `resumes` are the RESUME packets, by ring and
index, that complete once the point issues again (R367). -/
structure Stream where
  run       : RunState := .idle
  suspended : Bool := false
  debugStop : Bool := false
  pc        : Word := 0
  conds     : BitVec 8 := 0
  targets   : List (Nat × Word) := []
  loops     : List (Nat × LoopCounter) := []
  gates     : BitVec 15 := 0
  sys       : SysRegs := {}
  nest      : List NestLevel := List.replicate 6 {}
  ftable    : List (Nat × BitVec 32) := []
  kv        : Option (Word × Nat) := none
  qcpy      : Queue := {}
  qvec      : Queue := {}
  qmtx      : Queue := {}
  cmdIndex  : BitVec 32 := 0
  delay     : Option Delay := none
  leaseReq  : Option Nat := none
  lrel      : Option Nat := none
  faults    : List PendingFault := []
  link      : Option Nat := none
  slink     : Option Nat := none
  ret       : Option Bool := none
  waitAxis  : List (Nat × Nat) := []
  wait      : Option (Nat × List (Nat × Word × Instr)) := none
  halted    : Bool := false
  stood     : Bool := false
  resumes   : List (Nat × Nat) := []
  point     : Option Point := none
  deriving DecidableEq, Repr

/-! ### Cores -/

/-- The scalar and address files of a cluster (R62, R65). -/
structure Cluster where
  s : List (Nat × Word) := []
  a : List (Nat × Word) := []
  deriving DecidableEq, Repr

/-- A token counter (R22). -/
structure Token where
  count   : BitVec 16 := 0
  ceiling : BitVec 16 := 0xFFFF
  deriving DecidableEq, Repr

/-- Precision states of an accumulator (Table 9.4). -/
inductive Precision where
  | clear | a32 | a2x32 | i32
  deriving DecidableEq, Repr

/-- The states of a rule (Table 14.2). -/
inductive RuleState where
  | active | suspended
  deriving DecidableEq, Repr

/-- A standing rule (R293). A FREE entry is one that the table does not list. -/
structure Rule where
  op       : EngineOp
  f        : Fields
  regD     : Word
  regS1    : Word
  regS2    : Word
  regS3    : Word
  axis     : Nat
  owner    : Nat
  rank     : Nat
  seq      : Nat
  first    : Nat
  next     : Nat
  horizon  : Nat
  state    : RuleState := .active
  held     : Bool := false
  enqFail  : Bool := false
  cause    : Nat := 0
  eaddr    : Word := 0
  estat    : Word := 0
  deriving DecidableEq, Repr

/-- A bound open-axis register (R287) with its descriptor's fields (Table 14.1). `note` is a commit-word
value that has been notified and not yet applied (R289). -/
structure Axis where
  base    : Word
  stride  : Nat
  sbytes  : Nat
  cap     : Nat
  isLocal : Bool
  scope   : Nat
  commit  : Word
  retire  : Word
  n       : Nat := 0
  closed  : Bool := false
  retired : Nat := 0
  watch   : Option Nat := none
  note    : Bool := false
  deriving DecidableEq, Repr

/-- The matrix lease of a split core (R219): its holder, its length, the commands started under it, and
whether LEASE took it. -/
structure Lease where
  holder   : Nat
  len      : Nat
  used     : Nat
  explicit : Bool
  deriving DecidableEq, Repr

/-- A translation held in a TLB: first virtual address and size of the page, its physical address, and the
leaf's permissions (R125, R127). -/
structure TlbEntry where
  vf   : Nat
  va   : Nat
  size : Nat
  pa   : Nat
  r    : Bool
  w    : Bool
  x    : Bool
  deriving DecidableEq, Repr

/-- A filled sector of the instruction cache: its 64 bytes, or the reason none could be fetched (R38, R48). -/
inductive IcacheLine where
  | bytes (l : List Byte)
  | fault
  | ecc
  deriving DecidableEq, Repr

/-- A core (Table 1.3). The numbered registers of the core's streams lie in `clusters` and `streams`, keys
0 to 3. Vector container c of physical register r has key 2048 r + c, lane i of physical mask k key
16384 k + i, accumulator word (i, j) of acc_k key 32768 k + 128 i + j, cell c of bnd_k key 128 k + c. -/
structure Core where
  split     : Bool := false
  slaunch   : Bool := false
  clusters  : List (Nat × Cluster) := []
  streams   : List (Nat × Stream) := []
  tokens    : List (Nat × Token) := []
  spm       : List Host.Cell := []
  vreg      : List (Nat × BitVec 32) := []
  mask      : List (Nat × Bool) := []
  acc       : List (Nat × BitVec 32) := []
  bnd       : List (Nat × BitVec 16) := []
  accPrec   : List (Nat × Precision) := []
  bth       : List (Nat × BitVec 16) := []
  bmode     : BitVec 16 := 0
  poisonSpm : List Nat := []
  poisonV   : List Nat := []
  poisonM   : List Nat := []
  poisonA   : List Nat := []
  poisonB   : List Nat := []
  poisonL1  : List Nat := []
  poisonCount : BitVec 32 := 0
  ceCount   : BitVec 32 := 0
  gangSize  : Nat := 1
  tenant    : Nat := 0
  scopeSys  : Bool := false
  tquota    : Nat := 32
  root      : Nat := 0
  l1dirty   : List Host.Cell := []
  l1clean   : List Host.Cell := []
  pending   : List (Nat × BitVec 512) := []
  applied   : List (Nat × Nat) := []
  icache    : List (Nat × IcacheLine) := []
  utlb      : List TlbEntry := []
  running   : List Run := []
  nextAge   : Nat := 0
  axes      : List (Nat × Axis) := []
  rules     : List (Nat × Rule) := []
  installSeq : Nat := 0
  arrived   : BitVec 32 := 0
  cpyTurn   : Nat := 3
  lease     : Option Lease := none
  leaseLast : Nat := 3
  slot      : Option Nat := none
  deriving DecidableEq, Repr

/-! ### The device -/

/-- A signature board (R132): the number of the newest signature, and the latest 64, newest first. -/
structure Board where
  head : Nat := 0
  sigs : List (BitVec 512) := []
  deriving DecidableEq, Repr

/-- The barrier and the board of a dispatched gang (R132, R148). -/
structure Gang where
  c     : BitVec 32 := 0
  k0    : Nat := 0
  k1    : Nat := 0
  board : Board := {}
  deriving DecidableEq, Repr

/-- Who registered a watch entry (R150, R289, R346). -/
inductive WatchOwner where
  | point (core launch serial o m n : Nat)
  | axis (core x : Nat)
  | ring (r : Nat)
  deriving DecidableEq, Repr

/-- A watch entry at a home slice (Table 6.6), with the notification or push it still owes (R152). -/
structure Watch where
  owner : WatchOwner
  pa    : Nat
  len   : Nat
  cond  : Nat
  value : Word
  mask  : Word
  act   : Bool
  arg   : Nat
  ten   : Bool
  tok   : Nat
  owed  : Bool := false
  deriving DecidableEq, Repr

/-- A row of a frontier (R316). -/
structure Row where
  c : Nat := 0
  a : BitVec 64 := 0
  f : BitVec 64 := 0
  deriving DecidableEq, Repr

/-- A point saved by pre-emption, with the addresses of its gang's context records in rank order (R333). -/
structure HeldPoint where
  o    : Nat
  m    : Nat
  n    : Nat
  ctxs : List Nat
  size : Nat
  deriving DecidableEq, Repr

/-- What admitted a launch (R315, R336, R348, R362). -/
inductive Source where
  | instr
  | packet (ring index : Nat)
  | registered (entry : Nat) (irq : Option Nat)
  deriving DecidableEq, Repr

/-- A pre-emption under way (R329, R364): its level, addresses, and the packet that asked for it. -/
structure Preempt where
  forced   : Bool
  frontier : Nat
  ctx      : Nat
  nctx     : Nat
  used     : Nat := 0
  packets  : List (Nat × Nat) := []
  deriving DecidableEq, Repr

/-- A virtual function's record (Table 17.2). -/
structure Vf where
  root   : Nat := 0
  sys    : Bool := false
  en     : Bool := false
  lquota : Nat := 0
  tquota : Nat := 32
  bays   : BitVec 20 := 0
  l2lim  : BitVec 32 := 0
  deriving DecidableEq, Repr

/-- An admitted launch (R315): its nest record, what is derived from it at admission, its timetable marks
and its frontier (R316). `far` lists points in flight, or done, that a restored record leaves outside the reach of their row's masks, as
row, index and whether it is done (R340). `restores` are the RESTORE packets, by ring and index, that complete once every held point is placed (Table 17.11). -/
structure Launch where
  serial   : Nat
  tenant   : Nat
  nrec     : BitVec 1024
  prio     : Nat
  scope    : Nat
  acq      : Nat
  rel      : Nat
  entryPc  : Word
  deps     : List Word
  source   : Source
  vf       : Vf
  released : Bool := false
  since    : Nat := 0
  slipped  : Bool := false
  w0       : Nat := 0
  w1       : Nat := 0
  rows     : List (Nat × Row) := []
  far      : List (Nat × Nat × Bool) := []
  held     : List HeldPoint := []
  saved    : Bool := false
  preempt  : Option Preempt := none
  restores : List (Nat × Nat) := []
  deriving DecidableEq, Repr

/-- A loaded resident slot (R327, R368). -/
structure Slot where
  owner : Nat
  image : Word
  size  : Nat
  poff  : Nat
  psize : Nat
  nrec  : BitVec 1024
  deriving DecidableEq, Repr

/-- STATE of a launch ring (Table 17.3). -/
inductive RingState where
  | idle | active | blocked | stopped
  deriving DecidableEq, Repr

/-- A completion of a packet that is still to be written (R347, R350). -/
structure Completion where
  ring   : Nat
  index  : Nat
  status : Nat
  handle : Word
  deriving DecidableEq, Repr

/-- A launch ring (Table 17.3). `prev` is the handle of its previous LAUNCH or INVOKE (ORD). -/
structure Ring where
  desc   : BitVec 1024 := 0
  state  : RingState := .idle
  head   : BitVec 32 := 0
  prev   : Word := 0
  owed   : List Completion := []
  deriving DecidableEq, Repr

/-- A Llynit link (R353, R354). -/
structure Link where
  up      : Bool := false
  retries : Nat := 0
  dropped : Nat := 0
  deriving DecidableEq, Repr

/-- A ring group of packages (R355): each member's step word and status word, TIMEOUT, by member the steps that its word has been
seen to reach and its successor has not, each with the tick at which it reached it, and those of them whose ring-timeout has been raised. -/
structure RingGroup where
  members : List (Nat × Nat)
  timeout : Nat
  reached : List (Nat × (Nat × Nat)) := []
  raised  : List (Nat × Nat) := []
  deriving DecidableEq, Repr

/-- A sync-word arrival under way to a core (R142): core, offset of the word, byte count. -/
structure Arrival where
  core : Nat
  off  : Nat
  n    : Nat
  deriving DecidableEq, Repr

/-- A CPYR contribution at the bay switch (R264, R265): destination core and offset, mask, contributing
rank and core, the command's age on that core, A bit, piece bytes, and the sync word. -/
structure Contribution where
  core  : Nat
  off   : Nat
  mask  : BitVec 8
  rank  : Nat
  src   : Nat
  age   : Nat
  add   : Bool
  data  : List Byte
  word  : Option Nat
  zero  : Bool
  done  : Bool := false
  deriving DecidableEq, Repr

/-- A context record that a forced save has written (R333): the saved core and its number, the gang's barrier and board on rank 0, and the
contributions that were pending for it. It stands for the parts of the state block whose inner layout is left open, under the number
that the record holds in memory (log entry 9). -/
structure Context where
  core     : Core
  number   : Nat
  gang     : Option Gang := none
  contribs : List Contribution := []
  deriving DecidableEq, Repr

/-- Where the part stands between power-on and Noon (R356, R357). -/
inductive Phase where
  | powerOn
  | heldAtDawn (check : Nat)
  | dawn
  | noon
  deriving DecidableEq, Repr

/-- The device-wide controls of Table 17.1. -/
structure Control where
  ageLimit  : BitVec 32 := 1000
  ringTab   : Word := 0
  vfTab     : Word := 0
  slipBase  : Word := 0
  slipLog2n : Nat := 0
  slipHead  : Word := 0
  slipOvf   : Word := 0
  evtBase   : Word := 0
  evtLog2n  : Nat := 0
  evtHead   : Word := 0
  regTab    : Word := 0
  regN      : Nat := 0
  faultBuf  : Word := 0
  dbgEn     : BitVec 160 := 0
  deriving DecidableEq, Repr

/-- Boot and record state (R356, R357, R360). -/
structure Boot where
  phase     : Phase := .powerOn
  fused     : Nat := 0
  pkgId     : BitVec 8 := 0
  bays      : BitVec 20 := 0
  linksIn   : BitVec 16 := 0
  hbm       : BitVec 256 := 0
  roles     : BitVec 32 := 0
  power     : BitVec 32 := 0
  clockMhz  : Nat := 1900
  deriving DecidableEq, Repr

/-- The device: everything but the model's own bookkeeping of which agent moves next. `pushes` holds the
pushes on their way to a queue-scheduling thread as (watch handle, registration entry) (R152, R362). -/
structure Dev where
  boot     : Boot := {}
  ctl      : Control := {}
  tick     : Word := 0
  tickPeriod : BitVec 32 := 1900
  mem      : List Host.Cell := []
  poison   : List Nat := []
  ioOut    : List (Nat × List Byte) := []
  cores    : List (Nat × Core) := []
  gangs    : List (Nat × Gang) := []
  boards   : List (Nat × Board) := []
  watches  : List (Nat × Watch) := []
  pushes   : List (Nat × Nat) := []
  launches : List (Nat × Launch) := []
  serial   : Nat := 1
  slots    : List (Nat × Slot) := []
  vfs      : List (Nat × Vf) := []
  rings    : List (Nat × Ring) := []
  bayTlb   : List (Nat × List TlbEntry) := []
  combining : List Contribution := []
  arrivals : List Arrival := []
  links    : List (Nat × Link) := []
  groups   : List (Nat × RingGroup) := []
  ceCounts : List (Nat × Nat) := []
  irqs     : List Nat := []
  contexts : List (Nat × Context) := []
  records  : Nat := 1
  fresh    : Nat := 0
  deriving DecidableEq, Repr

/-! ### The machine -/

/-- The instruction being issued: core, stream, slot, its address, the address of its bundle, the address
after its bundle, the address after its second delay slot, and the body an INSTALL captures. -/
structure Cur where
  core   : Nat := 0
  stream : Nat := 0
  slot   : Nat := 0
  pc     : Word := 0
  bundle : Word := 0
  next   : Word := 0
  after  : Word := 0
  body   : Option Instr := none
  deriving DecidableEq, Repr

/-- How the bundle being issued stands: going on, stopped by a fault, or unable to proceed (R63, R75). -/
inductive IssueStatus where
  | going | faulted | stalled
  deriving DecidableEq, Repr

/-- What system software sets that no event of Table 3.12 or of 95_what_each_step_holds.md stands for: TICK_PERIOD (R71), and a ring group, by its number, with each member's step word and
status word and TIMEOUT (R355). -/
inductive SystemWrite where
  | tickPeriod (v : Word)
  | ringGroup (g : Nat) (members : List (Nat × Nat)) (timeout : Nat)
  deriving DecidableEq, Repr

/-- A turn of the agenda: a stream issues its next bundle, an event of the device happens, or system software sets something. -/
inductive Turn where
  | issue (core stream : Nat)
  | event (e : Instr)
  | system (w : SystemWrite)
  deriving DecidableEq, Repr

/-- The reasons the machine could stop. It has none: every fault of Table 4.7 is taken as the manual
describes it, in a next state. -/
inductive Fault where
  deriving DecidableEq, Repr

/-- Why an instruction has no meaning in the model. -/
inductive Refusal where
  /-- Raised by `exec` for an instruction that the model gives no meaning yet. Safe: the machine stops where
  the hardware goes on. -/
  | notModelled (mnemonic : String)
  deriving DecidableEq, Repr

/-- The machine. `dev` is the device; `pre` is the device as it stood before the bundle being issued, from
which registers are read and to which a faulting or stalling bundle returns (R63, R75); `agenda` is
which agent moves next; with an empty agenda `turn` counts the turns taken and `focus` is the stream whose bundle is next (log
entries 1, 2). -/
structure State where
  dev    : Dev := {}
  pre    : Dev := {}
  cur    : Cur := {}
  status : IssueStatus := .going
  agenda : List Turn := []
  focus  : Nat × Nat := (0, 0)
  turn   : Nat := 0
  deriving DecidableEq, Repr

/-- The machine right after reset: the part at power-on (R356). -/
def State.reset : State := {}

end Sys2Proof.Machine
end

