-- ==== Sys2Proof/Machine/LegalBase.lean ====
section
/-!
DEFINITION. Decode checks of one instruction (R43 to R45, R51, R55, R56, R59, R60): the register classes and their
ranges (Table 3.6), the fields that an instruction uses, and that every other field is 0.
-/

namespace Sys2Proof.Machine

/-- Register classes (Table 3.6). -/
inductive Cls where
  | s | a | v | m | c | b | lc | t | x | acc
  deriving DecidableEq, Repr

/-- How many registers of a class a stream names, in joined or split mode (Tables 3.6 and 4.3). -/
def clsCount (split : Bool) : Cls → Nat
  | .s => 32
  | .a => 16
  | .v => if split then 20 else 80
  | .m => 8
  | .c => 8
  | .b => 4
  | .lc => 4
  | .t => 32
  | .x => 16
  | .acc => if split then 1 else 4

/-- The fields that an instruction uses: FN bits, the classes of its specifiers, the operands that may carry a
MOD code, IMM bits, whether it may be predicated, and whether it is a captured body, whose address specifiers
may name open-axis registers as 16 + j (R297). Every other field is 0 (R59). -/
structure Shape where
  fn    : Nat := 0
  d     : Option Cls := none
  s1    : Option Cls := none
  s2    : Option Cls := none
  s3    : Option Cls := none
  modD  : Bool := false
  modS1 : Bool := false
  modS2 : Bool := false
  modS3 : Bool := false
  imm   : Nat := 0
  gate  : Bool := true
  axes  : Bool := false
  deriving DecidableEq, Repr

/-- Every IMM bit is used. -/
def immAll : Nat := 0xFFFFFFFF

/-- A specifier lies in its class's range; one the instruction does not have is 0. -/
def specOk (split axes : Bool) (cls : Option Cls) (r : BitVec 8) : Bool :=
  match cls with
  | none => r = 0
  | some .a => r.toNat < (if axes then 32 else 16)
  | some k => r.toNat < clsCount split k

/-- A value uses only the bits of a mask. -/
def within (x mask : Nat) : Bool := x &&& mask = x

/-- The word keeps its shape (R43, R44, R45, R59). -/
def shapeOk (split : Bool) (h : Shape) (f : Fields) : Bool :=
  within f.fn.toNat h.fn && specOk split h.axes h.d f.d && specOk split h.axes h.s1 f.s1 && specOk split h.axes h.s2 f.s2
    && specOk split h.axes h.s3 f.s3 && (h.modD || f.modD = 0) && (h.modS1 || f.modS1 = 0) && (h.modS2 || f.modS2 = 0)
    && (h.modS3 || f.modS3 = 0) && within f.imm.toNat h.imm && (h.gate || f.pred = 0)

/-- FN[i] -/
def fnBit (f : Fields) (i : Nat) : Bool := Bits.bit f.fn.toNat i
/-- FN[h:l] -/
def fnBits (f : Fields) (h l : Nat) : Nat := Bits.field f.fn.toNat h l
/-- IMM[h:l] -/
def immBits (f : Fields) (h l : Nat) : Nat := Bits.field f.imm.toNat h l
/-- IMM[i] -/
def immBit (f : Fields) (i : Nat) : Bool := Bits.bit f.imm.toNat i

/-- One token field of an engine command: enabled, or all 0 (R56). -/
def tokenFieldOk (x : Nat) : Bool := 32 ≤ x || x = 0

/-- The four token fields of IMM[23:0] (Table 3.10, R56). -/
def tokensOk (f : Fields) : Bool :=
  tokenFieldOk (immBits f 23 18) && tokenFieldOk (immBits f 17 12) && tokenFieldOk (immBits f 11 6) && tokenFieldOk (immBits f 5 0)

end Sys2Proof.Machine
end

