-- ==== Sys2Proof/Machine/LegalSeq.lean ====
section
/-!
DEFINITION. Decode checks of the sequencer's own instructions: scalar, address, control, synchronisation and
system groups (Tables 5.2 to 5.11, 6.5).
-/

namespace Sys2Proof.Machine

/-! ### Scalar ALU (R83) -/

/-- What a row of Table 5.2 accepts. -/
structure AluRow where
  unsignedOk  : Bool := false
  containerOk : Bool := true
  shift       : Bool := false
  deriving DecidableEq, Repr

def legalAlu (row : AluRow) (split : Bool) (f : Fields) : Bool :=
  let c := fnBit f 5
  let u := fnBit f 4
  let t := fnBits f 3 0
  shapeOk split { fn := 63, d := some .s, s1 := some .s, s2 := some .s, modD := c, modS1 := c, modS2 := c, imm := immAll } f
    && (if c then row.containerOk && !u && 6 ≤ t && t ≤ 13 && f.imm = 0
        else t = 0 && (row.unsignedOk || !u) && (if row.shift then f.imm.toNat ≤ 63 else f.imm = 0))

def rowArith : AluRow := {}
def rowLogic : AluRow := { containerOk := false }
def rowShift : AluRow := { shift := true }
def rowSigned : AluRow := { unsignedOk := true }

/-! ### Scalar miscellany (Table 5.3) -/

def legalAddi (split : Bool) (f : Fields) : Bool := shapeOk split { d := some .s, s1 := some .s, imm := immAll } f
def legalMovi (split : Bool) (f : Fields) : Bool := shapeOk split { fn := 1, d := some .s, imm := immAll } f
/-- POPC, CLZ, CTZ. -/
def legalCount (split : Bool) (f : Fields) : Bool := shapeOk split { d := some .s, s1 := some .s } f
/-- BFX with FN[0] S, BFI with FN 0; the field ends by bit 63 (R87). -/
def legalField (fn : Nat) (split : Bool) (f : Fields) : Bool :=
  shapeOk split { fn := fn, d := some .s, s1 := some .s, imm := 0xFFF } f && immBits f 5 0 + immBits f 11 6 + 1 ≤ 64
def legalSel (split : Bool) (f : Fields) : Bool :=
  shapeOk split { d := some .s, s1 := some .s, s2 := some .s, imm := 7 } f
def legalMov (split : Bool) (f : Fields) : Bool :=
  let c := fnBit f 5
  shapeOk split { fn := 32, d := some .s, s1 := some .s, modD := c, modS1 := c } f
/-- XMOV is illegal in split mode (R88). -/
def legalXmov (split : Bool) (f : Fields) : Bool :=
  !split && shapeOk split { fn := 3, d := some (if fnBit f 1 then .a else .s), s1 := some (if fnBit f 0 then .a else .s), imm := 15 } f
def legalDiv (split : Bool) (f : Fields) : Bool :=
  shapeOk split { fn := 16, d := some .s, s1 := some .s, s2 := some .s } f
def legalRank (split : Bool) (f : Fields) : Bool :=
  shapeOk split { fn := 1, d := some .s, s1 := some .s, s2 := some .s } f
/-- FCVT: source codes 0 to 13, destination 0 to 4 and 6 to 13, rounding 0 to 4 (R91). -/
def legalFcvt (split : Bool) (f : Fields) : Bool :=
  shapeOk split { fn := 15, d := some .s, s1 := some .s, imm := 0x7F } f
    && immBits f 3 0 ≤ 13 && fnBits f 3 0 ≤ 13 && fnBits f 3 0 ≠ 5 && immBits f 6 4 ≤ 4
/-- FMAS: f32, bf16 or f16; rounding 0 to 4 (R92). -/
def legalFmas (split : Bool) (f : Fields) : Bool :=
  shapeOk split { fn := 15, d := some .s, s1 := some .s, s2 := some .s, imm := 7 } f && fnBits f 3 0 ≤ 2 && immBits f 2 0 ≤ 4

/-! ### Address and memory (Table 5.4) -/

def legalAadd (split : Bool) (f : Fields) : Bool := shapeOk split { d := some .a, s1 := some .s, imm := immAll } f
def legalAidx (split : Bool) (f : Fields) : Bool :=
  shapeOk split { d := some .a, s1 := some .a, s2 := some .s, imm := 7 } f
def legalAmov (split : Bool) (f : Fields) : Bool :=
  shapeOk split { fn := 3, d := some (if fnBits f 1 0 = 2 then .s else .a), s1 := some (if fnBits f 1 0 = 1 then .s else .a) } f
    && fnBits f 1 0 ≠ 3
/-- ALDI: FN 0 to 4, and the IMM bits of Table 5.5. -/
def legalAldi (split : Bool) (f : Fields) : Bool :=
  let mask := match fnBits f 2 0 with
    | 1 => 0x3FFFFF
    | 2 => 0x073FFFFF
    | 3 => 0xFF3FFFFF
    | _ => immAll
  shapeOk split { fn := 7, d := some .a, imm := mask } f && fnBits f 2 0 ≤ 4
def legalLd (split : Bool) (f : Fields) : Bool :=
  shapeOk split { fn := 7, d := some .s, s1 := some .a, imm := immAll } f && fnBits f 2 0 ≠ 7
def legalSt (split : Bool) (f : Fields) : Bool :=
  shapeOk split { fn := 3, s1 := some .a, s2 := some .s, imm := immAll } f
def legalLda (split : Bool) (f : Fields) : Bool := shapeOk split { d := some .a, s1 := some .a, imm := immAll } f
def legalSta (split : Bool) (f : Fields) : Bool := shapeOk split { s1 := some .a, s2 := some .a, imm := immAll } f
def legalPush (split : Bool) (f : Fields) : Bool :=
  shapeOk split { fn := 1, s1 := some (if fnBit f 0 then .a else .s) } f
def legalPop (split : Bool) (f : Fields) : Bool :=
  shapeOk split { fn := 1, d := some (if fnBit f 0 then .a else .s) } f
def legalPrfm (split : Bool) (f : Fields) : Bool := shapeOk split { fn := 1, s1 := some .a, imm := immAll } f
def legalAcmp (split : Bool) (f : Fields) : Bool :=
  shapeOk split { fn := 3, d := some .c, s1 := some .a, s2 := some .a } f

/-! ### Control (Table 5.7) -/

def legalPbr (split : Bool) (f : Fields) : Bool := shapeOk split { d := some .b, imm := immAll } f && !immBit f 0
def legalPbra (split : Bool) (f : Fields) : Bool := shapeOk split { d := some .b, s1 := some .a, imm := immAll } f
def legalCmp (split : Bool) (f : Fields) : Bool :=
  shapeOk split { fn := 15, d := some .c, s1 := some .s, s2 := some .s } f && fnBits f 3 0 ≤ 11
def legalCmpi (split : Bool) (f : Fields) : Bool :=
  shapeOk split { fn := 15, d := some .c, s1 := some .s, imm := immAll } f && fnBits f 3 0 ≤ 11
/-- BR and BRN. -/
def legalBr (split : Bool) (f : Fields) : Bool := shapeOk split { s1 := some .c, s2 := some .b } f
/-- JMP, CALL and JOIN. -/
def legalJmp (split : Bool) (f : Fields) : Bool := shapeOk split { s2 := some .b } f
/-- Instructions without operands that may be predicated. -/
def legalPlain (split : Bool) (f : Fields) : Bool := shapeOk split {} f
def legalLoop (split : Bool) (f : Fields) : Bool := shapeOk split { s1 := some .lc, gate := false } f
/-- LSET: 1 to 15 stages, an even IMM, the count in s(S1) or in S2 (R105). -/
def legalLset (split : Bool) (f : Fields) : Bool :=
  let i := fnBit f 4
  shapeOk split { fn := 31, d := some .lc, s1 := if i then none else some .s, imm := immAll, gate := false }
      { f with s2 := if i then 0 else f.s2 }
    && fnBits f 3 0 ≠ 15 && !immBit f 0
/-- VANY and VALL. -/
def legalAny (split : Bool) (f : Fields) : Bool := shapeOk split { d := some .c, s1 := some .m } f
def legalGset (split : Bool) (f : Fields) : Bool :=
  let i := fnBit f 0
  shapeOk split { fn := 1, d := some .s, s1 := if i then none else some .s, imm := if i then 0x7FFF else 0, gate := false } f

/-! ### Synchronisation (Table 6.5) -/

def legalTset (split : Bool) (f : Fields) : Bool :=
  let i := fnBit f 0
  shapeOk split { fn := 1, d := some .t, s1 := if i then none else some .s, imm := if i then immAll else 0 } f
/-- TPOST and TWAIT. -/
def legalToken (split : Bool) (f : Fields) : Bool := shapeOk split { d := some .t } f
/-- SWINIT, SWWAIT, SWARRIVE. -/
def legalSync (split : Bool) (f : Fields) : Bool := shapeOk split { s1 := some .a, s2 := some .s } f
def legalSwarm (split : Bool) (f : Fields) : Bool := shapeOk split { fn := 1, s1 := some .a } f
/-- PUBLISH and ACQUIRE: scope code 7 is reserved (R55). -/
def legalScope (split : Bool) (f : Fields) : Bool := shapeOk split { imm := 7 } f && immBits f 2 0 ≠ 7
def legalFence (split : Bool) (f : Fields) : Bool := shapeOk split { fn := 15 } f
/-- ATOM: U only with min and max, scope 0 without an ordering, scope 7 reserved (R147, R55). -/
def legalAtom (split : Bool) (f : Fields) : Bool :=
  shapeOk split { fn := 31, d := some .s, s1 := some .a, s2 := some .s, imm := 31 } f
    && (!fnBit f 4 || fnBits f 2 0 = 1 || fnBits f 2 0 = 2) && immBits f 4 2 ≠ 7 && (immBits f 1 0 ≠ 0 || immBits f 4 2 = 0)
def legalWatch (split : Bool) (f : Fields) : Bool := shapeOk split { d := some .s, s1 := some .a } f
def legalUnwatch (split : Bool) (f : Fields) : Bool := shapeOk split { s1 := some .s } f

/-! ### System (Table 5.11, R70, R112) -/

/-- TRAP and DBGBRK. -/
def legalCode (split : Bool) (f : Fields) : Bool := shapeOk split { imm := immAll } f

/-- The assigned numbers of Table 4.4. -/
def sysAssigned (n : Nat) : Bool :=
  n ≤ 6 || (0x10 ≤ n && n ≤ 0x19) || n = 0x20 || n = 0x21 || n = 0x30 || n = 0x31 || (0x40 ≤ n && n ≤ 0x44)
    || n = 0x50 || n = 0x51 || (0x60 ≤ n && n ≤ 0x62)

/-- The registers marked R in Table 4.5. -/
def sysReadOnly (n : Nat) : Bool :=
  n = 3 || n = 4 || n = 5 || n = 0x20 || n = 0x30 || n = 0x50 || n = 0x51 || n = 0x60 || n = 0x61 || n = 0x62

/-- The thresholds of other streams are not named in split mode (R112). -/
def sysInMode (split : Bool) (n : Nat) : Bool := !(split && 0x41 ≤ n && n ≤ 0x43)

def legalSysrd (split : Bool) (f : Fields) : Bool :=
  shapeOk split { d := some .s, imm := 0xFFF } f && sysAssigned f.imm.toNat && sysInMode split f.imm.toNat
def legalSyswr (split : Bool) (f : Fields) : Bool :=
  shapeOk split { s1 := some .s, imm := 0xFFF } f && sysAssigned f.imm.toNat && sysInMode split f.imm.toNat
    && !sysReadOnly f.imm.toNat
def legalLease (split : Bool) (f : Fields) : Bool := shapeOk split { imm := 0x7F } f && f.imm.toNat ≤ 64
def legalQcfg (split : Bool) (f : Fields) : Bool := shapeOk split { fn := 3, s1 := some .s } f && fnBits f 1 0 ≠ 3
def legalFtset (split : Bool) (f : Fields) : Bool := shapeOk split { s1 := some .s, imm := 15 } f
def legalBoundcfg (split : Bool) (f : Fields) : Bool :=
  shapeOk split { d := some .acc, s1 := some .s, imm := 7 } f && immBits f 1 0 ≠ 3
def legalTick (split : Bool) (f : Fields) : Bool :=
  shapeOk split { fn := 1, d := some .s, s1 := if fnBit f 0 then some .s else none } f

end Sys2Proof.Machine
end

