-- ==== Sys2Proof/Machine/Access.lean ====
section
/-!
DEFINITION. Reaching into the device: cores, streams, clusters and the device's other tables, each read with
the value an unlisted key stands for and written by one function.
-/

namespace Sys2Proof.Machine

abbrev Result := Host.Outcome State Fault Refusal

/-! ### Cores, streams, clusters -/

def getCore (d : Dev) (c : Nat) : Core := Sparse.get d.cores {} c
def setCore (d : Dev) (c : Nat) (k : Core) : Dev := { d with cores := Sparse.insert d.cores c k }
def modCore (d : Dev) (c : Nat) (f : Core → Core) : Dev := setCore d c (f (getCore d c))

def coreStream (k : Core) (i : Nat) : Stream := Sparse.get k.streams {} i
def setCoreStream (k : Core) (i : Nat) (t : Stream) : Core := { k with streams := Sparse.insert k.streams i t }
def modCoreStream (k : Core) (i : Nat) (f : Stream → Stream) : Core := setCoreStream k i (f (coreStream k i))

def coreCluster (k : Core) (i : Nat) : Cluster := Sparse.get k.clusters {} i
def setCoreCluster (k : Core) (i : Nat) (u : Cluster) : Core := { k with clusters := Sparse.insert k.clusters i u }
def modCoreCluster (k : Core) (i : Nat) (f : Cluster → Cluster) : Core := setCoreCluster k i (f (coreCluster k i))

def getStream (d : Dev) (c i : Nat) : Stream := coreStream (getCore d c) i
def setStream (d : Dev) (c i : Nat) (t : Stream) : Dev := modCore d c fun k => setCoreStream k i t
def modStream (d : Dev) (c i : Nat) (f : Stream → Stream) : Dev := modCore d c fun k => modCoreStream k i f

/-- The streams that a core runs in its mode (R61). -/
def streamsOf (k : Core) : List Nat := if k.split then [0, 1, 2, 3] else [0]

/-- The global core numbers 0 to 159 (R8). -/
def coreCount : Nat := 160

/-! ### Queues of a stream -/

def getQueue (t : Stream) (q : QueueId) : Queue :=
  match q with
  | .cpy => t.qcpy
  | .vec => t.qvec
  | .mtx => t.qmtx

def setQueue (t : Stream) (q : QueueId) (v : Queue) : Stream :=
  match q with
  | .cpy => { t with qcpy := v }
  | .vec => { t with qvec := v }
  | .mtx => { t with qmtx := v }

def modQueue (t : Stream) (q : QueueId) (f : Queue → Queue) : Stream := setQueue t q (f (getQueue t q))

def allQueues : List QueueId := [.cpy, .vec, .mtx]

/-- The queue that a command enters (R53, Table 3.9). -/
def queueOf (o : EngineOp) : QueueId :=
  match o with
  | .vec _ => .vec
  | .mat _ => .mtx
  | .cpy _ => .cpy

/-- EENG.ENGINE of a queue's engine (Table 4.5). -/
def engineCode (q : QueueId) : Nat :=
  match q with
  | .vec => 1
  | .mtx => 2
  | .cpy => 3

/-! ### Other tables of the device -/

def getLaunch (d : Dev) (n : Nat) : Option Launch := Sparse.find? d.launches n
def setLaunch (d : Dev) (n : Nat) (l : Launch) : Dev := { d with launches := Sparse.insert d.launches n l }
def modLaunch (d : Dev) (n : Nat) (f : Launch → Launch) : Dev :=
  match getLaunch d n with
  | some l => setLaunch d n (f l)
  | none => d

def getVf (d : Dev) (v : Nat) : Vf := Sparse.get d.vfs {} v
def getRing (d : Dev) (r : Nat) : Ring := Sparse.get d.rings {} r
def setRing (d : Dev) (r : Nat) (v : Ring) : Dev := { d with rings := Sparse.insert d.rings r v }
def getGang (d : Dev) (b : Nat) : Gang := Sparse.get d.gangs {} b
def setGang (d : Dev) (b : Nat) (g : Gang) : Dev := { d with gangs := Sparse.insert d.gangs b g }
def getBoard (d : Dev) (k : Nat) : Board := Sparse.get d.boards {} k

/-- The handle of a launch: serial × 256 + number (R315). -/
def handleOf (serial number : Nat) : Word := BitVec.ofNat 64 (serial * 256 + number)

/-- A fresh value for the next choice that the manual leaves to the device (log entry 3). -/
def bumpFresh (d : Dev) : Dev := { d with fresh := d.fresh + 1 }

/-! ### The issuing stream -/

def preCore (s : State) : Core := getCore s.pre s.cur.core
def preStream (s : State) : Stream := coreStream (preCore s) s.cur.stream
def curCore (s : State) : Core := getCore s.dev s.cur.core
def curStream (s : State) : Stream := coreStream (curCore s) s.cur.stream

def onDev (s : State) (f : Dev → Dev) : State := { s with dev := f s.dev }
def onCore (s : State) (f : Core → Core) : State := onDev s fun d => modCore d s.cur.core f
def onStream (s : State) (f : Stream → Stream) : State := onDev s fun d => modStream d s.cur.core s.cur.stream f

/-- Split mode as the bundle found it (R61). -/
def isSplit (s : State) : Bool := (preCore s).split

/-- The cluster whose files the instruction names: the slot's in joined mode, the stream's in split mode (R62). -/
def clusterOf (s : State) : Nat := if isSplit s then s.cur.stream else s.cur.slot

/-- The point of the issuing stream. -/
def curPoint (s : State) : Option Point := (preStream s).point

/-- The gang rank of a stream's point; 0 for a stream that runs none. -/
def rankOf (t : Stream) : Nat := (t.point.map (·.rank)).getD 0

end Sys2Proof.Machine
end

