-- ==== Sys2Proof/Machine/Memory.lean ====
section
/-!
DEFINITION. Global memory: homes and watch entries (R122, R150, R152), poison (R359), translation (R125 to
R128), the L1 with its dirty and clean bytes (R129, R130), signatures and boards (R131, R132), PUBLISH and
ACQUIRE (R134, R135), and the entry of engine writes into the phase scheme (R136).
-/

namespace Sys2Proof.Machine

/-! ### Physical memory at the homes -/

/-- What a byte of memory reads as before anything has written it (log entry 5). -/
def memDefault : Byte := 0

/-- The canonical form of memory: addresses rising, no entry equal to `memDefault`. -/
abbrev memWf (m : List Host.Cell) : Bool := Sparse.wf memDefault m

def memByte (d : Dev) (pa : Nat) : Byte := Sparse.get d.mem memDefault pa
def memBytes (d : Dev) (pa n : Nat) : List Byte := Sparse.getRange d.mem memDefault pa n
def memNat (d : Dev) (pa n : Nat) : Nat := Bits.ofBytes (memBytes d pa n)

/-- The region of a physical address (Table 17.7). -/
def region (pa : Nat) : Nat := pa / 2 ^ 52 % 16

/-- Memory outside the package: regions 0x2 and 0x3 (R134, R352). -/
def outside (pa : Nat) : Bool := region pa = 2 || region pa = 3

/-- A Llynit link (R353, R354). -/
def getLink (d : Dev) (i : Nat) : Link := Sparse.get d.links {} i

/-- The link that carries the traffic to the package of an address of region 0x2 (Table 17.7, log entry 38). -/
def linkOf (pa : Nat) : Nat := Config.packageLink (pa / 2 ^ 44 % 256) % 16

/-- The address lies in another package, and the link to it is down (R354). -/
def linkCut (d : Dev) (pa : Nat) : Bool := region pa = 2 && !(getLink d (linkOf pa)).up

/-- Region 0x0 ends above the HBM channels present: 768 GB for 256 channels (Table 1.1, R358, log entry 36). -/
def hbmTop (d : Dev) : Nat := 3 * 2 ^ 30 * ((List.range 256).filter fun i => Bits.bit d.boot.hbm.toNat i).length

/-- The second tier ends at 4 TiB (Table 1.1, Table 17.7). -/
def tierTop : Nat := 2 ^ 42

/-- Part of a run lies above the memory of its region: region 0x0 above the HBM present, region 0x1 above the second tier. -/
def beyondTop (d : Dev) (pa n : Nat) : Bool :=
  (region pa = 0 && hbmTop d < pa % 2 ^ 52 + n) || (region pa = 1 && tierTop < pa % 2 ^ 52 + n)

/-- Bytes as an agent reads them at the home; a byte of region 0x3 is what the card answers, a free value. -/
def homeBytes (d : Dev) (pa n : Nat) : List Byte :=
  if region pa = 3 then (List.range n).map fun i => Config.ioByte d.fresh (pa + i) else memBytes d pa n

/-- A read of region 0x3 takes a fresh answer each time. -/
def afterRead (d : Dev) (pa : Nat) : Dev := if region pa = 3 then bumpFresh d else d

/-- A byte of the range lies in a poisoned sector (R359), or behind a link that is down (R354). -/
def homePoisoned (d : Dev) (pa n : Nat) : Bool := linkCut d pa || d.poison.any fun s => pa < 64 * s + 64 && 64 * s < pa + n

/-! ### Watch entries -/

/-- The condition of a watch entry on the word after a write (Table 6.6, R152). -/
def watchHolds (d : Dev) (w : Watch) : Bool :=
  let x := BitVec.ofNat 64 (memNat d w.pa 8) &&& w.mask
  let v := w.value &&& w.mask
  match w.cond with
  | 0 => true
  | 1 => x = v
  | 2 => x ≠ v
  | _ => v.toNat ≤ x.toNat

/-- What a match does: a notification is owed to a point or an axis (ACT = 0), a push is on its way (ACT = 1);
a ring's thread is only woken. Matches merge (R152). -/
def matchWatch (d : Dev) (h : Nat) (w : Watch) : Dev :=
  match w.owner, w.act with
  | .ring _, _ => d
  | _, false => { d with watches := Sparse.insert d.watches h { w with owed := true } }
  | _, true => if d.pushes.contains (h, w.arg) then d else { d with pushes := d.pushes ++ [(h, w.arg)] }

/-- Match the entries that a write touches and whose condition holds afterwards (R152). -/
def markWatches (d : Dev) (hit : Nat → Nat → Bool) : Dev :=
  (d.watches.filter fun p => hit p.2.pa (8 * (p.2.len + 1)) && watchHolds d p.2).foldl
    (fun d p => matchWatch d p.1 p.2) d

/-- A write to a package whose link is down is dropped and counted (R354). -/
def dropWrite (d : Dev) (pa : Nat) : Dev :=
  let l := getLink d (linkOf pa)
  { d with links := Sparse.insert d.links (linkOf pa) { l with dropped := l.dropped + 1 } }

/-- Store one run of bytes, before watches are tested. A sector overwritten whole is no longer poisoned. -/
def storeRun (d : Dev) (pa : Nat) (bytes : List Byte) : Dev :=
  if region pa = 3 then { d with ioOut := d.ioOut ++ [(pa, bytes)] }
  else if linkCut d pa then dropWrite d pa
  else { d with mem := Sparse.setRange d.mem memDefault pa bytes
                poison := d.poison.filter fun s => ¬ (pa ≤ 64 * s ∧ 64 * s + 64 ≤ pa + bytes.length) }

/-- One write performed at the homes (R122, R152): runs of bytes, each at its address. A run that a link has dropped is not performed
and matches nothing (R354). -/
def homeRuns (d : Dev) (runs : List (Nat × List Byte)) : Dev :=
  markWatches (runs.foldl (fun d r => storeRun d r.1 r.2) d) fun lo n =>
    runs.any fun r => !linkCut d r.1 && r.1 < lo + n && lo < r.1 + r.2.length

/-- A write of one run. -/
def homeStore (d : Dev) (pa : Nat) (bytes : List Byte) : Dev :=
  if bytes.isEmpty then d else homeRuns d [(pa, bytes)]

/-- The maximal runs of a list of cells in address order. -/
def runsOf : List Host.Cell → List (Nat × List Byte)
  | [] => []
  | (a, b) :: r =>
    match runsOf r with
    | (a', l) :: t => if a' = a + 1 then (a, b :: l) :: t else (a, [b]) :: (a', l) :: t
    | [] => [(a, [b])]

/-! ### Home slices (R122, R358) -/

/-- Bays present, from the configuration record. -/
def bayPresent (d : Dev) (bay : Nat) : Bool := Bits.bit d.boot.bays.toNat bay

/-- The physical slice numbers present, ascending: slice j of bay b of die d is 40 d + 8 b + j. -/
def slicesPresent (d : Dev) : List Nat := (List.range 160).filter fun s => bayPresent d (s / 8)

/-- The physical slice number of a sector's home. -/
def homeSlice (d : Dev) (pa : Nat) : Nat :=
  let s := pa / 64
  let h := (s % 2 ^ 32) ^^^ (s / 2 ^ 32 % 2 ^ 18)
  let l := slicesPresent d
  l.getD (h % l.length) 0

/-! ### Translation -/

/-- The three kinds of access that a leaf permits (Table 6.3). -/
inductive AccessKind where
  | read | write | fetch
  deriving DecidableEq, Repr

/-- The result of a walk (R125, R126). -/
inductive Walk where
  | leaf (pa size : Nat) (r w x : Bool)
  | bad
  deriving DecidableEq, Repr

/-- Bytes that a leaf maps at a level (Table 6.2). -/
def leafSize (level : Nat) : Nat :=
  match level with
  | 0 => 2 ^ 16
  | 1 => 2 ^ 21
  | _ => 2 ^ 30

/-- The index of a level (Table 6.2). -/
def levelIndex (level va : Nat) : Nat :=
  match level with
  | 0 => va / 2 ^ 16 % 32
  | 1 => va / 2 ^ 21 % 512
  | 2 => va / 2 ^ 30 % 512
  | _ => va / 2 ^ 39 % 131072

/-- Walk from a table at a level (R125): a V of 0, a reserved bit, a misaligned leaf, a T forbidden at the
level, a leaf in a reserved region and a leaf above the memory present are all bad (R126, R352, R358, log entry 36). -/
def walkFrom (d : Dev) (va : Nat) : Nat → Nat → Walk
  | level, table =>
    let e := memNat d (table + 8 * levelIndex level va) 8
    let adr := Bits.field e 55 12 * 4096
    if ¬ Bits.bit e 0 ∨ Bits.field e 63 56 ≠ 0 ∨ Bits.field e 11 5 ≠ 0 then .bad
    else
      match level, Bits.bit e 1 with
      | 0, true => .bad
      | l + 1, true => walkFrom d va l adr
      | 3, false => .bad
      | l, false =>
        if adr % leafSize l ≠ 0 ∨ 4 ≤ region adr ∨ beyondTop d adr (leafSize l) then .bad
        else .leaf adr (leafSize l) (Bits.bit e 2) (Bits.bit e 3) (Bits.bit e 4)
  termination_by structural level => level

/-- The TLB entry that covers an address of a function. -/
def lookupTlb (l : List TlbEntry) (vf va : Nat) : Option TlbEntry :=
  l.find? fun e => e.vf = vf && e.va ≤ va && va < e.va + e.size

/-- The translation of an address for a core: micro-TLB, bay TLB, or a walk from the function's root (R127, R128). -/
def translate (d : Dev) (core va : Nat) : Option TlbEntry :=
  let k := getCore d core
  match lookupTlb k.utlb k.tenant va with
  | some e => some e
  | none =>
    match lookupTlb (Sparse.get d.bayTlb [] (core / 8)) k.tenant va with
    | some e => some e
    | none =>
      match walkFrom d va 3 k.root with
      | .leaf pa size r w x => some { vf := k.tenant, va := va / size * size, size := size, pa := pa, r := r, w := w, x := x }
      | .bad => none

/-- Keep an entry among the newest n. -/
def keepTlb (l : List TlbEntry) (e : TlbEntry) (n : Nat) : List TlbEntry := if l.contains e then l else (e :: l).take n

/-- Hold a used translation in the micro-TLB and the bay TLB (R127). -/
def fillTlb (d : Dev) (core : Nat) (e : TlbEntry) : Dev :=
  let d := modCore d core fun k => { k with utlb := keepTlb k.utlb e 64 }
  { d with bayTlb := Sparse.insert d.bayTlb (core / 8) (keepTlb (Sparse.get d.bayTlb [] (core / 8)) e 2048) }

/-- Whether a leaf permits an access (R126). -/
def permits (e : TlbEntry) (k : AccessKind) : Bool :=
  match k with
  | .read => e.r
  | .write => e.w
  | .fetch => e.x

/-- The physical address of a byte under a translation. -/
def physical (e : TlbEntry) (va : Nat) : Nat := e.pa + (va - e.va)

/-- Translate an access of a core (R126): TRANSLATION, then PERMISSION. -/
def translateFor (d : Dev) (core va : Nat) (k : AccessKind) : Except Cause TlbEntry :=
  if 2 ^ 56 ≤ va then .error .translation
  else
    match translate d core va with
    | none => .error .translation
    | some e => if permits e k then .ok e else .error .permission

/-! ### Signatures and boards -/

/-- The four bits of a sector in a signature (R131). -/
def sigHash (s j : Nat) : Nat :=
  (Bits.field s 8 0 + (2 * j + 1) * Bits.field s 17 9 + (j + 1) * Bits.field s 26 18
    + Bits.field s 35 27 + Bits.field s 44 36 + Bits.field s 49 45) % 512

/-- The signature of one sector. -/
def sigOf (s : Nat) : BitVec 512 :=
  (1#512 <<< sigHash s 0) ||| (1#512 <<< sigHash s 1) ||| (1#512 <<< sigHash s 2) ||| (1#512 <<< sigHash s 3)

/-- A sector matches a signature when all four of its bits are set. -/
def sigMatch (g : BitVec 512) (s : Nat) : Bool := g &&& sigOf s = sigOf s

/-- The sectors of a range of addresses. -/
def sectorsOf (pa n : Nat) : List Nat :=
  if n = 0 then [] else (List.range ((pa + n - 1) / 64 - pa / 64 + 1)).map fun i => pa / 64 + i

/-- The signature of the sectors of a list of (address, length) ranges. -/
def sigOfRanges (l : List (Nat × Nat)) : BitVec 512 :=
  l.foldl (fun g r => (sectorsOf r.1 r.2).foldl (fun g s => g ||| sigOf s) g) 0

/-- Add a signature to a core's pending signatures of all five levels, GANG (2) to SYSTEM (6) (R131). -/
def addPending (k : Core) (g : BitVec 512) : Core :=
  { k with pending := [2, 3, 4, 5, 6].foldl (fun m q => Sparse.modify m 0 q (· ||| g)) k.pending }

/-- The lowest core of the gang that a core belongs to: the base of the point of any of its streams. -/
def gangBase (k : Core) (core : Nat) : Nat :=
  match (streamsOf k).findSome? fun i => (coreStream k i).point with
  | some p => p.base
  | none => core

/-- The key of a board in `Dev.boards`: dies 0 to 3, the device 4, the system 5, tenants from 8 on. -/
def boardKey (k : Core) (core level : Nat) : Nat :=
  match level with
  | 3 => core / 40
  | 4 => 4
  | 5 => 8 + k.tenant
  | _ => 5

/-- The board of a level whose instance contains the core; the gang's board lies with its barrier. -/
def boardAt (d : Dev) (core level : Nat) : Board :=
  let k := getCore d core
  if level = 2 then (getGang d (gangBase k core)).board else getBoard d (boardKey k core level)

/-- Post a signature under the next sequence number; a board keeps the latest 64 (R132). -/
def postBoard (b : Board) (g : BitVec 512) : Board := { head := b.head + 1, sigs := (g :: b.sigs).take 64 }

/-- Post a signature to the board of one level. -/
def postLevel (d : Dev) (core level : Nat) (g : BitVec 512) : Dev :=
  let k := getCore d core
  if level = 2 then
    let b := gangBase k core
    let x := getGang d b
    setGang d b { x with board := postBoard x.board g }
  else
    let key := boardKey k core level
    { d with boards := Sparse.insert d.boards key (postBoard (getBoard d key) g) }

/-- The levels GANG (2) up to a scope (Table 6.4). -/
def levelsTo (scope : Nat) : List Nat := [2, 3, 4, 5, 6].filter fun q => q ≤ scope

/-- Post one signature to the boards of GANG up to a scope (R136). -/
def postTo (d : Dev) (core scope : Nat) (g : BitVec 512) : Dev :=
  (levelsTo scope).foldl (fun d q => postLevel d core q g) d

/-! ### The L1 data cache -/

/-- The sectors that hold a dirty byte, ascending. -/
def dirtySectors (k : Core) : List Nat := (k.l1dirty.map fun c => c.1 / 64).dedup

/-- The cells of one sector. -/
def sectorCells (m : List Host.Cell) (s : Nat) : List Host.Cell := m.filter fun c => c.1 / 64 = s

/-- The dirty bytes of one sector, by address. -/
def dirtyCells (k : Core) (s : Nat) : List Host.Cell :=
  (List.range 64).filterMap fun j => (Sparse.find? k.l1dirty (64 * s + j)).map fun b => (64 * s + j, b)

/-- A poison mark joins a list of marks. -/
def addPoison (l : List Nat) (x : Nat) : List Nat := if l.contains x then l else l ++ [x]

/-- Write the dirty bytes of one sector to its home and record the sector as pending (R130, R131). The bytes
become clean. A sector that is poisoned in the L1 poisons its home (R359, log entry 98). -/
def writeBack (d : Dev) (core s : Nat) : Dev :=
  let k := getCore d core
  let cells := dirtyCells k s
  if cells.isEmpty then d
  else
    let d := homeRuns d (runsOf cells)
    let d := if k.poisonL1.contains s then { d with poison := addPoison d.poison s } else d
    modCore d core fun k =>
      addPending { k with l1dirty := k.l1dirty.filter fun c => c.1 / 64 ≠ s
                          l1clean := cells.foldl (fun m c => Sparse.insert m c.1 c.2) k.l1clean } (sigOf s)

/-- Drop the clean bytes of the sectors that a test picks, and the poison of those that hold no dirty byte. -/
def dropClean (k : Core) (p : Nat → Bool) : Core :=
  { k with l1clean := k.l1clean.filter fun c => !p (c.1 / 64)
           poisonL1 := k.poisonL1.filter fun s => !p s || k.l1dirty.any fun c => c.1 / 64 = s }

/-- The L1 evicts a sector (R130): write back, then nothing of it is held. -/
def evictSector (d : Dev) (core s : Nat) : Dev :=
  modCore (writeBack d core s) core fun k => dropClean k (· = s)

/-- Write every dirty byte of the core's L1 to its home. -/
def writeBackAll (d : Dev) (core : Nat) : Dev :=
  (dirtySectors (getCore d core)).foldl (fun d s => writeBack d core s) d

/-- Post the core's pending signature of one level and clear it (R134). -/
def postPending (d : Dev) (core level : Nat) : Dev :=
  let g := Sparse.get (getCore d core).pending 0 level
  modCore (postLevel d core level g) core fun k => { k with pending := Sparse.insert k.pending level 0 }

/-- publish(s) of R134. The writes outside the package are acknowledged at once in this model. -/
def publish (d : Dev) (core scope : Nat) : Dev :=
  (levelsTo scope).foldl (fun d q => postPending d core q) (writeBackAll d core)

/-- A core's number for a board: one per level, and one per virtual function at TENANT (R132). -/
def appliedKey (k : Core) (level : Nat) : Nat := if level = 5 then 8 + k.tenant else level

/-- The board number that a core has applied, by level. -/
def appliedAt (k : Core) (level : Nat) : Nat := Sparse.get k.applied 0 (appliedKey k level)

/-- Apply the board of one level (R135). -/
def applyBoard (d : Dev) (core level : Nat) : Dev :=
  let b := boardAt d core level
  modCore d core fun k =>
    let n := b.head - appliedAt k level
    let k := if n > 64 then dropClean k fun _ => true
             else (b.sigs.take n).foldl (fun k g => dropClean k (sigMatch g)) k
    { k with applied := Sparse.insert k.applied (appliedKey k level) b.head }

/-- acquire(s) of R135. -/
def acquire (d : Dev) (core scope : Nat) : Dev :=
  let d := (levelsTo scope).foldl (fun d q => applyBoard d core q) d
  if scope = 6 then modCore d core fun k => dropClean k fun s => outside (64 * s) else d

/-- A byte as a sequencer load sees it: dirty, else clean, else the home's (R129). -/
def l1Byte (d : Dev) (k : Core) (pa : Nat) : Byte :=
  match Sparse.find? k.l1dirty pa with
  | some b => b
  | none =>
    match Sparse.find? k.l1clean pa with
    | some b => b
    | none => (homeBytes d pa 1).headD 0

/-- The bytes of a load through the core's L1. -/
def l1Bytes (d : Dev) (core pa n : Nat) : List Byte :=
  let k := getCore d core
  (List.range n).map fun i => l1Byte d k (pa + i)

/-- The L1 holds a byte. -/
def l1Has (k : Core) (pa : Nat) : Bool := (Sparse.find? k.l1dirty pa).isSome || (Sparse.find? k.l1clean pa).isSome

/-- A byte of the load lies in a poisoned sector of the L1, or would be read from a poisoned sector at its home (R359). -/
def l1Poisoned (d : Dev) (core pa n : Nat) : Bool :=
  let k := getCore d core
  (List.range n).any fun i => if l1Has k (pa + i) then k.poisonL1.contains ((pa + i) / 64) else homePoisoned d (pa + i) 1

/-- The L1 holds every byte of the load. -/
def l1Holds (d : Dev) (core pa n : Nat) : Bool :=
  let k := getCore d core
  (List.range n).all fun i => l1Has k (pa + i)

/-- The sectors that the L1 can hold: 320 KiB (Table 1.1). -/
def l1Sectors : Nat := 5120

/-- The sectors of a list of cells in rising order, each once. -/
def sectorsIn : List Host.Cell → List Nat
  | [] => []
  | c :: r =>
    match sectorsIn r with
    | s :: t => if c.1 / 64 = s then s :: t else c.1 / 64 :: s :: t
    | [] => [c.1 / 64]

/-- The L1 holds more sectors than it has room for: one of them is due to leave (R7, R130, log entry 22). -/
def l1Full (k : Core) : Bool :=
  decide (l1Sectors < k.l1dirty.length + k.l1clean.length) && decide (l1Sectors < (sectorsIn k.l1dirty ++ sectorsIn k.l1clean).dedup.length)

/-- The internal words that bytes expand to, from their first byte on; one that a reserved prefix begins is one word of 2 bytes. -/
def wordsIn : Nat → List Byte → Nat
  | 0, _ => 0
  | _, [] => 0
  | n + 1, b :: r => 1 + wordsIn n ((b :: r).drop (((formOf b).map formLen).getD 2))

/-- The internal words that a filled sector takes; one that could not be fetched takes one poison word. -/
def lineWords (l : IcacheLine) : Nat :=
  match l with
  | .bytes l => wordsIn 32 l
  | _ => 1

/-- The newest sectors that n words have room for, of a list that begins with the newest. -/
def fitting : Nat → List (Nat × IcacheLine) → List (Nat × IcacheLine)
  | _, [] => []
  | n, p :: r => if lineWords p.2 ≤ n then p :: fitting (n - lineWords p.2) r else []

/-- The instruction cache with a sector in it: 4,096 internal words (Table 1.1), the sectors held longest leaving first (log entry 21). -/
def holdSector (m : List (Nat × IcacheLine)) (s : Nat) (l : IcacheLine) : List (Nat × IcacheLine) :=
  (fitting 4096 ((s, l) :: (Sparse.erase m s).reverse)).reverse

/-- The L1 holds n bytes from pa on: those that are not dirty are clean, read from the home where they are missing. -/
def l1Fill (d : Dev) (core pa n : Nat) : Dev :=
  let bytes := l1Bytes d core pa n
  let d' := modCore d core fun k =>
    { k with l1clean := (List.range n).foldl (fun m i =>
        if (Sparse.find? k.l1dirty (pa + i)).isSome then m else Sparse.insert m (pa + i) (bytes.getD i 0)) k.l1clean }
  afterRead d' pa

/-- The L1 after a store: the bytes are dirty (R129). -/
def l1Store (d : Dev) (core pa : Nat) (bytes : List Byte) : Dev :=
  modCore d core fun k =>
    { k with l1dirty := (List.range bytes.length).foldl (fun m i => Sparse.insert m (pa + i) (bytes.getD i 0)) k.l1dirty
             l1clean := k.l1clean.filter fun c => c.1 < pa ∨ pa + bytes.length ≤ c.1 }

/-! ### Engine writes to global memory (R123, R131, R136) -/

/-- A write of a core's engine performed at the home: it enters the core's pending signatures and drops the
matching clean bytes of the core's own L1. -/
def engineStore (d : Dev) (core pa : Nat) (bytes : List Byte) : Dev :=
  modCore (homeStore d pa bytes) core fun k =>
    let l := sectorsOf pa bytes.length
    dropClean (addPending k (sigOfRanges [(pa, bytes.length)])) fun s => l.contains s

/-! ### Event rings (Table 17.8) -/

/-- Write an event: ARG, TICK, SOURCE, TYPE; with no ring it is dropped. EVT_HEAD counts events written. -/
def writeEvent (d : Dev) (ty source : Nat) (arg : Word) : Dev :=
  if d.ctl.evtLog2n = 0 then d
  else
    let at_ := d.ctl.evtBase.toNat + 32 * (d.ctl.evtHead.toNat % 2 ^ d.ctl.evtLog2n)
    let bytes := Bits.toBytes 8 ty ++ Bits.toBytes 8 source ++ Bits.toBytes 8 d.tick.toNat ++ Bits.toBytes 8 arg.toNat
    let d := homeStore d at_ bytes
    { d with ctl := { d.ctl with evtHead := d.ctl.evtHead + 1 } }

end Sys2Proof.Machine
end

