-- ==== Sys2Proof/Machine/Ops.lean ====
section
/-!
DEFINITION. The named operations that the meanings share: taking a fault and returning from one (R75 to R79,
R366), the frame of every instruction (R33, R45, R60), registers (R62, R63, R65), the scratchpad and its
range checker (R19 to R21, R138), scalar accesses with their checks in order (R95, R96), token counters
(R22, R23), sync words (R26, R27) and the engine queues (R15 to R18, R72).
-/

namespace Sys2Proof.Machine

/-! ### Taking a fault -/

/-- The code of a cause (Table 4.7). -/
def causeCode (c : Cause) : Nat :=
  match c with
  | .illegalEncoding => 0x01 | .illegalInstruction => 0x02 | .fetchFault => 0x03 | .fetchEcc => 0x04
  | .stackFault => 0x05 | .align => 0x06 | .translation => 0x07 | .permission => 0x08 | .scope => 0x09
  | .tokenCeiling => 0x0A | .address => 0x0B | .queueCfg => 0x0C | .lease => 0x0D | .boundTrap => 0x0E
  | .formatTable => 0x0F | .poison => 0x10 | .kvRange => 0x11 | .ruleFault => 0x12 | .splitJoin => 0x13
  | .divide => 0x14 | .trap => 0x15 | .watchFull => 0x16 | .syncWord => 0x17 | .frontier => 0x18 | .residency => 0x19

/-- STATUS as it reads: PPEND, FPEND, INH; RESUME and DISCARD read 0 (Table 4.5). -/
def statusWord (y : SysRegs) : Word :=
  (if y.ppend then 4 else 0) ||| (if y.fpend then 2 else 0) ||| (if y.inh then 1 else 0)

/-- EENG of a stream and an engine code (Table 4.5). -/
def eengWord (stream engine : Nat) : Word := BitVec.ofNat 64 (stream * 256 + engine)

/-- The fault record of Table 17.12. -/
def faultRecord (d : Dev) (c i : Nat) (dbg : Bool) : List Byte :=
  let t := getStream d c i
  let y := t.sys
  let p := t.point
  let w8 (x : Nat) := Bits.toBytes 8 x
  let w4 (x : Nat) := Bits.toBytes 4 x
  w8 ((p.map fun p => (handleOf p.serial p.launch).toNat).getD 0)
    ++ w4 ((p.map (·.o)).getD 0) ++ w4 ((p.map (·.m)).getD 0) ++ w4 ((p.map (·.n)).getD 0)
    ++ w4 (rankOf t % 8 + 256 * i + (if dbg then 65536 else 0))
    ++ w8 (if dbg then 0 else y.cause.toNat) ++ w8 y.epc.toNat
    ++ w8 y.ecmd.toNat ++ w8 y.eeng.toNat ++ w8 y.estat.toNat
    ++ w8 y.eaddr.toNat ++ w8 (statusWord y).toNat
    ++ List.replicate 176 0

/-- Report a suspension to system software: the record at FAULTBUF, then an event of type 8 or 9 (R366). -/
def reportSuspension (d : Dev) (c i : Nat) (dbg : Bool) : Dev :=
  let d := homeStore d (d.ctl.faultBuf.toNat + 256 * (4 * c + i)) (faultRecord d c i dbg)
  let h := ((getStream d c i).point.map fun p => handleOf p.serial p.launch).getD 0
  writeEvent d (if dbg then 9 else 8) (4 * c + i) h

/-- The fault registers as a fault writes them (R75, R76). -/
def faultRegs (y : SysRegs) (f : PendingFault) (engine : Bool) (epc : Word) : SysRegs :=
  { y with cause := BitVec.ofNat 9 ((if engine then 256 else 0) + causeCode f.cause)
           epc := epc, ecmd := f.ecmd, eeng := f.eeng, estat := f.estat, eaddr := f.eaddr }

/-- DELEG bits 0, 3, 7, 24 and 25 read 0 and ignore writes (Table 4.5). -/
def delegMask : BitVec 26 := 0x0FFFF76

/-- The fault goes to the in-point handler (R78); FETCH_FAULT, TRANSLATION, FRONTIER and RESIDENCY never do, whatever DELEG holds (R49). -/
def delegated (y : SysRegs) (f : PendingFault) : Bool :=
  Bits.bit (y.deleg &&& delegMask).toNat (causeCode f.cause) && decide (y.trapVec ≠ 0) && !y.inh && !f.nodel

/-- TAKING A FAULT (R75, R76, R78): the fault registers are written with EPC; the fault goes to the in-point
handler, with INH set and the pc at TRAP_VEC, or it suspends the stream and is reported (R366). -/
def deliverFault (d : Dev) (c i : Nat) (f : PendingFault) (engine : Bool) (epc : Word) : Dev :=
  let t := getStream d c i
  let y := faultRegs t.sys f engine epc
  if delegated t.sys f then
    setStream d c i
      { t with sys := { y with inh := true }, pc := t.sys.trapVec, delay := none, link := f.link, waitAxis := [], wait := none }
  else
    reportSuspension
      (setStream d c i { t with sys := y, pc := epc, delay := none, suspended := true, slink := f.link, wait := none }) c i false

/-- A precise fault of the bundle being issued: nothing of the bundle takes effect (R75). `isw` is the
internal status word that the fault's own rule gives. -/
def takeFault (cause : Cause) (eaddr : Word) (isw : Nat) (epc : Word) (s : State) : State :=
  { s with
    dev := deliverFault s.pre s.cur.core s.cur.stream
      { age := 0, cause := cause, eeng := eengWord s.cur.stream 0, estat := BitVec.ofNat 64 (isw * 2 ^ 32), eaddr := eaddr }
      false epc
    status := .faulted }

/-- A precise fault with EPC at the instruction. -/
def faultAt (cause : Cause) (eaddr : Word) (s : State) : State := takeFault cause eaddr 0 s.cur.pc s

/-- The instruction cannot proceed: nothing of its bundle takes effect (R63). -/
def stall (s : State) : State := { s with dev := s.pre, status := .stalled }

/-- Remove the run of one age from a core. -/
def dropRun (k : Core) (age : Nat) : Core := { k with running := k.running.filter fun r => r.cmd.age ≠ age }

/-- Apply a function to the run of one age. -/
def modRun (k : Core) (age : Nat) (f : Run → Run) : Core :=
  { k with running := k.running.map fun r => if r.cmd.age = age then f r else r }

/-- The run of one age. -/
def findRun (k : Core) (age : Nat) : Option Run := k.running.find? fun r => r.cmd.age = age

/-- A stopped run as it resumes: at its step, or after BOUND_TRAP at the k-block after the recorded one (R79, R242). -/
def resumeRun (r : Run) : Run :=
  match r.stopped with
  | none => r
  | some f =>
    let r := { r with stopped := none, held := false, resumed := true }
    if f.cause = .boundTrap then { r with step := f.step + 1 } else { r with step := f.step }

/-- A faulted command that has gone on no longer holds its queue stopped (R76, R79, R281). -/
def releaseQueue (t : Stream) (age : Nat) : Stream :=
  let free (q : Queue) : Queue := { q with stopped := q.stopped.erase age }
  { t with qcpy := free t.qcpy, qvec := free t.qvec, qmtx := free t.qmtx }

/-- Resume a faulted command of a stream, or discard it (R79). A command that has completed and only failed its post is not
discarded: both choices let its queue go on (R281). -/
def resumeCommand (d : Dev) (c i age : Nat) (discard : Bool) : Dev :=
  modCore d c fun k =>
    let stopped := (findRun k age).any fun r => r.stopped.isSome
    let k := if discard && stopped then dropRun k age else modRun k age resumeRun
    modCoreStream k i fun t => releaseQueue t age

/-- RETURNING FROM A FAULT (R79): INH becomes 0, the stream issues next at EPC, and an engine command that
CAUSE.ENGINE marks as faulted resumes or is discarded. -/
def returnFromFault (d : Dev) (c i : Nat) (discard : Bool) : Dev :=
  let t := getStream d c i
  let d := setStream d c i 
    { t with sys := { t.sys with inh := false }, pc := t.sys.epc, delay := none, link := none }
  match Bits.bit t.sys.cause.toNat 8, t.link with
  | true, some age => resumeCommand d c i age discard
  | _, _ => d

/-! ### The frame of every instruction -/

/-- The predicate's gate as the bundle found it (R45). -/
def gateOpen (f : Fields) (s : State) : Bool :=
  decide (f.pred = 0) || Bits.bit (preStream s).gates.toNat (f.pred.toNat - 1)

/-- Every instruction: a failed decode check raises ILLEGAL_INSTRUCTION (R60); under a gate that is 0 nothing
changes (R33); otherwise its own effect. -/
def instr (legal : Bool) (f : Fields) (s : State) (body : State → State) : Result :=
  .next (if legal then (if gateOpen f s then body s else s) else faultAt .illegalInstruction 0 s)

/-! ### Registers -/

/-- A scalar register of the instruction's cluster; s0 reads zero (R62, R63, Table 4.2). -/
def readS (s : State) (r : BitVec 8) : Word :=
  if r = 0 then 0 else Sparse.get (coreCluster (preCore s) (clusterOf s)).s 0 r.toNat

/-- Write a scalar register; a write to s0 is discarded (R82). -/
def writeS (s : State) (r : BitVec 8) (v : Word) : State :=
  if r = 0 then s
  else onCore s fun k => modCoreCluster k (clusterOf s) fun u => { u with s := Sparse.set u.s 0 r.toNat v }

/-- An address register of the instruction's cluster. -/
def readA (s : State) (r : BitVec 8) : Word := Sparse.get (coreCluster (preCore s) (clusterOf s)).a 0 r.toNat

def writeA (s : State) (r : BitVec 8) (v : Word) : State :=
  onCore s fun k => modCoreCluster k (clusterOf s) fun u => { u with a := Sparse.set u.a 0 r.toNat v }

def readC (s : State) (r : Nat) : Bool := Bits.bit (preStream s).conds.toNat r

def writeC (s : State) (r : Nat) (v : Bool) : State :=
  onStream s fun t => { t with conds := BitVec.ofNat 8 (Bits.setField t.conds.toNat r r (if v then 1 else 0)) }

def readB (s : State) (r : BitVec 8) : Word := Sparse.get (preStream s).targets 0 r.toNat

def writeB (s : State) (r : BitVec 8) (v : Word) : State :=
  onStream s fun t => { t with targets := Sparse.set t.targets 0 r.toNat v }

/-- The rounding mode of FRM as the bundle found it. -/
def frmOf (s : State) : RMode := (preStream s).sys.frm

/-- OR flags into FFLAGS (R82). -/
def raiseFlags (s : State) (fl : Flags) : State :=
  onStream s fun t => { t with sys := { t.sys with fflags := t.sys.fflags ||| fl.toBits } }

/-! ### Addresses -/

/-- The space tag of an address (R65). -/
def tagOf (a : Word) : Nat := a.toNat / 2 ^ 60

/-- addr(tag, x) of R93. -/
def mkAddr (tag x : Nat) : Word := BitVec.ofNat 64 (tag * 2 ^ 60 + x % 2 ^ 60)

/-- An address moved by a signed amount, its tag kept (R93, R95). -/
def addAddr (a x : Word) : Word := mkAddr (tagOf a) (a + x).toNat

/-- The last offset of a scratchpad. -/
def spmLast : Nat := 0x3FFFFF

/-! ### The scratchpad -/

/-- A byte of scratchpad that nothing has written reads 0 (log entry 5). -/
def spmBytes (d : Dev) (core off n : Nat) : List Byte := Sparse.getRange (getCore d core).spm 0 off n
def spmNat (d : Dev) (core off n : Nat) : Nat := Bits.ofBytes (spmBytes d core off n)

/-- Write scratchpad bytes; a granule overwritten whole is no longer poisoned. -/
def coreSpmWrite (k : Core) (off : Nat) (bytes : List Byte) : Core :=
  { k with spm := Sparse.setRange k.spm 0 off bytes
           poisonSpm := k.poisonSpm.filter fun g => ¬ (off ≤ 64 * g ∧ 64 * g + 64 ≤ off + bytes.length) }

def spmWrite (d : Dev) (core off : Nat) (bytes : List Byte) : Dev :=
  if bytes.isEmpty then d else modCore d core fun k => coreSpmWrite k off bytes

/-- A byte of the range lies in a poisoned granule (R359). -/
def spmPoisoned (k : Core) (off n : Nat) : Bool := k.poisonSpm.any fun g => off < 64 * g + 64 && 64 * g < off + n

/-! ### Queue regions and the range checker -/

/-- The bound queue regions of a core as (base, bytes) (R18). -/
def queueRegions (k : Core) : List (Nat × Nat) :=
  [0, 1, 2, 3].flatMap fun i => allQueues.filterMap fun q =>
    (getQueue (coreStream k i) q).bound.map fun b => (b.base, 32 * b.depth)

/-- The range touches a bound queue region (R18). -/
def touchesQueue (k : Core) (off n : Nat) : Bool :=
  (queueRegions k).any fun r => off < r.1 + r.2 && r.1 < off + n

/-- The range touches, on a core that the template's BAYS cover, a persistent region of a resident slot that the
core's point does not belong to (R327). -/
def foreignRegion (d : Dev) (core off n : Nat) : Bool :=
  d.slots.any fun p =>
    decide ((getCore d core).slot ≠ some p.1) && Bits.bit p.2.nrec.toNat (256 + core / 8) &&
      decide (0 < p.2.psize) && off < p.2.poff + p.2.psize && p.2.poff < off + n

/-- The region of a queue touches another slot's persistent region (R327). -/
def queueForeign (d : Dev) (core : Nat) (q : Queue) : Bool := q.bound.any fun b => foreignRegion d core b.base (32 * b.depth)

/-- The commands of a queue that have not started. -/
def queuedCmds (q : Queue) : List Cmd :=
  q.entries.filterMap fun e =>
    match e with
    | .cmd c => some c
    | .fence _ _ => none

/-- Every uncompleted entry of the range checker: queued commands and started ones that have not completed (R20). -/
def checkerEntries (k : Core) : List Cmd :=
  ([0, 1, 2, 3].flatMap fun i => allQueues.flatMap fun q => queuedCmds (getQueue (coreStream k i) q))
    ++ (k.running.filter fun r => !r.done).map (·.cmd)

/-- Two inclusive byte intervals meet in a granule (R138). -/
def meets (p q : Nat × Nat) : Bool := p.1 / 64 ≤ q.2 / 64 && q.1 / 64 ≤ p.2 / 64

/-- blocks(older, c) of R138, for ranges. -/
def rangesBlock (older : Cmd) (reads writes : List (Nat × Nat)) : Bool :=
  (older.writes.any fun w => (reads ++ writes).any (meets w)) || (older.reads.any fun v => writes.any (meets v))

/-- An access of the sequencer is held by an uncompleted entry (R19). -/
def accessHeld (k : Core) (reads writes : List (Nat × Nat)) : Bool :=
  (checkerEntries k).any fun c => rangesBlock c reads writes

/-- The range checker holds 256 entries (R20). -/
def checkerFull (k : Core) : Bool := 256 ≤ (checkerEntries k).length

/-! ### Scalar accesses -/

/-- Where a scalar access goes (Table 5.6). -/
inductive Place where
  | global (va : Nat)
  | spm (core off : Nat) (isLocal : Bool)
  deriving DecidableEq, Repr

/-- The place of an address for a stream of the given gang rank on a core, or none where its tag or layout breaks
Table 5.6. -/
def placeAt (k : Core) (core rank : Nat) (ea : Word) : Option Place :=
  let x := ea.toNat
  let off := x % 2 ^ 22
  match tagOf ea with
  | 0 => some (.global (x % 2 ^ 60))
  | 8 => if Bits.field x 59 22 = 0 then some (.spm core off true) else none
  | 9 =>
    let r := Bits.field x 26 24
    if Bits.field x 59 27 = 0 ∧ Bits.field x 23 22 = 0 ∧ r < k.gangSize then
      if r = rank then some (.spm core off true) else some (.spm (gangBase k core + r) off false)
    else none
  | _ => none

/-- The place of an effective address of the issuing stream. -/
def placeOf (s : State) (ea : Word) : Option Place := placeAt (preCore s) s.cur.core (rankOf (preStream s)) ea

/-- What the checks of an access answer: it goes on, it faults, or it is held. -/
inductive Verdict where
  | go (p : Place)
  | raise (c : Cause)
  | wait
  deriving DecidableEq, Repr

/-- A scratchpad range ends by the last offset. -/
def inSpm (off n : Nat) : Bool := off + n ≤ spmLast + 1

/-- The stack window (R73): tag 0x8 and every byte inside STK_BASE to STK_LIMIT. -/
def inStack (y : SysRegs) (ea : Word) (n : Nat) : Bool :=
  decide (tagOf ea = 8) && decide (y.stkBase.toNat ≤ ea.toNat % 2 ^ 60) && decide (ea.toNat % 2 ^ 60 + n ≤ y.stkLimit.toNat)

/-- The checks of a scalar access in the order of R96 (with R327 beside QUEUE_CFG), then the hold of the range checker (R19, R20), then
POISON for a read. `stack` says that the access goes through a15. -/
def checkAccess (s : State) (ea : Word) (n : Nat) (stack write : Bool) : Verdict :=
  match placeOf s ea with
  | none => .raise .address
  | some p =>
    let inRange := match p with | .spm _ off _ => inSpm off n | .global _ => true
    if !inRange then .raise .address
    else if ea.toNat % n ≠ 0 then .raise .align
    else if stack && !inStack (preStream s).sys ea n then .raise .stackFault
    else
      match p with
      | .spm c off own =>
        if touchesQueue (getCore s.dev c) off n then .raise .queueCfg
        else if foreignRegion s.dev c off n then .raise .permission
        else if own && (checkerFull (curCore s) ||
            accessHeld (preCore s) (if write then [] else [(off, off + n - 1)]) (if write then [(off, off + n - 1)] else [])) then .wait
        else if !write && spmPoisoned (getCore s.dev c) off n then .raise .poison
        else .go p
      | .global va =>
        match translateFor s.dev s.cur.core va (if write then .write else .read) with
        | .error c => .raise c
        | .ok e => if !write && l1Poisoned s.dev s.cur.core (physical e va) n then .raise .poison else .go p

/-- The physical address of a global virtual address that has passed its checks. -/
def physOf (s : State) (va : Nat) : Nat :=
  match translate s.dev s.cur.core va with
  | some e => physical e va
  | none => 0

/-- Keep a used translation. -/
def noteTlb (s : State) (va : Nat) : State :=
  match translate s.dev s.cur.core va with
  | some e => onDev s fun d => fillTlb d s.cur.core e
  | none => s

/-- The bytes that a load at a checked place returns. -/
def loadBytes (s : State) (p : Place) (n : Nat) : List Byte :=
  match p with
  | .spm c off _ => spmBytes s.dev c off n
  | .global va => l1Bytes s.dev s.cur.core (physOf s va) n

/-- The state after a load: where a byte of it was missing, the L1 holds its sector (R129, log entry 22). -/
def afterLoad (s : State) (p : Place) (n : Nat) : State :=
  match p with
  | .spm _ _ _ => s
  | .global va =>
    let pa := physOf s va
    noteTlb (if l1Holds s.dev s.cur.core pa n then s else onDev s fun d => l1Fill d s.cur.core (64 * (pa / 64)) 64) va

/-- The state after a store at a checked place. -/
def storeBytes (s : State) (p : Place) (bytes : List Byte) : State :=
  match p with
  | .spm c off _ => onDev s fun d => spmWrite d c off bytes
  | .global va => noteTlb (onDev s fun d => l1Store d s.cur.core (physOf s va) bytes) va

/-- A checked load of n bytes: the value goes to `k`. EADDR receives ea (R96). -/
def loading (s : State) (ea : Word) (n : Nat) (stack : Bool) (k : Nat → State → State) : State :=
  match checkAccess s ea n stack false with
  | .raise c => faultAt c ea s
  | .wait => stall s
  | .go p => k (Bits.ofBytes (loadBytes s p n)) (afterLoad s p n)

/-- A checked store of n bytes. -/
def storing (s : State) (ea : Word) (n : Nat) (stack : Bool) (v : Word) (k : State → State) : State :=
  match checkAccess s ea n stack true with
  | .raise c => faultAt c ea s
  | .wait => stall s
  | .go p => k (storeBytes s p (Bits.toBytes n v.toNat))

/-! ### Token counters -/

def getToken (k : Core) (t : Nat) : Token := Sparse.get k.tokens {} t
def setToken (k : Core) (t : Nat) (v : Token) : Core := { k with tokens := Sparse.insert k.tokens t v }

/-- post(k) of R23; none when the count would pass the ceiling. -/
def postToken (k : Core) (t : Nat) : Option Core :=
  let x := getToken k t
  if x.ceiling.toNat < x.count.toNat + 1 then none else some (setToken k t { x with count := x.count + 1 })

/-- A post that saturates at the ceiling (R152). -/
def postSaturating (k : Core) (t : Nat) : Core := (postToken k t).getD k

/-! ### Sync words -/

/-- A sync word of Table 1.6. -/
structure SyncWord where
  target   : Nat
  count    : Nat
  gen      : Nat
  armed    : Bool
  auto     : Bool
  overrun  : Bool
  arrivals : Nat
  deriving DecidableEq, Repr

def readSync (d : Dev) (core off : Nat) : SyncWord :=
  let x := spmNat d core off 32
  { target := Bits.field x 63 0, count := Bits.field x 127 64, gen := Bits.field x 159 128, armed := Bits.bit x 160
    auto := Bits.bit x 161, overrun := Bits.bit x 162, arrivals := Bits.field x 223 192 }

def writeSync (d : Dev) (core off : Nat) (w : SyncWord) : Dev :=
  spmWrite d core off (Bits.toBytes 8 w.target ++ Bits.toBytes 8 w.count ++ Bits.toBytes 4 w.gen
    ++ Bits.toBytes 4 ((if w.armed then 1 else 0) + (if w.auto then 2 else 0) + (if w.overrun then 4 else 0))
    ++ Bits.toBytes 4 w.arrivals ++ Bits.toBytes 4 0)

/-- One arrival of n bytes (R27). -/
def syncStep (w : SyncWord) (n : Nat) : SyncWord :=
  let w := { w with count := (w.count + n) % 2 ^ 64, arrivals := (w.arrivals + 1) % 2 ^ 32 }
  if w.armed then
    if w.target = 0 ∨ w.count = w.target then
      { w with gen := (w.gen + 1) % 2 ^ 32, count := 0, armed := w.auto }
    else if w.target < w.count then { w with overrun := true }
    else w
  else w

def syncArrive (d : Dev) (core off n : Nat) : Dev := writeSync d core off (syncStep (readSync d core off) n)

/-! ### Engine queues -/

/-- The queue holds DEPTH entries that have not started (R17). -/
def queueFull (q : Queue) : Bool :=
  match q.bound with
  | some b => b.depth ≤ q.entries.length
  | none => false

/-- The sequencer writes an entry's 32 bytes at the ring's tail; their layout is left open (R15). -/
def writeQueueBytes (d : Dev) (c : Nat) (q : Queue) : Dev :=
  match q.bound with
  | some b =>
    bumpFresh (spmWrite d c (b.base + 32 * (q.tail % b.depth)) ((List.range 32).map fun j => Config.queueByte d.fresh j))
  | none => d

/-- Put an entry at the tail of a queue. -/
def pushEntry (d : Dev) (c i : Nat) (q : QueueId) (e : QEntry) : Dev :=
  modStream (writeQueueBytes d c (getQueue (getStream d c i) q)) c i fun t =>
    modQueue t q fun x => { x with tail := x.tail + 1, entries := x.entries ++ [e] }

/-- Enqueue a command: it takes the core's next age, the stream's next command index and GEN as its tag (R19,
R25, R72). -/
def enqueueCmd (d : Dev) (c i : Nat) (x : Cmd) : Dev :=
  let k := getCore d c
  let t := coreStream k i
  let x := { x with age := k.nextAge, index := t.cmdIndex, stream := i, split := k.split, gen := t.sys.gen }
  let d := pushEntry d c i (queueOf x.op) (.cmd x)
  modStream (modCore d c fun k => { k with nextAge := k.nextAge + 1 }) c i fun t => { t with cmdIndex := t.cmdIndex + 1 }

/-- An uncompleted command of a stream's queue has started; a held firing has left its queue (R307). -/
def queueRunning (k : Core) (i : Nat) (q : QueueId) : Bool :=
  k.running.any fun r => decide (r.cmd.stream = i) && decide (queueOf r.cmd.op = q) && !r.done && !r.held

/-- Leading generation fences leave a queue whose older commands have all completed (R25); once the stream has halted for a
pre-emption, none does (R331). -/
def popFences (k : Core) (i : Nat) (q : QueueId) : Core :=
  if queueRunning k i q || (coreStream k i).halted then k
  else
    modCoreStream k i fun t =>
      modQueue t q fun x =>
        { x with entries := x.entries.dropWhile fun e => match e with | .fence _ _ => true | .cmd _ => false }

/-- No command of the stream's queue is waiting or running (visibility apart; a held firing has left the queue, R307). -/
def queueDrained (k : Core) (i : Nat) (q : QueueId) : Bool :=
  (getQueue (coreStream k i) q).entries.isEmpty &&
    !queueRunning k i q

/-- Every command of the stream's queue has completed; a generation fence is no command. -/
def queueIdle (k : Core) (i : Nat) (q : QueueId) : Bool :=
  (queuedCmds (getQueue (coreStream k i) q)).isEmpty &&
    !queueRunning k i q

/-- No command of the stream's queue still owes its visibility; a held firing has left the queue (R307). -/
def queueVisible (k : Core) (i : Nat) (q : QueueId) : Bool :=
  !(k.running.any fun r => decide (r.cmd.stream = i) && decide (queueOf r.cmd.op = q) && !r.held)

/-- Every command of the stream's three queues has completed. -/
def streamDrained (k : Core) (i : Nat) : Bool := allQueues.all fun q => queueIdle k i q

/-! ### System software -/

/-- The application cores have started, so that system software can act: a part before Dawn, or held there, accepts nothing but an image
(R356, R357). -/
def softwareRuns (d : Dev) : Bool :=
  match d.boot.phase with
  | .dawn | .noon => true
  | .powerOn | .heldAtDawn _ => false

end Sys2Proof.Machine
end

