-- ==== Sys2Proof/Machine/Operands.lean ====
section
/-!
DEFINITION. Operand forms: element views of 32-bit containers (R44), the immediate, and the scalar arithmetic of
R84 on values of w bits.
-/

namespace Sys2Proof.Machine

/-- view(x, mod) of R44. -/
def viewOf (x : BitVec 32) (m : BitVec 2) : BitVec 32 :=
  let lo := x.extractLsb' 0 16
  let hi := x.extractLsb' 16 16
  match m.toNat with
  | 0 => x
  | 1 => lo ++ lo
  | 2 => hi ++ hi
  | _ => lo ++ hi

/-- merge(z, y, mod) of R44. -/
def mergeOf (z y : BitVec 32) (m : BitVec 2) : BitVec 32 :=
  let ylo := y.extractLsb' 0 16
  let yhi := y.extractLsb' 16 16
  match m.toNat with
  | 0 => y
  | 1 => z.extractLsb' 16 16 ++ ylo
  | 2 => yhi ++ z.extractLsb' 0 16
  | _ => ylo ++ yhi

/-- The low container of a scalar (R65). -/
def container (x : Word) : BitVec 32 := x.setWidth 32

/-- The immediate, sign-extended. -/
def immS (f : Fields) : Word := Bits.sext f.imm

/-- The operations of R84. -/
inductive AluOp where
  | add | sub | mul | mulh | and | or | xor | andn | shl | shr | sha | rot | min | max | sadd | ssub
  deriving DecidableEq, Repr

/-- sv(x, w, sgn) of R84. -/
def signedIf (sgn : Bool) (w x : Nat) : Int := if sgn then Bits.signed w x else (x : Int)

/-- alu(op, a, b, w, sgn) of R84, on unsigned w-bit values. -/
def alu (op : AluOp) (a b w : Nat) (sgn : Bool) : Nat :=
  let sa := signedIf sgn w a
  let sb := signedIf sgn w b
  let lo : Int := if sgn then -((2 ^ (w - 1) : Nat) : Int) else 0
  let hi : Int := if sgn then ((2 ^ (w - 1) : Nat) : Int) - 1 else ((2 ^ w : Nat) : Int) - 1
  match op with
  | .add => (a + b) % 2 ^ w
  | .sub => Bits.wrap w ((a : Int) - (b : Int))
  | .mul => a * b % 2 ^ w
  | .mulh => Bits.wrap w (sa * sb / ((2 ^ w : Nat) : Int))
  | .and => a &&& b
  | .or => a ||| b
  | .xor => a ^^^ b
  | .andn => a &&& (2 ^ w - 1 - b)
  | .shl => if b < w then a * 2 ^ b % 2 ^ w else 0
  | .shr => if b < w then a / 2 ^ b else 0
  | .sha => Bits.wrap w (Bits.signed w a / ((2 ^ (Nat.min b (w - 1)) : Nat) : Int))
  | .rot => (a * 2 ^ (b % w) + a / 2 ^ (w - b % w)) % 2 ^ w
  | .min => if sa ≤ sb then a else b
  | .max => if sb ≤ sa then a else b
  | .sadd => Bits.wrap w (max lo (min hi (sa + sb)))
  | .ssub => Bits.wrap w (max lo (min hi (sa - sb)))

/-- An ALU operation on the elements of two containers. -/
def aluContainer (op : AluOp) (t : Ty) (x z : BitVec 32) : BitVec 32 :=
  let w := tyWidth t
  let n := 32 / w
  BitVec.ofNat 32 (Bits.ofElements w
    (List.zipWith (fun a b => alu op a b w (tySigned t)) (Bits.elements w n x.toNat) (Bits.elements w n z.toNat)))

end Sys2Proof.Machine
end

