-- ==== Sys2Proof/Machine/Address.lean ====
section
/-!
DEFINITION. Meanings of the address and scalar memory instructions (R93 to R99): codes 0x20 to 0x2B of Table 3.12, and
AADD's short form.
-/

namespace Sys2Proof.Machine

/-- a(D) := addr(tag of a(D), a(D) + s(S1) + sext(IMM)) (R93). -/
def aaddBody (f : Fields) (s : State) : State := writeA s f.d (addAddr (readA s f.d) (readS s f.s1 + immS f))

/-- AADD (R93). -/
def execAadd (f : Fields) (s : State) : Result := instr (legalAadd (isSplit s) f) f s (aaddBody f)

/-- AADD_B2: row 13 of Table 3.4 (R41, R93). -/
def execAaddB2 (fin : Bool) (d : BitVec 5) (e : BitVec 4) (s : State) : Result :=
  let f := (shortWord 13 fin d e).2
  instr (legalAadd (isSplit s) f) f s (aaddBody f)

/-- AIDX (R93). -/
def execAidx (f : Fields) (s : State) : Result :=
  instr (legalAidx (isSplit s) f) f s fun s =>
    writeA s f.d (addAddr (readA s f.s1) (readS s f.s2 <<< immBits f 2 0))

/-- AMOV in its three directions (R93). -/
def execAmov (f : Fields) (s : State) : Result :=
  instr (legalAmov (isSplit s) f) f s fun s =>
    match fnBits f 1 0 with
    | 0 => writeA s f.d (readA s f.s1)
    | 1 => writeA s f.d (readS s f.s1)
    | _ => writeS s f.d (readA s f.s1)

/-- The address that ALDI loads (Table 5.5). -/
def aldiValue (f : Fields) (pc : Word) : Word :=
  match fnBits f 2 0 with
  | 0 => mkAddr 0 f.imm.toNat
  | 1 => mkAddr 8 f.imm.toNat
  | 2 => mkAddr 9 f.imm.toNat
  | 3 => mkAddr 10 f.imm.toNat
  | _ => addAddr pc (immS f)

/-- ALDI (R94). -/
def execAldi (f : Fields) (s : State) : Result :=
  instr (legalAldi (isSplit s) f) f s fun s => writeA s f.d (aldiValue f s.cur.pc)

/-- The access size of a size code (R95). -/
def sizeOf (code : Nat) : Nat :=
  match code with
  | 0 => 4
  | 1 => 1
  | 2 => 2
  | _ => 8

/-- The effective address of a scalar access (R95). -/
def effAddr (f : Fields) (s : State) : Word := addAddr (readA s f.s1) (immS f)

/-- The access goes through a15 (R73). -/
def viaStack (f : Fields) : Bool := f.s1 = 15

/-- Extend a loaded value (R95). -/
def extend (sgn : Bool) (n v : Nat) : Word :=
  if sgn then BitVec.ofInt 64 (Bits.signed (8 * n) v) else BitVec.ofNat 64 v

/-- LD (R95, R96). -/
def execLd (f : Fields) (s : State) : Result :=
  instr (legalLd (isSplit s) f) f s fun s =>
    let n := sizeOf (fnBits f 1 0)
    loading s (effAddr f s) n (viaStack f) fun v t => writeS t f.d (extend (fnBit f 2) n v)

/-- ST (R95, R96). -/
def execSt (f : Fields) (s : State) : Result :=
  instr (legalSt (isSplit s) f) f s fun s =>
    storing s (effAddr f s) (sizeOf (fnBits f 1 0)) (viaStack f) (readS s f.s2) id

/-- LDA (R95, R96). -/
def execLda (f : Fields) (s : State) : Result :=
  instr (legalLda (isSplit s) f) f s fun s =>
    loading s (effAddr f s) 8 (viaStack f) fun v t => writeA t f.d (BitVec.ofNat 64 v)

/-- STA (R95, R96). -/
def execSta (f : Fields) (s : State) : Result :=
  instr (legalSta (isSplit s) f) f s fun s => storing s (effAddr f s) 8 (viaStack f) (readA s f.s2) id

/-- The stack pointer (Table 4.2). -/
def sp : BitVec 8 := 15

/-- Push a value: 8 bytes at a15 - 8, then a15 := a15 - 8 (R73). -/
def pushing (s : State) (v : Word) (k : State → State) : State :=
  let a := addAddr (readA s sp) (BitVec.ofInt 64 (-8))
  storing s a 8 true v fun t => k (writeA t sp a)

/-- Pop a value: 8 bytes at a15, then a15 := a15 + 8 (R73). -/
def popping (s : State) (k : Word → State → State) : State :=
  let a := readA s sp
  loading s a 8 true fun v t => k (BitVec.ofNat 64 v) (writeA t sp (addAddr a 8))

/-- PUSH (R97). -/
def execPush (f : Fields) (s : State) : Result :=
  instr (legalPush (isSplit s) f) f s fun s => pushing s (if fnBit f 0 then readA s f.s1 else readS s f.s1) id

/-- POP: pop a15 leaves a15 equal to the loaded value (R97). -/
def execPop (f : Fields) (s : State) : Result :=
  instr (legalPop (isSplit s) f) f s fun s =>
    popping s fun v t => if fnBit f 0 then writeA t f.d v else writeS t f.d v

/-- PRFM: the line of a global ea comes into the L1; every other case is a NOP, and none faults (R98). A line that holds
poison, or one of region 0x3, is left out of the L1 (log entry 136). -/
def execPrfm (f : Fields) (s : State) : Result :=
  instr (legalPrfm (isSplit s) f) f s fun s =>
    let ea := effAddr f s
    let va := ea.toNat % 2 ^ 60 / 64 * 64
    if fnBit f 0 || tagOf ea ≠ 0 then s
    else
      match translateFor s.dev s.cur.core va .read with
      | .error _ => s
      | .ok e =>
        let pa := physical e va
        if l1Poisoned s.dev s.cur.core pa 64 || region pa = 3 then s else onDev s fun d => l1Fill d s.cur.core pa 64

/-- The four conditions of ACMP (R99). -/
def acmpHolds (cond : Nat) (x y : Word) : Bool :=
  match cond with
  | 0 => x = y
  | 1 => x ≠ y
  | 2 => x.toNat < y.toNat
  | _ => y.toNat ≤ x.toNat

/-- ACMP (R99). -/
def execAcmp (f : Fields) (s : State) : Result :=
  instr (legalAcmp (isSplit s) f) f s fun s =>
    writeC s f.d.toNat (acmpHolds (fnBits f 1 0) (readA s f.s1) (readA s f.s2))

end Sys2Proof.Machine
end

