-- ==== Sys2Proof/Machine/Control.lean ====
section
/-!
DEFINITION. Meanings of the control instructions (R100 to R109): codes 0x30 to 0x3E of Table 3.12, and NOP's short form.
-/

namespace Sys2Proof.Machine

/-- PBR (R100). -/
def execPbr (f : Fields) (s : State) : Result :=
  instr (legalPbr (isSplit s) f) f s fun s => writeB s f.d (s.cur.pc + immS f)

/-- PBRA: a tag other than 0x0 raises ADDRESS (R100). -/
def execPbra (f : Fields) (s : State) : Result :=
  instr (legalPbra (isSplit s) f) f s fun s =>
    if tagOf (readA s f.s1) ≠ 0 then faultAt .address (readA s f.s1) s else writeB s f.d (readA s f.s1 + immS f)

/-- The conditions of Table 5.8. -/
def cmpHolds (cond : Nat) (x y : Word) : Bool :=
  match cond with
  | 0 => x = y
  | 1 => x ≠ y
  | 2 => x.toInt < y.toInt
  | 3 => y.toInt ≤ x.toInt
  | 4 => x.toNat < y.toNat
  | 5 => y.toNat ≤ x.toNat
  | 6 => y.toInt < x.toInt
  | 7 => x.toInt ≤ y.toInt
  | 8 => y.toNat < x.toNat
  | 9 => x.toNat ≤ y.toNat
  | 10 => x &&& y ≠ 0
  | _ => x &&& y = 0

/-- CMP (R101). -/
def execCmp (f : Fields) (s : State) : Result :=
  instr (legalCmp (isSplit s) f) f s fun s => writeC s f.d.toNat (cmpHolds (fnBits f 3 0) (readS s f.s1) (readS s f.s2))

/-- CMPI (R101). -/
def execCmpi (f : Fields) (s : State) : Result :=
  instr (legalCmpi (isSplit s) f) f s fun s => writeC s f.d.toNat (cmpHolds (fnBits f 3 0) (readS s f.s1) (immS f))

/-! ### Transfers (R102 to R104) -/

/-- The transfer's two delay slots are to follow, and then its target if it is taken (R102). -/
def setTransfer (s : State) (target : Option Word) : State :=
  onStream s fun t => { t with delay := some { left := 2, at_ := s.cur.pc, target := target } }

/-- A transfer: its delay slots follow whatever its gate holds; `body` is its own effect when the gate is 1
(R33, R102). -/
def transfer (legal : Bool) (f : Fields) (s : State) (body : State → State) : Result :=
  .next (if legal then (if gateOpen f s then body s else setTransfer s none) else faultAt .illegalInstruction 0 s)

/-- BR (R102). -/
def execBr (f : Fields) (s : State) : Result :=
  transfer (legalBr (isSplit s) f) f s fun s => setTransfer s (if readC s f.s1.toNat then some (readB s f.s2) else none)

/-- BRN (R102). -/
def execBrn (f : Fields) (s : State) : Result :=
  transfer (legalBr (isSplit s) f) f s fun s => setTransfer s (if readC s f.s1.toNat then none else some (readB s f.s2))

/-- JMP (R102). -/
def execJmp (f : Fields) (s : State) : Result :=
  transfer (legalJmp (isSplit s) f) f s fun s => setTransfer s (some (readB s f.s2))

/-- CALL: push the address after the second delay slot, then transfer (R73, R102). -/
def execCall (f : Fields) (s : State) : Result :=
  transfer (legalJmp (isSplit s) f) f s fun s => pushing s s.cur.after fun t => setTransfer t (some (readB s f.s2))

/-- RET: pop the target (R73, R102). -/
def execRet (f : Fields) (s : State) : Result :=
  transfer (legalPlain (isSplit s) f) f s fun s => popping s fun v t => setTransfer t (some v)

/-! ### Loops and gates (R105 to R107) -/

/-- The pc of the next bundle. -/
def setPc (s : State) (pc : Word) : State := onStream s fun t => { t with pc := pc }

/-- LSET (R105). -/
def execLset (f : Fields) (s : State) : Result :=
  instr (legalLset (isSplit s) f) f s fun s =>
    let count : BitVec 32 := if fnBit f 4 then f.s2.setWidth 32 else container (readS s f.s1)
    onStream s fun t =>
      { t with loops := Sparse.insert t.loops f.d.toNat
                 { count := count, start := some (s.cur.pc + immS f), stages := fnBits f 3 0 + 1 }
               gates := if count = 0 then 0 else 1 }

/-- The gate window after LOOP (R106). -/
def loopWindow (w : BitVec 15) (old : BitVec 32) : BitVec 15 := (w <<< 1) ||| (if 1 < old.toNat then 1 else 0)

/-- LOOP (R106, R34). -/
def execLoop (f : Fields) (s : State) : Result :=
  instr (legalLoop (isSplit s) f) f s fun s =>
    let l := Sparse.get (preStream s).loops {} f.s1.toNat
    match l.start with
    | none => faultAt .illegalInstruction 0 s
    | some start =>
      let w := loopWindow (preStream s).gates l.count
      let s := onStream s fun t =>
        { t with loops := Sparse.insert t.loops f.s1.toNat { l with count := if l.count = 0 then 0 else l.count - 1 }
                 gates := w }
      if w.toNat % 2 ^ l.stages ≠ 0 then setPc s start else s

/-- GSET: exchange the gate window (R107). -/
def execGset (f : Fields) (s : State) : Result :=
  instr (legalGset (isSplit s) f) f s fun s =>
    let w : BitVec 15 := if fnBit f 0 then f.imm.setWidth 15 else (readS s f.s1).setWidth 15
    writeS (onStream s fun t => { t with gates := w }) f.d ((preStream s).gates.setWidth 64)

/-! ### VANY and VALL (R108) -/

/-- The physical mask that a stream's m register names (Table 4.3). -/
def physMask (split : Bool) (stream m : Nat) : Nat := if split then 8 * stream + m else m

/-- A lane of a physical mask. -/
def maskLane (k : Core) (m lane : Nat) : Bool := Sparse.get k.mask false (16384 * m + lane)

/-- The mask that a vector command writes. -/
def maskWritten (x : Cmd) : Option Nat :=
  match x.op with
  | .vec .vcmp | .vec .vicmp | .vec .vmld | .vec .mlogic => some (physMask x.split x.stream x.f.d.toNat)
  | _ => none

/-- An uncompleted command of the stream writes the mask (R108). -/
def maskBusy (k : Core) (stream m : Nat) : Bool :=
  (checkerEntries k).any fun x => decide (x.stream = stream) && decide (maskWritten x = some m)

/-- Collapse lanes 0 to VL - 1 of a mask into a condition bit; a poisoned mask word is read as it stands (log entry 126). -/
def collapse (all : Bool) (f : Fields) (s : State) : State :=
  let m := physMask (isSplit s) s.cur.stream f.s1.toNat
  let k := preCore s
  if maskBusy k s.cur.stream m then stall s
  else
    let lanes := (List.range (preStream s).sys.vl.toNat).map fun i => maskLane k m i
    writeC s f.d.toNat (if all then lanes.all id else lanes.any id)

/-- VANY (R108). -/
def execVany (f : Fields) (s : State) : Result := instr (legalAny (isSplit s) f) f s (collapse false f)

/-- VALL (R108). -/
def execVall (f : Fields) (s : State) : Result := instr (legalAny (isSplit s) f) f s (collapse true f)

/-- NOP changes no state (R109). -/
def execNop (f : Fields) (s : State) : Result := instr (legalPlain (isSplit s) f) f s id

/-- NOP_B2: row 0 of Table 3.4 (R41, R42, R109). -/
def execNopB2 (fin : Bool) (s : State) : Result :=
  let f := (shortWord 0 fin 0 0).2
  instr (legalPlain (isSplit s) f) f s id

end Sys2Proof.Machine
end

