-- ==== Sys2Proof/Machine/Accum.lean ====
section
/-!
DEFINITION. Accumulators and bound files (R215, R216, R230): words, cells, precision states, the claims that follow from them
and from BMODE (R243), and the commands that name them.
-/

namespace Sys2Proof.Machine

/-- The accumulator or bound file that a stream names (Table 4.3). -/
def physAcc (split : Bool) (stream n : Nat) : Nat := if split then stream else n

def accWord (k : Core) (a i j : Nat) : BitVec 32 := Sparse.get k.acc 0 (32768 * a + 128 * i + j)
def setAccWord (k : Core) (a i j : Nat) (v : BitVec 32) : Core :=
  { k with acc := Sparse.set k.acc 0 (32768 * a + 128 * i + j) v }
def accWords (k : Core) (a : Nat) : List (Nat × BitVec 32) := Sparse.slice k.acc (32768 * a) 32768
/-- Replace every word of an accumulator by a sparse list of words. -/
def setAccWords (k : Core) (a : Nat) (l : List (Nat × BitVec 32)) : Core :=
  { k with acc := (k.acc.filter fun p => p.1 < 32768 * a) ++ (l.map fun p => (p.1 + 32768 * a, p.2))
                    ++ k.acc.filter fun p => 32768 * a + 32768 ≤ p.1 }

/-- Cell (r, c) of a bound file is number 8 r + c (R207). -/
def bndCell (k : Core) (a c : Nat) : BitVec 16 := Sparse.get k.bnd 0 (128 * a + c)
def setBndCell (k : Core) (a c : Nat) (v : BitVec 16) : Core := { k with bnd := Sparse.set k.bnd 0 (128 * a + c) v }
def setBndCells (k : Core) (a : Nat) (l : List (BitVec 16)) : Core :=
  { k with bnd := Sparse.setRange k.bnd 0 (128 * a) (l.take 128) }

def precOf (k : Core) (a : Nat) : Precision := Sparse.get k.accPrec .clear a
def setPrec (k : Core) (a : Nat) (p : Precision) : Core := { k with accPrec := Sparse.set k.accPrec .clear a p }

/-- FRM.MODE as a number (Table 4.5). -/
def rmodeCode (m : RMode) : Nat :=
  match m with
  | .rne => 0
  | .rtz => 1
  | .rdn => 2
  | .rup => 3

/-- BTHk (Table 4.5). -/
def bthOf (k : Core) (a : Nat) : BitVec 16 := Sparse.get k.bth 0xFF00 a
def setBth (k : Core) (a : Nat) (v : BitVec 16) : Core := { k with bth := Sparse.set k.bth 0xFF00 a v }

/-- The BMODE nibble of an accumulator. -/
def nibble (m : BitVec 16) (a : Nat) : Nat := m.toNat / 16 ^ a % 16
def setNibble (m : BitVec 16) (a v : Nat) : BitVec 16 := BitVec.ofNat 16 (Bits.setField m.toNat (4 * a + 3) (4 * a) v)

/-- MODE is ABS or REL and ACT is REISSUE. -/
def armedNibble (n : Nat) : Bool := n % 4 ≠ 0 && Bits.bit n 2

/-- acc_a is REISSUE-armed: only in joined mode (R243, R249). -/
def armed (k : Core) (a : Nat) : Bool := !k.split && armedNibble (nibble k.bmode a)

/-- The partner of an accumulator (R215). -/
def partner (a : Nat) : Nat := a ^^^ 1

/-- acc_a holds lo of its partner. -/
def holdsLo (k : Core) (a : Nat) : Bool := precOf k (partner a) = .a2x32

/-- acc_a is claimed, as lo or as checkpoint (R215). -/
def claimed (k : Core) (a : Nat) : Bool := holdsLo k a || armed k (partner a)

/-- A change of state to CLEAR: every word and every bound cell 0 (R216). -/
def clearAcc (k : Core) (a : Nat) : Core :=
  { setPrec k a .clear with acc := Sparse.clearRange k.acc (32768 * a) 32768
                            bnd := Sparse.clearRange k.bnd (128 * a) 128
                            poisonA := k.poisonA.filter fun w => w < 32768 * a ∨ 32768 * a + 32768 ≤ w
                            poisonB := k.poisonB.filter fun c => c < 128 * a ∨ 128 * a + 128 ≤ c }

/-- The partner that arming or disarming clears, unless it holds lo (R243). -/
def clearPartner (k : Core) (a : Nat) : Core := if holdsLo k (partner a) then k else clearAcc k (partner a)

/-- The accumulators that a matrix command names, as destination, source or bound file (R216). -/
def matNames (x : Cmd) : Option Nat :=
  match x.op with
  | .mat .mma | .mat .mmas | .mat .mmaz | .mat .aclr | .mat .aload | .mat .abound => some (physAcc x.split x.stream x.f.d.toNat)
  | .mat .astore => some (physAcc x.split x.stream x.f.s1.toNat)
  | _ => none

/-- A product whose accumulator has been armed or disarmed has no checkpoint any more (R240, R243, log entry 121). -/
def dropCheckpoint (l : List Nat) (r : Run) : Run :=
  if r.phase = .first && (matNames r.cmd).any l.contains then { r with phase := .plain } else r

/-- A write of BMODE: refused when a pair would be armed whole or an armed accumulator holds lo; otherwise armed and
disarmed accumulators act on their partners (R243). -/
def writeBmode (k : Core) (m : BitVec 16) : Option Core :=
  if k.split then some { k with bmode := m }
  else if [0, 1, 2, 3].any fun a => armedNibble (nibble m a) && (armedNibble (nibble m (partner a)) || holdsLo k a) then none
  else
    let changed := [0, 1, 2, 3].filter fun a => armedNibble (nibble m a) ≠ armed k a
    some (changed.foldl clearPartner { k with bmode := m, running := k.running.map (dropCheckpoint changed) })

/-- The accumulator or bound file that AREAD, AWRITE, BRD or BWR names (R208). -/
def vecNames (x : Cmd) : Option Nat :=
  match x.op with
  | .vec .aread | .vec .brd => some (physAcc x.split x.stream x.f.s1.toNat)
  | .vec .awrite | .vec .bwr => some (physAcc x.split x.stream x.f.d.toNat)
  | _ => none

/-- An uncompleted matrix command, not stopped at a fault, names one of the accumulators (Table 5.12, R241). -/
def accsBusy (k : Core) (l : List Nat) : Bool :=
  let stopped := (k.running.filter fun r => r.stopped.isSome).map fun r => r.cmd.age
  (checkerEntries k).any fun x => !stopped.contains x.age && (matNames x).any l.contains

end Sys2Proof.Machine
end

