-- ==== Sys2Proof/Machine/LegalVec.lean ====
section
/-!
DEFINITION. Decode checks of VSETL and the vector commands (R185 to R189, Tables 8.2 and 8.3).
-/

namespace Sys2Proof.Machine

/-- VSETL (R185). -/
def legalVsetl (split : Bool) (f : Fields) : Bool :=
  let i := fnBit f 5
  shapeOk split { fn := 63, d := some .s, s1 := if i then none else some .s, imm := if i then immAll else 0 } f
    && (if fnBit f 4 then fnBits f 3 0 ≤ 13 else fnBits f 3 0 = 0) && (!i || f.imm.toNat ≤ 16384)

/-- The type sets of R187; `none` takes FN[3:0] = 0. -/
inductive VecTypes where
  | f | i | a | aWide | fi | acc | quant | none
  deriving DecidableEq, Repr

/-- A type code of the set, code 14 apart. -/
def vecTypeIn (s : VecTypes) (c : Nat) : Bool :=
  match s with
  | .f => c ≤ 2
  | .i => 6 ≤ c && c ≤ 13
  | .a => c ≤ 13
  | .aWide => c ≤ 11
  | .fi => c ≤ 2 || (6 ≤ c && c ≤ 13)
  | .acc => c ≤ 2 || c = 10
  | .quant => c = 3 || c = 5 || c = 6 || c = 12
  | .none => c = 0

/-- The Mask column of Table 8.3; `select` and `heads` are VSEL's and VSEGRED's requirements. -/
inductive MaskUse where
  | yes | vc | no | select | heads
  deriving DecidableEq, Repr

/-- A row of Table 8.3: operand classes, the X bits it names, its type set, its Mask and S-form columns, and
which operands are 32-bit containers. -/
structure VecRow where
  d      : Option Cls := some .v
  s1     : Option Cls := some .v
  s2     : Option Cls := none
  x      : Nat := 0
  types  : VecTypes
  mask   : MaskUse := .yes
  sform  : Bool := false
  contD  : Bool := false
  cont1  : Bool := false
  cont2  : Bool := false
  deriving DecidableEq, Repr

/-- Table 8.3. VCVT's and VQNT's bound operands, and the shifts' S2, are settled in `legalVec`. -/
def vecRow (o : VecOp) : VecRow :=
  match o with
  | .vadd | .vsub | .vmul | .vfma | .vmax | .vmin | .vdiv | .vscale =>
    { s2 := some .v, types := .f, sform := true, contD := true, cont1 := true, cont2 := true }
  | .vsqrt | .vexp2 | .vlog2 | .vrcp | .vrsq | .vabs | .vneg => { types := .f, sform := true, contD := true, cont1 := true }
  | .vcmp => { d := some .m, s2 := some .v, x := 7, types := .f, cont1 := true, cont2 := true }
  | .viadd | .visub => { s2 := some .v, x := 1, types := .i, sform := true, contD := true, cont1 := true, cont2 := true }
  | .vimul => { s2 := some .v, x := 3, types := .i, sform := true, contD := true, cont1 := true, cont2 := true }
  | .vand | .vor | .vxor => { s2 := some .v, types := .i, sform := true, contD := true, cont1 := true, cont2 := true }
  | .vshl | .vshr => { s2 := some .v, x := 0xBF, types := .i, sform := true, contD := true, cont1 := true, cont2 := true }
  | .vsel => { s2 := some .v, types := .a, mask := .select, contD := true, cont1 := true, cont2 := true }
  | .vperm => { s2 := some .v, types := .a }
  | .vbcast => { s1 := some .s, types := .a }
  | .viota => { s1 := some .s, types := .i }
  | .vscan => { x := 3, types := .i }
  | .vpopc => { types := .i, sform := true, contD := true, cont1 := true }
  | .vmov => { types := .a, sform := true, contD := true, cont1 := true }
  | .vicmp => { d := some .m, s2 := some .v, x := 7, types := .i, cont1 := true, cont2 := true }
  | .vld => { s1 := some .a, types := .a }
  | .vst => { d := some .a, types := .a }
  | .vlds => { s1 := some .a, s2 := some .s, types := .aWide }
  | .vgath => { s1 := some .a, s2 := some .v, types := .aWide }
  | .vscat => { d := some .a, s2 := some .v, types := .aWide }
  | .vred => { x := 7, types := .fi }
  | .vsegred => { x := 7, types := .fi, mask := .heads }
  | .vmld => { d := some .m, s1 := some .a, types := .none, mask := .vc }
  | .mlogic => { d := some .m, s1 := some .m, s2 := some .m, x := 7, types := .none, mask := .no }
  | .mpopc => { s1 := some .m, types := .none, mask := .vc }
  | .vtrn => { s2 := some .s, types := .a, mask := .no }
  | .aread => { s1 := some .acc, s2 := some .s, x := 7, types := .acc }
  | .awrite => { d := some .acc, s2 := some .s, types := .acc }
  | .vcvt => { x := 0x7F, types := .a, sform := true }
  | .vqnt => { s2 := some .v, types := .quant, mask := .vc, sform := true }
  | .vdqnt => { s2 := some .v, types := .quant, sform := true }
  | .brd => { s1 := some .acc, types := .none, mask := .no }
  | .bwr => { d := some .acc, types := .none, mask := .no }

/-- ENG of a vector command (Table 8.2): ME, MZ, VC, BV and MSK. -/
def engMe (f : Fields) : Bool := immBit f 31
def engMz (f : Fields) : Bool := immBit f 30
def engMsk (f : Fields) : Nat := immBits f 29 27
def engVc (f : Fields) : Bool := immBit f 26
def engBv (f : Fields) : Bool := immBit f 25

/-- The ENG checks of R186. -/
def vecEngOk (o : VecOp) (f : Fields) : Bool :=
  let me := engMe f
  let mz := engMz f
  let vc := engVc f
  (me || engMsk f = 0) && (!mz || me || vc) && (!engBv f || o = .vcvt || o = .vqnt) && !immBit f 24
    && (match (vecRow o).mask with
        | .yes => true
        | .vc => !me
        | .no => !me && !vc
        | .select => me && !mz
        | .heads => me && !mz)

/-- An operand's class in the command's form: in S-form v names an address register (R189). -/
def formCls (sform : Bool) (cls : Option Cls) : Option Cls :=
  match sform, cls with
  | true, some .v => some .a
  | _, k => k

/-- The FN type code is accepted; code 14 wherever FN takes a type (R187). -/
def vecFnType (t : VecTypes) (c : Nat) : Bool := vecTypeIn t c || (c = 14 && t ≠ .none)

/-- The X field as the command reads it. -/
def xField (f : Fields) : Nat := f.s3.toNat

/-- The further conditions of single rows (R187, R192, R197, R199, R201, R205). -/
def vecXOk (o : VecOp) (f : Fields) : Bool :=
  let x := xField f
  let c := fnBits f 3 0
  match o with
  | .vimul => x ≠ 3
  | .vred | .vsegred => x ≤ 5 && (x ≤ 2 || !(c ≤ 2))
  | .vcvt => x % 16 ≠ 15 && x / 16 ≤ 4
  | .aread => x ≤ 4
  | .mlogic => (x ≤ 3) || (x ≤ 5 && f.s2 = 0) || (f.s1 = 0 && f.s2 = 0)
  | _ => true

/-- The fields that a vector command uses in its form. Where X is no register, S3 is not a specifier. -/
def vecShape (o : VecOp) (f : Fields) : Shape :=
  let r := vecRow o
  let sf := fnBit f 5
  let bv := engBv f
  let shifts := o = .vshl || o = .vshr
  let s2 := if o = .vcvt then (if bv then some Cls.v else none) else if shifts && Bits.bit (xField f) 7 then none else r.s2
  let s3 := if o = .vqnt && bv then some Cls.v else none
  { fn := if r.sform then 0x2F else 0x0F, d := formCls sf r.d, s1 := formCls sf r.s1, s2 := formCls sf s2, s3 := formCls sf s3
    modD := r.contD && !sf, modS1 := r.cont1 && !sf, modS2 := r.cont2 && !sf && s2.isSome, imm := immAll }

/-- The decode checks of a vector command; `axes` for a captured body (R297). -/
def legalVec (o : VecOp) (axes split : Bool) (f : Fields) : Bool :=
  let h := vecShape o f
  let s3 := o = .vqnt && engBv f
  shapeOk split { h with axes := axes } { f with s3 := if s3 then f.s3 else 0 }
    && (s3 || within (xField f) (vecRow o).x) && vecXOk o f && vecFnType (vecRow o).types (fnBits f 3 0) && vecEngOk o f && tokensOk f

end Sys2Proof.Machine
end

