-- ==== Sys2Proof/Machine/LegalEng.lean ====
section
/-!
DEFINITION. Decode checks of the matrix, copy and KV commands (R213, R214, R220, R252, R255, Tables 9.3, 9.6, 11.2 and 11.9), of
NSET and NCLR, and the engine command that an instruction is.
-/

namespace Sys2Proof.Machine

/-! ### Matrix commands -/

/-- The fields of a matrix command (Table 9.6). -/
def matShape (o : MatOp) : Shape :=
  match o with
  | .mma | .mmas | .mmaz => { fn := 0x3C, d := some .acc, s1 := some .a, s2 := some .a, s3 := some .s, imm := immAll }
  | .aclr => { d := some .acc, imm := 0xFFFFFF }
  | .astore => { fn := 15, d := some .a, s1 := some .acc, s2 := some .s, imm := 0x80FFFFFF }
  | .aload => { fn := 15, d := some .acc, s1 := some .a, s2 := some .s, imm := 0x80FFFFFF }
  | .abound => { d := some .acc, s1 := some .a, imm := 0x03FFFFFF }

/-- The precisions of FN[5:4] (R57). -/
inductive MatPrec where
  | a32 | a2x32 | i32
  deriving DecidableEq, Repr

def matPrecOf (c : Nat) : MatPrec :=
  match c with
  | 0 => .a32
  | 1 => .a2x32
  | _ => .i32

/-- The combinations of Table 9.3. -/
def matCombo (a b : Ty) (p : MatPrec) (sparse : Bool) : Bool :=
  let floating := p ≠ .i32
  match a, b with
  | .f32, .f32 => floating && !sparse
  | .bf16, .bf16 | .f16, .f16 => floating
  | .e4m3, .e4m3 | .e4m3, .e5m2 | .e5m2, .e4m3 | .e5m2, .e5m2 => floating
  | .i8, .i8 => true
  | .pt8, .i8 | .pt8, .e4m3 | .i8, .pt8 | .e4m3, .pt8 => floating && !sparse
  | .i4, .i8 | .i8, .i4 => !sparse
  | _, _ => false

/-- The types that a code may stand for: itself, or any of codes 0 to 13 for code 14. -/
def typesOf (c : Nat) : List Ty := if c = 14 then (List.range 14).map tyOfCode else [tyOfCode c]

/-- A combination visible in the word: some type that code 14 may resolve to makes it one of Table 9.3 (R214, R176). -/
def matWordOk (ta tb : Nat) (p : MatPrec) (sparse : Bool) : Bool :=
  (typesOf ta).any fun a => (typesOf tb).any fun b => matCombo a b p sparse

/-- ASTORE's and ALOAD's type codes, code 14 apart (R226, R227). -/
def storeType (c : Nat) : Bool := c ≤ 6 || c = 8 || c = 10
def loadType (c : Nat) : Bool := c ≤ 2 || c = 10

def legalMat (o : MatOp) (axes split : Bool) (f : Fields) : Bool :=
  shapeOk split { matShape o with axes := axes } f && tokensOk f
    && (match o with
        | .mma | .mmas | .mmaz =>
          fnBits f 5 4 ≠ 3 && !(split && fnBits f 5 4 = 1)
            && matWordOk (immBits f 31 28) (immBits f 27 24) (matPrecOf (fnBits f 5 4)) (fnBit f 3)
        | .astore => storeType (fnBits f 3 0) || fnBits f 3 0 = 14
        | .aload => loadType (fnBits f 3 0) || fnBits f 3 0 = 14
        | .aclr | .abound => true)

/-! ### Copy and KV commands -/

/-- IMM without the reserved bits [26:24], without B, and without B and Z (R54, R255). -/
def immCopy : Nat := 0xF8FFFFFF
def immCopyZ : Nat := 0x78FFFFFF
def immCopyNone : Nat := 0x38FFFFFF

/-- The fields of a copy or KV command (Tables 11.2 and 11.9). -/
def cpyShape (o : CpyOp) (f : Fields) : Shape :=
  let w := if fnBit f 0 then some Cls.a else none
  match o with
  | .cpy | .cpym => { fn := 1, d := some .a, s1 := some .a, s2 := some .s, s3 := w, imm := immCopy }
  | .cpyr => { fn := 3, d := some .a, s1 := some .a, s2 := some .s, s3 := w, imm := immCopyZ }
  | .cpyg | .cpys => { d := some .a, s1 := some .a, s2 := some .s, s3 := some .a, imm := immCopyZ }
  | .cpyf => { fn := 1, d := some .a, s1 := some .s, s2 := some .s, s3 := w, imm := immCopyNone }
  | .kvmap => { s1 := some .a, s2 := some .s, imm := immCopyZ }
  | .kvgath => { d := some .a, s1 := some .s, s2 := some .s, s3 := some .a, imm := immCopyZ }
  | .kvapp => { s1 := some .a, s2 := some .s, s3 := some .s, imm := immCopyZ }
  | .kvcomp => { s1 := some .s, s2 := some .a, s3 := some .s, imm := immCopyZ }
  | .kvevict => { s1 := some .s, s2 := some .s, s3 := some .s, imm := immCopyZ }
  | .kvrank => { d := some .a, s1 := some .s, s2 := some .s, imm := immCopyZ }

def legalCpy (o : CpyOp) (axes split : Bool) (f : Fields) : Bool :=
  shapeOk split { cpyShape o f with axes := axes } f && tokensOk f && immBits f 29 27 ≠ 7

/-- NSET: levels 0 to 5 (R252). -/
def legalNset (split : Bool) (f : Fields) : Bool :=
  shapeOk split { s1 := some .s, s2 := some .s, s3 := some .s, imm := 7 } f && immBits f 2 0 ≤ 5
def legalNclr (split : Bool) (f : Fields) : Bool := shapeOk split {} f

/-! ### Engine commands -/

/-- The fields of an engine command. -/
def engineShape (o : EngineOp) (f : Fields) : Shape :=
  match o with
  | .vec v => vecShape v f
  | .mat m => matShape m
  | .cpy c => cpyShape c f

/-- The decode checks of an engine command. -/
def legalEngine (o : EngineOp) (axes split : Bool) (f : Fields) : Bool :=
  match o with
  | .vec v => legalVec v axes split f
  | .mat m => legalMat m axes split f
  | .cpy c => legalCpy c axes split f

/-- The specifiers of the operand positions of address class (R297). -/
def addressSpecs (o : EngineOp) (f : Fields) : List Nat :=
  let h := engineShape o f
  ([(h.d, f.d), (h.s1, f.s1), (h.s2, f.s2), (h.s3, f.s3)].filter fun p => p.1 = some .a).map fun p => p.2.toNat

/-- The engine command that an instruction is (Table 3.9). -/
def engineOf (i : Instr) : Option (EngineOp × Fields) :=
  match i with
  | .vadd f => some (.vec .vadd, f)
  | .vsub f => some (.vec .vsub, f)
  | .vmul f => some (.vec .vmul, f)
  | .vfma f => some (.vec .vfma, f)
  | .vmax f => some (.vec .vmax, f)
  | .vmin f => some (.vec .vmin, f)
  | .vdiv f => some (.vec .vdiv, f)
  | .vsqrt f => some (.vec .vsqrt, f)
  | .vexp2 f => some (.vec .vexp2, f)
  | .vlog2 f => some (.vec .vlog2, f)
  | .vrcp f => some (.vec .vrcp, f)
  | .vrsq f => some (.vec .vrsq, f)
  | .vabs f => some (.vec .vabs, f)
  | .vneg f => some (.vec .vneg, f)
  | .vscale f => some (.vec .vscale, f)
  | .vcmp f => some (.vec .vcmp, f)
  | .viadd f => some (.vec .viadd, f)
  | .visub f => some (.vec .visub, f)
  | .vimul f => some (.vec .vimul, f)
  | .vand f => some (.vec .vand, f)
  | .vor f => some (.vec .vor, f)
  | .vxor f => some (.vec .vxor, f)
  | .vshl f => some (.vec .vshl, f)
  | .vshr f => some (.vec .vshr, f)
  | .vsel f => some (.vec .vsel, f)
  | .vperm f => some (.vec .vperm, f)
  | .vbcast f => some (.vec .vbcast, f)
  | .viota f => some (.vec .viota, f)
  | .vscan f => some (.vec .vscan, f)
  | .vpopc f => some (.vec .vpopc, f)
  | .vmov f => some (.vec .vmov, f)
  | .vicmp f => some (.vec .vicmp, f)
  | .vld f => some (.vec .vld, f)
  | .vst f => some (.vec .vst, f)
  | .vlds f => some (.vec .vlds, f)
  | .vgath f => some (.vec .vgath, f)
  | .vscat f => some (.vec .vscat, f)
  | .vred f => some (.vec .vred, f)
  | .vsegred f => some (.vec .vsegred, f)
  | .vmld f => some (.vec .vmld, f)
  | .mlogic f => some (.vec .mlogic, f)
  | .mpopc f => some (.vec .mpopc, f)
  | .vtrn f => some (.vec .vtrn, f)
  | .aread f => some (.vec .aread, f)
  | .awrite f => some (.vec .awrite, f)
  | .vcvt f => some (.vec .vcvt, f)
  | .vqnt f => some (.vec .vqnt, f)
  | .vdqnt f => some (.vec .vdqnt, f)
  | .brd f => some (.vec .brd, f)
  | .bwr f => some (.vec .bwr, f)
  | .mma f => some (.mat .mma, f)
  | .mmas f => some (.mat .mmas, f)
  | .mmaz f => some (.mat .mmaz, f)
  | .aclr f => some (.mat .aclr, f)
  | .astore f => some (.mat .astore, f)
  | .aload f => some (.mat .aload, f)
  | .abound f => some (.mat .abound, f)
  | .cpy f => some (.cpy .cpy, f)
  | .cpym f => some (.cpy .cpym, f)
  | .cpyr f => some (.cpy .cpyr, f)
  | .cpyg f => some (.cpy .cpyg, f)
  | .cpys f => some (.cpy .cpys, f)
  | .cpyf f => some (.cpy .cpyf, f)
  | .kvmap f => some (.cpy .kvmap, f)
  | .kvgath f => some (.cpy .kvgath, f)
  | .kvapp f => some (.cpy .kvapp, f)
  | .kvcomp f => some (.cpy .kvcomp, f)
  | .kvevict f => some (.cpy .kvevict, f)
  | .kvrank f => some (.cpy .kvrank, f)
  | _ => none

end Sys2Proof.Machine
end

