-- ==== Sys2Proof/Machine/Enqueue.lean ====
section
/-!
DEFINITION. The checks that the sequencer, or the rule dispatcher, makes when it enqueues an engine command, and the ranges that
the range checker records for it (R138, R189, R194 to R196, R205, R213, R222, R224, R226 to R228, R254, R256, R261, Tables 8.7,
11.4 and 11.9).
-/

namespace Sys2Proof.Machine

/-- The ranges that a command reads and writes in local scratchpad. -/
structure Ranges where
  reads  : List (Nat × Nat) := []
  writes : List (Nat × Nat) := []
  deriving DecidableEq, Repr

namespace Ranges

/-- The ranges of two operands together. -/
def join (a b : Ranges) : Ranges := { reads := a.reads ++ b.reads, writes := a.writes ++ b.writes }

end Ranges

/-- A failed check: its cause and what EADDR receives. -/
abbrev Checked (α : Type) := Except (Cause × Word) α

/-- A check that must hold. -/
def ensure (b : Bool) (c : Cause) (a : Word) : Checked Unit := if b then .ok () else .error (c, a)

/-- An interval of n bytes; one of zero bytes is not recorded (R138). -/
def interval (off n : Nat) : List (Nat × Nat) := if n = 0 then [] else [(off, off + n - 1)]
def readRange (off n : Nat) : Ranges := { reads := interval off n }
def writeRange (off n : Nat) : Ranges := { writes := interval off n }

/-! ### The command's core and types -/

/-- The gang rank of the stream that a command belongs to. -/
def cmdRank (k : Core) (x : Cmd) : Nat := rankOf (coreStream k x.stream)

/-- The place that an address of the command names. -/
def cmdPlace (d : Dev) (core : Nat) (x : Cmd) (a : Word) : Option Place :=
  placeAt (getCore d core) core (cmdRank (getCore d core) x) a

/-- The roles of Table 7.8. -/
inductive TyRole where
  | ta | tb | td
  deriving DecidableEq, Repr

/-- The field of a format table entry that a role takes. -/
def roleField (r : TyRole) (e : Nat) : Nat :=
  match r with
  | .ta => e % 16
  | .tb => e / 16 % 16
  | .td => e / 256 % 16

/-- The width in bits of an operand with a type code, as the enqueue checks take it. An entry whose field names no type
counts as 32 bits (log entry 12). -/
def codeWidth (x : Cmd) (r : TyRole) (c : Nat) : Nat :=
  if c = 14 then tyWidth (tyOfCode (roleField r x.ftval.toNat)) else tyWidth (tyOfCode c)

/-- The role that FN's type takes (R175, R201): VCVT's and VQNT's is a result type, every other command's the element type
(AREAD's too, log entry 109). -/
def vecRole (o : VecOp) : TyRole := if o = .vcvt || o = .vqnt then .td else .ta

/-- Widths of a vector command's destination and of its first source. -/
def vecWidthD (o : VecOp) (x : Cmd) : Nat := if o = .vdqnt then 32 else codeWidth x (vecRole o) (fnBits x.f 3 0)
def vecWidth1 (o : VecOp) (x : Cmd) : Nat :=
  match o with
  | .vcvt => codeWidth x .ta (xField x.f % 16)
  | .vqnt => 32
  | .vdqnt => codeWidth x .ta (fnBits x.f 3 0)
  | _ => vecWidthD o x

/-- cap(w) of R178. -/
def capOf (w : Nat) : Nat := 65536 / w

/-- The effective length under the widths of the operands (R178, R179, R195, R196, R199, R207); the bound vector of VCVT is no operand whose
width counts here (log entry 111). -/
def vecLength (o : VecOp) (vl wd w1 : Nat) : Nat :=
  match o with
  | .vmld | .mlogic | .mpopc => min vl 16384
  | .brd | .bwr => 128
  | .vgath | .vscat => min (min vl (capOf wd)) 2048
  | _ => min vl (capOf (max wd w1))

/-- The bytes that n elements of w bits take. -/
def elemBytes (n w : Nat) : Nat := (n * w + 7) / 8

/-! ### Checks of one operand -/

/-- QUEUE_CFG for a bound queue region of the core, be it the issuing one or a peer, PERMISSION for another slot's persistent region (R18, R327,
log entry 115). -/
def regionCheck (d : Dev) (core : Nat) (a : Word) (off n : Nat) : Checked Unit :=
  if n = 0 then .ok ()
  else do
    ensure (!touchesQueue (getCore d core) off n) .queueCfg a
    ensure (!foreignRegion d core off n) .permission a

/-- ADDRESS, ALIGN and the region checks of a scratchpad operand, in the order of R189 and R222. -/
def spmCheck (d : Dev) (core : Nat) (a : Word) (off n align : Nat) : Checked Unit := do
  ensure (inSpm off n) .address a
  ensure (off % align = 0) .align a
  regionCheck d core a off n

/-- A local operand: tag 0x8, or tag 0x9 naming the own rank. -/
def localCheck (d : Dev) (core : Nat) (x : Cmd) (a : Word) (n align : Nat) : Checked Nat :=
  match cmdPlace d core x a with
  | some (.spm c off true) => do
    spmCheck d c a off n align
    pure off
  | _ => .error (.address, a)

/-! ### Vector commands -/

/-- An S-form operand carries tag 0x8 (R189). -/
def sformCheck (d : Dev) (core : Nat) (x : Cmd) (a : Word) (n : Nat) : Checked Nat := do
  ensure (tagOf a = 8) .address a
  localCheck d core x a n 4

/-- The S-form operands of a vector command in the order D, S1, S2, S3: address, bytes, whether it is read, whether it is
written (R189, R202, R203). -/
def sformOperands (o : VecOp) (x : Cmd) (n : Nat) : List (Word × Nat × Bool × Bool) :=
  let wd := vecWidthD o x
  let w1 := vecWidth1 o x
  let two := (vecShape o x.f).s2.isSome
  let bounds := elemBytes ((n + 15) / 16) 16
  let scales := elemBytes ((n + 31) / 32) 16
  let second :=
    match o with
    | .vcvt => [(x.regS2, bounds, true, true)]
    | .vqnt => [(x.regS2, scales, false, true)]
    | .vdqnt => [(x.regS2, scales, true, false)]
    | _ => [(x.regS2, elemBytes n wd, true, false)]
  [(x.regD, elemBytes n wd, decide (o = .vfma), true), (x.regS1, elemBytes n w1, true, false)]
    ++ (if two then second else []) ++ (if o = .vqnt && engBv x.f then [(x.regS3, bounds, true, true)] else [])

def sformRanges (d : Dev) (core : Nat) (o : VecOp) (x : Cmd) (n : Nat) : Checked Ranges :=
  (sformOperands o x n).foldlM
    (fun r p => do
      let off ← sformCheck d core x p.1 p.2.1
      pure (r.join { reads := if p.2.2.1 then interval off p.2.1 else []
                     writes := if p.2.2.2 then interval off p.2.1 else [] }))
    {}

/-- The one memory operand of VLD, VST and VMLD (Table 8.7). -/
def vecMemRanges (d : Dev) (core : Nat) (x : Cmd) (a : Word) (n : Nat) (write : Bool) : Checked Ranges :=
  match cmdPlace d core x a with
  | none => .error (.address, a)
  | some (.global va) => do
    ensure (va % 4 = 0) .align a
    pure {}
  | some (.spm c off own) => do
    spmCheck d c a off n 4
    pure (if own then (if write then writeRange off n else readRange off n) else {})

/-- VLDS: the bounding interval of its n addresses (R194). -/
def vldsRanges (d : Dev) (core : Nat) (x : Cmd) (n w : Nat) : Checked Ranges :=
  let a := x.regS1
  let stride := x.regS2.toInt
  let aligned := w < 8 || (a.toNat % (w / 8) = 0 && stride % ((w / 8 : Nat) : Int) = 0)
  match cmdPlace d core x a with
  | none => .error (.address, a)
  | some (.global _) => do
    ensure aligned .align a
    pure {}
  | some (.spm c off own) =>
    if n = 0 then do
      ensure (if own then off % 4 = 0 else aligned) .align a
      pure {}
    else do
      let last := (off : Int) + (n - 1 : Nat) * stride
      let lo := min (off : Int) last
      let hi := max (off : Int) last + ((w + 7) / 8 : Nat)
      ensure (0 ≤ lo && hi ≤ spmLast + 1) .address a
      ensure (if own then off % 4 = 0 else aligned) .align a
      regionCheck d c a lo.toNat (hi - lo).toNat
      pure (if own then readRange lo.toNat (hi - lo).toNat else {})

/-- VGATH and VSCAT: a local base records the range from it to the last offset (R195). On a peer each element is checked at execution (log entry 115). -/
def indexedRanges (d : Dev) (core : Nat) (x : Cmd) (a : Word) (n : Nat) (write : Bool) : Checked Ranges :=
  match cmdPlace d core x a with
  | none => .error (.address, a)
  | some (.spm c off true) => do
    let len := if n = 0 then 0 else spmLast + 1 - off
    regionCheck d c a off len
    pure (if write then writeRange off len else readRange off len)
  | some _ => .ok {}

/-- AREAD and AWRITE: the rows end by row 255 (R205). -/
def accRowsCheck (x : Cmd) (n : Nat) : Checked Ranges := do
  ensure (x.regS2.toNat % 256 + (n + 127) / 128 ≤ 256) .address 0
  pure {}

/-- The enqueue checks of a vector command. -/
def vecRanges (d : Dev) (core : Nat) (o : VecOp) (x : Cmd) : Checked Ranges :=
  let wd := vecWidthD o x
  let n := vecLength o x.vl wd (vecWidth1 o x)
  if fnBit x.f 5 then sformRanges d core o x n
  else
    match o with
    | .vld => vecMemRanges d core x x.regS1 (elemBytes n wd) false
    | .vst => vecMemRanges d core x x.regD (elemBytes n wd) true
    | .vmld => vecMemRanges d core x x.regS1 ((n + 7) / 8) false
    | .vlds => vldsRanges d core x n wd
    | .vgath => indexedRanges d core x x.regS1 n false
    | .vscat => indexedRanges d core x x.regD n true
    | .aread | .awrite => accRowsCheck x n
    | _ => .ok {}

/-! ### Matrix commands -/

/-- K, and the plane flags PA and PB (Table 9.2). -/
def matK (x : Cmd) : Nat := x.regS3.toNat % 2 ^ 32
def matPa (x : Cmd) : Bool := Bits.bit x.regS3.toNat 63
def matPb (x : Cmd) : Bool := Bits.bit x.regS3.toNat 62
def matBlocks (x : Cmd) : Nat := (matK x + 31) / 32
def matPrec (x : Cmd) : MatPrec := matPrecOf (fnBits x.f 5 4)
def matSparse (x : Cmd) : Bool := fnBit x.f 3

/-- The types that carry block scales, outside I32 (R168). -/
def scaledTy (t : Ty) : Bool := t = .pt8 || t = .i8 || t = .i4 || t = .e4m3
def scaledCode (x : Cmd) (r : TyRole) (c : Nat) : Bool :=
  matPrec x ≠ .i32 && scaledTy (tyOfCode (if c = 14 then roleField r x.ftval.toNat else c))

/-- The sizes in bytes of the sections of an operand region, per k-block (Table 9.1): data, metadata, scales, plane. -/
structure Region where
  data  : Nat
  meta_ : Nat
  scale : Nat
  plane : Nat
  deriving DecidableEq, Repr

/-- The region of an operand of `rows` rows (256 for A) or columns (128 for B). -/
def regionOf (rows w : Nat) (sparse scaled plane : Bool) : Region :=
  { data := rows * (if sparse then 16 else 32) * w / 8, meta_ := if sparse then 4 * rows else 0
    scale := if scaled then 2 * rows else 0, plane := if plane then rows / 8 else 0 }

/-- The bytes of a region of nb k-blocks. -/
def regionBytes (r : Region) (nb : Nat) : Nat := nb * (r.data + r.meta_ + r.scale + r.plane)

/-- The regions of A and B under the codes of the word. -/
def regionA (x : Cmd) : Region :=
  regionOf 256 (codeWidth x .ta (immBits x.f 31 28)) (matSparse x) (scaledCode x .ta (immBits x.f 31 28)) (matPa x)
def regionB (x : Cmd) : Region :=
  regionOf 128 (codeWidth x .tb (immBits x.f 27 24)) false (scaledCode x .tb (immBits x.f 27 24)) (matPb x)

/-- MMA, MMAZ and MMAS (R213, R222, R224); A is checked before B (log entry 119). -/
def mmaRanges (d : Dev) (core : Nat) (streamed : Bool) (x : Cmd) : Checked Ranges := do
  ensure (Bits.field x.regS3.toNat 61 32 = 0 && matK x ≤ 0x1000000) .illegalInstruction 0
  let na := regionBytes (regionA x) (matBlocks x)
  let nb := regionBytes (regionB x) (matBlocks x)
  let a ← localCheck d core x x.regS1 na 64
  if streamed then do
    ensure (tagOf x.regS2 = 0) .address x.regS2
    ensure (x.regS2.toNat % 64 = 0) .align x.regS2
    pure (readRange a na)
  else do
    let b ← localCheck d core x x.regS2 nb 64
    pure ((readRange a na).join (readRange b nb))

/-- The pitch and bound offset of ASTORE and ALOAD (R226). -/
def rowBytes (w : Nat) : Nat := 128 * w / 8
def pitchOf (x : Cmd) (w : Nat) : Nat := if x.regS2.toNat % 2 ^ 32 = 0 then rowBytes w else x.regS2.toNat % 2 ^ 32
def planeOffset (x : Cmd) : Nat := Bits.field x.regS2.toNat 63 32
/-- ENG[31] is B. -/
def withPlane (x : Cmd) : Bool := immBit x.f 31

/-- ASTORE and ALOAD; `peers` admits a rank other than the own (R226, R227). Each fault names the address operand (log entry 120). -/
def tileRanges (d : Dev) (core : Nat) (x : Cmd) (a : Word) (w : Nat) (peers write : Bool) : Checked Ranges :=
  let pitch := pitchOf x w
  let n := 255 * pitch + rowBytes w
  let po := planeOffset x
  let aligned := a.toNat % 64 = 0 && pitch % 64 = 0 && po % 64 = 0
  match cmdPlace d core x a with
  | none => .error (.address, a)
  | some (.global _) => do
    ensure (rowBytes w ≤ pitch) .address a
    ensure aligned .align a
    pure {}
  | some (.spm c off own) => do
    ensure ((own || peers) && rowBytes w ≤ pitch && inSpm off n && (!withPlane x || inSpm (off + po) 256)) .address a
    ensure aligned .align a
    regionCheck d c a off n
    regionCheck d c a (off + po) (if withPlane x then 256 else 0)
    let r := { reads := interval off n ++ interval (off + po) (if withPlane x then 256 else 0) : Ranges }
    pure (if !own then {} else if write then { writes := r.reads } else r)

/-- ABOUND (R228). -/
def aboundRanges (d : Dev) (core : Nat) (x : Cmd) : Checked Ranges := do
  let off ← localCheck d core x x.regS1 256 64
  pure (if immBits x.f 25 24 = 3 then writeRange off 256 else readRange off 256)

/-- The enqueue checks of a matrix command. -/
def matRanges (d : Dev) (core : Nat) (o : MatOp) (x : Cmd) : Checked Ranges :=
  match o with
  | .mma | .mmaz => mmaRanges d core false x
  | .mmas => mmaRanges d core true x
  | .aclr => .ok {}
  | .astore => tileRanges d core x x.regD (codeWidth x .td (fnBits x.f 3 0)) true true
  | .aload => tileRanges d core x x.regS1 (codeWidth x .ta (fnBits x.f 3 0)) false false
  | .abound => aboundRanges d core x

/-! ### Copy commands -/

/-- ENG's B, Z and visibility scope (R54). -/
def cpyB (x : Cmd) : Bool := immBit x.f 31
def cpyZ (x : Cmd) : Bool := immBit x.f 30
def cpyScope (x : Cmd) : Nat := immBits x.f 29 27
/-- FN[0] is W, FN[1] is A (R255). -/
def cpyW (x : Cmd) : Bool := fnBit x.f 0

/-- The fields of the size word (Table 11.1). -/
def cpyLen (x : Cmd) : Nat := x.regS2.toNat % 2 ^ 23
def cpyPlen (x : Cmd) : Nat := if cpyB x then Bits.field x.regS2.toNat 31 23 else 0
def cpyBoff (x : Cmd) : Int := Bits.signed 32 (Bits.field x.regS2.toNat 63 32)
def cpyMask (x : Cmd) : Nat := Bits.field x.regS2.toNat 63 56

/-- The size word is legal (R254). -/
def sizeWordOk (o : CpyOp) (x : Cmd) : Bool :=
  let w := x.regS2.toNat
  cpyLen x ≤ 0x400000
    && (match o with
        | .cpyr => Bits.field w 55 23 = 0 && cpyLen x % 4 = 0
        | _ => if cpyB x then Bits.field w 63 32 % 2 = 0 else Bits.field w 63 23 = 0)

/-- The iterations of the captured nest (R253). -/
def nestCounts (x : Cmd) : List Nat := x.nest.map fun l => l.count.toNat
def nestIterations (x : Cmd) : Nat := (nestCounts x).foldl (· * ·) 1

/-- A copy of zero extent (R261). -/
def zeroExtent (x : Cmd) : Bool := nestIterations x = 0 || (cpyLen x = 0 && cpyPlen x = 0)

/-- The lowest and the highest sum of index × stride over the nest. -/
def nestSpan (levels : List (Nat × Int)) : Int × Int :=
  levels.foldl (fun r l => let v := ((l.1 : Int) - 1) * l.2; (r.1 + min 0 v, r.2 + max 0 v)) (0, 0)

/-- The source or destination strides with their counts. -/
def srcLevels (x : Cmd) : List (Nat × Int) := x.nest.map fun l => (l.count.toNat, l.ss.toInt)
def dstLevels (x : Cmd) : List (Nat × Int) := x.nest.map fun l => (l.count.toNat, l.ds.toInt)

/-- The bounding interval of an operand over the nest, plane included, as its first byte and the byte after its last (R256). -/
def operandSpan (x : Cmd) (levels : List (Nat × Int)) (base : Nat) : Int × Int :=
  let s := nestSpan levels
  let lo := (base : Int) + s.1
  let hi := (base : Int) + s.2
  let p := (2 * cpyPlen x : Nat)
  let b := cpyBoff x
  if cpyPlen x = 0 then (lo, hi + cpyLen x)
  else if cpyLen x = 0 then (lo + b, hi + b + p)
  else (min lo (lo + b), max (hi + cpyLen x) (hi + b + p))

/-- A side of a copy: global memory, one scratchpad, or the multicast set of a member mask. -/
inductive Side where
  | global (va : Nat)
  | spm (core off : Nat) (own : Bool)
  | multi (mask off : Nat)
  deriving DecidableEq, Repr

/-- The side that an address names, by the tags of Table 11.4. -/
def sideOf (d : Dev) (core : Nat) (x : Cmd) (a : Word) : Option Side :=
  let v := a.toNat
  if tagOf a = 10 then
    let mask := Bits.field v 31 24
    if Bits.field v 59 32 = 0 ∧ Bits.field v 23 22 = 0 ∧ mask ≠ 0 ∧ mask < 2 ^ (getCore d core).gangSize then
      some (.multi mask (v % 2 ^ 22))
    else none
  else
    match cmdPlace d core x a with
    | some (.global va) => some (.global va)
    | some (.spm c off own) => some (.spm c off own)
    | none => none

/-- The sides that a copy command accepts (Table 11.4). -/
def srcAccepts (o : CpyOp) (s : Side) : Bool :=
  match s with
  | .global _ => o ≠ .cpyr
  | .spm _ _ own => own || o ≠ .cpyr
  | .multi _ _ => false
def dstAccepts (o : CpyOp) (s : Side) : Bool :=
  match s with
  | .global _ => o ≠ .cpyr && o ≠ .cpym
  | .spm _ _ _ => o ≠ .cpym
  | .multi _ _ => o = .cpym

/-- A side with its acceptance. -/
def sideCheck (d : Dev) (core : Nat) (x : Cmd) (a : Word) (accepts : Side → Bool) : Checked Side :=
  match sideOf d core x a with
  | some s => if accepts s then .ok s else .error (.address, a)
  | none => .error (.address, a)

/-- The offset or address at which a side starts. -/
def sideBase (s : Side) : Nat :=
  match s with
  | .global va => va
  | .spm _ off _ => off
  | .multi _ off => off

/-- The extreme offsets over the nest stay inside the side's space (R256 step 1), as sums that R93 has not reduced (log entry 142). -/
def extentOk (x : Cmd) (levels : List (Nat × Int)) (s : Side) : Bool :=
  let r := operandSpan x levels (sideBase s)
  let last : Int := match s with | .global _ => ((2 ^ 56 : Nat) : Int) | _ => spmLast + 1
  0 ≤ r.1 && r.2 ≤ last

/-- The member mask includes the own rank. -/
def ownMember (k : Core) (x : Cmd) (mask : Nat) : Bool := Bits.bit mask (cmdRank k x)

/-- The local interval that a side records, if any. -/
def localSpan (k : Core) (x : Cmd) (levels : List (Nat × Int)) (s : Side) : List (Nat × Nat) :=
  let r := operandSpan x levels (sideBase s)
  let i := interval r.1.toNat (r.2 - r.1).toNat
  match s with
  | .global _ => []
  | .spm _ _ own => if own then i else []
  | .multi mask _ => if ownMember k x mask then i else []

/-- The sync word of a copy with W = 1 lies at the destination's core; CPYM's at every member (R256, R263). W = 1 with a
global destination reports a(S3) (log entry 141). -/
def syncSideCheck (d : Dev) (core : Nat) (x : Cmd) (dst : Side) : Checked Unit :=
  if !cpyW x then .ok ()
  else
    match dst, cmdPlace d core x x.regS3 with
    | .spm c _ _, some (.spm c' _ _) => ensure (c = c') .address x.regS3
    | .multi _ _, some (.spm _ _ _) => ensure (tagOf x.regS3 = 8) .address x.regS3
    | _, _ => .error (.address, x.regS3)

/-- The cores of a member mask with their ranks. -/
def memberCores (k : Core) (core mask : Nat) : List Nat := ((List.range 8).filter fun i => Bits.bit mask i).map (gangBase k core + ·)

/-- The cores at which a destination side lies. -/
def sideCores (k : Core) (core : Nat) (s : Side) : List Nat :=
  match s with
  | .global _ => []
  | .spm c _ _ => [c]
  | .multi m _ => memberCores k core m

/-- The offset of the sync word that a copy with W = 1 names. -/
def syncOffset (x : Cmd) : Nat := x.regS3.toNat % 2 ^ 22

/-- The sync word that a copy with W = 1 names lies in another slot's persistent region at one of its cores (R327, log entry 147). -/
def syncForeign (d : Dev) (x : Cmd) (cores : List Nat) : Bool := cpyW x && cores.any fun c => foreignRegion d c (syncOffset x) 32

/-- The region checks of recorded intervals. -/
def spansCheck (d : Dev) (core : Nat) (a : Word) (l : List (Nat × Nat)) : Checked Unit :=
  l.forM fun r => regionCheck d core a r.1 (r.2 + 1 - r.1)

/-- The visibility scope is allowed (R133, R256 step 3). -/
def scopeCheck (d : Dev) (core : Nat) (x : Cmd) : Checked Unit :=
  ensure (cpyScope x ≠ 6 || (getCore d core).scopeSys) .scope 0

/-- CPY, CPYM, CPYR and CPYF (R254, R256, R261). CPYF has no source side. A MASK that fails reports a(D) (log entry 133); the sync
word's region is tested last (R327, log entry 147). -/
def copyRanges (d : Dev) (core : Nat) (o : CpyOp) (x : Cmd) : Checked Ranges := do
  let k := getCore d core
  ensure (sizeWordOk o x && nestIterations x ≤ 2 ^ 32) .illegalInstruction 0
  let dst ← sideCheck d core x x.regD (dstAccepts o)
  let src ← if o = .cpyf then pure none else (sideCheck d core x x.regS1 (srcAccepts o)).map some
  ensure (o ≠ .cpyr || (cpyMask x ≠ 0 && cpyMask x < 2 ^ k.gangSize && ownMember k x (cpyMask x))) .address x.regD
  syncSideCheck d core x dst
  ensure (zeroExtent x || src.all (extentOk x (srcLevels x))) .address x.regS1
  ensure (zeroExtent x || extentOk x (dstLevels x) dst) .address x.regD
  ensure (!cpyW x || x.regS3.toNat % 32 = 0) .align x.regS3
  scopeCheck d core x
  let spans (l : List (Nat × Nat)) := if zeroExtent x then [] else l
  let reads := spans (match src with | some s => localSpan k x (srcLevels x) s | none => [])
  let writes := spans (localSpan k x (dstLevels x) dst)
  spansCheck d core x.regS1 reads
  spansCheck d core x.regD writes
  ensure (!syncForeign d x (sideCores k core dst)) .permission x.regS3
  pure { reads := reads, writes := writes }

/-- CPYG and CPYS (R256, R266): the indexed side is checked at execution, and a local one records the range from its base to
the last offset. -/
def indexedCopyRanges (d : Dev) (core : Nat) (o : CpyOp) (x : Cmd) : Checked Ranges := do
  let k := getCore d core
  let gather := o = .cpyg
  ensure (sizeWordOk o x && nestIterations x ≤ 2 ^ 32) .illegalInstruction 0
  let dst ← sideCheck d core x x.regD (dstAccepts o)
  let src ← sideCheck d core x x.regS1 (srcAccepts o)
  let n := if zeroExtent x then 0 else 4 * (nestCounts x).headD 0
  let idx ← match cmdPlace d core x x.regS3 with
    | some (.spm _ off true) => (ensure (inSpm off n) .address x.regS3).map fun _ => off
    | _ => .error (.address, x.regS3)
  ensure (zeroExtent x || gather || extentOk x (srcLevels x) src) .address x.regS1
  ensure (zeroExtent x || !gather || extentOk x (dstLevels x) dst) .address x.regD
  ensure (idx % 4 = 0) .align x.regS3
  scopeCheck d core x
  if zeroExtent x then pure {}
  else do
    let whole (s : Side) := match s with | .spm _ off true => interval off (spmLast + 1 - off) | _ => []
    let reads := if gather then whole src else localSpan k x (srcLevels x) src
    let writes := if gather then localSpan k x (dstLevels x) dst else whole dst
    if gather then spansCheck d core x.regD writes else spansCheck d core x.regS1 reads
    spansCheck d core x.regS3 (interval idx n)
    pure { reads := reads ++ interval idx n, writes := writes }

/-! ### KV commands -/

/-- The KV binding that a command of the stream enqueued now will use: the last KVMAP on its way, else the stream's (R271). -/
def kvBindingAt (k : Core) (i : Nat) : Option (Word × Nat) :=
  let t := coreStream k i
  let maps := ((k.running.map (·.cmd)).filter fun x => x.stream = i) ++ queuedCmds t.qcpy
  match (maps.filter fun x => x.op = .cpy .kvmap).getLast? with
  | some x => some (x.regS1, x.regS2.toNat)
  | none => t.kv

/-- ROWB of a sequence's entry as the enqueue finds it, for the size of a range; 0 where no entry can be read (log entry 13). -/
def kvRowBytes (d : Dev) (core i : Nat) (seq : Word) : Nat :=
  match kvBindingAt (getCore d core) i with
  | some (base, _) =>
    let va := (base.toNat + 32 * seq.toNat) % 2 ^ 60
    match translateFor d core va .read with
    | .ok e => Bits.field (memNat d (physical e va) 32) 239 224
    | .error _ => 0
  | none => 0

/-- p0 and p1 of KVGATH and KVRANK. -/
def kvP0 (x : Cmd) : Nat := x.regS2.toNat % 2 ^ 32
def kvP1 (x : Cmd) : Nat := x.regS2.toNat / 2 ^ 32

/-- The local operands of a KV command: address, bytes, and whether it is written (Table 11.9, R272, R274 to R276). -/
def kvOperands (d : Dev) (core : Nat) (o : CpyOp) (x : Cmd) : List (Word × Nat × Bool) :=
  let rowb (seq : Word) := kvRowBytes d core x.stream seq
  let span := kvP1 x - kvP0 x
  match o with
  | .kvgath => [(x.regD, span * rowb x.regS1, true), (x.regS3, 8 + (span + 7) / 8, true)]
  | .kvapp => [(x.regS1, x.regS3.toNat * rowb x.regS2, false)]
  | .kvcomp => [(x.regS2, x.regS3.toNat, false)]
  | .kvrank => [(x.regD, 4 * span, true)]
  | _ => []

/-- The counts of Table 11.9. -/
def kvCountOk (o : CpyOp) (x : Cmd) : Bool :=
  match o with
  | .kvmap => 1 ≤ x.regS2.toNat && x.regS2.toNat ≤ 65536
  | .kvapp => x.regS3.toNat ≤ 4096
  | .kvcomp => x.regS3.toNat ≤ 64
  | _ => true

/-- ADDRESS and ALIGN of a KV command's local operand: its offset. -/
def kvPlace (d : Dev) (core : Nat) (x : Cmd) (a : Word) (n : Nat) : Checked Nat :=
  match cmdPlace d core x a with
  | some (.spm _ off true) => do
    ensure (inSpm off n) .address a
    pure off
  | _ => .error (.address, a)

/-- The enqueue checks of a KV command, in the order of R256, each made of every operand before the next. KVMAP's table is global. -/
def kvRanges (d : Dev) (core : Nat) (o : CpyOp) (x : Cmd) : Checked Ranges := do
  ensure (kvCountOk o x) .illegalInstruction 0
  ensure (o ≠ .kvmap || tagOf x.regS1 = 0) .address x.regS1
  let l ← (kvOperands d core o x).mapM fun p => (kvPlace d core x p.1 p.2.1).map fun off => (p, off)
  l.forM fun p => ensure (p.2 % 4 = 0) .align p.1.1
  scopeCheck d core x
  l.forM fun p => regionCheck d core p.1.1 p.2 p.1.2.1
  pure { reads := l.flatMap fun p => if p.1.2.2 then [] else interval p.2 p.1.2.1
         writes := l.flatMap fun p => if p.1.2.2 then interval p.2 p.1.2.1 else [] }

/-! ### Any command -/

/-- The enqueue checks of a copy-queue command. -/
def cpyRanges (d : Dev) (core : Nat) (o : CpyOp) (x : Cmd) : Checked Ranges :=
  match o with
  | .cpy | .cpym | .cpyr | .cpyf => copyRanges d core o x
  | .cpyg | .cpys => indexedCopyRanges d core o x
  | _ => kvRanges d core o x

/-- The counters that a command's enabled token fields name (Table 3.10). -/
def tokenNames (f : Fields) : List Nat :=
  [immBits f 23 18, immBits f 17 12, immBits f 11 6, immBits f 5 0].filterMap fun x => if 32 ≤ x then some (x % 32) else none

/-- The enqueue checks of a command: the token quota (R344), the command's own checks, QUEUE_CFG for an unbound queue (R17), PERMISSION for one whose
region lies in another slot's persistent region (R327, log entry 146). -/
def commandRanges (d : Dev) (core : Nat) (x : Cmd) : Checked Ranges := do
  let k := getCore d core
  ensure ((tokenNames x.f).all fun t => t < k.tquota) .permission 0
  let r ← match x.op with
    | .vec o => vecRanges d core o x
    | .mat o => matRanges d core o x
    | .cpy o => cpyRanges d core o x
  ensure (getQueue (coreStream k x.stream) (queueOf x.op)).bound.isSome .queueCfg 0
  ensure (!queueForeign d core (getQueue (coreStream k x.stream) (queueOf x.op))) .permission 0
  pure r

end Sys2Proof.Machine
end

