-- ==== Sys2Proof/Machine/Capture.lean ====
section
/-!
DEFINITION. What an engine instruction does when it issues: its operands are captured (R25, R52, R182, R251), the enqueue checks
are made, and the command enters its stream's queue (R15, R17, R20, R53, R75).
-/

namespace Sys2Proof.Machine

/-- The value that a register operand captures; an open-axis operand of a body captures none (R182, R297). -/
def captureReg (s : State) (cls : Option Cls) (r : BitVec 8) : Word :=
  match cls with
  | some .s => readS s r
  | some .a => if r.toNat < 16 then readA s r else 0
  | _ => 0

/-- The registers that a command captures. -/
def captureRegs (s : State) (o : EngineOp) (f : Fields) : Cmd :=
  let h := engineShape o f
  { op := o, f := f, regD := captureReg s h.d f.d, regS1 := captureReg s h.s1 f.s1, regS2 := captureReg s h.s2 f.s2
    regS3 := captureReg s h.s3 f.s3 }

/-- What a command captures from its stream besides registers (R52, R182, R251). -/
def captureStream (split : Bool) (i : Nat) (t : Stream) (x : Cmd) : Cmd :=
  let entry := (Sparse.get t.loops {} 0).count.toNat % 16
  { x with vl := t.sys.vl.toNat, vcnt := t.sys.vcnt.toNat, frm := t.sys.frm, nest := t.nest, entry := entry
           ftval := Sparse.get t.ftable 0 entry, stream := i, split := split }

/-- The command that an instruction enqueues. -/
def captureCmd (s : State) (o : EngineOp) (f : Fields) : Cmd :=
  captureStream (isSplit s) s.cur.stream (preStream s) (captureRegs s o f)

/-- An engine command that has passed its decode checks: the enqueue checks, then a place in the queue and in the range checker,
or a stall (R17, R20, R278). -/
def enqueueBody (o : EngineOp) (f : Fields) (s : State) : State :=
  let x := captureCmd s o f
  match commandRanges s.dev s.cur.core x with
  | .error (c, a) => faultAt c a s
  | .ok r =>
    if queueFull (getQueue (curStream s) (queueOf o)) || checkerFull (curCore s) then stall s
    else onDev s fun d => enqueueCmd d s.cur.core s.cur.stream { x with reads := r.reads, writes := r.writes }

/-- A vector, matrix or copy instruction. -/
def issueVec (o : VecOp) (f : Fields) (s : State) : Result :=
  instr (legalVec o false (isSplit s) f) f s (enqueueBody (.vec o) f)
def issueMat (o : MatOp) (f : Fields) (s : State) : Result :=
  instr (legalMat o false (isSplit s) f) f s (enqueueBody (.mat o) f)
def issueCpy (o : CpyOp) (f : Fields) (s : State) : Result :=
  instr (legalCpy o false (isSplit s) f) f s (enqueueBody (.cpy o) f)

end Sys2Proof.Machine
end

