-- ==== Sys2Proof/Machine/CopyIssue.lean ====
section
/-!
DEFINITION. Meanings of the copy and KV instructions at issue: codes 0xC0 to 0xD5 of Table 3.12. Each command enters the copy queue
(R53); what it then does is in CopyEngine and KvEngine. NSET and NCLR execute in the sequencer.
-/

namespace Sys2Proof.Machine

/-- NSET: one level of the stream's nest (R252). -/
def execNset (f : Fields) (s : State) : Result :=
  instr (legalNset (isSplit s) f) f s fun s =>
    let l : NestLevel := { count := container (readS s f.s1), ss := readS s f.s2, ds := readS s f.s3 }
    onStream s fun t => { t with nest := t.nest.set (immBits f 2 0) l }

/-- The nest as dispatch and NCLR leave it (R250). -/
def clearNest : List NestLevel := List.replicate 6 {}

/-- NCLR (R250, R252). -/
def execNclr (f : Fields) (s : State) : Result :=
  instr (legalNclr (isSplit s) f) f s fun s => onStream s fun t => { t with nest := clearNest }

/-- CPY enters the copy queue (R262). -/
def execCpy (f : Fields) (s : State) : Result := issueCpy .cpy f s

/-- CPYM enters the copy queue (R263). -/
def execCpym (f : Fields) (s : State) : Result := issueCpy .cpym f s

/-- CPYR enters the copy queue (R264). -/
def execCpyr (f : Fields) (s : State) : Result := issueCpy .cpyr f s

/-- CPYG enters the copy queue (R266). -/
def execCpyg (f : Fields) (s : State) : Result := issueCpy .cpyg f s

/-- CPYS enters the copy queue (R266). -/
def execCpys (f : Fields) (s : State) : Result := issueCpy .cpys f s

/-- CPYF enters the copy queue (R267). -/
def execCpyf (f : Fields) (s : State) : Result := issueCpy .cpyf f s

/-- KVMAP enters the copy queue (R271). -/
def execKvmap (f : Fields) (s : State) : Result := issueCpy .kvmap f s

/-- KVGATH enters the copy queue (R275). -/
def execKvgath (f : Fields) (s : State) : Result := issueCpy .kvgath f s

/-- KVAPP enters the copy queue (R272). -/
def execKvapp (f : Fields) (s : State) : Result := issueCpy .kvapp f s

/-- KVCOMP enters the copy queue (R274). -/
def execKvcomp (f : Fields) (s : State) : Result := issueCpy .kvcomp f s

/-- KVEVICT enters the copy queue (R273). -/
def execKvevict (f : Fields) (s : State) : Result := issueCpy .kvevict f s

/-- KVRANK enters the copy queue (R276). -/
def execKvrank (f : Fields) (s : State) : Result := issueCpy .kvrank f s

end Sys2Proof.Machine
end

