-- ==== Sys2Proof/Machine/Launches.lean ====
section
/-!
DEFINITION. Launches (R312 to R318, R326, R327, R344): the nest record and its checks, admission, and the frontier.
-/

namespace Sys2Proof.Machine

/-! ### The nest record (Tables 15.1 and 15.2) -/

/-- A field of a nest record. -/
def recField (r : BitVec 1024) (hi lo : Nat) : Nat := Bits.field r.toNat hi lo
def recBit (r : BitVec 1024) (i : Nat) : Bool := Bits.bit r.toNat i

def recCword (r : BitVec 1024) : Word := BitVec.ofNat 64 (recField r 1023 960)
/-- BUFj, j from 1 to 7. -/
def recBuf (r : BitVec 1024) (j : Nat) : Word := BitVec.ofNat 64 (recField r (575 + 64 * (j - 1)) (512 + 64 * (j - 1)))
def recStkLimit (r : BitVec 1024) : Nat := recField r 501 480
def recStkBase (r : BitVec 1024) : Nat := recField r 469 448
def recDeadline (r : BitVec 1024) : Nat := recField r 447 384
def recRelease (r : BitVec 1024) : Nat := recField r 383 320
def recSlot (r : BitVec 1024) : Nat := recField r 295 288
def recFgroup (r : BitVec 1024) : Nat := recField r 287 280
def recBays (r : BitVec 1024) : Nat := recField r 275 256
def recDlen (r : BitVec 1024) : Bool := recBit r 236
def recRlen (r : BitVec 1024) : Bool := recBit r 235
def recDims (r : BitVec 1024) : Nat := recField r 234 233
def recScope (r : BitVec 1024) : Nat := recField r 232 230
def recPrio (r : BitVec 1024) : Nat := recField r 229 228
def recFlock (r : BitVec 1024) : Bool := recBit r 227
def recSplit (r : BitVec 1024) : Bool := recBit r 226
/-- The gang size 2^GANG. -/
def recGang (r : BitVec 1024) : Nat := 2 ^ recField r 225 224
def recEo (r : BitVec 1024) : Nat := recField r 159 128
def recEm (r : BitVec 1024) : Nat := recField r 127 96
def recEn (r : BitVec 1024) : Nat := recField r 95 64
def recEntry (r : BitVec 1024) : Word := BitVec.ofNat 64 (recField r 63 0)
/-- NR = EO × EM (R313). -/
def recRows (r : BitVec 1024) : Nat := recEo r * recEm r
/-- DVj as its 16 bits. -/
def recDv (r : BitVec 1024) (j : Nat) : Nat := recField r (175 + 16 * j) (160 + 16 * j)

/-- The components of a dependence vector. -/
def dvComponents (v : Nat) : Int × Int × Int :=
  (Bits.signed 5 (Bits.field v 14 10), Bits.signed 5 (Bits.field v 9 5), Bits.signed 5 (Bits.field v 4 0))

/-- The enabled vectors. -/
def recVectors (r : BitVec 1024) : List (Int × Int × Int) :=
  ([0, 1, 2, 3].filter fun j => Bits.bit (recDv r j) 15).map fun j => dvComponents (recDv r j)

/-- A vector is legal (ISW 0x0003). -/
def vectorOk (dims : Nat) (v : Nat) : Bool :=
  if !Bits.bit v 15 then v = 0
  else
    let (o, m, n) := dvComponents v
    let within8 (x : Int) : Bool := -8 ≤ x && x ≤ 8
    within8 o && within8 m && within8 n && (3 ≤ dims || o = 0) && (2 ≤ dims || m = 0)
      && (0 < o || (o = 0 && (0 < m || (m = 0 && 0 < n))))

/-- Bays of a mask that the part does not have. -/
def baysAbsent (d : Dev) (bays : Nat) : Bool := bays &&& d.boot.bays.toNat ≠ bays

/-- ENTRY and SLOT as ISW 0x0005 tests them. -/
def entryOk (r : BitVec 1024) : Bool :=
  let e := recEntry r
  if recSlot r = 255 then tagOf e = 0 && e.toNat % 2 = 0 else recSlot r ≤ 63 && e = 0

/-- The lowest code of Table 15.3 that a record meets; `entry` is its rule for ENTRY and SLOT (R314, R368). -/
def frontierCode (d : Dev) (entry : Bool) (r : BitVec 1024) : Option Nat :=
  let dims := recDims r
  let cw := recCword r
  if recField r 511 502 ≠ 0 || recField r 479 470 ≠ 0 || recField r 319 296 ≠ 0 || recField r 279 276 ≠ 0
      || recField r 255 237 ≠ 0 || dims = 0 || recScope r = 7 || recStkBase r % 8 ≠ 0 || recStkLimit r % 8 ≠ 0 then some 1
  else if recEo r = 0 || recEm r = 0 || recEn r = 0 || (dims < 3 && recEo r ≠ 1) || (dims < 2 && recEm r ≠ 1)
      || 2 ^ 32 - 1 < recRows r then some 2
  else if [0, 1, 2, 3].any fun j => !vectorOk dims (recDv r j) then some 3
  else if (recSplit r && recGang r ≠ 1) || recBays r = 0 || baysAbsent d (recBays r) then some 4
  else if !entry then some 5
  else if cw ≠ 0 && (tagOf cw ≠ 0 || cw.toNat % 8 ≠ 0) then some 6
  else if (recDlen r && recRlen r && recDeadline r < recRelease r) || (recFlock r && (!recRlen r || recFgroup r = 0)) then some 7
  else none

/-- The residency check: the slot is loaded and owned by the tenant (R328). -/
def slotResident (d : Dev) (tenant slot : Nat) : Bool :=
  match Sparse.find? d.slots slot with
  | some p => p.owner = tenant
  | none => false

/-- Why a record is refused, given its rule for ENTRY and SLOT: its cause and ISW (R314). -/
def recordFaultBy (d : Dev) (tenant : Nat) (sysOk entry : Bool) (r : BitVec 1024) : Option (Cause × Nat) :=
  match frontierCode d entry r with
  | some c => some (.frontier, c)
  | none =>
    if recScope r = 6 && !sysOk then some (.scope, 0)
    else if recBays r &&& (getVf d tenant).bays.toNat ≠ recBays r then some (.permission, 0)
    else if recSlot r ≠ 255 && !slotResident d tenant (recSlot r) then some (.residency, 0)
    else none

/-- Why a record of a LAUNCH is refused (R314). -/
def recordFault (d : Dev) (tenant : Nat) (sysOk : Bool) (r : BitVec 1024) : Option (Cause × Nat) :=
  recordFaultBy d tenant sysOk (entryOk r) r

/-! ### Admission (R29, R315, R328, R344) -/

/-- The die of the lowest set bit of a bay mask. -/
def homeDie (bays : Nat) : Nat := ((Bits.lowBit 20 bays).getD 0) / 5

/-- The bays of a mask lie within one die. -/
def oneDie (bays : Nat) : Bool := ((List.range 4).filter fun d => bays / 32 ^ d % 32 ≠ 0).length ≤ 1

/-- The effective scope of a launch (R29). -/
def effectiveScope (r : BitVec 1024) : Nat := max (recScope r) (if oneDie (recBays r) then 3 else 4)

/-- The launches homed on a die. -/
def homedOn (d : Dev) (die : Nat) : List (Nat × Launch) := d.launches.filter fun p => p.1 / 64 = die

/-- The launches of a tenant that a die may hold (R344). -/
def launchQuota (d : Dev) (tenant : Nat) : Nat := if (getVf d tenant).en then (getVf d tenant).lquota else 0

/-- A launch of the record can be admitted now. -/
def canAdmit (d : Dev) (tenant : Nat) (r : BitVec 1024) : Bool :=
  let l := homedOn d (homeDie (recBays r))
  l.length < 64 && (l.filter fun p => p.2.tenant = tenant).length < launchQuota d tenant

/-- The lowest free launch number of a die. -/
def freeLaunch (d : Dev) (die : Nat) : Nat :=
  (((List.range 64).map fun i => 64 * die + i).find? fun n => (getLaunch d n).isNone).getD (64 * die)

/-- The entry point of a launch: the record's, or its slot's image plus the template's offset (R328). -/
def launchEntry (d : Dev) (r : BitVec 1024) : Word :=
  match Sparse.find? d.slots (recSlot r) with
  | some p => if recSlot r = 255 then recEntry r else p.image + recEntry p.nrec
  | none => recEntry r

/-- Admit a launch: the device and the handle (R315). -/
def takeLaunch (d : Dev) (tenant : Nat) (r : BitVec 1024) (prio acq rel : Nat) (deps : List Word) (src : Source) : Dev × Word :=
  let n := freeLaunch d (homeDie (recBays r))
  let l : Launch :=
    { serial := d.serial, tenant := tenant, nrec := r, prio := prio, scope := effectiveScope r, acq := acq, rel := rel
      entryPc := launchEntry d r, deps := deps, source := src, vf := getVf d tenant, released := !recRlen r || recRelease r ≤ d.tick.toNat, since := d.tick.toNat
      slipped := recDlen r && recDeadline r ≤ d.tick.toNat }
  ({ setLaunch d n l with serial := (d.serial + 1) % 2 ^ 56 }, handleOf d.serial n)

/-- A live launch has the serial of a handle. -/
def liveSerial (d : Dev) (h : Word) : Option Launch :=
  (d.launches.find? fun p => p.2.serial = h.toNat / 256).map (·.2)

/-- A completion dependence is met (R336). -/
def depMet (d : Dev) (h : Word) : Bool := h = 0 || (liveSerial d h).isNone

/-! ### The frontier (R316, R317) -/

def rowOf (l : Launch) (ρ : Nat) : Row := Sparse.get l.rows {} ρ
def setRow (l : Launch) (ρ : Nat) (w : Row) : Launch := { l with rows := Sparse.insert l.rows ρ w }

/-- A point that a restored record leaves outside the reach of its row's masks, and whether it is done (R340). -/
def farPoint (l : Launch) (ρ n : Nat) : Option Bool := (l.far.find? fun p => p.1 = ρ && p.2.1 = n).map (·.2.2)

/-- done(q) for a point inside the space. -/
def pointDone? (l : Launch) (ρ n : Nat) : Bool :=
  farPoint l ρ n = some true || ρ < l.w0 || (ρ < l.w1 && (n < (rowOf l ρ).c || Bits.bit (rowOf l ρ).a.toNat (n - (rowOf l ρ).c)))

/-- busy(q). -/
def pointBusy (l : Launch) (ρ n : Nat) : Bool :=
  farPoint l ρ n = some false || (l.w0 ≤ ρ && ρ < l.w1 && (rowOf l ρ).c ≤ n && Bits.bit (rowOf l ρ).f.toNat (n - (rowOf l ρ).c))

/-- A predecessor is outside the space or done. -/
def predecessorMet (l : Launch) (o m n : Int) : Bool :=
  let r := l.nrec
  o < 0 || m < 0 || n < 0 || recEo r ≤ o.toNat || recEm r ≤ m.toNat || recEn r ≤ n.toNat
    || pointDone? l (o.toNat * recEm r + m.toNat) n.toNat

/-- ready(p). -/
def pointReady (l : Launch) (o m n : Nat) : Bool :=
  let ρ := o * recEm l.nrec + m
  !pointDone? l ρ n && !pointBusy l ρ n
    && (recVectors l.nrec).all fun v => predecessorMet l ((o : Int) - v.1) ((m : Int) - v.2.1) ((n : Int) - v.2.2)

/-- eligible(p). -/
def pointEligible (l : Launch) (o m n : Nat) : Bool :=
  let ρ := o * recEm l.nrec + m
  pointReady l o m n && ρ < l.w0 + 1024 && n < (if ρ < l.w1 then (rowOf l ρ).c else 0) + 64

/-- The first eligible index n of a row. -/
def rowEligible (l : Launch) (ρ : Nat) : Option Nat :=
  let c := if ρ < l.w1 then (rowOf l ρ).c else 0
  ((List.range 64).map (c + ·)).find? fun n =>
    n < recEn l.nrec && pointEligible l (ρ / recEm l.nrec) (ρ % recEm l.nrec) n

/-- The eligible point earliest in walk order (R322), as (o, m, n). -/
def firstEligible (l : Launch) : Option (Nat × Nat × Nat) :=
  ((List.range (min 1024 (recRows l.nrec - l.w0))).map (l.w0 + ·)).findSome? fun ρ =>
    (rowEligible l ρ).map fun n => (ρ / recEm l.nrec, ρ % recEm l.nrec, n)

/-- Every row from w1 to a row starts, empty (R317). -/
def openRows (l : Launch) (ρ : Nat) : Launch :=
  if l.w1 ≤ ρ then
    { l with rows := (List.range (ρ + 1 - l.w1)).foldl (fun m i => Sparse.insert m (l.w1 + i) {}) l.rows, w1 := ρ + 1 }
  else l

/-- The point's ahead bit is set in the masks of its row. -/
def aheadBit (l : Launch) (ρ n : Nat) : Bool := Bits.bit (rowOf l ρ).a.toNat (n - (rowOf l ρ).c)

/-- The masks of the point's row reach it. -/
def inReach (l : Launch) (ρ n : Nat) : Bool := l.w0 ≤ ρ && ρ < l.w1 && (rowOf l ρ).c ≤ n && n < (rowOf l ρ).c + 64

/-- The point's flight bit is set. -/
def setFlight (l : Launch) (ρ n : Nat) : Launch :=
  let w := rowOf l ρ
  setRow l ρ { w with f := w.f ||| (1#64 <<< (n - w.c)) }

/-- on dispatch of p (R317). -/
def markFlight (l : Launch) (ρ n : Nat) : Launch := setFlight (openRows l ρ) ρ n

/-- The prefix of a row moves past its done points; at most 64 of them. -/
def shiftRow : Nat → Row → Row
  | 0, w => w
  | k + 1, w => if Bits.bit w.a.toNat 0 then shiftRow k { c := w.c + 1, a := w.a >>> 1, f := w.f >>> 1 } else w

/-- w0 moves past complete rows. -/
def shiftFront (en : Nat) : Nat → Launch → Launch
  | 0, l => l
  | k + 1, l =>
    if l.w0 < l.w1 ∧ (rowOf l l.w0).c = en then
      shiftFront en k { l with w0 := l.w0 + 1, rows := Sparse.erase l.rows l.w0 }
    else l

/-- The bits of a point that is done: no flight bit, an ahead bit, and the row's prefix follows. -/
def setDone (l : Launch) (ρ n : Nat) : Launch :=
  let w := rowOf l ρ
  let bit := 1#64 <<< (n - w.c)
  setRow l ρ (shiftRow 64 { w with f := w.f &&& ~~~bit, a := w.a ||| bit })

/-- A point beside the rows joins them: its row's masks reach it, and do not show it done while it is in flight (R340). -/
def joinsRow (l : Launch) (p : Nat × Nat × Bool) : Bool := inReach l p.1 p.2.1 && (p.2.2 || !aheadBit l p.1 p.2.1)

/-- The points beside the rows that can join them do; at most n of them. -/
def absorbFar : Nat → Launch → Launch
  | 0, l => l
  | k + 1, l =>
    match l.far.find? (joinsRow l) with
    | some p =>
      let l := { l with far := l.far.erase p }
      absorbFar k (if p.2.2 then setDone l p.1 p.2.1 else setFlight l p.1 p.2.1)
    | none => l

/-- A point beside the rows is done: one that its row already counts as done is forgotten (R340). -/
def farDone (l : Launch) (ρ n : Nat) : Launch :=
  let l := { l with far := l.far.erase (ρ, n, false) }
  if pointDone? l ρ n then l else { l with far := l.far ++ [(ρ, n, true)] }

/-- on done of p (R317). -/
def markDone (l : Launch) (ρ n : Nat) : Launch :=
  let l := if farPoint l ρ n = some false then farDone l ρ n else setDone l ρ n
  shiftFront (recEn l.nrec) 1024 (absorbFar l.far.length l)

/-- Every core that holds the point, with the stream that runs it. -/
def pointPlaces (d : Dev) (number serial o m n : Nat) : List (Nat × Nat) :=
  d.cores.flatMap fun c =>
    ([0, 1, 2, 3].filter fun i =>
      match (coreStream c.2 i).point with
      | some p => p.launch = number && p.serial = serial && p.o = o && p.m = m && p.n = n
      | none => false).map fun i => (c.1, i)

/-- The launch's points that run, stand or are suspended on some core. -/
def launchOnCores (d : Dev) (number : Nat) : List (Nat × Nat) :=
  d.cores.flatMap fun c =>
    ([0, 1, 2, 3].filter fun i =>
      match (coreStream c.2 i).point with
      | some p => p.launch = number
      | none => false).map fun i => (c.1, i)

/-- Points in flight, held ones apart. -/
def inFlight (l : Launch) : Nat :=
  (l.rows.map fun p => Bits.popcount 64 p.2.f.toNat).sum + (l.far.filter fun p => !p.2.2).length - l.held.length

/-- The number of points done. -/
def donePoints (l : Launch) : Nat :=
  l.w0 * recEn l.nrec + (l.rows.map fun p => p.2.c + Bits.popcount 64 p.2.a.toNat).sum + (l.far.filter fun p => p.2.2).length

/-- The launch is complete: w0 = NR and no point of it is held or standing (R318). -/
def launchComplete (d : Dev) (number : Nat) (l : Launch) : Bool :=
  l.w0 = recRows l.nrec && l.held.isEmpty && (launchOnCores d number).isEmpty

/-- cls(X) of R322. -/
def launchClass (d : Dev) (l : Launch) : Nat :=
  if l.released then l.prio - (d.tick.toNat - l.since) / d.ctl.ageLimit.toNat else l.prio

/-- A launch is locked by a frame lock of its group (R326). -/
def launchLocked (d : Dev) (l : Launch) : Bool :=
  recRlen l.nrec && d.launches.any fun p =>
    recFlock p.2.nrec && p.2.serial ≠ l.serial && p.2.tenant = l.tenant && recFgroup p.2.nrec = recFgroup l.nrec
      && recRelease p.2.nrec < recRelease l.nrec

end Sys2Proof.Machine
end

