-- ==== Sys2Proof/Machine/Axes.lean ====
section
/-!
DEFINITION. Open axes and the rule table (R287 to R294): slices, retire counts and their words, rules leaving the table, and an advance
or a close of an axis.
-/

namespace Sys2Proof.Machine

/-- The address of slice s of an axis (R288). -/
def sliceAddr (a : Axis) (s : Nat) : Word := mkAddr (tagOf a.base) (a.base.toNat + s % a.cap * a.stride)

def findAxis (k : Core) (x : Nat) : Option Axis := Sparse.find? k.axes x
def setAxis (k : Core) (x : Nat) (a : Axis) : Core := { k with axes := Sparse.insert k.axes x a }
def findRule (k : Core) (n : Nat) : Option Rule := Sparse.find? k.rules n
def setRule (k : Core) (n : Nat) (r : Rule) : Core := { k with rules := Sparse.insert k.rules n r }
def dropRule (k : Core) (n : Nat) : Core := { k with rules := Sparse.erase k.rules n }

/-- A command is a firing of a rule. -/
def isFiringOf (n : Nat) (x : Cmd) : Bool := x.firing.any fun p => p.1 = n

/-- The firings of a rule that stand in queues. -/
def queuedFirings (k : Core) (n : Nat) : List Cmd :=
  ([0, 1, 2, 3].flatMap fun i => allQueues.flatMap fun q => queuedCmds (getQueue (coreStream k i) q)).filter (isFiringOf n)

/-- The slices of a rule's firings that have been enqueued and have not completed. -/
def openSlices (k : Core) (n : Nat) : List Nat :=
  (queuedFirings k n ++ ((k.running.filter fun r => !r.done).map (·.cmd)).filter (isFiringOf n)).filterMap fun x =>
    x.firing.map (·.2)

/-- u_k of R292: the least slice in reach of the rule whose firing has not completed; N when there is none. -/
def ruleFront (k : Core) (n : Nat) (r : Rule) (total : Nat) : Nat :=
  let m := (openSlices k n).foldl min r.next
  if m < min total r.horizon then m else total

/-- The retire count of an axis (R292). -/
def retireCount (k : Core) (x : Nat) (a : Axis) : Nat :=
  (k.rules.filter fun p => p.2.axis = x).foldl (fun m p => min m (ruleFront k p.1 p.2 a.n)) a.n

/-- Write a retire count to its word: a local word at its bank, a global one at its home with a signature (R292). A
global word that does not translate for writing is not written (log entry 14), nor a local one that has come to lie in another slot's persistent
region (R327, log entry 147). -/
def writeRetire (d : Dev) (core : Nat) (a : Axis) (v : Nat) : Dev :=
  if a.retire = 0 then d
  else if tagOf a.retire = 8 then
    if foreignRegion d core (a.retire.toNat % 2 ^ 22) 8 then d else spmWrite d core (a.retire.toNat % 2 ^ 22) (Bits.toBytes 8 v)
  else
    let va := a.retire.toNat % 2 ^ 60
    match translateFor d core va .write with
    | .ok e => postTo (homeStore d (physical e va) (Bits.toBytes 8 v)) core 4 (sigOf (physical e va / 64))
    | .error _ => d

/-- Bring the retire count of one axis up to date; `always` writes the word even when the count is unchanged (OAXDEF). -/
def settleAxis (d : Dev) (core x : Nat) (always : Bool) : Dev :=
  let k := getCore d core
  match findAxis k x with
  | none => d
  | some a =>
    let v := retireCount k x a
    if v = a.retired && !always then d else writeRetire (setCore d core (setAxis k x { a with retired := v })) core a v

/-- A firing of the rule is enqueued, running or held. -/
def hasFirings (k : Core) (n : Nat) : Bool :=
  !(queuedFirings k n).isEmpty || k.running.any fun r => isFiringOf n r.cmd && !r.done

/-- Rules that are past their horizon and have no firing leave the table (R294). -/
def sweepRules (k : Core) : Core :=
  { k with rules := k.rules.filter fun p => p.2.next < p.2.horizon || hasFirings k p.1 }

/-- After any change of an axis, a rule or a firing: rules leave the table, retire counts follow (R292, R294). -/
def settleRules (d : Dev) (core : Nat) : Dev :=
  (List.range 16).foldl (fun d x => settleAxis d core x false) (modCore d core sweepRules)

/-- Close an axis: every live rule on it has its horizon lowered to N (R289). -/
def closeAxis (k : Core) (x : Nat) (a : Axis) : Core :=
  let k := setAxis k x { a with closed := true }
  { k with rules := k.rules.map fun p => if p.2.axis = x then (p.1, { p.2 with horizon := min p.2.horizon a.n }) else p }

/-- N becomes `n` if that is larger, with an acquire before any firing of the advance; then the axis may close
(R289, R290). -/
def advanceAxis (d : Dev) (core x n : Nat) (close : Bool) : Dev :=
  match findAxis (getCore d core) x with
  | none => d
  | some a =>
    let d := if a.n < n then acquire (modCore d core fun k => setAxis k x { a with n := n }) core a.scope else d
    let a := { a with n := max a.n n }
    let d := if close && !a.closed then modCore d core fun k => closeAxis k x a else d
    settleRules d core

/-- A rule still has a firing to enqueue for a slice below `n` (R300). -/
def ruleOwes (x n : Nat) (r : Rule) : Bool := r.axis = x && r.state = .active && r.next < min n r.horizon

/-- Some firing of the axis for a slice below `n` is still to be enqueued. -/
def axisOwes (k : Core) (x n : Nat) : Bool := k.rules.any fun p => ruleOwes x n p.2

/-- The SLCOMMITs of the last bundle, each on a local axis, hold the stream while firings of their advances are to be enqueued (R299). -/
def axisBlocks (k : Core) (t : Stream) : Bool := t.waitAxis.any fun p => axisOwes k p.1 p.2

/-- Withdraw every firing of a rule that has not started, from every queue (R307). -/
def withdrawFirings (k : Core) (n : Nat) : Core :=
  let keep (e : QEntry) : Bool :=
    match e with
    | .cmd x => !isFiringOf n x
    | .fence _ _ => true
  let trim (q : Queue) : Queue := { q with entries := q.entries.filter keep }
  { k with streams := k.streams.map fun p =>
      (p.1, { p.2 with qcpy := trim p.2.qcpy, qvec := trim p.2.qvec, qmtx := trim p.2.qmtx }) }

/-- Discard a held firing: it leaves the core, and the rule goes on after its slice (R306). -/
def skipHeld (k : Core) (n : Nat) (r : Rule) : Core :=
  let k := { k with running := k.running.filter fun v => !(v.held && v.cmd.firing = some (n, r.next)) }
  setRule k n { r with held := false, next := r.next + 1 }

end Sys2Proof.Machine
end

