-- ==== Sys2Proof/Machine/Points.lean ====
section
/-!
DEFINITION. The points of launches on their cores (R9, R31, R309): where a point's streams are, whether it is suspended, exited or standing, and whether
a pre-emption is to save it (R311, R331, R364).
-/

namespace Sys2Proof.Machine

/-- The launch of a point, while it is admitted. -/
def launchOf (d : Dev) (p : Point) : Option Launch :=
  match getLaunch d p.launch with
  | some l => if l.serial = p.serial then some l else none
  | none => none

/-- The stream owns a live rule. -/
def ownsRule (k : Core) (i : Nat) : Bool := k.rules.any fun p => p.2.owner = i

/-- The points that a core holds, by stream. -/
def corePoints (k : Core) : List (Nat × Point) := [0, 1, 2, 3].filterMap fun i => (coreStream k i).point.map fun p => (i, p)

/-! ### The points of a launch on their cores -/

/-- The places of a point. -/
def placesOf (d : Dev) (p : Point) : List (Nat × Nat) := pointPlaces d p.launch p.serial p.o p.m p.n

/-- A stream of the point is suspended (R78, R367). -/
def pointSuspended (d : Dev) (p : Point) : Bool := (placesOf d p).any fun q => (getStream d q.1 q.2).suspended

/-- A stream of the point has stopped at a DBGBRK (R121). -/
def pointDebugStop (d : Dev) (p : Point) : Bool := (placesOf d p).any fun q => (getStream d q.1 q.2).debugStop

/-- Every stream of the point has completed EXIT. -/
def pointExited (d : Dev) (p : Point) : Bool := (placesOf d p).all fun q => decide ((getStream d q.1 q.2).run = .exited)

/-- The point is standing: it has exited and owns a live rule (R309). -/
def pointStanding (d : Dev) (p : Point) : Bool :=
  pointExited d p && (placesOf d p).any fun q => ownsRule (getCore d q.1) q.2

/-- Every command of the stream has completed and is visible: what EXIT waits for (R31). -/
def exitReady (k : Core) (i : Nat) : Bool := streamDrained k i && allQueues.all fun q => queueVisible k i q

/-- A stream of a point has ended: it has completed EXIT, stands no longer, and its queues have drained (R31, R309). -/
def streamEnded (d : Dev) (q : Nat × Nat) : Bool :=
  let k := getCore d q.1
  let t := coreStream k q.2
  decide (t.run = .exited) && !t.suspended && t.faults.isEmpty && !ownsRule k q.2 && exitReady k q.2

/-- The pre-emption under way of a point's launch. -/
def preemptOf (d : Dev) (p : Point) : Option Preempt := (launchOf d p).bind (·.preempt)

/-- A stream of the point has stopped for a forced pre-emption: at its sources' stop, or at a YIELD (R115, R331). -/
def pointHalted (d : Dev) (p : Point) : Bool := (placesOf d p).any fun q => (getStream d q.1 q.2).halted

/-- The point is to be saved with its context: at a forced request, when a YIELD has taken the request, or when it stands or is
suspended (R115, R311, R331, R364); not one that has ended, which is done (R317, R330, R339). -/
def pointToSave (d : Dev) (p : Point) : Bool :=
  match preemptOf d p with
  | some q => (q.forced || pointHalted d p || pointSuspended d p || pointStanding d p) && !(placesOf d p).all (streamEnded d)
  | none => false

/-- The cores of the gang that a core belongs to. -/
def gangCores (d : Dev) (core : Nat) : List Nat :=
  let k := getCore d core
  match (corePoints k).head? with
  | some q => if k.slaunch then [core] else (List.range q.2.size).map (q.2.base + ·)
  | none => []

/-- Every point of the gang's cores is to be saved. -/
def gangToSave (d : Dev) (core : Nat) : Bool :=
  !(gangCores d core).isEmpty && (gangCores d core).all fun c => (corePoints (getCore d c)).all fun q => pointToSave d q.2

/-- A pre-emption request is pending: STATUS.PPEND of the streams of a list of places (Table 4.5, R331). -/
def setPpend (d : Dev) (l : List (Nat × Nat)) : Dev :=
  l.foldl (fun d q => modStream d q.1 q.2 fun t => { t with sys := { t.sys with ppend := true } }) d

/-- The sources of a list of places stop: PPEND, and no further bundle issues (R331, step 1). -/
def haltSources (d : Dev) (l : List (Nat × Nat)) : Dev :=
  l.foldl (fun d q => modStream d q.1 q.2 fun t => { t with sys := { t.sys with ppend := true }, halted := true }) d

/-- The places of the launch's points that are to be saved. -/
def placesToSave (d : Dev) (number : Nat) : List (Nat × Nat) :=
  (launchOnCores d number).filter fun q => ((getStream d q.1 q.2).point.map (pointToSave d)).getD false

/-- EPC of a stream that stops at the boundary before its next bundle: the address of that bundle, in the in-point handler too (R115, R154,
R155, R278, log entry 102). -/
def stopEpc (t : Stream) : Stream :=
  if t.run = .running ∧ t.suspended = false then { t with sys := { t.sys with epc := t.pc } } else t

end Sys2Proof.Machine
end

