-- ==== Sys2Proof/Machine/Start.lean ====
section
/-!
DEFINITION. What lets a command start: its tokens (R22 to R24), its ranges (R19), the order over accumulators (R208, R217), its engine (R183, R217,
R259, R277), the order of firings (R300), fences (R25), leases and turns (R14, R219).
-/

namespace Sys2Proof.Machine

/-- A command is a product. -/
def isProduct (o : MatOp) : Bool := o = .mma || o = .mmas || o = .mmaz

/-- A KV command. -/
def isKv (o : CpyOp) : Bool :=
  match o with
  | .kvmap | .kvgath | .kvapp | .kvcomp | .kvevict | .kvrank => true
  | _ => false

/-! ### Token fields (R22, R23) -/

/-- The counter that a token field of a command names, if it is enabled (Table 3.10). -/
def tokenField (x : Cmd) (hi lo : Nat) : Option Nat :=
  let t := immBits x.f hi lo
  if 32 ≤ t then some (t % 32) else none

/-- The command enters the copy queue, so that IMM[5:0] is its visibility post (R22, R255). -/
def isCopy (x : Cmd) : Bool := queueOf x.op = .cpy

/-- The counters that the wait fields name, and those of the completion post and the visibility post (R22, R23). -/
def waitFields (x : Cmd) : List Nat :=
  [tokenField x 17 12, tokenField x 11 6, if isCopy x then none else tokenField x 5 0].filterMap id
def completionPost (x : Cmd) : Option Nat := tokenField x 23 18
def visibilityPost (x : Cmd) : Option Nat := if isCopy x then tokenField x 5 0 else none

/-! ### What may start -/

/-- The stream's queue starts no further command (R76). -/
def queueStopped (k : Core) (i : Nat) (q : QueueId) : Bool :=
  !(getQueue (coreStream k i) q).stopped.isEmpty ||
    k.running.any fun r => decide (r.cmd.stream = i) && decide (queueOf r.cmd.op = q) && r.stopped.isSome && !r.held

/-- A started command goes on: it is not stopped, and it has completed, so that its visibility still follows (R281), or its stream is not suspended
over its queue (R78). -/
def goesOn (k : Core) (r : Run) : Bool :=
  r.stopped.isNone && (r.done || !((coreStream k r.cmd.stream).suspended && queueStopped k r.cmd.stream (queueOf r.cmd.op)))

/-- How many of a command's wait fields name a counter (R23). -/
def tokenNeed (x : Cmd) (t : Nat) : Nat := (waitFields x).count t

/-- The counters hold a count for each time that a list names them (R23). -/
def countsMet (k : Core) (l : List Nat) : Bool := l.all fun t => l.count t ≤ (getToken k t).count.toNat

/-- Every wait of the command is met. -/
def tokensMet (k : Core) (x : Cmd) : Bool := countsMet k (waitFields x)

/-- The waits are taken all at once. -/
def takeTokens (k : Core) (x : Cmd) : Core :=
  (waitFields x).foldl (fun k t => let v := getToken k t; setToken k t { v with count := v.count - 1 }) k

/-- The older uncompleted commands of the core (R19). -/
def olderCmds (k : Core) (x : Cmd) : List Cmd := (checkerEntries k).filter fun y => y.age < x.age

/-- No older uncompleted entry blocks the command (R138). -/
def rangesClear (k : Core) (x : Cmd) : Bool := !(olderCmds k x).any fun y => rangesBlock y x.reads x.writes

/-- A matrix command on acc_a uses its partner as lo or as checkpoint (R208, R217): on an armed accumulator any does, be it one that takes no checkpoint
(R244, log entry 149). -/
def usesPartner (k : Core) (x : Cmd) (a : Nat) : Bool :=
  armed k a || precOf k a = .a2x32 || (match x.op with | .mat .mma | .mat .mmas | .mat .mmaz => matPrec x = .a2x32 | _ => false)

/-- A matrix command holds an accumulator: it names it, or uses it as its partner. -/
def matHolds (k : Core) (x : Cmd) (b : Nat) : Bool :=
  (matNames x).any fun a => a = b || (usesPartner k x a && partner a = b)

/-- The order of commands over accumulators (R208, R217): a command that is stopped is uncompleted (log entry 122). -/
def accsClear (k : Core) (x : Cmd) : Bool :=
  match matNames x, vecNames x with
  | some a, _ => !(olderCmds k x).any fun y => matHolds k y a || (vecNames y).any (matHolds k x)
  | _, some b => !(olderCmds k x).any fun y => matHolds k y b
  | _, _ => true

/-- The array runs products, the accumulator port the other matrix commands (R217). -/
def onArray (x : Cmd) : Bool :=
  match x.op with
  | .mat o => isProduct o
  | _ => false

/-- A started, uncompleted, unstopped matrix command occupies the same unit. -/
def unitBusy (k : Core) (x : Cmd) : Bool :=
  k.running.any fun r => decide (queueOf r.cmd.op = .mtx) && decide (onArray r.cmd = onArray x) && r.stopped.isNone

/-- The command is a KV command. -/
def isKvCmd (x : Cmd) : Bool :=
  match x.op with
  | .cpy o => isKv o
  | _ => false

/-- The engine can take another command of the queue: one vector command of a stream (R183), the free unit of the matrix engine (R217),
one of 16 copies (R259), one KV command of a stream (R277). -/
def engineFree (k : Core) (x : Cmd) : Bool :=
  match queueOf x.op with
  | .vec => !queueRunning k x.stream .vec
  | .mtx => !unitBusy k x
  | .cpy =>
    decide ((k.running.filter fun r => queueOf r.cmd.op = .cpy).length < 16)
      && !(isKvCmd x && k.running.any fun r => decide (r.cmd.stream = x.stream) && isKvCmd r.cmd && !r.done && !r.held)

/-- The firing of the latest earlier slice has completed (R300). -/
def firingTurn (k : Core) (x : Cmd) : Bool :=
  match x.firing with
  | none => true
  | some (n, s) => !(k.running.any fun r => r.cmd.firing.any (fun p => p.1 = n && p.2 < s) && !r.done)

/-- Once its stream has halted, a queue starts only the commands before its oldest fence, which then stays (R25, R331). -/
def fenceAllows (t : Stream) (q : QueueId) : Bool :=
  !t.halted || (getQueue t q).entries.any fun e => match e with | .fence _ _ => true | .cmd _ => false

/-- The head of a queue, if its tokens, its ranges and the order over accumulators are clear (R219): its queue is bound and goes on. -/
def clearHead (k : Core) (i : Nat) (q : QueueId) : Option Cmd :=
  let t := coreStream k i
  match (getQueue t q).entries with
  | .cmd x :: _ =>
    if (getQueue t q).bound.isSome && !queueStopped k i q && tokensMet k x && rangesClear k x && accsClear k x && firingTurn k x
        && fenceAllows t q then some x
    else none
  | _ => none

/-- The head of a queue, if it can start, leases and turns apart. -/
def startable (k : Core) (i : Nat) (q : QueueId) : Option Cmd := (clearHead k i q).filter (engineFree k)

/-- The streams in the order that begins after one. -/
def turnsAfter (i : Nat) : List Nat := [1, 2, 3, 4].map fun j => (i + j) % 4

/-- The lease (R219) and the round robin of the copy engine (R14) let the stream start. -/
def turnAllows (k : Core) (i : Nat) (q : QueueId) : Bool :=
  !k.split ||
    (match q with
     | .vec => true
     | .mtx => k.lease.any fun l => l.holder = i
     | .cpy => ((turnsAfter k.cpyTurn).find? fun j => (startable k j .cpy).isSome) = some i)

/-- The commands that can start now. -/
def startingHeads (k : Core) : List Cmd :=
  [0, 1, 2, 3].flatMap fun i => allQueues.filterMap fun q => if turnAllows k i q then startable k i q else none

/-- An older command that can start takes one of the counters first (R24). -/
def servedFirst (k : Core) (age : Nat) (counters : List Nat) : Bool :=
  !counters.isEmpty && (startingHeads k).any fun y => y.age < age && (waitFields y).any counters.contains

/-- Nothing of the stream's own keeps it from issuing its next bundle: within a transfer group nothing is taken first (R76 to R79, R104,
R331). -/
def streamGoes (d : Dev) (t : Stream) : Bool :=
  decide (t.run = .running) && !t.suspended && t.ret.isNone && (t.delay.isSome || (t.faults.isEmpty && !t.halted && !t.point.any (pointSuspended d)))

end Sys2Proof.Machine
end

