-- ==== Sys2Proof/Machine/Sync.lean ====
section
/-!
DEFINITION. Meanings of the synchronisation instructions (R140 to R153): codes 0x40 to 0x4E of Table 3.12, and the
short forms of TPOST and TWAIT.
-/

namespace Sys2Proof.Machine

/-! ### Token counters (R140, R344) -/

/-- A counter at or above TQUOTA raises PERMISSION (R344). -/
def withQuota (s : State) (t : Nat) (body : State → State) : State :=
  if (preCore s).tquota ≤ t then faultAt .permission 0 s else body s

/-- TSET: a count above its ceiling raises ILLEGAL_INSTRUCTION (R140). -/
def execTset (f : Fields) (s : State) : Result :=
  instr (legalTset (isSplit s) f) f s fun s => withQuota s f.d.toNat fun s =>
    let v : BitVec 32 := if fnBit f 0 then f.imm else container (readS s f.s1)
    let count := v.extractLsb' 16 16
    let ceiling := v.extractLsb' 0 16
    if ceiling.toNat < count.toNat then faultAt .illegalInstruction 0 s
    else onCore s fun k => setToken k f.d.toNat { count := count, ceiling := ceiling }

/-- post(D): TOKEN_CEILING above the ceiling (R23, R140). -/
def tpostBody (f : Fields) (s : State) : State :=
  withQuota s f.d.toNat fun s =>
    match postToken (curCore s) f.d.toNat with
    | some k => onDev s fun d => setCore d s.cur.core k
    | none => faultAt .tokenCeiling 0 s

/-- TPOST (R140). -/
def execTpost (f : Fields) (s : State) : Result := instr (legalToken (isSplit s) f) f s (tpostBody f)

/-- TPOST_B2: row 14 of Table 3.4 (R41, R140). -/
def execTpostB2 (fin : Bool) (d : BitVec 5) (e : BitVec 4) (s : State) : Result :=
  let f := (shortWord 14 fin d e).2
  instr (decide (e = 0) && legalToken (isSplit s) f) f s (tpostBody f)

/-! ### Sync words (R141 to R144) -/

/-- The checks of a sync-word instruction in the order of R144, then the hold of the range checker (R139). None of them looks for poison (log entry 117). -/
def checkSync (s : State) (ea : Word) (peer write : Bool) : Verdict :=
  match placeOf s ea with
  | some (.spm c off own) =>
    if !(own || peer) || !inSpm off 32 then .raise .address
    else if ea.toNat % 32 ≠ 0 then .raise .align
    else if touchesQueue (getCore s.dev c) off 32 then .raise .queueCfg
    else if foreignRegion s.dev c off 32 then .raise .permission
    else if own && (checkerFull (curCore s) ||
        accessHeld (preCore s) (if write then [] else [(off, off + 31)]) (if write then [(off, off + 31)] else [])) then .wait
    else .go (.spm c off own)
  | _ => .raise .address

/-- A checked action on the sync word at ea. -/
def atSync (s : State) (ea : Word) (peer write : Bool) (k : Nat → Nat → Bool → State) : State :=
  match checkSync s ea peer write with
  | .raise c => faultAt c ea s
  | .wait => stall s
  | .go (.spm c off own) => k c off own
  | .go (.global _) => faultAt .address ea s

/-- SWINIT (R141). -/
def execSwinit (f : Fields) (s : State) : Result :=
  instr (legalSync (isSplit s) f) f s fun s =>
    atSync s (readA s f.s1) false true fun c off _ => onDev s fun d =>
      writeSync d c off
        { target := (readS s f.s2).toNat, count := 0, gen := 0, armed := false, auto := false, overrun := false, arrivals := 0 }

/-- SWARM (R141). -/
def execSwarm (f : Fields) (s : State) : Result :=
  instr (legalSwarm (isSplit s) f) f s fun s =>
    atSync s (readA s f.s1) false true fun c off _ => onDev s fun d =>
      writeSync d c off { readSync d c off with armed := true, auto := fnBit f 0 }

/-- SWWAIT: OVER raises SYNC_WORD, with a(S1) as its EADDR (log entry 148); otherwise it completes once GEN differs (R28, R143). -/
def execSwwait (f : Fields) (s : State) : Result :=
  instr (legalSync (isSplit s) f) f s fun s =>
    atSync s (readA s f.s1) false false fun c off _ =>
      let w := readSync s.dev c off
      if w.overrun then faultAt .syncWord (readA s f.s1) s
      else if w.gen = (readS s f.s2).toNat % 2 ^ 32 then stall s
      else s

/-- SWARRIVE: an arrival at a local word at once, at a peer's word under way (R142). -/
def execSwarrive (f : Fields) (s : State) : Result :=
  instr (legalSync (isSplit s) f) f s fun s =>
    atSync s (readA s f.s1) true false fun c off own => onDev s fun d =>
      if own then syncArrive d c off (readS s f.s2).toNat
      else { d with arrivals := d.arrivals ++ [{ core := c, off := off, n := (readS s f.s2).toNat }] }

/-! ### PUBLISH, ACQUIRE, FENCE (R145, R146) -/

/-- A scope of SYSTEM needs SCOPE_POLICY.SYS (R133). -/
def scopeOk (k : Core) (scope : Nat) : Bool := scope ≠ 6 || k.scopeSys

/-- PUBLISH (R134, R145). -/
def execPublish (f : Fields) (s : State) : Result :=
  instr (legalScope (isSplit s) f) f s fun s =>
    if scopeOk (preCore s) (immBits f 2 0) then onDev s fun d => publish d s.cur.core (immBits f 2 0) else faultAt .scope 0 s

/-- ACQUIRE (R135, R145). -/
def execAcquire (f : Fields) (s : State) : Result :=
  instr (legalScope (isSplit s) f) f s fun s =>
    if scopeOk (preCore s) (immBits f 2 0) then onDev s fun d => acquire d s.cur.core (immBits f 2 0) else faultAt .scope 0 s

/-- A queue is selected by FENCE's mask; 0 selects all three (R146). -/
def fenceSelects (f : Fields) (q : QueueId) : Bool :=
  fnBits f 2 0 = 0 || fnBit f (match q with | .cpy => 0 | .vec => 1 | .mtx => 2)

/-- Every command that the stream itself enqueued into a queue has completed; with `v`, is visible too. -/
def fenceMet (k : Core) (i : Nat) (v : Bool) (q : QueueId) : Bool :=
  (queuedCmds (getQueue (coreStream k i) q)).all (fun x => x.firing.isSome) &&
    !(k.running.any fun r =>
        decide (r.cmd.stream = i) && decide (queueOf r.cmd.op = q) && r.cmd.firing.isNone && (v || !r.done))

/-- FENCE waits for the commands that stood enqueued before its bundle (R146, log entry 101). -/
def execFence (f : Fields) (s : State) : Result :=
  instr (legalFence (isSplit s) f) f s fun s =>
    if allQueues.all fun q => !fenceSelects f q || fenceMet (preCore s) s.cur.stream (fnBit f 3) q then s else stall s

/-! ### ATOM (R147) -/

/-- The new word of an atomic operation on w bits. -/
def atomNew (op : Nat) (uns : Bool) (w old x e : Nat) : Nat :=
  let less (p q : Nat) : Bool := if uns then p < q else Bits.signed w p < Bits.signed w q
  match op with
  | 0 => (old + x) % 2 ^ w
  | 1 => if less x old then x else old
  | 2 => if less old x then x else old
  | 3 => old &&& x
  | 4 => old ||| x
  | 5 => old ^^^ x
  | 6 => x
  | _ => if old = e then x else old

/-- What ATOM does before its read-modify-write: the publish of .rel, then the word's sector leaves the L1. -/
def atomPrepare (d : Dev) (core : Nat) (f : Fields) (pa : Nat) : Dev :=
  evictSector (if immBit f 1 then publish d core (immBits f 4 2) else d) core (pa / 64)

/-- ATOM's operand size in bytes. -/
def atomSize (f : Fields) : Nat := if fnBit f 3 then 8 else 4

/-- The read-modify-write at the home, with the L1 and the signatures around it (R147). -/
def atomCore (d : Dev) (core : Nat) (f : Fields) (pa : Nat) (x e : Word) : Dev :=
  let n := atomSize f
  let d := atomPrepare d core f pa
  let new := atomNew (fnBits f 2 0) (fnBit f 4) (8 * n) (memNat d pa n) (x.toNat % 256 ^ n) (e.toNat % 256 ^ n)
  let d := postTo (homeStore d pa (Bits.toBytes n new)) core 4 (sigOf (pa / 64))
  if immBit f 0 then acquire d core (immBits f 4 2) else d

/-- An ATOM lost with its link leaves its word with free bytes (R354, log entry 38). -/
def loseWord (d : Dev) (pa n : Nat) : Dev :=
  bumpFresh { d with mem := Sparse.setRange d.mem memDefault pa ((List.range n).map (Config.atomByte d.fresh)) }

/-- ATOM, its checks in the order of R147. POISON is tested at the home as it stands once the sector's dirty bytes have been written back; where it is
raised nothing of the ATOM has taken effect (R75, log entry 99), but over a link that is down its word is unknown (R354). EADDR is ea but for SCOPE,
whose rule names no address. -/
def execAtom (f : Fields) (s : State) : Result :=
  instr (legalAtom (isSplit s) f) f s fun s =>
    let ea := readA s f.s1
    let va := ea.toNat % 2 ^ 60
    let n := atomSize f
    if tagOf ea ≠ 0 then faultAt .address ea s
    else if ea.toNat % n ≠ 0 then faultAt .align ea s
    else if immBits f 1 0 ≠ 0 && !scopeOk (preCore s) (immBits f 4 2) then faultAt .scope 0 s
    else
      match translateFor s.dev s.cur.core va .write with
      | .error c => faultAt c ea s
      | .ok t =>
        let pa := physical t va
        if region pa = 3 then faultAt .permission ea s
        else if homePoisoned (atomPrepare s.dev s.cur.core f pa) pa n then
          faultAt .poison ea (if linkCut s.dev pa then { s with pre := loseWord s.pre pa n } else s)
        else
          let d := atomCore s.dev s.cur.core f pa (readS s f.s2) (readS s f.d)
          let old := memNat (atomPrepare s.dev s.cur.core f pa) pa n
          writeS (noteTlb { s with dev := d } va) f.d (BitVec.ofNat 64 old)

/-! ### Gang barriers (R148, R149) -/

/-- Streams 1 to 3 of a core split by SPLIT, and points of a SPLIT launch, take no part (R149). -/
def barrierOk (s : State) : Bool := !(preCore s).slaunch && !(isSplit s && s.cur.stream ≠ 0)

/-- K(b) of a gang. -/
def gangK (g : Gang) (odd : Bool) : Nat := if odd then g.k1 else g.k0
def setGangK (g : Gang) (odd : Bool) (v : Nat) : Gang := if odd then { g with k1 := v } else { g with k0 := v }

/-- One pass of the loop of GARRIVE: phase C + 1 ends when every member has arrived for it. -/
def endPhase (size : Nat) (g : Gang) : Gang :=
  let odd := (g.c + 1).toNat % 2 = 1
  if gangK g odd = size then { setGangK g odd 0 with c := g.c + 1 } else g

/-- A member's arrival, counted under the phase bit of its new arrival count. -/
def gangArrive (size : Nat) (a : BitVec 32) (g : Gang) : Gang :=
  let odd := (a + 1).toNat % 2 = 1
  endPhase size (endPhase size (setGangK g odd (gangK g odd + 1)))

/-- GARRIVE: the barrier and the arrival count are seen slot after slot, as tokens are (R148, log entry 1). -/
def execGarrive (f : Fields) (s : State) : Result :=
  instr (legalPlain (isSplit s) f) f s fun s =>
    let k := curCore s
    let b := gangBase k s.cur.core
    let g := getGang s.dev b
    if !barrierOk s then faultAt .illegalInstruction 0 s
    else if k.arrived - g.c = 2 then stall s
    else
      onDev s fun d =>
        setGang (modCore d s.cur.core fun k => { k with arrived := k.arrived + 1 }) b (gangArrive k.gangSize k.arrived g)

/-- GWAIT (R148). -/
def execGwait (f : Fields) (s : State) : Result :=
  instr (legalPlain (isSplit s) f) f s fun s =>
    let k := curCore s
    if !barrierOk s then faultAt .illegalInstruction 0 s
    else if k.arrived = (getGang s.dev (gangBase k s.cur.core)).c then s
    else stall s

/-! ### Watchpoints (R150 to R153) -/

/-- The fields of a watch descriptor (Table 6.6). -/
structure WatchDesc where
  addr  : Word
  resv  : Bool
  len   : Nat
  act   : Bool
  cond  : Nat
  ten   : Bool
  tok   : Nat
  arg   : Nat
  value : Word
  mask  : Word
  deriving DecidableEq, Repr

def readWatchDesc (x : Nat) : WatchDesc :=
  { addr := BitVec.ofNat 64 (Bits.field x 63 0), resv := Bits.field x 93 64 ≠ 0 || (Bits.bit x 97 && Bits.field x 127 122 ≠ 0)
    len := Bits.field x 96 94, act := Bits.bit x 97, cond := Bits.field x 99 98, ten := Bits.bit x 100
    tok := Bits.field x 105 101, arg := Bits.field x 127 106
    value := BitVec.ofNat 64 (Bits.field x 191 128), mask := BitVec.ofNat 64 (Bits.field x 255 192) }

/-- The control word of a registration entry (Table 17.10). -/
def regControl (d : Dev) (entry : Nat) : Nat := memNat d (d.ctl.regTab.toNat + 256 * entry) 8

/-- A registration entry that a tenant's watch may name (R151, R361). -/
def regUsable (d : Dev) (tenant entry : Nat) : Bool :=
  entry < d.ctl.regN && Bits.bit (regControl d entry) 0 && Bits.field (regControl d entry) 5 1 = tenant

/-- A free entry of a home slice, as its handle (R150); the model takes the lowest (log entry 100). -/
def freeWatch (d : Dev) (slice : Nat) : Option Nat :=
  ((List.range 16).map fun j => slice * 16 + j).find? fun h => (Sparse.find? d.watches h).isNone

/-- The point as the owner of an entry. -/
def pointOwner (s : State) : WatchOwner :=
  match curPoint s with
  | some p => .point s.cur.core p.launch p.serial p.o p.m p.n
  | none => .point s.cur.core 0 0 0 0 0

/-- Checks 4 to 8 of R151 on the descriptor, and the registration; a word of region 0x2 takes an entry of this package (log entry 128), a note in another
slot's persistent region raises PERMISSION (R327, log entry 147). -/
def registerWatch (f : Fields) (w : WatchDesc) (s : State) : State :=
  let ea := readA s f.s1
  let a := w.addr.toNat
  let note := mkAddr 8 w.arg
  if w.resv then faultAt .address ea s
  else if tagOf w.addr ≠ 0 ∨ 64 < a % 64 + 8 * (w.len + 1) then faultAt .address w.addr s
  else if !w.act && !inSpm w.arg 8 then faultAt .address note s
  else if a % 8 ≠ 0 then faultAt .align w.addr s
  else if !w.act && w.arg % 8 ≠ 0 then faultAt .align note s
  else
    match (if 2 ^ 56 ≤ a then none else translate s.dev s.cur.core a) with
    | none => faultAt .translation w.addr s
    | some t =>
      let pa := physical t a
      if region pa = 3 || (w.act && !regUsable s.dev (preCore s).tenant (w.arg % 2 ^ 16)) then faultAt .permission w.addr s
      else if !w.act && foreignRegion s.dev s.cur.core w.arg 8 then faultAt .permission note s
      else
        match freeWatch s.dev (homeSlice s.dev pa) with
        | none => faultAt .watchFull w.addr s
        | some h =>
          let e : Watch :=
            { owner := pointOwner s, pa := pa, len := w.len, cond := w.cond, value := w.value, mask := w.mask
              act := w.act, arg := if w.act then w.arg % 2 ^ 16 else w.arg, ten := w.ten, tok := w.tok }
          writeS (noteTlb (onDev s fun d => { d with watches := Sparse.insert d.watches h e }) a) f.d (BitVec.ofNat 64 h)

/-- WATCH (R150, R151). -/
def execWatch (f : Fields) (s : State) : Result :=
  instr (legalWatch (isSplit s) f) f s fun s =>
    atSync s (readA s f.s1) false false fun c off _ =>
      registerWatch f (readWatchDesc (spmNat s.dev c off 32)) s

/-- The entry belongs to the stream's own point (R153); a commit watch does not (log entry 116). -/
def ownWatch (s : State) (w : Watch) : Bool :=
  match w.owner, pointOwner s with
  | .point _ l z o m n, .point _ l' z' o' m' n' => l = l' && z = z' && o = o' && m = m' && n = n'
  | _, _ => false

/-- UNWATCH (R153). While a notification of the entry is undelivered it waits, and the entry goes on matching (log entry 137). -/
def execUnwatch (f : Fields) (s : State) : Result :=
  instr (legalUnwatch (isSplit s) f) f s fun s =>
    let h := (readS s f.s1).toNat
    match Sparse.find? s.dev.watches h with
    | none => s
    | some w =>
      if 2560 ≤ h then s
      else if !ownWatch s w then faultAt .permission 0 s
      else if w.owed then stall s
      else onDev s fun d => { d with watches := Sparse.erase d.watches h }

end Sys2Proof.Machine
end

