-- ==== Sys2Proof/Machine/Rules.lean ====
section
/-!
DEFINITION. Meanings of the standing-rule instructions (R295 to R306): codes 0x60 to 0x67 of Table 3.12, with their decode checks
(Table 14.3).
-/

namespace Sys2Proof.Machine

/-! ### Decode checks (Table 14.3) -/

def legalOaxdef (split : Bool) (f : Fields) : Bool := shapeOk split { d := some .x, s1 := some .a } f
/-- INSTALL: no predicate, and no rank 255 given (R296, R298). -/
def legalInstall (split : Bool) (f : Fields) : Bool :=
  let rk := fnBit f 0
  shapeOk split { fn := 1, s1 := some .x, imm := if rk then 0xFF3F else 0x3F, gate := false } f && !(rk && immBits f 15 8 = 255)
def legalRevoke (split : Bool) (f : Fields) : Bool :=
  let i := fnBit f 0
  shapeOk split { fn := 1, s1 := if i then none else some .s, imm := if i then 0xFFFFFF3F else 0x3F } f
def legalSlcommit (split : Bool) (f : Fields) : Bool :=
  let rs := fnBit f 0
  shapeOk split { fn := 3, s1 := some .x, s2 := if rs then some .s else none, imm := if rs then 0 else immAll } f
def legalSlwait (split : Bool) (f : Fields) : Bool :=
  let rs := fnBit f 0
  shapeOk split { fn := 1, s1 := some .x, s2 := if rs then some .s else none, imm := if rs then 0 else immAll } f
def legalRstat (split : Bool) (f : Fields) : Bool :=
  shapeOk split { fn := 7, d := some .s, imm := 0x3F } f && fnBits f 2 0 ≤ 4
def legalRsusp (split : Bool) (f : Fields) : Bool := shapeOk split { imm := 0x3F } f
def legalRresume (split : Bool) (f : Fields) : Bool := shapeOk split { fn := 1, imm := 0x3F } f

/-- The body that an INSTALL on axis x captures is an engine command with no predicate whose open-axis operands all name x
(R296, R297). -/
def legalBody (split : Bool) (x : Nat) (body : Instr) : Bool :=
  match engineOf body with
  | none => false
  | some (o, f) =>
    let l := (addressSpecs o f).filter fun n => 16 ≤ n
    legalEngine o true split f && f.pred = 0 && !l.isEmpty && l.all fun n => n = 16 + x

/-! ### OAXDEF (R295) -/

/-- RULE_FAULT with its ISW (Table 14.5). -/
def ruleFault (isw : Nat) (s : State) : State := takeFault .ruleFault 0 isw s.cur.pc s

/-- The fields of a descriptor as an axis (Table 14.1). -/
def readDescriptor (v : Nat) : Axis :=
  { base := BitVec.ofNat 64 (Bits.field v 63 0), stride := Bits.field v 95 64, sbytes := Bits.field v 127 96, cap := Bits.field v 159 128
    isLocal := Bits.bit v 160, scope := Bits.field v 163 161, commit := BitVec.ofNat 64 (Bits.field v 255 192)
    retire := BitVec.ofNat 64 (Bits.field v 319 256) }

/-- Step 3 of R295: no field breaks Table 14.1. -/
def descriptorOk (v : Nat) (a : Axis) : Bool :=
  Bits.field v 511 320 = 0 && Bits.field v 191 164 = 0 && 1 ≤ a.cap && a.cap ≤ 2 ^ 24 && 0 < a.stride && a.stride % 4 = 0
    && 1 ≤ a.sbytes && a.sbytes ≤ a.stride && a.scope ≠ 7
    && (if a.isLocal then decide (a.commit = 0) else decide (a.commit.toNat % 8 = 0)) && a.retire.toNat % 8 = 0

/-- Step 4 of R295: the address field that breaks its space, if any; of several the first in this order (log entry 145). -/
def descriptorSpace (a : Axis) : Option Word :=
  let bad8 (w : Word) : Bool := tagOf w = 8 && Bits.field w.toNat 59 22 ≠ 0
  let bad (w : Word) : Bool := (tagOf w ≠ 0 && tagOf w ≠ 8) || bad8 w
  if bad a.base then some a.base
  else if a.retire ≠ 0 && bad a.retire then some a.retire
  else if !a.isLocal && tagOf a.commit ≠ 0 then some a.commit
  else if a.retire ≠ 0 && tagOf a.retire = 8 && !inSpm (a.retire.toNat % 2 ^ 60) 8 then some a.retire
  else if tagOf a.base = 8 && !inSpm (a.base.toNat % 2 ^ 60) ((a.cap - 1) * a.stride + a.sbytes) then some a.base
  else none

/-- The checks of a descriptor's address: step 1 of R295, then the hold of the range checker (R139). -/
def checkDescriptor (s : State) (ea : Word) : Verdict :=
  match placeOf s ea with
  | some (.spm c off true) =>
    if !inSpm off 64 then .raise .address
    else if ea.toNat % 64 ≠ 0 then .raise .align
    else if touchesQueue (curCore s) off 64 then .raise .queueCfg
    else if foreignRegion s.dev c off 64 then .raise .permission
    else if checkerFull (curCore s) || accessHeld (preCore s) [(off, off + 63)] [] then .wait
    else .go (.spm c off true)
  | _ => .raise .address

/-- Unbind an open-axis register and release its commit watch. -/
def unbindAxis (d : Dev) (core x : Nat) : Dev :=
  match findAxis (getCore d core) x with
  | none => d
  | some a =>
    let d := modCore d core fun k => { k with axes := Sparse.erase k.axes x }
    match a.watch with
    | some h => { d with watches := Sparse.erase d.watches h }
    | none => d

/-- A live rule names the register. -/
def axisNamed (k : Core) (x : Nat) : Bool := k.rules.any fun p => p.2.axis = x

/-- Bind a register to a checked axis; its retire count becomes N and is written (R295). -/
def bindAxis (d : Dev) (core x : Nat) (a : Axis) : Dev :=
  settleAxis (modCore (unbindAxis d core x) core fun k => setAxis k x a) core x true

/-- Step 6 of R295 and the binding of a global axis: a commit watch on the word, N and CLOSED from its home. -/
def bindGlobal (s : State) (x : Nat) (a : Axis) : State :=
  let va := a.commit.toNat % 2 ^ 60
  let core := s.cur.core
  match translateFor s.dev core va .read with
  | .error c => faultAt c a.commit s
  | .ok e =>
    let pa := physical e va
    if region pa = 3 then faultAt .permission a.commit s
    else
      match freeWatch s.dev (homeSlice s.dev pa) with
      | none => faultAt .watchFull a.commit s
      | some h =>
        let v := memNat s.dev pa 8
        let w : Watch :=
          { owner := .axis core x, pa := pa, len := 0, cond := 0, value := 0, mask := 0, act := false, arg := 0, ten := false, tok := 0 }
        noteTlb (onDev s fun d =>
          let d := unbindAxis d core x
          bindAxis { d with watches := Sparse.insert d.watches h w } core x
            { a with n := v % 2 ^ 63, closed := Bits.bit v 63, watch := some h }) va

/-- Steps 3 to 6 of R295 on a descriptor; a local RETIRE in another slot's persistent region raises PERMISSION after step 5 (R327, log entry 147). -/
def defineAxis (s : State) (x v : Nat) : State :=
  let a := readDescriptor v
  if !descriptorOk v a then ruleFault 5 s
  else
    match descriptorSpace a with
    | some w => faultAt .address w s
    | none =>
      if !scopeOk (preCore s) a.scope then faultAt .scope 0 s
      else if tagOf a.retire = 8 && foreignRegion s.dev s.cur.core (a.retire.toNat % 2 ^ 22) 8 then faultAt .permission a.retire s
      else if a.isLocal then onDev s fun d => bindAxis d s.cur.core x a
      else bindGlobal s x a

/-- OAXDEF (R295). -/
def execOaxdef (f : Fields) (s : State) : Result :=
  instr (legalOaxdef (isSplit s) f) f s fun s =>
    let ea := readA s f.s1
    let x := f.d.toNat
    if ea = 0 then
      if axisNamed (curCore s) x then ruleFault 3 s else onDev s fun d => unbindAxis d s.cur.core x
    else
      match checkDescriptor s ea with
      | .raise c => faultAt c ea s
      | .wait => stall s
      | .go (.spm c off _) =>
        if axisNamed (curCore s) x then ruleFault 3 s else defineAxis s x (spmNat s.dev c off 64)
      | .go (.global _) => faultAt .address ea s

/-! ### INSTALL and REVOKE (R296 to R298, R303) -/

/-- The rule that an INSTALL sets up from its body (R298). -/
def newRule (s : State) (f : Fields) (a : Axis) (o : EngineOp) (g : Fields) : Rule :=
  let x := captureRegs s o g
  { op := o, f := g, regD := x.regD, regS1 := x.regS1, regS2 := x.regS2, regS3 := x.regS3
    axis := f.s1.toNat, owner := s.cur.stream, rank := if fnBit f 0 then immBits f 15 8 else 255, seq := (curCore s).installSeq
    first := a.n, next := a.n, horizon := if a.closed then a.n else 2 ^ 64 - 1 }

/-- INSTALL: the next instruction, which the issue of the bundle has decoded, becomes the body (R296, R298). -/
def execInstall (f : Fields) (s : State) : Result :=
  let body := s.cur.body.filter (legalBody (isSplit s) f.s1.toNat)
  instr (legalInstall (isSplit s) f && body.isSome) f s fun s =>
    let n := immBits f 5 0
    match findAxis (curCore s) f.s1.toNat, body.bind engineOf with
    | some a, some (o, g) =>
      if (findRule (curCore s) n).isSome then ruleFault 1 s
      else
        onDev s fun d => settleRules
          (modCore d s.cur.core fun k => setRule { k with installSeq := k.installSeq + 1 } n (newRule s f a o g)) s.cur.core
    | _, _ => ruleFault 2 s

/-- Lower a rule's horizon; a held firing at or beyond it is discarded (R303). -/
def revokeRule (d : Dev) (core n h : Nat) : Dev :=
  match findRule (getCore d core) n with
  | none => d
  | some r =>
    let r := { r with horizon := min r.horizon h }
    settleRules
      (modCore d core fun k => if r.state = .suspended && r.held && r.horizon ≤ r.next then skipHeld k n r else setRule k n r)
      core

/-- REVOKE (R303). -/
def execRevoke (f : Fields) (s : State) : Result :=
  instr (legalRevoke (isSplit s) f) f s fun s =>
    onDev s fun d => revokeRule d s.cur.core (immBits f 5 0) (if fnBit f 0 then immBits f 31 8 else (readS s f.s1).toNat)

/-! ### SLCOMMIT and SLWAIT (R299, R302) -/

/-- The count or value operand: s(S2) with RS, else IMM. -/
def sliceOperand (s : State) (f : Fields) : Nat := if fnBit f 0 then (readS s f.s2).toNat else f.imm.toNat

/-- What a global commit does before its add: the publish, then the word's sector leaves the L1. -/
def commitPrepare (d : Dev) (core : Nat) (a : Axis) (pa : Nat) : Dev := evictSector (publish d core a.scope) core (pa / 64)

/-- The commit to a global axis's word: checks as ATOM, publish, add; POISON leaves the publish made (R299). -/
def commitGlobal (s : State) (a : Axis) (n : Nat) (close : Bool) : State :=
  let va := a.commit.toNat % 2 ^ 60
  let core := s.cur.core
  match translateFor s.dev core va .write with
  | .error c => faultAt c a.commit s
  | .ok e =>
    let pa := physical e va
    if region pa = 3 then faultAt .permission a.commit s
    else if homePoisoned (commitPrepare s.dev core a pa) pa 8 then
      faultAt .poison a.commit { s with pre := publish s.pre core a.scope }
    else
      noteTlb (onDev s fun d =>
        let d := commitPrepare d core a pa
        let v := (memNat d pa 8 + n + (if close then 2 ^ 63 else 0)) % 2 ^ 64
        postTo (homeStore d pa (Bits.toBytes 8 v)) core 4 (sigOf (pa / 64))) va

/-- SLCOMMIT (R299). -/
def execSlcommit (f : Fields) (s : State) : Result :=
  instr (legalSlcommit (isSplit s) f) f s fun s =>
    let x := f.s1.toNat
    let n := sliceOperand s f
    match findAxis (curCore s) x with
    | none => ruleFault 2 s
    | some a =>
      if a.closed || 2 ^ 63 ≤ a.n + n then ruleFault 4 s
      else if a.isLocal then
        let s := onDev s fun d => advanceAxis (publish d s.cur.core a.scope) s.cur.core x (a.n + n) (fnBit f 1)
        onStream s fun t => { t with waitAxis := t.waitAxis ++ [(x, a.n + n)] }
      else commitGlobal s a n (fnBit f 1)

/-- SLWAIT (R302). -/
def execSlwait (f : Fields) (s : State) : Result :=
  instr (legalSlwait (isSplit s) f) f s fun s =>
    match findAxis (preCore s) f.s1.toNat with
    | none => ruleFault 2 s
    | some a => if a.retired < sliceOperand s f then stall s else s

/-! ### RSTAT, RSUSP and RRESUME (R304 to R306) -/

/-- The status word of Table 14.4. -/
def ruleStatus (r : Rule) : Nat :=
  r.cause * 2 ^ 56 + r.rank * 2 ^ 24 + r.axis * 256 + r.owner * 64 + (if r.held then 8 else 0)
    + (match r.state with | .active => 1 | .suspended => 2)

/-- The field of a rule that a selector chooses (R304). -/
def ruleField (r : Rule) (sel : Nat) : Nat :=
  match sel with
  | 0 => ruleStatus r
  | 1 => r.next
  | 2 => r.horizon
  | 3 => r.eaddr.toNat
  | _ => r.estat.toNat

/-- RSTAT: a FREE rule reads 0 (R304). -/
def execRstat (f : Fields) (s : State) : Result :=
  instr (legalRstat (isSplit s) f) f s fun s =>
    writeS s f.d (BitVec.ofNat 64 (((findRule (preCore s) (immBits f 5 0)).map fun r => ruleField r (fnBits f 2 0)).getD 0))

/-- RSUSP (R305). -/
def suspendRule (k : Core) (n : Nat) : Core :=
  match findRule k n with
  | some r => if r.state = .active then setRule k n { r with state := .suspended, held := false } else k
  | none => k

def execRsusp (f : Fields) (s : State) : Result :=
  instr (legalRsusp (isSplit s) f) f s fun s => onCore s fun k => suspendRule k (immBits f 5 0)

/-- RRESUME and RRESUME.skip of a suspended rule (R306). A resumed held firing does not fire again. -/
def resumeRule (d : Dev) (core n : Nat) (skip : Bool) : Dev :=
  match findRule (getCore d core) n with
  | none => d
  | some r =>
    if r.state = .active then d
    else
      let k := getCore d core
      let k :=
        if r.held then
          if skip then skipHeld k n r
          else
            setRule { k with running := k.running.map fun v =>
                        if v.held && v.cmd.firing = some (n, r.next) then resumeRun v else v }
              n { r with held := false, next := r.next + 1 }
        else setRule k n (if skip && r.enqFail then { r with next := r.next + 1 } else r)
      let k := match findRule k n with
        | some r => setRule k n { r with state := .active, enqFail := false }
        | none => k
      settleRules (setCore d core k) core

/-- RRESUME (R306). -/
def execRresume (f : Fields) (s : State) : Result :=
  instr (legalRresume (isSplit s) f) f s fun s => onDev s fun d => resumeRule d s.cur.core (immBits f 5 0) (fnBit f 0)

end Sys2Proof.Machine
end

