-- ==== Sys2Proof/Machine/System.lean ====
section
/-!
DEFINITION. Meanings of the system instructions (R67 to R71, R110 to R121): codes 0x50 to 0x5E of Table 3.12.
-/

namespace Sys2Proof.Machine

/-! ### TRAP and EXIT (R110, R111) -/

/-- TRAP: EADDR is IMM and EPC the bundle after the TRAP (R75, R110). -/
def execTrap (f : Fields) (s : State) : Result :=
  instr (legalCode (isSplit s) f) f s fun s => takeFault .trap (f.imm.setWidth 64) 0 s.cur.next s

/-- The scope of a launch's implied PUBLISH and ACQUIRE (R29, R349). -/
def publishScope (l : Launch) : Nat := max l.scope l.rel
def acquireScope (l : Launch) : Nat := max l.scope l.acq

/-- The lease that a stream holds ends (R219), and with it what an LREL asked of it (R114). -/
def endLease (k : Core) (i : Nat) : Core :=
  match k.lease with
  | some l => if l.holder = i then modCoreStream { k with lease := none, leaseLast := i } i fun t => { t with lrel := none } else k
  | none => k

/-- A stream after its EXIT: parked, and without its queue bindings, explicit lease and format table unless it owns a
live rule (R111): then it stands (R31). -/
def exitStream (standing : Bool) (t : Stream) : Stream :=
  if standing then { t with run := .exited, leaseReq := none, lrel := none, stood := true }
  else { t with run := .exited, qcpy := {}, qvec := {}, qmtx := {}, ftable := [], leaseReq := none, lrel := none }

/-- The scope of the implied PUBLISH of a stream's EXIT. -/
def exitScope (d : Dev) (t : Stream) : Nat := ((t.point.bind (launchOf d)).map publishScope).getD 0

/-- EXIT: wait for the queues, publish, park (R31, R111). -/
def execExit (f : Fields) (s : State) : Result :=
  instr (legalPlain (isSplit s) f) f s fun s =>
    let i := s.cur.stream
    if (preStream s).sys.inh then faultAt .illegalInstruction 0 s
    else if !exitReady (preCore s) i then stall s
    else
      onDev s fun d =>
        modCore (publish d s.cur.core (exitScope d (preStream s))) s.cur.core fun k =>
          modCoreStream (endLease k i) i (exitStream (ownsRule k i))

/-! ### System registers (R70, R71, R112) -/

/-- The value of a system register (Tables 4.4 and 4.5). In split mode BTH0 and BMODE are the stream's own (Table 4.3). -/
def sysValue (d : Dev) (k : Core) (core i n : Nat) : Word :=
  let t := coreStream k i
  let y := t.sys
  match n with
  | 0x00 => statusWord y
  | 0x01 => y.cause.setWidth 64
  | 0x02 => y.epc
  | 0x03 => y.ecmd
  | 0x04 => y.eeng
  | 0x05 => y.estat
  | 0x06 => y.eaddr
  | 0x10 => BitVec.ofNat 64 (rmodeCode y.frm)
  | 0x11 => y.fflags.setWidth 64
  | 0x12 => y.vl.setWidth 64
  | 0x13 => y.vcnt.setWidth 64
  | 0x14 => y.leaseLen.setWidth 64
  | 0x15 => y.gen.setWidth 64
  | 0x16 => y.stkBase.setWidth 64
  | 0x17 => y.stkLimit.setWidth 64
  | 0x18 => y.trapVec
  | 0x19 => y.deleg.setWidth 64
  | 0x20 => d.tick
  | 0x21 => d.tickPeriod.setWidth 64
  | 0x30 => BitVec.ofNat 64 k.tenant
  | 0x31 => if k.scopeSys then 1 else 0
  | 0x40 => (bthOf k (physAcc k.split i 0)).setWidth 64
  | 0x41 => (bthOf k 1).setWidth 64
  | 0x42 => (bthOf k 2).setWidth 64
  | 0x43 => (bthOf k 3).setWidth 64
  | 0x44 => if k.split then BitVec.ofNat 64 (nibble k.bmode i) else k.bmode.setWidth 64
  | 0x50 => k.poisonCount.setWidth 64
  | 0x51 => k.ceCount.setWidth 64
  | 0x60 => BitVec.ofNat 64 core
  | 0x61 => BitVec.ofNat 64 k.gangSize
  | 0x62 => BitVec.ofNat 64 ((if k.split then 4 * i else 0) + (if k.slaunch then 2 else 0) + (if k.split then 1 else 0))
  | _ => 0

/-- SYSRD (R70, R112). -/
def execSysrd (f : Fields) (s : State) : Result :=
  instr (legalSysrd (isSplit s) f) f s fun s =>
    writeS s f.d (sysValue s.pre (preCore s) s.cur.core s.cur.stream f.imm.toNat)

/-- The reserved bits of a register are 0 and no field holds a value that Table 4.5 marks illegal (R70). -/
def sysValueOk (split : Bool) (n v : Nat) : Bool :=
  match n with
  | 0x00 => v < 32
  | 0x01 => v < 512
  | 0x10 => v < 4
  | 0x11 => v < 32
  | 0x12 => v ≤ 16384
  | 0x13 => v < 2 ^ 32
  | 0x14 => 1 ≤ v && v ≤ 64
  | 0x15 => v < 2 ^ 32
  | 0x16 | 0x17 => v < 2 ^ 22 && v % 8 = 0
  | 0x18 => v % 2 = 0 && v < 2 ^ 60
  | 0x19 => v < 2 ^ 26
  | 0x40 | 0x41 | 0x42 | 0x43 => v < 2 ^ 16
  | 0x44 => v < (if split then 16 else 2 ^ 16) && [0, 1, 2, 3].all fun a => !Bits.bit v (4 * a + 3) && v / 16 ^ a % 4 ≠ 3
  | _ => true

/-- Write a per-stream register other than STATUS. -/
def writeSys (y : SysRegs) (n : Nat) (v : Word) : SysRegs :=
  match n with
  | 0x01 => { y with cause := v.setWidth 9 }
  | 0x02 => { y with epc := v }
  | 0x06 => { y with eaddr := v }
  | 0x10 => { y with frm := rmodeOfCode v.toNat }
  | 0x11 => { y with fflags := v.setWidth 5 }
  | 0x12 => { y with vl := v.setWidth 32 }
  | 0x13 => { y with vcnt := v.setWidth 32 }
  | 0x14 => { y with leaseLen := v.setWidth 7 }
  | 0x15 => { y with gen := v.setWidth 32 }
  | 0x16 => { y with stkBase := v.setWidth 22 }
  | 0x17 => { y with stkLimit := v.setWidth 22 }
  | 0x18 => { y with trapVec := v }
  | 0x19 => { y with deleg := v.setWidth 26 &&& delegMask }
  | _ => y

/-- The accumulators that a write of BTHk or BMODE concerns (Table 5.12). -/
def accsConcerned (split : Bool) (i n : Nat) : List Nat :=
  if n = 0x44 then (if split then [i] else [0, 1, 2, 3]) else [physAcc split i (n - 0x40)]

/-- SYSWR of STATUS: RESUME asks for the return, which follows the bundle; with INH = 0 it is illegal (R79, Table 5.12). -/
def writeStatus (v : Nat) (s : State) : State :=
  if Bits.bit v 3 then
    if (preStream s).sys.inh then onStream s fun t => { t with ret := some (Bits.bit v 4) } else faultAt .illegalInstruction 0 s
  else s

/-- SYSWR of BTHk or BMODE (Table 5.12, R241, R243). -/
def writeThreshold (n : Nat) (v : Word) (s : State) : State :=
  let i := s.cur.stream
  let split := isSplit s
  if accsBusy (preCore s) (accsConcerned split i n) then stall s
  else if n = 0x44 then
    let m := if split then setNibble (curCore s).bmode i v.toNat else v.setWidth 16
    match writeBmode (curCore s) m with
    | some k => onDev s fun d => setCore d s.cur.core k
    | none => faultAt .illegalInstruction 0 s
  else onCore s fun k => setBth k (physAcc split i (n - 0x40)) (v.setWidth 16)

/-- SYSWR (R70, R112). -/
def execSyswr (f : Fields) (s : State) : Result :=
  instr (legalSyswr (isSplit s) f) f s fun s =>
    let n := f.imm.toNat
    let v := readS s f.s1
    if n = 0x21 ∨ n = 0x31 then faultAt .permission 0 s
    else if !sysValueOk (isSplit s) n v.toNat then faultAt .illegalInstruction 0 s
    else if n = 0 then writeStatus v.toNat s
    else if 0x40 ≤ n then writeThreshold n v s
    else onStream s fun t => { t with sys := writeSys t.sys n v }

/-! ### SPLIT and JOIN (R67 to R69, R113, R249, R310) -/

/-- Stream i as SPLIT starts it (R67): a copy of the joined stream with FFLAGS 0, at the target in b(i); streams 1 to 3
have no queue bound, count commands from 0 and have no fault pending. No request for a lease, and no LREL, passes into split mode (R114). -/
def splitStream (t : Stream) (i : Nat) : Stream :=
  let t' := { t with pc := Sparse.get t.targets 0 i, sys := { t.sys with fflags := 0 }, leaseReq := none, lrel := none }
  if i = 0 then t' else { t' with qcpy := {}, qvec := {}, qmtx := {}, cmdIndex := 0, faults := [] }

/-- The core after SPLIT. -/
def splitCore (k : Core) : Core :=
  let t := coreStream k 0
  { k with split := true, lease := none, leaseLast := 3, cpyTurn := 3
           streams := [(0, splitStream t 0), (1, splitStream t 1), (2, splitStream t 2), (3, splitStream t 3)] }

/-- An accumulator is in A2X32 (R249). -/
def anyA2x32 (k : Core) : Bool := [0, 1, 2, 3].any fun a => precOf k a = .a2x32

/-- SPLIT (R67, R69, R113, R249). -/
def execSplit (f : Fields) (s : State) : Result :=
  instr (legalPlain (isSplit s) f) f s fun s =>
    if isSplit s || (preStream s).sys.inh then faultAt .splitJoin 0 s
    else if !streamDrained (preCore s) 0 then stall s
    else if anyA2x32 (preCore s) then faultAt .splitJoin 0 s
    else onCore s splitCore

/-- The target of a parked stream. -/
def parkedAt (t : Stream) : Option Word :=
  match t.run with
  | .parked w => some w
  | _ => none

/-- BMODE as JOIN leaves it: of a pair that both arm REISSUE, the odd one becomes TRAP (R249). -/
def joinBmode (m : BitVec 16) : BitVec 16 :=
  [0, 2].foldl (fun m a =>
    if armedNibble (nibble m a) && armedNibble (nibble m (a + 1)) then setNibble m (a + 1) (nibble m (a + 1) % 4) else m) m

/-- The joined stream after JOIN: stream 0 at its target, with the FFLAGS of all four (R68), and no lease asked for. -/
def joinStream (k : Core) (target : Word) : Stream :=
  let t := coreStream k 0
  let fl := [1, 2, 3].foldl (fun x i => x ||| (coreStream k i).sys.fflags) t.sys.fflags
  { t with run := .running, pc := target, sys := { t.sys with fflags := fl }, leaseReq := none, lrel := none
           faults := t.faults ++ [1, 2, 3].flatMap fun i => (coreStream k i).faults }

/-- When all four streams have parked, the core returns to joined mode (R68); each accumulator armed then clears its
partner (R249). -/
def joinIfAll (k : Core) : Core :=
  match parkedAt (coreStream k 0), parkedAt (coreStream k 1), parkedAt (coreStream k 2), parkedAt (coreStream k 3) with
  | some target, some _, some _, some _ =>
    let k := { k with split := false, streams := [(0, joinStream k target)], bmode := joinBmode k.bmode, lease := none }
    ([0, 1, 2, 3].filter (armed k)).foldl (fun k a => clearAcc k (partner a)) k
  | _, _, _, _ => k

/-- JOIN (R68, R69, R113, R310). A parked stream's next bundle is its JOIN, should a fault be delivered before the core joins (log entry 103). -/
def execJoin (f : Fields) (s : State) : Result :=
  instr (legalJmp (isSplit s) f) f s fun s =>
    let i := s.cur.stream
    let k := preCore s
    if !k.split || k.slaunch || (preStream s).sys.inh || (i ≠ 0 && ownsRule k i) then faultAt .splitJoin 0 s
    else if !streamDrained k i then stall s
    else onCore s fun k => joinIfAll (modCoreStream (endLease k i) i fun t => { t with run := .parked (readB s f.s2), pc := s.cur.pc })

/-! ### Leases, pre-emption, queues (R114 to R118) -/

/-- A lease of the stream taken by LEASE has not yet ended (R114). -/
def leasePending (k : Core) (i : Nat) : Bool :=
  (coreStream k i).leaseReq.isSome ||
    (match k.lease with | some l => l.holder = i && l.explicit | none => false)

/-- The length that LEASE gives: LEASE_LEN for 0 (R114). -/
def leaseLength (t : Stream) (n : Nat) : Nat := if n = 0 then t.sys.leaseLen.toNat else n

/-- Give the stream's current lease, or its next one, a length (R114); that of the next is read at its grant (R219). A current lease
already used up to it ends. -/
def takeLease (k : Core) (i n : Nat) : Core :=
  match k.lease with
  | some l =>
    if l.holder = i then
      let n := leaseLength (coreStream k i) n
      if n ≤ l.used then endLease k i else { k with lease := some { l with len := n, explicit := true } }
    else modCoreStream k i fun t => { t with leaseReq := some n }
  | none => modCoreStream k i fun t => { t with leaseReq := some n }

/-- LEASE: no effect in joined mode (R114). -/
def execLease (f : Fields) (s : State) : Result :=
  instr (legalLease (isSplit s) f) f s fun s =>
    let i := s.cur.stream
    if !isSplit s then s
    else if leasePending (preCore s) i then faultAt .lease 0 s
    else onCore s fun k => takeLease k i f.imm.toNat

/-- LREL: the current lease ends once every matrix command enqueued before has started; no effect in joined mode (R114). -/
def execLrel (f : Fields) (s : State) : Result :=
  instr (legalPlain (isSplit s) f) f s fun s =>
    let i := s.cur.stream
    match (preCore s).lease with
    | some l =>
      if !isSplit s || l.holder ≠ i then s
      else if (queuedCmds (preStream s).qmtx).isEmpty then onCore s fun k => endLease k i
      else onStream s fun t => { t with lrel := some (preCore s).nextAge }
    | none => s

/-- YIELD: with PPEND = 0 a NOP; with PPEND = 1 the stream halts at the boundary after it, and the pending pre-emption is taken as a forced
one there (R115, R331, log entry 89). -/
def execYield (f : Fields) (s : State) : Result :=
  instr (legalPlain (isSplit s) f) f s fun s => if (preStream s).sys.ppend then onStream s fun t => { t with halted := true } else s

/-- The queue of a code (R116, Table 3.9). -/
def queueOfCode (n : Nat) : QueueId :=
  match n with
  | 0 => .cpy
  | 1 => .vec
  | _ => .mtx

/-- The cases of R16 that depend on the QCW alone. -/
def qcwOk (x : Nat) : Bool :=
  let base := Bits.field x 21 0
  let depth := Bits.field x 32 22
  Bits.field x 63 35 = 0 && base % 64 = 0 && 4 ≤ depth && depth ≤ 1024 && Bits.field x 34 33 = 0 && inSpm base (32 * depth)

/-- Another bound queue of the core overlaps the region (R16). -/
def qcwOverlaps (k : Core) (i : Nat) (q : QueueId) (base n : Nat) : Bool :=
  touchesQueue (modCoreStream k i fun t => setQueue t q {}) base n

/-- QCFG: the QCW is tested, the queue drains, the overlap is tested, the queue is bound (R16, R18, R116). A command whose post has met its
ceiling leaves its queue only once it is resumed (R281), and the queue is not drained before. A region in another slot's persistent region raises
PERMISSION as the overlap is tested (R327, log entry 146). -/
def execQcfg (f : Fields) (s : State) : Result :=
  instr (legalQcfg (isSplit s) f) f s fun s =>
    let q := queueOfCode (fnBits f 1 0)
    let i := s.cur.stream
    let x := (readS s f.s1).toNat
    let base := Bits.field x 21 0
    let depth := Bits.field x 32 22
    if !qcwOk x then faultAt .queueCfg 0 s
    else if !queueDrained (preCore s) i q || !(getQueue (preStream s) q).stopped.isEmpty then stall s
    else if qcwOverlaps (preCore s) i q base (32 * depth) then faultAt .queueCfg 0 s
    else if foreignRegion s.dev s.cur.core base (32 * depth) then faultAt .permission 0 s
    else onStream s fun t => setQueue t q { bound := some { base := base, depth := depth } }

/-- GENF: GEN + 1, and a generation fence in each of the three queues once all can take one (R25, R117). -/
def execGenf (f : Fields) (s : State) : Result :=
  instr (legalPlain (isSplit s) f) f s fun s =>
    let i := s.cur.stream
    let t := preStream s
    if allQueues.any fun q => (getQueue t q).bound.isNone then faultAt .queueCfg 0 s
    else if allQueues.any fun q => queueForeign s.dev s.cur.core (getQueue t q) then faultAt .permission 0 s
    else if allQueues.any fun q => queueFull (getQueue t q) then stall s
    else
      let s := onStream s fun t => { t with sys := { t.sys with gen := t.sys.gen + 1 } }
      onDev s fun d =>
        allQueues.foldl (fun d q =>
          modCore (pushEntry d s.cur.core i q (.fence (getCore d s.cur.core).nextAge t.sys.gen)) s.cur.core fun k => popFences k i q) d

/-- FTSET (R118). -/
def execFtset (f : Fields) (s : State) : Result :=
  instr (legalFtset (isSplit s) f) f s fun s =>
    onStream s fun t => { t with ftable := Sparse.set t.ftable 0 (immBits f 3 0) (container (readS s f.s1)) }

/-! ### BOUNDCFG, TICK, DBGBRK (R119 to R121) -/

/-- BOUNDCFG: BTH, MODE and ACT of one accumulator in one step (R119, R243); it waits for the commands of that accumulator alone (log entries 63
and 121). -/
def execBoundcfg (f : Fields) (s : State) : Result :=
  instr (legalBoundcfg (isSplit s) f) f s fun s =>
    let a := physAcc (isSplit s) s.cur.stream f.d.toNat
    if accsBusy (preCore s) [a] then stall s
    else
      match writeBmode (curCore s) (setNibble (curCore s).bmode a (immBits f 2 0)) with
      | some k => onDev s fun d => setCore d s.cur.core (setBth k a ((readS s f.s1).setWidth 16))
      | none => faultAt .illegalInstruction 0 s

/-- TICK and TICK.W (R120). -/
def execTick (f : Fields) (s : State) : Result :=
  instr (legalTick (isSplit s) f) f s fun s =>
    if fnBit f 0 && s.dev.tick.toNat < (readS s f.s1).toNat then stall s else writeS s f.d s.dev.tick

/-- Debug stops are enabled for the core (R366). -/
def debugEnabled (d : Dev) (core : Nat) : Bool := Bits.bit d.ctl.dbgEn.toNat core

/-- The other streams of a suspended point stop at their next bundles (R278); one within a transfer group does at the group's end (R104). -/
def stopOthers (d : Dev) (core i : Nat) : Dev :=
  match (getStream d core i).point with
  | none => d
  | some p => ((placesOf d p).filter fun q => q ≠ (core, i)).foldl (fun d q => modStream d q.1 q.2 fun t => if t.delay.isSome then t else stopEpc t) d

/-- DBGBRK: a NOP, or a debug stop with EPC at the next bundle and EADDR the code (R121); it stops the point's other streams too. -/
def execDbgbrk (f : Fields) (s : State) : Result :=
  instr (legalCode (isSplit s) f) f s fun s =>
    if !debugEnabled s.dev s.cur.core then s
    else
      onDev s fun d =>
        reportSuspension
          (stopOthers
            (modStream d s.cur.core s.cur.stream fun t =>
              { t with suspended := true, debugStop := true, slink := none
                       sys := { t.sys with epc := s.cur.next, eaddr := f.imm.setWidth 64 } })
            s.cur.core s.cur.stream)
          s.cur.core s.cur.stream true

end Sys2Proof.Machine
end

