-- ==== Sys2Proof/Machine/LaunchInstr.lean ====
section
/-!
DEFINITION. Meanings of the launch instructions (R336 to R338): codes 0xE0 to 0xE2 of Table 3.12, with their decode checks (Table 15.9).
-/

namespace Sys2Proof.Machine

def legalLaunch (split : Bool) (f : Fields) : Bool := shapeOk split { d := some .s, s1 := some .a, s2 := some .s } f
/-- FRREAD: selectors 0 to 6; S2 only with .c and .ahead (R337). -/
def legalFrread (split : Bool) (f : Fields) : Bool :=
  let row := fnBits f 2 0 = 3 || fnBits f 2 0 = 4
  shapeOk split { fn := 7, d := some .s, s1 := some .s, s2 := if row then some .s else none } f && fnBits f 2 0 ≠ 7
def legalPtinfo (split : Bool) (f : Fields) : Bool := shapeOk split { fn := 7, d := some .s } f

/-! ### LAUNCH (R336) -/

/-- The checks of the record's address, then the hold of the range checker. -/
def checkRecord (s : State) (ea : Word) : Verdict :=
  match placeOf s ea with
  | some (.spm c off true) =>
    if !inSpm off 128 then .raise .address
    else if ea.toNat % 64 ≠ 0 then .raise .align
    else if touchesQueue (curCore s) off 128 then .raise .queueCfg
    else if foreignRegion s.dev c off 128 then .raise .permission
    else if checkerFull (curCore s) || accessHeld (preCore s) [(off, off + 127)] [] then .wait
    else .go (.spm c off true)
  | _ => .raise .address

/-- The priority class of the issuing launch. -/
def issuerPrio (s : State) : Nat := (((curPoint s).bind (launchOf s.dev)).map (·.prio)).getD 0

/-- Submit a record that has been read: R314, the dependence's tenant, publish, admission (R336). -/
def submit (f : Fields) (r : BitVec 1024) (s : State) : State :=
  let ea := readA s f.s1
  let k := preCore s
  let dep := readS s f.s2
  match recordFault s.dev k.tenant k.scopeSys r with
  | some (c, isw) => takeFault c ea isw s.cur.pc s
  | none =>
    if dep ≠ 0 && (liveSerial s.dev dep).any fun l => l.tenant ≠ k.tenant then faultAt .permission ea s
    else
      let s := onDev s fun d => publish d s.cur.core (effectiveScope r)
      if !canAdmit s.dev k.tenant r then writeS s f.d 0
      else
        let (d, h) := takeLaunch s.dev k.tenant r (max (recPrio r) (issuerPrio s)) 0 0 (if dep = 0 then [] else [dep]) .instr
        writeS { s with dev := d } f.d h

/-- LAUNCH (R336). -/
def execLaunch (f : Fields) (s : State) : Result :=
  instr (legalLaunch (isSplit s) f) f s fun s =>
    let ea := readA s f.s1
    match checkRecord s ea with
    | .raise c => faultAt c ea s
    | .wait => stall s
    | .go (.spm c off _) => submit f (BitVec.ofNat 1024 (spmNat s.dev c off 128)) s
    | .go (.global _) => faultAt .address ea s

/-! ### FRREAD (R337) -/

/-- STATE of Table 15.10. -/
def launchState (d : Dev) (l : Launch) : Nat :=
  if l.saved then 5
  else if l.preempt.isSome then 4
  else if inFlight l ≠ 0 then 2
  else if launchLocked d l then 3
  else 1

/-- The word of Table 15.10. -/
def launchStatus (d : Dev) (l : Launch) : Nat :=
  min (inFlight l) 0xFFFF * 2 ^ 16 + l.prio * 64 + launchClass d l * 16 + (if l.slipped then 8 else 0) + launchState d l

/-- The value of a selector for a live launch. -/
def frreadValue (d : Dev) (l : Launch) (sel row : Nat) : Nat :=
  match sel with
  | 0 => launchStatus d l
  | 1 => l.w0
  | 2 => l.w1
  | 3 => if row < l.w0 then recEn l.nrec else if row < l.w1 then (rowOf l row).c else 0
  | 4 => if l.w0 ≤ row && row < l.w1 then (rowOf l row).a.toNat else 0
  | 5 => donePoints l
  | _ => l.held.length

/-- FRREAD (R337). -/
def execFrread (f : Fields) (s : State) : Result :=
  instr (legalFrread (isSplit s) f) f s fun s =>
    let h := (readS s f.s1).toNat
    match (getLaunch s.dev (h % 256)).filter fun l => l.serial = h / 256 with
    | none => writeS s f.d 0
    | some l =>
      if l.tenant ≠ (preCore s).tenant then faultAt .permission 0 s
      else writeS s f.d (BitVec.ofNat 64 (frreadValue s.dev l (fnBits f 2 0) (readS s f.s2).toNat))

/-! ### PTINFO (R338) -/

/-- The value of a selector (Table 15.11). -/
def ptinfoValue (p : Point) (l : Launch) (sel : Nat) : Word :=
  match sel with
  | 0 => BitVec.ofNat 64 (recEn l.nrec)
  | 1 => BitVec.ofNat 64 (recEm l.nrec)
  | 2 => BitVec.ofNat 64 (recEo l.nrec)
  | 3 => handleOf p.serial p.launch
  | 4 => if recRlen l.nrec then BitVec.ofNat 64 (recRelease l.nrec) else 0
  | 5 => if recDlen l.nrec then BitVec.ofNat 64 (recDeadline l.nrec) else BitVec.allOnes 64
  | 6 => p.tick
  | _ => BitVec.ofNat 64 l.scope

/-- PTINFO never faults (R338). -/
def execPtinfo (f : Fields) (s : State) : Result :=
  instr (legalPtinfo (isSplit s) f) f s fun s =>
    match (curPoint s).bind fun p => (launchOf s.dev p).map fun l => (p, l) with
    | some (p, l) => writeS s f.d (ptinfoValue p l (fnBits f 2 0))
    | none => writeS s f.d 0

end Sys2Proof.Machine
end

