-- ==== Sys2Proof/Machine/MatrixIssue.lean ====
section
/-!
DEFINITION. Meanings of the matrix instructions at issue: codes 0xB0 to 0xB6 of Table 3.12. Each enters the matrix queue (R53); what the
command then does is in MatrixEngine.
-/

namespace Sys2Proof.Machine

/-- MMA enters the matrix queue (R221). -/
def execMma (f : Fields) (s : State) : Result := issueMat .mma f s

/-- MMAS enters the matrix queue (R224). -/
def execMmas (f : Fields) (s : State) : Result := issueMat .mmas f s

/-- MMAZ enters the matrix queue (R221). -/
def execMmaz (f : Fields) (s : State) : Result := issueMat .mmaz f s

/-- ACLR enters the matrix queue (R225). -/
def execAclr (f : Fields) (s : State) : Result := issueMat .aclr f s

/-- ASTORE enters the matrix queue (R226). -/
def execAstore (f : Fields) (s : State) : Result := issueMat .astore f s

/-- ALOAD enters the matrix queue (R227). -/
def execAload (f : Fields) (s : State) : Result := issueMat .aload f s

/-- ABOUND enters the matrix queue (R228). -/
def execAbound (f : Fields) (s : State) : Result := issueMat .abound f s

end Sys2Proof.Machine
end

