-- ==== Sys2Proof/Machine/Scalar.lean ====
section
/-!
DEFINITION. Meanings of the scalar instructions (R83 to R92): codes 0x00 to 0x1E of Table 3.12, and the short forms
of Table 3.4 that stand for them.
-/

namespace Sys2Proof.Machine

/-! ### Scalar ALU (R84) -/

/-- The second operand in whole mode: the shifts add IMM (R84). -/
def wholeOperand (op : AluOp) (f : Fields) (s : State) : Word :=
  match op with
  | .shl | .shr | .sha | .rot => readS s f.s2 + immS f
  | _ => readS s f.s2

/-- The value that an ALU instruction writes to s(D) (R84). -/
def aluValue (op : AluOp) (f : Fields) (s : State) : Word :=
  if fnBit f 5 then
    (mergeOf (container (readS s f.d))
      (aluContainer op (tyOfCode (fnBits f 3 0)) (viewOf (container (readS s f.s1)) f.modS1)
        (viewOf (container (readS s f.s2)) f.modS2)) f.modD).setWidth 64
  else BitVec.ofNat 64 (alu op (readS s f.s1).toNat (wholeOperand op f s).toNat 64 (!fnBit f 4))

/-- s(D) := the value of an ALU operation. -/
def aluBody (op : AluOp) (f : Fields) (s : State) : State := writeS s f.d (aluValue op f s)

/-- ADD (R84). -/
def execAdd (f : Fields) (s : State) : Result :=
  instr (legalAlu rowArith (isSplit s) f) f s (aluBody .add f)

/-- ADD_B2: row 1 of Table 3.4 (R41, R84). -/
def execAddB2 (fin : Bool) (d : BitVec 5) (e : BitVec 4) (s : State) : Result :=
  let f := (shortWord 1 fin d e).2
  instr (legalAlu rowArith (isSplit s) f) f s (aluBody .add f)

/-- SUB (R84). -/
def execSub (f : Fields) (s : State) : Result :=
  instr (legalAlu rowArith (isSplit s) f) f s (aluBody .sub f)

/-- SUB_B2: row 2 of Table 3.4 (R41, R84). -/
def execSubB2 (fin : Bool) (d : BitVec 5) (e : BitVec 4) (s : State) : Result :=
  let f := (shortWord 2 fin d e).2
  instr (legalAlu rowArith (isSplit s) f) f s (aluBody .sub f)

/-- MUL (R84). -/
def execMul (f : Fields) (s : State) : Result :=
  instr (legalAlu rowArith (isSplit s) f) f s (aluBody .mul f)

/-- MULH (R84). -/
def execMulh (f : Fields) (s : State) : Result :=
  instr (legalAlu rowSigned (isSplit s) f) f s (aluBody .mulh f)

/-- AND (R84). -/
def execAnd (f : Fields) (s : State) : Result :=
  instr (legalAlu rowLogic (isSplit s) f) f s (aluBody .and f)

/-- AND_B2: row 3 of Table 3.4 (R41, R84). -/
def execAndB2 (fin : Bool) (d : BitVec 5) (e : BitVec 4) (s : State) : Result :=
  let f := (shortWord 3 fin d e).2
  instr (legalAlu rowLogic (isSplit s) f) f s (aluBody .and f)

/-- OR (R84). -/
def execOr (f : Fields) (s : State) : Result :=
  instr (legalAlu rowLogic (isSplit s) f) f s (aluBody .or f)

/-- OR_B2: row 4 of Table 3.4 (R41, R84). -/
def execOrB2 (fin : Bool) (d : BitVec 5) (e : BitVec 4) (s : State) : Result :=
  let f := (shortWord 4 fin d e).2
  instr (legalAlu rowLogic (isSplit s) f) f s (aluBody .or f)

/-- XOR (R84). -/
def execXor (f : Fields) (s : State) : Result :=
  instr (legalAlu rowLogic (isSplit s) f) f s (aluBody .xor f)

/-- XOR_B2: row 5 of Table 3.4 (R41, R84). -/
def execXorB2 (fin : Bool) (d : BitVec 5) (e : BitVec 4) (s : State) : Result :=
  let f := (shortWord 5 fin d e).2
  instr (legalAlu rowLogic (isSplit s) f) f s (aluBody .xor f)

/-- ANDN (R84). -/
def execAndn (f : Fields) (s : State) : Result :=
  instr (legalAlu rowLogic (isSplit s) f) f s (aluBody .andn f)

/-- SHL (R84). -/
def execShl (f : Fields) (s : State) : Result :=
  instr (legalAlu rowShift (isSplit s) f) f s (aluBody .shl f)

/-- SHL_B2: row 6 of Table 3.4 (R41, R84). -/
def execShlB2 (fin : Bool) (d : BitVec 5) (e : BitVec 4) (s : State) : Result :=
  let f := (shortWord 6 fin d e).2
  instr (legalAlu rowShift (isSplit s) f) f s (aluBody .shl f)

/-- SHR (R84). -/
def execShr (f : Fields) (s : State) : Result :=
  instr (legalAlu rowShift (isSplit s) f) f s (aluBody .shr f)

/-- SHR_B2: row 7 of Table 3.4 (R41, R84). -/
def execShrB2 (fin : Bool) (d : BitVec 5) (e : BitVec 4) (s : State) : Result :=
  let f := (shortWord 7 fin d e).2
  instr (legalAlu rowShift (isSplit s) f) f s (aluBody .shr f)

/-- SHA (R84). -/
def execSha (f : Fields) (s : State) : Result :=
  instr (legalAlu rowShift (isSplit s) f) f s (aluBody .sha f)

/-- ROT (R84). -/
def execRot (f : Fields) (s : State) : Result :=
  instr (legalAlu rowShift (isSplit s) f) f s (aluBody .rot f)

/-- MIN (R84). -/
def execMin (f : Fields) (s : State) : Result :=
  instr (legalAlu rowSigned (isSplit s) f) f s (aluBody .min f)

/-- MIN_B2: row 9 of Table 3.4 (R41, R84). -/
def execMinB2 (fin : Bool) (d : BitVec 5) (e : BitVec 4) (s : State) : Result :=
  let f := (shortWord 9 fin d e).2
  instr (legalAlu rowSigned (isSplit s) f) f s (aluBody .min f)

/-- MAX (R84). -/
def execMax (f : Fields) (s : State) : Result :=
  instr (legalAlu rowSigned (isSplit s) f) f s (aluBody .max f)

/-- MAX_B2: row 10 of Table 3.4 (R41, R84). -/
def execMaxB2 (fin : Bool) (d : BitVec 5) (e : BitVec 4) (s : State) : Result :=
  let f := (shortWord 10 fin d e).2
  instr (legalAlu rowSigned (isSplit s) f) f s (aluBody .max f)

/-- SADD (R84). -/
def execSadd (f : Fields) (s : State) : Result :=
  instr (legalAlu rowSigned (isSplit s) f) f s (aluBody .sadd f)

/-- SSUB (R84). -/
def execSsub (f : Fields) (s : State) : Result :=
  instr (legalAlu rowSigned (isSplit s) f) f s (aluBody .ssub f)

/-! ### Scalar miscellany (R85 to R92) -/

/-- s(D) := (s(S1) + sext(IMM)) mod 2^64 (R85). -/
def addiBody (f : Fields) (s : State) : State := writeS s f.d (readS s f.s1 + immS f)

/-- ADDI (R85). -/
def execAddi (f : Fields) (s : State) : Result := instr (legalAddi (isSplit s) f) f s (addiBody f)

/-- ADDI_B2: row 12 of Table 3.4 (R41, R85). -/
def execAddiB2 (fin : Bool) (d : BitVec 5) (e : BitVec 4) (s : State) : Result :=
  let f := (shortWord 12 fin d e).2
  instr (legalAddi (isSplit s) f) f s (addiBody f)

/-- MOVI, and MOVI.H with FN[0] (R85). -/
def execMovi (f : Fields) (s : State) : Result :=
  instr (legalMovi (isSplit s) f) f s fun s =>
    writeS s f.d (if fnBit f 0 then f.imm ++ container (readS s f.d) else immS f)

/-- s(D) := popcount(s(S1)) (R86). -/
def popcBody (f : Fields) (s : State) : State :=
  writeS s f.d (BitVec.ofNat 64 (Bits.popcount 64 (readS s f.s1).toNat))

/-- POPC (R86). -/
def execPopc (f : Fields) (s : State) : Result := instr (legalCount (isSplit s) f) f s (popcBody f)

/-- POPC_B2: row 11 of Table 3.4 (R41, R86). -/
def execPopcB2 (fin : Bool) (d : BitVec 5) (e : BitVec 4) (s : State) : Result :=
  let f := (shortWord 11 fin d e).2
  instr (legalCount (isSplit s) f) f s (popcBody f)

/-- The number of zero bits above the highest 1; 64 for 0 (R86). -/
def leadingZeros (x : Nat) : Nat :=
  match Bits.topBit 64 x with
  | some i => 63 - i
  | none => 64

/-- The number of zero bits below the lowest 1; 64 for 0 (R86). -/
def trailingZeros (x : Nat) : Nat := (Bits.lowBit 64 x).getD 64

/-- CLZ (R86). -/
def execClz (f : Fields) (s : State) : Result :=
  instr (legalCount (isSplit s) f) f s fun s => writeS s f.d (BitVec.ofNat 64 (leadingZeros (readS s f.s1).toNat))

/-- CTZ (R86). -/
def execCtz (f : Fields) (s : State) : Result :=
  instr (legalCount (isSplit s) f) f s fun s => writeS s f.d (BitVec.ofNat 64 (trailingZeros (readS s f.s1).toNat))

/-- BFX: the field [pos+len-1:pos], sign-extended with FN[0] (R87). -/
def execBfx (f : Fields) (s : State) : Result :=
  instr (legalField 1 (isSplit s) f) f s fun s =>
    let pos := immBits f 5 0
    let len := immBits f 11 6 + 1
    let x := Bits.field (readS s f.s1).toNat (pos + len - 1) pos
    writeS s f.d (if fnBit f 0 then BitVec.ofInt 64 (Bits.signed len x) else BitVec.ofNat 64 x)

/-- BFI: replace the field [pos+len-1:pos] of s(D) (R87). -/
def execBfi (f : Fields) (s : State) : Result :=
  instr (legalField 0 (isSplit s) f) f s fun s =>
    let pos := immBits f 5 0
    let len := immBits f 11 6 + 1
    writeS s f.d (BitVec.ofNat 64 (Bits.setField (readS s f.d).toNat (pos + len - 1) pos (readS s f.s1).toNat))

/-- SEL (R88). -/
def execSel (f : Fields) (s : State) : Result :=
  instr (legalSel (isSplit s) f) f s fun s => writeS s f.d (if readC s (immBits f 2 0) then readS s f.s1 else readS s f.s2)

/-- The value that MOV writes: a whole register, or a merged container with bits [63:32] clear (R88). -/
def movValue (f : Fields) (s : State) : Word :=
  if fnBit f 5 then (mergeOf (container (readS s f.d)) (viewOf (container (readS s f.s1)) f.modS1) f.modD).setWidth 64
  else readS s f.s1

/-- MOV (R88). -/
def execMov (f : Fields) (s : State) : Result :=
  instr (legalMov (isSplit s) f) f s fun s => writeS s f.d (movValue f s)

/-- MOV_B2: row 8 of Table 3.4 (R41, R88). -/
def execMovB2 (fin : Bool) (d : BitVec 5) (e : BitVec 4) (s : State) : Result :=
  let f := (shortWord 8 fin d e).2
  instr (legalMov (isSplit s) f) f s fun s => writeS s f.d (movValue f s)

/-- A register of a named cluster, as XMOV reads it before the bundle (R88). -/
def readFrom (s : State) (cluster : Nat) (address : Bool) (r : BitVec 8) : Word :=
  let u := coreCluster (preCore s) cluster
  if address then Sparse.get u.a 0 r.toNat else if r = 0 then 0 else Sparse.get u.s 0 r.toNat

/-- Write a register of a named cluster; s0 discards. -/
def writeTo (s : State) (cluster : Nat) (address : Bool) (r : BitVec 8) (v : Word) : State :=
  if !address && r = 0 then s
  else onCore s fun k => modCoreCluster k cluster fun u =>
    if address then { u with a := Sparse.set u.a 0 r.toNat v } else { u with s := Sparse.set u.s 0 r.toNat v }

/-- XMOV (R88). -/
def execXmov (f : Fields) (s : State) : Result :=
  instr (legalXmov (isSplit s) f) f s fun s =>
    writeTo s (immBits f 3 2) (fnBit f 1) f.d (readFrom s (immBits f 1 0) (fnBit f 0) f.s1)

/-- Quotient and remainder of R89, for a divisor that is not 0. -/
def quotient (u : Bool) (x y : Word) : Word := if u then x / y else BitVec.ofInt 64 (x.toInt.tdiv y.toInt)
def remainder (u : Bool) (x y : Word) : Word := if u then x % y else BitVec.ofInt 64 (x.toInt.tmod y.toInt)

/-- A division: DIVIDE for a divisor of 0 (R89). -/
def divBody (op : Bool → Word → Word → Word) (f : Fields) (s : State) : State :=
  if readS s f.s2 = 0 then faultAt .divide 0 s
  else writeS s f.d (op (fnBit f 4) (readS s f.s1) (readS s f.s2))

/-- DIV (R89). -/
def execDiv (f : Fields) (s : State) : Result := instr (legalDiv (isSplit s) f) f s (divBody quotient f)

/-- REM (R89). -/
def execRem (f : Fields) (s : State) : Result := instr (legalDiv (isSplit s) f) f s (divBody remainder f)

/-- The packed slot of an offset in a survivor bitmap (R90). -/
def rankValue (p : Bool) (bitmap : Nat) (o : Nat) : Word :=
  if p && !Bits.bit bitmap o then BitVec.ofInt 64 (-1) else BitVec.ofNat 64 (Bits.popcount o bitmap)

/-- RANK (R90). -/
def execRank (f : Fields) (s : State) : Result :=
  instr (legalRank (isSplit s) f) f s fun s =>
    writeS s f.d (rankValue (fnBit f 0) (readS s f.s1).toNat (Bits.field (readS s f.s2).toNat 5 0))

/-- A result element in a scalar: sign-extended for i types, zero-extended otherwise (R91). -/
def elementWord (t : Ty) (x : Nat) : Word :=
  if tySigned t then BitVec.ofInt 64 (Bits.signed (tyWidth t) x) else BitVec.ofNat 64 x

/-- FCVT (R91). -/
def execFcvt (f : Fields) (s : State) : Result :=
  instr (legalFcvt (isSplit s) f) f s fun s =>
    let st := tyOfCode (immBits f 3 0)
    let dt := tyOfCode (fnBits f 3 0)
    let x := (readS s f.s1).toNat % 2 ^ tyWidth st
    let r := convert dt (rmodeOfField (immBits f 6 4) (frmOf s)) (elemValue st x)
    raiseFlags (writeS s f.d (elementWord dt r.bits)) r.flags

/-- FMAS: s(D) := round(x × y + z, T, mode) (R92). -/
def execFmas (f : Fields) (s : State) : Result :=
  instr (legalFmas (isSplit s) f) f s fun s =>
    let t := tyOfCode (fnBits f 3 0)
    let el (r : BitVec 8) := elemValue t ((readS s r).toNat % 2 ^ tyWidth t)
    let mode := rmodeOfField (immBits f 2 0) (frmOf s)
    let r := finish t mode (fmaExact mode (el f.s1) (el f.s2) (el f.d))
    raiseFlags (writeS s f.d (BitVec.ofNat 64 r.bits)) r.flags

end Sys2Proof.Machine
end

