-- ==== Sys2Proof/Machine/VectorIssue.lean ====
section
/-!
DEFINITION. Meanings of the vector instructions at issue: codes 0x70 to 0xA4 of Table 3.12. Each enters the vector queue (R53); what
the command then does is in VectorEngine. VSETL executes in the sequencer.
-/

namespace Sys2Proof.Machine

/-- VSETL (R185). -/
def execVsetl (f : Fields) (s : State) : Result :=
  instr (legalVsetl (isSplit s) f) f s fun s =>
    let req := if fnBit f 5 then f.imm.toNat else (readS s f.s1).toNat
    let cap := if fnBit f 4 then capOf (tyWidth (tyOfCode (fnBits f 3 0))) else 16384
    let n := min req cap
    writeS (onStream s fun t => { t with sys := { t.sys with vl := BitVec.ofNat 32 n } }) f.d (BitVec.ofNat 64 n)

/-- VADD enters the vector queue (R190). -/
def execVadd (f : Fields) (s : State) : Result := issueVec .vadd f s

/-- VSUB enters the vector queue (R190). -/
def execVsub (f : Fields) (s : State) : Result := issueVec .vsub f s

/-- VMUL enters the vector queue (R190). -/
def execVmul (f : Fields) (s : State) : Result := issueVec .vmul f s

/-- VFMA enters the vector queue (R190). -/
def execVfma (f : Fields) (s : State) : Result := issueVec .vfma f s

/-- VMAX enters the vector queue (R173, R190). -/
def execVmax (f : Fields) (s : State) : Result := issueVec .vmax f s

/-- VMIN enters the vector queue (R173, R190). -/
def execVmin (f : Fields) (s : State) : Result := issueVec .vmin f s

/-- VDIV enters the vector queue (R174, R190). -/
def execVdiv (f : Fields) (s : State) : Result := issueVec .vdiv f s

/-- VSQRT enters the vector queue (R174, R190). -/
def execVsqrt (f : Fields) (s : State) : Result := issueVec .vsqrt f s

/-- VEXP2 enters the vector queue (R174, R190). -/
def execVexp2 (f : Fields) (s : State) : Result := issueVec .vexp2 f s

/-- VLOG2 enters the vector queue (R174, R190). -/
def execVlog2 (f : Fields) (s : State) : Result := issueVec .vlog2 f s

/-- VRCP enters the vector queue (R174, R190). -/
def execVrcp (f : Fields) (s : State) : Result := issueVec .vrcp f s

/-- VRSQ enters the vector queue (R174, R190). -/
def execVrsq (f : Fields) (s : State) : Result := issueVec .vrsq f s

/-- VABS enters the vector queue (R190). -/
def execVabs (f : Fields) (s : State) : Result := issueVec .vabs f s

/-- VNEG enters the vector queue (R190). -/
def execVneg (f : Fields) (s : State) : Result := issueVec .vneg f s

/-- VSCALE enters the vector queue (R190). -/
def execVscale (f : Fields) (s : State) : Result := issueVec .vscale f s

/-- VCMP enters the vector queue (R191). -/
def execVcmp (f : Fields) (s : State) : Result := issueVec .vcmp f s

/-- VIADD enters the vector queue (R192). -/
def execViadd (f : Fields) (s : State) : Result := issueVec .viadd f s

/-- VISUB enters the vector queue (R192). -/
def execVisub (f : Fields) (s : State) : Result := issueVec .visub f s

/-- VIMUL enters the vector queue (R192). -/
def execVimul (f : Fields) (s : State) : Result := issueVec .vimul f s

/-- VAND enters the vector queue (R192). -/
def execVand (f : Fields) (s : State) : Result := issueVec .vand f s

/-- VOR enters the vector queue (R192). -/
def execVor (f : Fields) (s : State) : Result := issueVec .vor f s

/-- VXOR enters the vector queue (R192). -/
def execVxor (f : Fields) (s : State) : Result := issueVec .vxor f s

/-- VSHL enters the vector queue (R192). -/
def execVshl (f : Fields) (s : State) : Result := issueVec .vshl f s

/-- VSHR enters the vector queue (R192). -/
def execVshr (f : Fields) (s : State) : Result := issueVec .vshr f s

/-- VSEL enters the vector queue (R193). -/
def execVsel (f : Fields) (s : State) : Result := issueVec .vsel f s

/-- VPERM enters the vector queue (R193). -/
def execVperm (f : Fields) (s : State) : Result := issueVec .vperm f s

/-- VBCAST enters the vector queue (R193). -/
def execVbcast (f : Fields) (s : State) : Result := issueVec .vbcast f s

/-- VIOTA enters the vector queue (R193). -/
def execViota (f : Fields) (s : State) : Result := issueVec .viota f s

/-- VSCAN enters the vector queue (R193). -/
def execVscan (f : Fields) (s : State) : Result := issueVec .vscan f s

/-- VPOPC enters the vector queue (R192). -/
def execVpopc (f : Fields) (s : State) : Result := issueVec .vpopc f s

/-- VMOV enters the vector queue (R193). -/
def execVmov (f : Fields) (s : State) : Result := issueVec .vmov f s

/-- VICMP enters the vector queue (R191). -/
def execVicmp (f : Fields) (s : State) : Result := issueVec .vicmp f s

/-- VLD enters the vector queue (R194). -/
def execVld (f : Fields) (s : State) : Result := issueVec .vld f s

/-- VST enters the vector queue (R194). -/
def execVst (f : Fields) (s : State) : Result := issueVec .vst f s

/-- VLDS enters the vector queue (R194). -/
def execVlds (f : Fields) (s : State) : Result := issueVec .vlds f s

/-- VGATH enters the vector queue (R195). -/
def execVgath (f : Fields) (s : State) : Result := issueVec .vgath f s

/-- VSCAT enters the vector queue (R195). -/
def execVscat (f : Fields) (s : State) : Result := issueVec .vscat f s

/-- VRED enters the vector queue (R197). -/
def execVred (f : Fields) (s : State) : Result := issueVec .vred f s

/-- VSEGRED enters the vector queue (R198). -/
def execVsegred (f : Fields) (s : State) : Result := issueVec .vsegred f s

/-- VMLD enters the vector queue (R196). -/
def execVmld (f : Fields) (s : State) : Result := issueVec .vmld f s

/-- MLOGIC enters the vector queue (R199). -/
def execMlogic (f : Fields) (s : State) : Result := issueVec .mlogic f s

/-- MPOPC enters the vector queue (R199). -/
def execMpopc (f : Fields) (s : State) : Result := issueVec .mpopc f s

/-- VTRN enters the vector queue (R200). -/
def execVtrn (f : Fields) (s : State) : Result := issueVec .vtrn f s

/-- AREAD enters the vector queue (R205). -/
def execAread (f : Fields) (s : State) : Result := issueVec .aread f s

/-- AWRITE enters the vector queue (R206). -/
def execAwrite (f : Fields) (s : State) : Result := issueVec .awrite f s

/-- VCVT enters the vector queue (R201, R202). -/
def execVcvt (f : Fields) (s : State) : Result := issueVec .vcvt f s

/-- VQNT enters the vector queue (R203). -/
def execVqnt (f : Fields) (s : State) : Result := issueVec .vqnt f s

/-- VDQNT enters the vector queue (R204). -/
def execVdqnt (f : Fields) (s : State) : Result := issueVec .vdqnt f s

/-- BRD enters the vector queue (R207). -/
def execBrd (f : Fields) (s : State) : Result := issueVec .brd f s

/-- BWR enters the vector queue (R207). -/
def execBwr (f : Fields) (s : State) : Result := issueVec .bwr f s

end Sys2Proof.Machine
end

