-- ==== Sys2Proof/Machine/Legal.lean ====
section
/-!
DEFINITION. The decode checks of every instruction together (R60, check 3): the same tests that each meaning makes on its own word. The word
that an INSTALL captures is checked by the INSTALL (R296).
-/

namespace Sys2Proof.Machine

/-- Check 3 of R60 for an instruction in a mode; an event of the device is no instruction. -/
def legal (split : Bool) (i : Instr) : Bool :=
  match i with
  | .add f => legalAlu rowArith split f
  | .addB2 fin d e => legalAlu rowArith split (shortWord 1 fin d e).2
  | .sub f => legalAlu rowArith split f
  | .subB2 fin d e => legalAlu rowArith split (shortWord 2 fin d e).2
  | .mul f => legalAlu rowArith split f
  | .mulh f => legalAlu rowSigned split f
  | .and f => legalAlu rowLogic split f
  | .andB2 fin d e => legalAlu rowLogic split (shortWord 3 fin d e).2
  | .or f => legalAlu rowLogic split f
  | .orB2 fin d e => legalAlu rowLogic split (shortWord 4 fin d e).2
  | .xor f => legalAlu rowLogic split f
  | .xorB2 fin d e => legalAlu rowLogic split (shortWord 5 fin d e).2
  | .andn f => legalAlu rowLogic split f
  | .shl f => legalAlu rowShift split f
  | .shlB2 fin d e => legalAlu rowShift split (shortWord 6 fin d e).2
  | .shr f => legalAlu rowShift split f
  | .shrB2 fin d e => legalAlu rowShift split (shortWord 7 fin d e).2
  | .sha f => legalAlu rowShift split f
  | .rot f => legalAlu rowShift split f
  | .min f => legalAlu rowSigned split f
  | .minB2 fin d e => legalAlu rowSigned split (shortWord 9 fin d e).2
  | .max f => legalAlu rowSigned split f
  | .maxB2 fin d e => legalAlu rowSigned split (shortWord 10 fin d e).2
  | .sadd f => legalAlu rowSigned split f
  | .ssub f => legalAlu rowSigned split f
  | .addi f => legalAddi split f
  | .addiB2 fin d e => legalAddi split (shortWord 12 fin d e).2
  | .movi f => legalMovi split f
  | .popc f => legalCount split f
  | .popcB2 fin d e => legalCount split (shortWord 11 fin d e).2
  | .clz f => legalCount split f
  | .ctz f => legalCount split f
  | .bfx f => legalField 1 split f
  | .bfi f => legalField 0 split f
  | .sel f => legalSel split f
  | .mov f => legalMov split f
  | .movB2 fin d e => legalMov split (shortWord 8 fin d e).2
  | .xmov f => legalXmov split f
  | .div f => legalDiv split f
  | .rem f => legalDiv split f
  | .rank f => legalRank split f
  | .fcvt f => legalFcvt split f
  | .fmas f => legalFmas split f
  | .aadd f => legalAadd split f
  | .aaddB2 fin d e => legalAadd split (shortWord 13 fin d e).2
  | .aidx f => legalAidx split f
  | .amov f => legalAmov split f
  | .aldi f => legalAldi split f
  | .ld f => legalLd split f
  | .st f => legalSt split f
  | .lda f => legalLda split f
  | .sta f => legalSta split f
  | .push f => legalPush split f
  | .pop f => legalPop split f
  | .prfm f => legalPrfm split f
  | .acmp f => legalAcmp split f
  | .pbr f => legalPbr split f
  | .pbra f => legalPbra split f
  | .cmp f => legalCmp split f
  | .cmpi f => legalCmpi split f
  | .br f => legalBr split f
  | .brn f => legalBr split f
  | .jmp f => legalJmp split f
  | .call f => legalJmp split f
  | .ret f => legalPlain split f
  | .loop f => legalLoop split f
  | .lset f => legalLset split f
  | .vany f => legalAny split f
  | .vall f => legalAny split f
  | .gset f => legalGset split f
  | .nop f => legalPlain split f
  | .nopB2 fin => legalPlain split (shortWord 0 fin 0 0).2
  | .tset f => legalTset split f
  | .tpost f => legalToken split f
  | .tpostB2 fin d e => decide (e = 0) && legalToken split (shortWord 14 fin d e).2
  | .twait f => legalToken split f
  | .twaitB2 fin d e => decide (e = 0) && legalToken split (shortWord 15 fin d e).2
  | .swinit f => legalSync split f
  | .swarm f => legalSwarm split f
  | .swwait f => legalSync split f
  | .swarrive f => legalSync split f
  | .publish f => legalScope split f
  | .acquire f => legalScope split f
  | .fence f => legalFence split f
  | .atom f => legalAtom split f
  | .garrive f => legalPlain split f
  | .gwait f => legalPlain split f
  | .watch f => legalWatch split f
  | .unwatch f => legalUnwatch split f
  | .trap f => legalCode split f
  | .exit f => legalPlain split f
  | .sysrd f => legalSysrd split f
  | .syswr f => legalSyswr split f
  | .split f => legalPlain split f
  | .join f => legalJmp split f
  | .lease f => legalLease split f
  | .lrel f => legalPlain split f
  | .yield f => legalPlain split f
  | .qcfg f => legalQcfg split f
  | .genf f => legalPlain split f
  | .ftset f => legalFtset split f
  | .boundcfg f => legalBoundcfg split f
  | .tick f => legalTick split f
  | .dbgbrk f => legalCode split f
  | .oaxdef f => legalOaxdef split f
  | .install f => legalInstall split f
  | .revoke f => legalRevoke split f
  | .slcommit f => legalSlcommit split f
  | .slwait f => legalSlwait split f
  | .rstat f => legalRstat split f
  | .rsusp f => legalRsusp split f
  | .rresume f => legalRresume split f
  | .vadd f => legalEngine (.vec .vadd) false split f
  | .vsub f => legalEngine (.vec .vsub) false split f
  | .vmul f => legalEngine (.vec .vmul) false split f
  | .vfma f => legalEngine (.vec .vfma) false split f
  | .vmax f => legalEngine (.vec .vmax) false split f
  | .vmin f => legalEngine (.vec .vmin) false split f
  | .vdiv f => legalEngine (.vec .vdiv) false split f
  | .vsqrt f => legalEngine (.vec .vsqrt) false split f
  | .vexp2 f => legalEngine (.vec .vexp2) false split f
  | .vlog2 f => legalEngine (.vec .vlog2) false split f
  | .vrcp f => legalEngine (.vec .vrcp) false split f
  | .vrsq f => legalEngine (.vec .vrsq) false split f
  | .vabs f => legalEngine (.vec .vabs) false split f
  | .vneg f => legalEngine (.vec .vneg) false split f
  | .vscale f => legalEngine (.vec .vscale) false split f
  | .vcmp f => legalEngine (.vec .vcmp) false split f
  | .viadd f => legalEngine (.vec .viadd) false split f
  | .visub f => legalEngine (.vec .visub) false split f
  | .vimul f => legalEngine (.vec .vimul) false split f
  | .vand f => legalEngine (.vec .vand) false split f
  | .vor f => legalEngine (.vec .vor) false split f
  | .vxor f => legalEngine (.vec .vxor) false split f
  | .vshl f => legalEngine (.vec .vshl) false split f
  | .vshr f => legalEngine (.vec .vshr) false split f
  | .vsel f => legalEngine (.vec .vsel) false split f
  | .vperm f => legalEngine (.vec .vperm) false split f
  | .vbcast f => legalEngine (.vec .vbcast) false split f
  | .viota f => legalEngine (.vec .viota) false split f
  | .vscan f => legalEngine (.vec .vscan) false split f
  | .vpopc f => legalEngine (.vec .vpopc) false split f
  | .vmov f => legalEngine (.vec .vmov) false split f
  | .vicmp f => legalEngine (.vec .vicmp) false split f
  | .vld f => legalEngine (.vec .vld) false split f
  | .vst f => legalEngine (.vec .vst) false split f
  | .vlds f => legalEngine (.vec .vlds) false split f
  | .vgath f => legalEngine (.vec .vgath) false split f
  | .vscat f => legalEngine (.vec .vscat) false split f
  | .vred f => legalEngine (.vec .vred) false split f
  | .vsegred f => legalEngine (.vec .vsegred) false split f
  | .vmld f => legalEngine (.vec .vmld) false split f
  | .mlogic f => legalEngine (.vec .mlogic) false split f
  | .mpopc f => legalEngine (.vec .mpopc) false split f
  | .vsetl f => legalVsetl split f
  | .vtrn f => legalEngine (.vec .vtrn) false split f
  | .aread f => legalEngine (.vec .aread) false split f
  | .awrite f => legalEngine (.vec .awrite) false split f
  | .vcvt f => legalEngine (.vec .vcvt) false split f
  | .vqnt f => legalEngine (.vec .vqnt) false split f
  | .vdqnt f => legalEngine (.vec .vdqnt) false split f
  | .brd f => legalEngine (.vec .brd) false split f
  | .bwr f => legalEngine (.vec .bwr) false split f
  | .mma f => legalEngine (.mat .mma) false split f
  | .mmas f => legalEngine (.mat .mmas) false split f
  | .mmaz f => legalEngine (.mat .mmaz) false split f
  | .aclr f => legalEngine (.mat .aclr) false split f
  | .astore f => legalEngine (.mat .astore) false split f
  | .aload f => legalEngine (.mat .aload) false split f
  | .abound f => legalEngine (.mat .abound) false split f
  | .cpy f => legalEngine (.cpy .cpy) false split f
  | .cpym f => legalEngine (.cpy .cpym) false split f
  | .cpyr f => legalEngine (.cpy .cpyr) false split f
  | .cpyg f => legalEngine (.cpy .cpyg) false split f
  | .cpys f => legalEngine (.cpy .cpys) false split f
  | .cpyf f => legalEngine (.cpy .cpyf) false split f
  | .nset f => legalNset split f
  | .nclr f => legalNclr split f
  | .kvmap f => legalEngine (.cpy .kvmap) false split f
  | .kvgath f => legalEngine (.cpy .kvgath) false split f
  | .kvapp f => legalEngine (.cpy .kvapp) false split f
  | .kvcomp f => legalEngine (.cpy .kvcomp) false split f
  | .kvevict f => legalEngine (.cpy .kvevict) false split f
  | .kvrank f => legalEngine (.cpy .kvrank) false split f
  | .launch f => legalLaunch split f
  | .frread f => legalFrread split f
  | .ptinfo f => legalPtinfo split f
  | .commandStart _ _ _ => false
  | .commandCompletion _ _ => false
  | .copyVisibility _ _ => false
  | .kBlock _ _ => false
  | .copyPiece _ _ => false
  | .arrival _ => false
  | .cpyrContribution _ => false
  | .peerAccess _ _ _ => false
  | .l1Eviction _ _ => false
  | .icacheFill _ _ => false
  | .faultDelivery _ _ => false
  | .statusResume _ _ => false
  | .statusDiscard _ _ => false
  | .leaseGrant _ => false
  | .leaseIdleEnd _ => false
  | .watchMatch _ _ => false
  | .notification _ => false
  | .commitWatch _ _ => false
  | .firing _ _ => false
  | .registeredLaunchPush _ => false
  | .pointDispatch _ => false
  | .pointDone _ _ _ _ => false
  | .launchCompletion _ => false
  | .release _ => false
  | .slipped _ => false
  | .frameTick => false
  | .launchSave _ => false
  | .contextSave _ => false
  | .nopPacket _ => false
  | .launchPacket _ => false
  | .invoke _ => false
  | .fencePacket _ => false
  | .inval _ => false
  | .preempt _ => false
  | .restore _ => false
  | .resume _ => false
  | .slotload _ => false
  | .slotunload _ => false
  | .ringResume _ => false
  | .ringEnable _ _ => false
  | .vfRecordWrite _ _ => false
  | .controlWindowWrite _ _ => false
  | .dawn _ => false
  | .noon _ => false
  | .thermalStep _ _ => false
  | .thermalReset => false
  | .flitRetry _ => false
  | .linkDown _ _ => false
  | .ringTimeout _ _ => false
  | .ringAbort _ _ => false
  | .uncorrectableError _ => false
  | .correctedError _ => false
  | .inboundDmaWrite _ _ _ => false
  | .remoteLinkRequest _ => false
  | .newBootImage _ => false

end Sys2Proof.Machine
end

