-- ==== Sys2Proof/Machine/Fetch.lean ====
section
/-!
DEFINITION. Fetching: the instruction cache and its poison words (R38, R48, R49), bundles and transfer groups as they are gathered (R46, R103),
and the checks made before anything of a bundle takes effect (R47, R60, R64).
-/

namespace Sys2Proof.Machine

/-! ### The instruction cache (R38, R48) -/

/-- A sector as the fill finds it: its bytes at the home, or why they cannot be fetched. -/
def sectorLine (d : Dev) (core s : Nat) : IcacheLine :=
  match translateFor d core (64 * s) .fetch with
  | .error _ => .fault
  | .ok e =>
    let pa := physical e (64 * s)
    if homePoisoned d pa 64 then .ecc else .bytes (homeBytes d pa 64)

/-- The fill of a sector that the cache does not hold (R38). -/
def fillSector (d : Dev) (core s : Nat) : Option Dev :=
  if (Sparse.find? (getCore d core).icache s).isSome then none
  else
    let d1 := modCore d core fun k => { k with icache := holdSector k.icache s (sectorLine d core s) }
    match translateFor d core (64 * s) .fetch with
    | .error _ => some d1
    | .ok e => some (afterRead (fillTlb d1 core e) (physical e (64 * s)))

/-- The cache with a sector in it. -/
def withSector (d : Dev) (core s : Nat) : Dev := (fillSector d core s).getD d

/-- Discard the sectors of an issued poison word (R49). -/
def dropSectors (d : Dev) (core pc off : Nat) : Dev :=
  modCore d core fun k => { k with icache := k.icache.filter fun p => p.1 ≠ pc / 64 ∧ p.1 ≠ (pc + off) / 64 }

/-- What stands at an instruction address: an instruction, a poison word with its cause and offset, or a word whose opcode is
reserved (R48, R50, R60). -/
inductive Fetched where
  | word (i : Instr) (len : Nat)
  | poison (c : Cause) (off : Nat)
  | reserved (len : Nat) (fin : Bool)

/-- Read a poison word for a failing byte, or the bytes of a sector from an offset on. -/
def lineBytes (d : Dev) (core s off : Nat) : Except Cause (List Byte) :=
  match Sparse.find? (getCore d core).icache s with
  | some (.bytes l) => .ok (l.drop off)
  | some .ecc => .error .fetchEcc
  | _ => .error .fetchFault

/-- The instruction that bytes in hand decode to (Table 3.7, R60). -/
def fetchedOf (bytes : List Byte) : Fetched :=
  match decode bytes with
  | .ok (i, n) => .word i n
  | .error (.reservedOpcode _ n fin) => .reserved n fin
  | .error _ => .poison .illegalEncoding 0

/-- The instruction at an address, its sectors filled as they are needed. -/
def fetchAt (d : Dev) (core pc : Nat) : Dev × Fetched :=
  let s := pc / 64
  let d := withSector d core s
  match lineBytes d core s (pc % 64) with
  | .error c => (d, .poison c 0)
  | .ok l =>
    match l.head?.bind formOf with
    | none => (d, .poison .illegalEncoding 0)
    | some form =>
      if formLen form ≤ l.length then (d, fetchedOf (l.take (formLen form)))
      else
        let d := withSector d core (s + 1)
        match lineBytes d core (s + 1) 0 with
        | .error c => (d, .poison c l.length)
        | .ok r => (d, fetchedOf ((l ++ r).take (formLen form)))

/-! ### Bundles (R46, R61) -/

/-- The opcode of an encoded instruction. -/
def opcOf (i : Instr) : Nat := ((internalOf i).map (·.1)).getD 255
def fieldsOf (i : Instr) : Fields := ((internalOf i).map (·.2)).getD {}

/-- One instruction of a bundle with its address. -/
structure Slotted where
  pc : Word
  it : Fetched

/-- Bytes that an instruction takes; a poison word ends what can be gathered. -/
def fetchedLen (f : Fetched) : Option Nat :=
  match f with
  | .word _ n => some n
  | .reserved n _ => some n
  | .poison _ _ => none

/-- END of an instruction. -/
def fetchedEnd (f : Fetched) : Bool :=
  match f with
  | .word i _ => (fieldsOf i).fin
  | .reserved _ fin => fin
  | .poison _ _ => true

/-- Gather instructions from an address until one with END, a poison word or the limit. -/
def gatherUntil (core : Nat) : Nat → Dev → Nat → List Slotted → Dev × List Slotted
  | 0, d, _, l => (d, l.reverse)
  | k + 1, d, pc, l =>
    let (d, f) := fetchAt d core pc
    let l := { pc := BitVec.ofNat 64 pc, it := f : Slotted } :: l
    match fetchedLen f with
    | some n => if fetchedEnd f then (d, l.reverse) else gatherUntil core k d (pc + n) l
    | none => (d, l.reverse)

/-- INSTALL at the head of a list: the word after it is its body. -/
def isInstall (f : Fetched) : Bool :=
  match f with
  | .word (.install _) _ => true
  | _ => false

/-- Gather a bundle: in split mode one instruction, and an INSTALL's command word with it (R46, R64). -/
def gatherBundle (d : Dev) (core pc : Nat) (split : Bool) : Dev × List Slotted :=
  if !split then gatherUntil core 4 d pc []
  else
    let (d, f) := fetchAt d core pc
    let one : Slotted := { pc := BitVec.ofNat 64 pc, it := f }
    if isInstall f then
      let at_ := pc + (fetchedLen f).getD 0
      let (d, g) := fetchAt d core at_
      (d, [one, { pc := BitVec.ofNat 64 at_, it := g }])
    else (d, [one])

/-- The address after a gathered list. -/
def addressAfter (pc : Nat) (l : List Slotted) : Nat :=
  match l.getLast? with
  | some x => x.pc.toNat + (fetchedLen x.it).getD 0
  | none => pc

/-- The instructions of a gathered list with their slots. -/
def slottedInstrs (l : List Slotted) : List (Nat × Word × Instr) :=
  l.zipIdx.filterMap fun p =>
    match p.1.it with
    | .word i _ => some (p.2, p.1.pc, i)
    | _ => none

/-! ### Composition (Table 4.1) -/

/-- Opcodes that must be the only one of their bundle. -/
def soloOpcodes : List Nat := [0x54, 0x55, 0x51, 0x50, 0x5E, 0x58, 0x53, 0x59, 0x5A, 0x5B, 0x5C, 0x56, 0x57, 0x3A, 0x3D]
/-- Transfers and LOOP: at most one. -/
def jumpOpcodes : List Nat := [0x34, 0x35, 0x36, 0x37, 0x38, 0x39]
/-- CALL, RET, PUSH, POP: slot 0 only. -/
def slot0Opcodes : List Nat := [0x37, 0x38, 0x28, 0x29]
/-- BR, BRN, JMP, CALL, RET. -/
def isTransfer (i : Instr) : Bool := 0x34 ≤ opcOf i && opcOf i ≤ 0x38

/-- The scalar or address register (class a is true) that an instruction writes through D, in its own cluster. -/
def ownDest (i : Instr) : Option (Bool × Nat) :=
  let opc := opcOf i
  let f := fieldsOf i
  let d := f.d.toNat
  if opc ≤ 0x1E && opc ≠ 0x19 then some (false, d)
  else if [0x24, 0x3D, 0x4A, 0x4D, 0x52, 0x5D, 0x65, 0x9A, 0xE0, 0xE1, 0xE2].contains opc then some (false, d)
  else if [0x20, 0x21, 0x23, 0x26].contains opc then some (true, d)
  else if opc = 0x22 then some (fnBits f 1 0 ≠ 2, d)
  else if opc = 0x29 then some (fnBit f 0, d)
  else none

/-- The registers that the instruction of a slot writes, as (cluster, class, number); s0 is none. -/
def slotWrites (slot : Nat) (i : Instr) : List (Nat × Bool × Nat) :=
  let f := fieldsOf i
  let own := match ownDest i with
    | some (c, r) => [(slot, c, r)]
    | none => []
  let sp := if [0x28, 0x29, 0x37, 0x38].contains (opcOf i) then [(slot, true, 15)] else []
  let moved := if opcOf i = 0x19 then [(immBits f 3 2, fnBit f 1, f.d.toNat)] else []
  (own ++ sp ++ moved).filter fun w => w.2.1 || w.2.2 ≠ 0

/-- A list has no two equal entries. -/
def distinct {α : Type} [DecidableEq α] (l : List α) : Bool := decide l.Nodup

/-- The condition and branch-target registers, as (class, number), that an instruction writes. -/
def flagWrites (i : Instr) : List (Nat × Nat) :=
  let opc := opcOf i
  if [0x32, 0x33, 0x2B, 0x3B, 0x3C].contains opc then [(0, (fieldsOf i).d.toNat)]
  else if [0x30, 0x31].contains opc then [(1, (fieldsOf i).d.toNat)]
  else []

/-- Two XMOVs, or an XMOV and the slot of its destination's cluster, write one register. -/
def xmovClash (l : List (Nat × Instr)) : Bool :=
  l.any fun x => opcOf x.2 = 0x19 && l.any fun y =>
    x.1 ≠ y.1 && (slotWrites x.1 x.2).any fun w => (slotWrites y.1 y.2).contains w

/-- The stream and core state of the last row of Table 4.1 is written at most once. -/
def stateDistinct (l : List Instr) : Bool :=
  let of (opc : Nat) := l.filter fun i => opcOf i = opc
  let tsets := (of 0x40).map fun i => (fieldsOf i).d
  (of 0x9A).length ≤ 1 && distinct ((of 0xC6).map fun i => immBits (fieldsOf i) 2 0)
    && ((of 0xC7).isEmpty || (of 0xC6).length + (of 0xC7).length ≤ 1)
    && distinct tsets && ((of 0x41 ++ of 0x42).all fun i => !tsets.contains (fieldsOf i).d)
    && distinct ((of 0x60).map fun i => (fieldsOf i).d)

/-- A joined bundle keeps Table 4.1. -/
def compositionOk (l : List (Nat × Instr)) : Bool :=
  let is := l.map (·.2)
  let n := l.length
  (n ≤ 1 || is.all fun i => !soloOpcodes.contains (opcOf i))
    && (is.filter fun i => jumpOpcodes.contains (opcOf i)).length ≤ 1
    && (l.all fun p => p.1 = 0 || !slot0Opcodes.contains (opcOf p.2))
    && (is.all (fun i => opcOf i ≠ 0x61) || (n = 2 && (is.head?.map opcOf) = some 0x61 && (is.tail.all fun i => opcOf i ≠ 0x61)))
    && distinct (is.flatMap flagWrites) && !xmovClash l && stateDistinct is

/-! ### Checks before a bundle takes effect -/

/-- A fault found before issue: cause, EPC, EADDR, and the offset of a poison word's failing byte. -/
structure EarlyFault where
  cause  : Cause
  epc    : Word
  eaddr  : Word := 0
  poison : Option Nat := none

/-- Checks 1 to 3 of R60 on one word; `body` says that an INSTALL captures it. -/
def wordFault (split body : Bool) (x : Slotted) : Option EarlyFault :=
  match x.it with
  | .poison c off => some { cause := c, epc := x.pc, eaddr := x.pc + BitVec.ofNat 64 off, poison := some off }
  | .reserved _ _ => some { cause := .illegalInstruction, epc := x.pc }
  | .word i _ =>
    let ok := if body then (match engineOf i with | some (o, f) => legalEngine o true split f | none => true) else legal split i
    if ok then none else some { cause := .illegalInstruction, epc := x.pc }

/-- The gathered instructions are more than a bundle holds: four words without END. -/
def overlong (split : Bool) (l : List Slotted) : Bool := !split && l.getLast?.any fun x => !fetchedEnd x.it

/-- The first fault of a bundle: the lowest-addressed word's, then the bundle's own at its first instruction (R46, R47, R64). -/
def bundleFault (split : Bool) (pc : Word) (l : List Slotted) : Option EarlyFault :=
  let install := (l.head?.map fun x => isInstall x.it).getD false
  match l.zipIdx.findSome? fun p => wordFault split (install && p.2 = 1) p.1 with
  | some f => some f
  | none =>
    let is := (slottedInstrs l).map fun x => (x.1, x.2.2)
    if overlong split l || (!split && !compositionOk is) then some { cause := .illegalInstruction, epc := pc } else none

/-- Opcodes permitted in a delay slot (Table 5.9). -/
def delayPermits (i : Instr) : Bool :=
  let opc := opcOf i
  opc ≤ 0x0F || (0x10 ≤ opc && opc ≤ 0x1E && opc ≠ 0x1A && opc ≠ 0x1B)
    || [0x20, 0x21, 0x22, 0x23, 0x2B, 0x30, 0x32, 0x33, 0x3D, 0x3E, 0x52].contains opc

/-- The checks of one word in a delay slot, Table 5.9 after the word's own (R60, R103). -/
def delayWordFault (split : Bool) (x : Slotted) : Option EarlyFault :=
  (wordFault split false x).orElse fun _ =>
    match x.it with
    | .word i _ => if delayPermits i then none else some { cause := .illegalInstruction, epc := x.pc }
    | _ => none

/-- The fault of a delay slot's bundle: the lowest-addressed word's, then the bundle's own (R47); it is raised at the transfer bundle (R60,
R103). -/
def delayFault (split : Bool) (pc : Word) (l : List Slotted) : Option EarlyFault :=
  ((l.findSome? (delayWordFault split)).orElse fun _ => bundleFault split pc l).map fun f => { f with epc := pc }

/-- The instructions that run in their slots, and the body that an INSTALL captures. -/
def splitBody (l : List Slotted) : List (Nat × Word × Instr) × Option Instr :=
  let x := slottedInstrs l
  match l with
  | a :: _ :: _ => if isInstall a.it then (x.take 1, (x.drop 1).head?.map fun p => p.2.2) else (x, none)
  | _ => (x, none)

/-- A transfer runs in the bundle; the body of an INSTALL does not run (R296). -/
def hasTransfer (l : List Slotted) : Bool := (splitBody l).1.any fun x => isTransfer x.2.2

/-- What issue finds at the pc: the bundle, the address after it, the address after its second delay slot, the delay slots' bundles of a
transfer, and a fault. -/
structure Gathered where
  dev   : Dev
  items : List Slotted
  next  : Word
  after : Word
  group : List GroupBundle := []
  fault : Option EarlyFault

/-- Gather a bundle, and the group behind a transfer, with every check made before it takes effect. -/
def gatherAt (d : Dev) (core : Nat) (split : Bool) (pc : Word) : Gathered :=
  let (d1, l) := gatherBundle d core pc.toNat split
  let next := addressAfter pc.toNat l
  let w (n : Nat) : Word := BitVec.ofNat 64 n
  match bundleFault split pc l with
  | some f => { dev := d1, items := l, next := w next, after := w next, fault := some f }
  | none =>
    if !hasTransfer l then { dev := d1, items := l, next := w next, after := w next, fault := none }
    else
      let (d2, l1) := gatherBundle d1 core next split
      match delayFault split pc l1 with
      | some f => { dev := d2, items := l, next := w next, after := w next, fault := some f }
      | none =>
        let n1 := addressAfter next l1
        let (d3, l2) := gatherBundle d2 core n1 split
        { dev := d3, items := l, next := w next, after := w (addressAfter n1 l2), fault := delayFault split pc l2
          group := [{ pc := w next, next := w n1, slots := slottedInstrs l1 }, { pc := w n1, next := w (addressAfter n1 l2), slots := slottedInstrs l2 }] }

end Sys2Proof.Machine
end

