-- ==== Sys2Proof/Machine/EngineFault.lean ====
section
/-!
DEFINITION. Faults of engine commands and firings (R76, R280, R281, R307, R308), and the events of a command that end it: its flags and
its posts (R23, R177).
-/

namespace Sys2Proof.Machine

/-- ECMD of a command (Table 4.5). -/
def ecmdWord (x : Cmd) : Word :=
  BitVec.ofNat 64 (x.index.toNat + (match x.firing with | some (n, _) => 2 ^ 63 + n % 64 * 2 ^ 56 | none => 0))

/-- ESTAT of a step and an internal status word (Table 4.5). -/
def estatWord (step isw : Nat) : Word := BitVec.ofNat 64 (isw % 2 ^ 16 * 2 ^ 32 + step % 2 ^ 32)

/-- Leave a fault pending for a stream (R76, R77). -/
def pendFault (d : Dev) (core i : Nat) (f : PendingFault) : Dev := modStream d core i fun t => { t with faults := t.faults ++ [f] }

/-- The report of a firing fault to the owning stream: RULE_FAULT whatever the underlying cause (R308, log entry 107). -/
def firingReport (x : Cmd) (f : FaultRec) : PendingFault :=
  { age := x.age, cause := .ruleFault, ecmd := ecmdWord x, eeng := eengWord x.stream (engineCode (queueOf x.op))
    estat := estatWord f.step f.isw.toNat, eaddr := f.eaddr, nodel := decide (f.cause = .translation) }

/-- The report of a command's own fault (R76). -/
def commandReport (x : Cmd) (f : FaultRec) : PendingFault :=
  { age := x.age, cause := f.cause, ecmd := ecmdWord x, eeng := eengWord x.stream (engineCode (queueOf x.op))
    estat := estatWord f.step f.isw.toNat, eaddr := f.eaddr, link := some x.age }

/-- A faulted command holds its queue stopped until it has gone on (R76, R281). -/
def stopQueue (d : Dev) (core : Nat) (x : Cmd) : Dev :=
  modStream d core x.stream fun t =>
    modQueue t (queueOf x.op) fun q => { q with stopped := q.stopped ++ [x.age] }

/-- The record that a firing fault leaves in its rule (R307). -/
def faultedRule (r : Rule) (f : FaultRec) (held : Bool) (next : Nat) : Rule :=
  { r with state := .suspended, held := held, enqFail := false, next := next, cause := causeCode f.cause, eaddr := f.eaddr
           estat := estatWord f.step f.isw.toNat }

/-- A firing of rule n for slice s faults in its engine (R307, R308). -/
def firingFault (d : Dev) (core n s : Nat) (x : Cmd) (f : FaultRec) : Dev :=
  let d := modCore d core fun k =>
    let k := modRun k x.age fun r => { r with stopped := some f, step := f.step, held := true }
    let k := withdrawFirings k n
    match findRule k n with
    | some r => setRule k n (faultedRule r f true s)
    | none => k
  pendFault (settleRules d core) core x.stream (firingReport x f)

/-- An engine command or firing faults at a step (R76, R307). -/
def engineFault (d : Dev) (core : Nat) (x : Cmd) (f : FaultRec) : Dev :=
  match x.firing with
  | some (n, s) => firingFault d core n s x f
  | none =>
    let d := modCore d core fun k => modRun k x.age fun r => { r with stopped := some f, step := f.step }
    pendFault (stopQueue d core x) core x.stream (commandReport x f)

/-- The lowest slice among the queued firings of a rule, else `next`. -/
def lowestWithdrawn (k : Core) (n next : Nat) : Nat :=
  match (queuedFirings k n).filterMap fun x => x.firing.map (·.2) with
  | [] => next
  | l => l.foldl min next

/-- TOKEN_CEILING at a command's completion or visibility post (R280, R281, R307): the command stays completed. A rule that already
holds a later firing keeps it and records the fault (R304); a rule that has left the table records nothing. -/
def ceilingFault (d : Dev) (core : Nat) (x : Cmd) (steps token : Nat) (vis : Bool) : Dev :=
  let f : FaultRec := { cause := .tokenCeiling, step := steps, isw := BitVec.ofNat 16 ((if vis then 128 else 0) + token) }
  match x.firing with
  | some (n, _) =>
    let d := modCore d core fun k =>
      match (findRule k n).filter fun r => r.seq = x.rseq with
      | some r =>
        if r.held then setRule k n (faultedRule r f true r.next)
        else setRule (withdrawFirings k n) n (faultedRule r f false (lowestWithdrawn k n r.next))
      | none => k
    pendFault (settleRules d core) core x.stream (firingReport x f)
  | none => pendFault (stopQueue d core x) core x.stream (commandReport x f)

/-- Make a post of a command; past the ceiling it faults (R23, R280). -/
def makePost (d : Dev) (core : Nat) (x : Cmd) (steps : Nat) (vis : Bool) (t : Option Nat) : Dev :=
  match t with
  | none => d
  | some t =>
    match postToken (getCore d core) t with
    | some k => setCore d core k
    | none => ceilingFault d core x steps t vis

/-- OR a command's gathered flags into its stream's FFLAGS (R177). -/
def gatherFlags (d : Dev) (core : Nat) (x : Cmd) (fl : Flags) : Dev :=
  modStream d core x.stream fun t => { t with sys := { t.sys with fflags := t.sys.fflags ||| fl.toBits } }

/-- What executing a command answers: the device, the flags of its steps, the signature of the sectors it wrote, and its fault. -/
structure EngOut where
  dev   : Dev
  flags : Flags := {}
  sig   : BitVec 512 := 0
  fault : Option FaultRec := none
  deriving DecidableEq, Repr

/-- An execution that goes on from another: a fault ends it. -/
def chain (a : EngOut) (g : Dev → EngOut) : EngOut :=
  match a.fault with
  | some _ => a
  | none =>
    let b := g a.dev
    { b with flags := a.flags.or b.flags, sig := a.sig ||| b.sig }

/-- Fold steps until one faults. -/
def runSteps {α : Type} (d : Dev) (g : Dev → α → EngOut) (l : List α) : EngOut :=
  l.foldl (fun a i => chain a fun d => g d i) { dev := d }

/-! ### Global accesses of an engine (R123, R126, R136, R359) -/

/-- Read n bytes of one sector at the home: the bytes, and the device with the translation held. -/
def globalRead (d : Dev) (core va n : Nat) : Except Cause (List Byte × Dev) :=
  match translateFor d core va .read with
  | .error c => .error c
  | .ok e =>
    let pa := physical e va
    if homePoisoned d pa n then .error .poison else .ok (homeBytes d pa n, afterRead (fillTlb d core e) pa)

/-- Write bytes of one sector at the home: the device and the sector's signature. -/
def globalWrite (d : Dev) (core va : Nat) (bytes : List Byte) : Except Cause (Dev × BitVec 512) :=
  match translateFor d core va .write with
  | .error c => .error c
  | .ok e =>
    let pa := physical e va
    .ok (engineStore (fillTlb d core e) core pa bytes, sigOfRanges [(pa, bytes.length)])

/-- Cut a range of addresses at the sector boundaries (R131): (offset in the range, bytes). -/
def cutSectors (va n : Nat) : List (Nat × Nat) :=
  (sectorsOf va n).map fun s =>
    let lo := max va (64 * s)
    (lo - va, min (va + n) (64 * s + 64) - lo)

end Sys2Proof.Machine
end

