-- ==== Sys2Proof/Machine/Pickup.lean ====
section
/-!
DEFINITION. What an engine does when it picks up a command: it resolves type code 14 from the format table entry (R52, R175, R176), and a
matrix command makes its precision transition (R215, R216, Table 9.4) and takes its checkpoint (R244, R245).
-/

namespace Sys2Proof.Machine

/-! ### Types (R176) -/

/-- The type codes of a command by role: TA, TB and TD; none where it has no such operand. -/
def cmdCodes (x : Cmd) : Option Nat × Option Nat × Option Nat :=
  let fn := fnBits x.f 3 0
  match x.op with
  | .vec .vcvt => (some (xField x.f % 16), none, some fn)
  | .vec .vqnt => (none, none, some fn)
  | .vec _ => (some fn, none, none)
  | .mat .mma | .mat .mmas | .mat .mmaz => (some (immBits x.f 31 28), some (immBits x.f 27 24), none)
  | .mat .astore => (none, none, some fn)
  | .mat .aload => (some fn, none, none)
  | _ => (none, none, none)

/-- ESTAT.ISW after FORMAT_TABLE (Table 7.9). -/
def formatIsw (x : Cmd) (value role : Nat) : BitVec 16 := BitVec.ofNat 16 (x.entry * 4096 + value * 256 + role)

/-- Resolve one code by a role's field of the entry. -/
def resolveCode (x : Cmd) (entry : Nat) (role : TyRole) (n : Nat) (code : Option Nat) : Except (BitVec 16) Ty :=
  match code with
  | some 14 =>
    let v := roleField role entry
    if 14 ≤ v then .error (formatIsw x v n) else .ok (tyOfCode v)
  | some c => .ok (tyOfCode c)
  | none => .ok .f32

/-- The code that a type has (Table 3.8). -/
def codeOfTy (t : Ty) : Nat := ((List.range 14).find? fun c => tyOfCode c = t).getD 15

/-- The command accepts its resolved types (R176, R187, R214, R226, R227). -/
def typesAccepted (x : Cmd) (a b d : Ty) : Bool :=
  match x.op with
  | .vec .vcvt => true
  | .vec .vqnt => vecTypeIn .quant (codeOfTy d)
  | .vec o =>
    vecTypeIn (vecRow o).types (codeOfTy a)
      && (match o with
          | .vred | .vsegred => xField x.f ≤ 2 || !tyFloat a
          | _ => true)
  | .mat .mma | .mat .mmas | .mat .mmaz => matCombo a b (matPrec x) (matSparse x)
  | .mat .astore => storeType (codeOfTy d)
  | .mat .aload => loadType (codeOfTy a)
  | _ => true

/-- Resolve the types of a command from an entry: the reserved bits, the fields that it takes, then their combination. Of several offending
fields ESTAT.ISW names TA before TB before TD (log entry 108). -/
def resolveTypes (x : Cmd) (entry : Nat) : Except (BitVec 16) (Ty × Ty × Ty) := do
  let c := cmdCodes x
  if c.1 ≠ some 14 && c.2.1 ≠ some 14 && c.2.2 ≠ some 14 then
    pure (tyOfCode (c.1.getD 0), tyOfCode (c.2.1.getD 0), tyOfCode (c.2.2.getD 0))
  else
    if 4096 ≤ entry then .error (formatIsw x 0 3)
    let a ← resolveCode x entry .ta 0 c.1
    let b ← resolveCode x entry .tb 1 c.2.1
    let d ← resolveCode x entry .td 2 c.2.2
    if typesAccepted x a b d then pure (a, b, d)
    else if c.1 = some 14 then .error (formatIsw x (roleField .ta entry) 0)
    else if c.2.1 = some 14 then .error (formatIsw x (roleField .tb entry) 1)
    else .error (formatIsw x (roleField .td entry) 2)

/-- The entry that a pickup reads: as it was recorded, or afresh when the command resumes after FORMAT_TABLE (R52, R176). -/
def pickupEntry (k : Core) (r : Run) : Nat :=
  if r.resumed then (Sparse.get (coreStream k r.cmd.stream).ftable 0 r.cmd.entry).toNat else r.cmd.ftval.toNat

/-! ### Precision states (R215, R216) -/

/-- Release the partner of an accumulator that leaves A2X32, unless BMODE still claims it. -/
def releasePartner (k : Core) (a : Nat) : Core :=
  if precOf k a = .a2x32 && !armed k a then clearAcc k (partner a) else k

/-- acc_a becomes CLEAR, as ACLR and MMAZ make it. -/
def toClear (k : Core) (a : Nat) : Core := clearAcc (releasePartner k a) a

/-- Claim the partner as lo: its words become +0; its own state is CLEAR and its bound cells stay (R216, R245). -/
def claimLo (k : Core) (a : Nat) : Core :=
  let p := partner a
  { setPrec k p .clear with acc := Sparse.clearRange k.acc (32768 * p) 32768
                            poisonA := k.poisonA.filter fun w => w < 32768 * p ∨ 32768 * p + 32768 ≤ w }

/-- The MMA columns of Table 9.4; none is a conflict. -/
def productState (k : Core) (a : Nat) (p : MatPrec) : Option Core :=
  match precOf k a, p with
  | .clear, .a32 => some (setPrec k a .a32)
  | .clear, .a2x32 => some (claimLo (setPrec k a .a2x32) a)
  | .clear, .i32 => some (setPrec k a .i32)
  | .a32, .a32 => some k
  | .a32, .a2x32 => some (claimLo (setPrec k a .a2x32) a)
  | .a2x32, .a32 | .a2x32, .a2x32 => some k
  | .i32, .i32 => some k
  | _, _ => none

/-- ALOAD's columns: the state becomes A32 or I32, a partner is released, every bound cell becomes 0. -/
def loadState (k : Core) (a : Nat) (t : Ty) : Core :=
  let k := setPrec (releasePartner k a) a (if t = .i32 then .i32 else .a32)
  { k with bnd := Sparse.clearRange k.bnd (128 * a) 128, poisonB := k.poisonB.filter fun c => c / 128 ≠ a }

/-- The transition of a matrix command at its start (Table 9.4); none is a conflict. -/
def matTransition (k : Core) (a : Nat) (o : MatOp) (x : Cmd) (ty : Ty) : Option Core :=
  match o with
  | .mma | .mmas => productState k a (matPrec x)
  | .mmaz => productState (toClear k a) a (matPrec x)
  | .aclr => some (toClear k a)
  | .aload => some (loadState k a ty)
  | .astore | .abound => some k

/-- A core copy of one accumulator and its bound file into another: the checkpoint and the restore (R245). -/
def copyAcc (k : Core) (src dst : Nat) : Core :=
  let k := setAccWords k dst (accWords k src)
  let k := setBndCells k dst (Sparse.dense k.bnd 0 (128 * src) 128)
  let moved (l : List Nat) (n : Nat) : List Nat :=
    l.filter (fun w => w / n ≠ dst) ++ (l.filter fun w => w / n = src).map fun w => w - n * src + n * dst
  { k with poisonA := moved k.poisonA 32768, poisonB := moved k.poisonB 128 }

/-- REISSUE acts for a product on acc_a (R244). -/
def reissueActs (k : Core) (a : Nat) (x : Cmd) : Bool := armed k a && matPrec x = .a32 && precOf k a = .a32 && 0 < matBlocks x

/-- ILLEGAL_INSTRUCTION at pickup: 0x0001 conflict, 0x0002 claim (R216). -/
def pickupFault (isw : Nat) : FaultRec := { cause := .illegalInstruction, isw := BitVec.ofNat 16 isw }

/-- The matrix part of a pickup: the core and the run, or the fault that leaves both. -/
def matPickup (k : Core) (o : MatOp) (r : Run) : Core × Run × Option FaultRec :=
  let done : Run := { r with picked := true }
  match matNames r.cmd with
  | none => (k, done, none)
  | some a =>
    if claimed k a then (k, r, some (pickupFault 2))
    else
      match matTransition k a o r.cmd r.tyA with
      | none => (k, r, some (pickupFault 1))
      | some k =>
        if isProduct o && reissueActs k a r.cmd then (copyAcc k a (partner a), { done with phase := .first }, none) else (k, done, none)

/-- The pickup of a run whose types are resolved. -/
def pickupTyped (k : Core) (r : Run) : Core × Run × Option FaultRec :=
  match r.cmd.op with
  | .mat o => matPickup k o r
  | _ => (k, { r with picked := true }, none)

/-- The engine picks up a command: its types, once for all (R52), and, for a matrix command, its transition. -/
def pickup (k : Core) (r : Run) : Core × Run × Option FaultRec :=
  if r.typed then pickupTyped k r
  else
    match resolveTypes r.cmd (pickupEntry k r) with
    | .error isw => (k, r, some { cause := .formatTable, isw := isw })
    | .ok (a, b, d) => pickupTyped k { r with tyA := a, tyB := b, tyD := d, typed := true }

end Sys2Proof.Machine
end

