-- ==== Sys2Proof/Machine/VecAlu.lean ====
section
/-!
DEFINITION. The vector engine's operands and lanes: vector registers, masks and S-form ranges as containers and elements (R178 to
R181, R189), poison of their words (R210, R359), the operation of one element (R190 to R193, R201, R204), and the
elementwise command as a whole.
-/

namespace Sys2Proof.Machine

/-! ### A command in execution -/

/-- A vector command with its resolved types (R176): the destination's type and width, and the first source's. -/
structure VecCtx where
  core : Nat
  o    : VecOp
  x    : Cmd
  tyD  : Ty
  tyS  : Ty
  wd   : Nat
  w1   : Nat
  n    : Nat
  deriving DecidableEq, Repr

/-- The types of a command's destination and first source (R187, R201, R203, R204). -/
def vecTys (o : VecOp) (r : Run) : Ty × Ty :=
  match o with
  | .vcvt => (r.tyD, r.tyA)
  | .vqnt => (r.tyD, .f32)
  | .vdqnt => (.f32, r.tyA)
  | _ => (r.tyA, r.tyA)

def vecCtx (core : Nat) (o : VecOp) (r : Run) : VecCtx :=
  let t := vecTys o r
  { core := core, o := o, x := r.cmd, tyD := t.1, tyS := t.2, wd := tyWidth t.1, w1 := tyWidth t.2
    n := vecLength o r.cmd.vl (tyWidth t.1) (tyWidth t.2) }

/-- The X field. -/
def ctxX (v : VecCtx) : Nat := xField v.x.f

/-- The vector register that a stream names (Table 4.3). -/
def physVec (split : Bool) (stream r : Nat) : Nat := if split then 20 * stream + r else r

/-! ### Operands as containers -/

/-- A vector operand: a register, or a scratchpad range of one core with the address that named it (R189, R194). -/
inductive VOperand where
  | reg (p : Nat)
  | spm (core off : Nat) (a : Word)
  deriving DecidableEq, Repr

/-- A register operand, or the S-form range that takes its place. -/
def vecOperand (v : VecCtx) (r : BitVec 8) (a : Word) : VOperand :=
  if fnBit v.x.f 5 then .spm v.core (a.toNat % 2 ^ 22) a else .reg (physVec v.x.split v.x.stream r.toNat)
def opD (v : VecCtx) : VOperand := vecOperand v v.x.f.d v.x.regD
def opS1 (v : VecCtx) : VOperand := vecOperand v v.x.f.s1 v.x.regS1
def opS2 (v : VecCtx) : VOperand := vecOperand v v.x.f.s2 v.x.regS2
def opS3 (v : VecCtx) : VOperand := vecOperand v v.x.f.s3 v.x.regS3

/-- Group bytes into containers. -/
def contsOfBytes : List Byte → List (BitVec 32)
  | a :: b :: c :: d :: r => BitVec.ofNat 32 (Bits.ofBytes [a, b, c, d]) :: contsOfBytes r
  | [] => []
  | l => [BitVec.ofNat 32 (Bits.ofBytes l)]

/-- The first nc containers of an operand. -/
def operandConts (d : Dev) (core : Nat) (p : VOperand) (nc : Nat) : List (BitVec 32) :=
  match p with
  | .reg r => Sparse.dense (getCore d core).vreg 0 (2048 * r) nc
  | .spm c off _ => contsOfBytes (Sparse.dense (getCore d c).spm 0 off (4 * nc))

/-- Containers that n elements of w bits span. -/
def spanConts (n w : Nat) : Nat := (n * w + 31) / 32

/-- The elements of containers, seen through a view (R44, R178). -/
def contElems (w : Nat) (m : BitVec 2) (l : List (BitVec 32)) : Array Nat :=
  (l.flatMap fun c => Bits.elements w (32 / w) (viewOf c m).toNat).toArray

/-- The n elements of an operand. -/
def operandElems (d : Dev) (core : Nat) (p : VOperand) (m : BitVec 2) (w n : Nat) : Array Nat :=
  contElems w m (operandConts d core p (spanConts n w))

/-- Container c of an operand is poisoned: what EADDR receives (Table 8.9). -/
def contPoison (d : Dev) (core : Nat) (p : VOperand) (c : Nat) : Option Word :=
  match p with
  | .reg r => if (getCore d core).poisonV.contains (2048 * r + c) then some 0 else none
  | .spm k off a => if (getCore d k).poisonSpm.contains ((off + 4 * c) / 64) then some (addAddr a (BitVec.ofNat 64 (4 * c))) else none

/-! ### Activity (R181) -/

/-- The mask that ME names. -/
def ctxMask (v : VecCtx) : Nat := physMask v.x.split v.x.stream (engMsk v.x.f)

/-- Lanes 0 to n - 1 of a physical mask. -/
def maskLanes (k : Core) (m n : Nat) : Array Bool := (Sparse.dense k.mask false (16384 * m) n).toArray

/-- The elements below VCNT, or all of them. -/
def vcLimit (v : VecCtx) : Nat := if engVc v.x.f then min v.n v.x.vcnt else v.n

/-- The mask excludes lanes: VSEL's and VSEGRED's does not (R193, R198). -/
def excludes (v : VecCtx) : Bool := engMe v.x.f && v.o ≠ .vsel && v.o ≠ .vsegred

/-- Which elements are active. -/
def activeLanes (d : Dev) (v : VecCtx) : Array Bool :=
  let lanes := if excludes v then Sparse.dense (getCore d v.core).mask false (16384 * ctxMask v) v.n else List.replicate v.n true
  (lanes.take (vcLimit v) ++ List.replicate (v.n - vcLimit v) false).toArray

def isActive (act : Array Bool) (i : Nat) : Bool := act.getD i false

/-- The mask word of a lane is poisoned. -/
def maskPoison (d : Dev) (core m lane : Nat) : Bool := (getCore d core).poisonM.contains (512 * m + lane / 32)

/-- Nothing of the core's registers, masks and scratchpad is poisoned, so that no check is needed. -/
def noPoison (d : Dev) (core : Nat) : Bool :=
  (getCore d core).poisonV.isEmpty && (getCore d core).poisonM.isEmpty && (getCore d core).poisonSpm.isEmpty

/-! ### Writing a destination (R181, R44) -/

/-- One container of a destination after its elements are written: `get i` is the new value of element i, or none where it
keeps its own; elements from n on never change. -/
def destCont (w n : Nat) (m : BitVec 2) (get : Nat → Option Nat) (c : Nat) (old : BitVec 32) : BitVec 32 :=
  let e := 32 / w
  let olds := Bits.elements w e old.toNat
  let y := (List.range e).map fun j => if c * e + j < n then (get (c * e + j)).getD (olds.getD j 0) else olds.getD j 0
  let z := Bits.elements w e (mergeOf old (BitVec.ofNat 32 (Bits.ofElements w y)) m).toNat
  BitVec.ofNat 32 (Bits.ofElements w ((List.range e).map fun j => if c * e + j < n then z.getD j 0 else olds.getD j 0))

/-- Some element of container c is written. -/
def contWritten (w n : Nat) (get : Nat → Option Nat) (c : Nat) : Bool :=
  (List.range (32 / w)).any fun j => decide (c * (32 / w) + j < n) && (get (c * (32 / w) + j)).isSome

/-- The granules of a scratchpad range that are overwritten whole by containers lo to hi - 1, each of which is written. -/
def wholeGranule (off lo hi g : Nat) (written : Nat → Bool) : Bool :=
  (List.range 16).all fun j => decide (off + 4 * lo ≤ 64 * g + 4 * j ∧ 64 * g + 4 * j < off + 4 * hi) && written ((64 * g + 4 * j - off) / 4)

/-- Store containers lo, lo + 1, … of a destination of n elements of w bits, of which `written` are written. A write of any element of a
poisoned register container ends its poison (R210, log entry 112). -/
def storeConts (d : Dev) (core : Nat) (p : VOperand) (lo hi total : Nat) (written : Nat → Bool) (l : List (BitVec 32)) : Dev :=
  match p with
  | .reg r =>
    modCore d core fun k =>
      { k with vreg := Sparse.setRange k.vreg 0 (2048 * r + lo) l
               poisonV := k.poisonV.filter fun q => !(decide (2048 * r + lo ≤ q ∧ q < 2048 * r + hi) && written (q - 2048 * r)) }
  | .spm c off _ =>
    let bytes := (l.flatMap fun x => Bits.toBytes 4 x.toNat).take (total - 4 * lo)
    if bytes.isEmpty then d
    else
      modCore d c fun k =>
        { k with spm := Sparse.setRange k.spm 0 (off + 4 * lo) bytes
                 poisonSpm := k.poisonSpm.filter fun g => !wholeGranule off lo hi g written }

/-- Write the elements of containers lo to hi - 1 of a destination. -/
def writeDest (d : Dev) (core : Nat) (p : VOperand) (m : BitVec 2) (w n lo hi : Nat) (get : Nat → Option Nat) : Dev :=
  if hi ≤ lo then d
  else
    let old := (operandConts d core p hi).drop lo
    let l := (old.zip (List.range old.length)).map fun q => destCont w n m get (lo + q.2) q.1
    let written (c : Nat) : Bool := contWritten w n get c
    storeConts d core p lo hi (elemBytes n w) written l

/-- What an element of a destination becomes: the result when active, zero when inactive under MZ, else kept (R181). -/
def laneResult (v : VecCtx) (act : Array Bool) (f : Nat → Nat) (i : Nat) : Option Nat :=
  if isActive act i then some (f i) else if engMz v.x.f then some 0 else none

/-- Write lanes 0 to n - 1 of a mask. -/
def writeMask (d : Dev) (core m n : Nat) (get : Nat → Option Bool) : Dev :=
  modCore d core fun k =>
    let old := maskLanes k m n
    { k with mask := Sparse.setRange k.mask false (16384 * m) ((List.range n).map fun i => (get i).getD (old.getD i false))
             poisonM := k.poisonM.filter fun q =>
               !(decide (q / 512 = m) && (List.range 32).any fun j => decide (32 * (q % 512) + j < n) && (get (32 * (q % 512) + j)).isSome) }

/-! ### The operation of one element -/

/-- The integer operation of a command (Table 8.6). -/
def vecIntOp (o : VecOp) (sat : Bool) (sgn : Bool) : AluOp :=
  match o with
  | .viadd => if sat then .sadd else .add
  | .visub => if sat then .ssub else .sub
  | .vand => .and
  | .vor => .or
  | .vxor => .xor
  | .vshl => .shl
  | .vshr => if sgn then .sha else .shr
  | _ => .mul

/-- VIMUL: low part, high part, or the product clamped to the type's range. -/
def vecMul (t : Ty) (xf a b : Nat) : Nat :=
  let w := tyWidth t
  if Bits.bit xf 1 then alu .mulh a b w (tySigned t)
  else if Bits.bit xf 0 then
    Bits.wrap w (max (intMin t) (min (intMax t) (signedIf (tySigned t) w a * signedIf (tySigned t) w b)))
  else alu .mul a b w (tySigned t)

/-- x × 2^k; k outside ±1024 leaves every format's range alike. -/
def scaleExact (x : FVal) (k : Int) : Exact :=
  match x with
  | .fin n m => { val := .fin n (m * pow2 (max (-1024) (min 1024 k))) }
  | v => { val := v }

/-- The floating-point elementwise operations (R173, R174, R190) on elements x, y and the old d. -/
def vecFloatOp (o : VecOp) (t : Ty) (mode : RMode) (x y d : Nat) : Exact :=
  let a := elemValue t x
  let b := elemValue t y
  match o with
  | .vadd => addExact mode a b
  | .vsub => addExact mode a (negVal b)
  | .vmul => mulExact a b
  | .vfma => fmaExact mode a b (elemValue t d)
  | .vmax => maxVal a b
  | .vmin => minVal a b
  | .vdiv => divExact a b
  | .vsqrt => sqrtExact a
  | .vexp2 => exp2Exact a
  | .vlog2 => log2Exact a
  | .vrcp => rcpExact a
  | .vrsq => rsqExact a
  | .vabs => { val := absVal a }
  | .vneg => { val := negVal a }
  | _ => scaleExact a (Bits.signed (tyWidth t) y)

/-- Commands of R190. -/
def vecIsFloat (o : VecOp) : Bool :=
  match o with
  | .vadd | .vsub | .vmul | .vfma | .vmax | .vmin | .vdiv | .vsqrt | .vexp2 | .vlog2 | .vrcp | .vrsq | .vabs | .vneg | .vscale => true
  | _ => false

/-- The mode of a command: VCVT's and AREAD's rounding field overrides FRM (R187, R201, R205). -/
def vecMode (v : VecCtx) : RMode :=
  match v.o with
  | .vcvt => rmodeOfField (Bits.field (ctxX v) 6 4) v.x.frm
  | .aread => rmodeOfField (Bits.field (ctxX v) 2 0) v.x.frm
  | _ => v.x.frm

/-- An elementwise command on one element; `sel` is VSEL's mask lane, `y` for VDQNT the scale. -/
def vecElem (v : VecCtx) (x y d : Nat) (sel : Bool) : Rounded :=
  let w := v.wd
  let sgn := tySigned v.tyD
  if vecIsFloat v.o then finish v.tyD (vecMode v) (vecFloatOp v.o v.tyD (vecMode v) x y d)
  else
    match v.o with
    | .vcvt => convert v.tyD (vecMode v) (elemValue v.tyS x)
    | .vdqnt => finish .f32 (vecMode v) (mulExact (elemValue v.tyS x) (elemValue .bf16 y))
    | .vimul => { bits := vecMul v.tyD (ctxX v) x y }
    | .vpopc => { bits := Bits.popcount w x }
    | .vsel => { bits := if sel then x else y }
    | .vshl | .vshr => { bits := alu (vecIntOp v.o false sgn) x (if Bits.bit (ctxX v) 7 then Bits.field (ctxX v) 5 0 else y) w sgn }
    | .viadd | .visub | .vand | .vor | .vxor => { bits := alu (vecIntOp v.o (Bits.bit (ctxX v) 0) sgn) x y w sgn }
    | _ => { bits := x }

/-! ### An elementwise command -/

/-- A source operand of elements: its view, its width, and the element of it that element i of the command reads. -/
structure VSource where
  p   : VOperand
  m   : BitVec 2 := 0
  w   : Nat
  per : Nat := 1

/-- The container of a source that element i reads. -/
def sourceCont (s : VSource) (i : Nat) : Nat := i / s.per * s.w / 32

/-- What the computation of container c of the destination reads that is poisoned: mask words, then for each active element its
sources in order, both of VSEL's among them (log entry 138). -/
def readPoison (d : Dev) (v : VecCtx) (act : Array Bool) (srcs : List VSource) (c : Nat) : Option Word :=
  if noPoison d v.core && (srcs.all fun s => match s.p with | .spm k _ _ => (getCore d k).poisonSpm.isEmpty | .reg _ => true) then none
  else
    let e := 32 / v.wd
    let lanes := (List.range e).filterMap fun j => if c * e + j < v.n then some (c * e + j) else none
    if engMe v.x.f && lanes.any (maskPoison d v.core (ctxMask v)) then some 0
    else (lanes.filter (isActive act)).findSome? fun i => srcs.findSome? fun s => contPoison d v.core s.p (sourceCont s i)

/-- The first container from `lo` on that cannot be computed, with its EADDR. -/
def firstPoison (d : Dev) (v : VecCtx) (act : Array Bool) (srcs : List VSource) (lo hi : Nat) : Option (Nat × Word) :=
  ((List.range (hi - lo)).map (· + lo)).findSome? fun c => (readPoison d v act srcs c).map fun a => (c, a)

/-- Execute the elements of containers from `lo` on, until one reads a poisoned word (R210). -/
def elementwise (d : Dev) (v : VecCtx) (lo : Nat) (srcs : List VSource) (dst : VOperand) (mod : BitVec 2) (zeroing : Bool)
    (f : List (Array Nat) → Nat → Rounded) : EngOut :=
  let act := activeLanes d v
  let hi := spanConts v.n v.wd
  let stop := firstPoison d v act srcs lo hi
  let last := (stop.map (·.1)).getD hi
  let data := srcs.map fun s => operandElems d v.core s.p s.m s.w ((v.n + s.per - 1) / s.per)
  let e := 32 / v.wd
  let first := lo * e
  let res := ((List.range (min v.n (last * e) - first)).map fun j =>
    if isActive act (first + j) then f data (first + j) else { bits := 0 }).toArray
  let get (i : Nat) : Option Nat :=
    if isActive act i then some (res.getD (i - first) { bits := 0 }).bits else if zeroing && engMz v.x.f then some 0 else none
  { dev := writeDest d v.core dst mod v.wd v.n lo last get
    flags := Flags.gather (res.toList.map (·.flags))
    fault := stop.map fun p => { cause := .poison, step := p.1, eaddr := p.2 } }

end Sys2Proof.Machine
end

