-- ==== Sys2Proof/Machine/VectorMem.lean ====
section
/-!
DEFINITION. Vector loads and stores (R194 to R196, R209, R210): containers and elements of any space, step by step.
-/

namespace Sys2Proof.Machine

/-! ### One access -/

/-- Read n bytes at a place; `a` is the address that EADDR would receive. -/
def memRead (d : Dev) (core : Nat) (p : Place) (a : Word) (n step : Nat) : Except FaultRec (List Byte × Dev) :=
  match p with
  | .spm c off _ =>
    if spmPoisoned (getCore d c) off n then .error { cause := .poison, step := step, eaddr := a }
    else .ok (Sparse.dense (getCore d c).spm 0 off n, d)
  | .global va =>
    match globalRead d core va n with
    | .error c => .error { cause := c, step := step, eaddr := a }
    | .ok r => .ok r

/-- Write bytes at a place. -/
def memWrite (d : Dev) (core : Nat) (p : Place) (a : Word) (bytes : List Byte) (step : Nat) : EngOut :=
  match p with
  | .spm c off _ => { dev := spmWrite d c off bytes }
  | .global va =>
    match globalWrite d core va bytes with
    | .error c => { dev := d, fault := some { cause := c, step := step, eaddr := a } }
    | .ok r => { dev := r.1, sig := r.2 }

/-- A place moved by an offset. -/
def movePlace (p : Place) (x : Int) : Place :=
  match p with
  | .global va => .global (((va : Int) + x) % ((2 ^ 60 : Nat) : Int)).toNat
  | .spm c off own => .spm c ((off : Int) + x).toNat own

/-- Collect what steps lo, lo + 1, … give, until one faults. -/
def gatherSteps {α : Type} (g : Dev → Nat → Except FaultRec (α × Dev)) : Nat → Dev → Nat → List α × Dev × Option FaultRec
  | 0, d, _ => ([], d, none)
  | n + 1, d, i =>
    match g d i with
    | .error f => ([], d, some f)
    | .ok (a, d) =>
      let r := gatherSteps g n d (i + 1)
      (a :: r.1, r.2)

/-- The failing address of a container: its first active element's byte. -/
def contAddr (a : Word) (w i : Nat) : Word := addAddr a (BitVec.ofNat 64 (i * w / 8))

/-- The active elements of container c. -/
def contActive (act : Array Bool) (w n c : Nat) : List Nat :=
  ((List.range (32 / w)).map fun j => c * (32 / w) + j).filter fun i => decide (i < n) && isActive act i

/-- A mask word that container c reads is poisoned. -/
def contMaskPoison (d : Dev) (v : VecCtx) (w c : Nat) : Bool :=
  engMe v.x.f && (List.range (32 / w)).any fun j =>
    decide (c * (32 / w) + j < v.n) && maskPoison d v.core (ctxMask v) (c * (32 / w) + j)

/-! ### VLD and VMLD -/

/-- Container c of a contiguous load of n elements of w bits. -/
def loadCont (v : VecCtx) (act : Array Bool) (p : Place) (a : Word) (w : Nat) (d : Dev) (c : Nat) : Except FaultRec (Nat × Dev) :=
  if contMaskPoison d v w c then .error { cause := .poison, step := c }
  else
    match contActive act w v.n c with
    | [] => .ok (0, d)
    | i :: _ =>
      match memRead d v.core (movePlace p (4 * c : Nat)) (contAddr a w i) (min 4 (elemBytes v.n w - 4 * c)) c with
      | .error f => .error f
      | .ok (l, d) => .ok (Bits.ofBytes l, d)

/-- The containers of a contiguous load from `lo` on. -/
def loadConts (d : Dev) (v : VecCtx) (act : Array Bool) (p : Place) (a : Word) (w lo : Nat) : List Nat × Dev × Option FaultRec :=
  gatherSteps (loadCont v act p a w) (spanConts v.n w - lo) d lo

/-- No place for an address that the enqueue accepted: the gang or the slot has changed since. -/
def lostPlace (d : Dev) (a : Word) (step : Nat) : EngOut := { dev := d, fault := some { cause := .address, step := step, eaddr := a } }

/-- VLD (R194). -/
def runVld (d : Dev) (v : VecCtx) (lo : Nat) : EngOut :=
  match cmdPlace d v.core v.x v.x.regS1 with
  | none => lostPlace d v.x.regS1 lo
  | some p =>
    let act := activeLanes d v
    let r := loadConts d v act p v.x.regS1 v.wd lo
    let e := 32 / v.wd
    let data := r.1.toArray
    { dev := writeDest r.2.1 v.core (opD v) 0 v.wd v.n lo (lo + r.1.length)
        (laneResult v act fun i => data.getD (i / e - lo) 0 / 2 ^ (v.wd * (i % e)) % 2 ^ v.wd)
      fault := r.2.2 }

/-- VMLD (R196): lane i takes bit i of the loaded bits. -/
def runVmld (d : Dev) (v : VecCtx) (lo : Nat) : EngOut :=
  match cmdPlace d v.core v.x v.x.regS1 with
  | none => lostPlace d v.x.regS1 lo
  | some p =>
    let act := activeLanes d v
    let r := loadConts d v act p v.x.regS1 1 lo
    let data := r.1.toArray
    let got (i : Nat) : Option Bool :=
      if 32 * lo ≤ i && i < 32 * (lo + r.1.length) then
        if isActive act i then some (Bits.bit (data.getD (i / 32 - lo) 0) (i % 32)) else if engMz v.x.f then some false else none
      else none
    { dev := writeMask r.2.1 v.core (physMask v.x.split v.x.stream v.x.f.d.toNat) v.n got, fault := r.2.2 }

/-! ### VST -/

/-- The bits of container c that a store writes. -/
def storeMaskOf (act : Array Bool) (w n c : Nat) : Nat := (contActive act w n c).foldl (fun m i => m + (2 ^ w - 1) * 2 ^ (w * (i % (32 / w)))) 0

/-- The bytes of a global container that a store changes, each joined with the bits it keeps. -/
def storeCells (d : Dev) (pa : Nat) (value bits : BitVec 32) : List Host.Cell :=
  (List.range 4).filterMap fun j =>
    let m := (bits.toNat / 256 ^ j) % 256
    if m = 0 then none
    else
      let old := (memByte d (pa + j)).toNat
      some (pa + j, BitVec.ofNat 8 ((old &&& (255 - m)) ||| (value.toNat / 256 ^ j % 256 &&& m)))

/-- Container c of a global VST. -/
def storeGlobalCont (v : VecCtx) (act : Array Bool) (va : Nat) (src : Array (BitVec 32)) (d : Dev) (c : Nat) : EngOut :=
  if contMaskPoison d v v.wd c then { dev := d, fault := some { cause := .poison, step := c } }
  else
    match contActive act v.wd v.n c with
    | [] => { dev := d }
    | i :: _ =>
      match contPoison d v.core (opS1 v) c with
      | some a => { dev := d, fault := some { cause := .poison, step := c, eaddr := a } }
      | none =>
        match translateFor d v.core ((va + 4 * c) % 2 ^ 60) .write with
        | .error e => { dev := d, fault := some { cause := e, step := c, eaddr := contAddr v.x.regD v.wd i } }
        | .ok e =>
          let pa := physical e ((va + 4 * c) % 2 ^ 60)
          let cells := storeCells d pa (src.getD c 0) (BitVec.ofNat 32 (storeMaskOf act v.wd v.n c))
          { dev := (runsOf cells).foldl (fun d r => engineStore d v.core r.1 r.2) (fillTlb d v.core e), sig := sigOf (pa / 64) }

/-- VST (R194): scratchpad as a destination that MZ does not touch, global memory container by container. -/
def runVst (d : Dev) (v : VecCtx) (lo : Nat) : EngOut :=
  match cmdPlace d v.core v.x v.x.regD with
  | none => lostPlace d v.x.regD lo
  | some (.spm c off _) =>
    elementwise d v lo [{ p := opS1 v, w := v.wd }] (.spm c off v.x.regD) 0 false fun data i =>
      { bits := (data.headD #[]).getD i 0 }
  | some (.global va) =>
    let src := (operandConts d v.core (opS1 v) (spanConts v.n v.wd)).toArray
    runSteps d (storeGlobalCont v (activeLanes d v) va src) ((List.range (spanConts v.n v.wd - lo)).map (· + lo))

/-! ### VLDS, VGATH, VSCAT -/

/-- The place of an element at offset x from a base, with the checks made at execution (R18, R195, log entry 115). -/
def elementPlace (d : Dev) (p : Place) (a : Word) (x : Int) (n step : Nat) (checked : Bool) : Except FaultRec Place :=
  let bad (c : Cause) : Except FaultRec Place := .error { cause := c, step := step, eaddr := addAddr a (BitVec.ofInt 64 x) }
  let q := movePlace p x
  match q with
  | .global va => if checked && va % n ≠ 0 then bad .align else .ok q
  | .spm c off own =>
    if !checked then .ok q
    else if !inSpm off n then bad .address
    else if off % n ≠ 0 then bad .align
    else if !own && touchesQueue (getCore d c) off n then bad .queueCfg
    else if !own && foreignRegion d c off n then bad .permission
    else .ok q

/-- Element i of a strided or gathered load; none for an inactive element. -/
def loadElem (v : VecCtx) (act : Array Bool) (p : Place) (offs : Nat → Int) (index : Option VOperand) (d : Dev) (i : Nat) :
    Except FaultRec (Option Nat × Dev) :=
  let n := v.wd / 8
  if engMe v.x.f && maskPoison d v.core (ctxMask v) i then .error { cause := .poison, step := i }
  else if !isActive act i then .ok (none, d)
  else
    match index.bind fun q => contPoison d v.core q i with
    | some a => .error { cause := .poison, step := i, eaddr := a }
    | none =>
      match elementPlace d p v.x.regS1 (offs i) n i index.isSome with
      | .error f => .error f
      | .ok q =>
        match memRead d v.core q (addAddr v.x.regS1 (BitVec.ofInt 64 (offs i))) n i with
        | .error f => .error f
        | .ok (l, d) => .ok (some (Bits.ofBytes l), d)

/-- Load elements from `lo` on and write them to D. -/
def runElemLoad (d : Dev) (v : VecCtx) (lo : Nat) (offs : Nat → Int) (index : Option VOperand) : EngOut :=
  match cmdPlace d v.core v.x v.x.regS1 with
  | none => lostPlace d v.x.regS1 lo
  | some p =>
    let act := activeLanes d v
    let r := gatherSteps (loadElem v act p offs index) (v.n - lo) d lo
    let data := r.1.toArray
    let hi := lo + r.1.length
    let got (i : Nat) : Option Nat :=
      if lo ≤ i && i < hi then (if engMz v.x.f then some ((data.getD (i - lo) none).getD 0) else data.getD (i - lo) none) else none
    { dev := writeDest r.2.1 v.core (opD v) 0 v.wd v.n (lo * v.wd / 32) (spanConts hi v.wd) got, fault := r.2.2 }

/-- VLDS: the stride is a signed byte count (R194). -/
def runVlds (d : Dev) (v : VecCtx) (lo : Nat) : EngOut := runElemLoad d v lo (fun i => (i : Int) * v.x.regS2.toInt) none

/-- The index containers of VGATH and VSCAT. -/
def indexConts (d : Dev) (v : VecCtx) : Array (BitVec 32) := (operandConts d v.core (opS2 v) v.n).toArray

/-- VGATH (R195). -/
def runVgath (d : Dev) (v : VecCtx) (lo : Nat) : EngOut :=
  let u := indexConts d v
  runElemLoad d v lo (fun i => ((u.getD i 0).toNat : Int)) (some (opS2 v))

/-- Element i of a scatter. -/
def scatterElem (v : VecCtx) (act : Array Bool) (p : Place) (u : Array (BitVec 32)) (src : Array Nat) (d : Dev) (i : Nat) : EngOut :=
  let n := v.wd / 8
  let fail (c : Cause) (a : Word) : EngOut := { dev := d, fault := some { cause := c, step := i, eaddr := a } }
  if engMe v.x.f && maskPoison d v.core (ctxMask v) i then fail .poison 0
  else if !isActive act i then { dev := d }
  else if (contPoison d v.core (opS1 v) (i * v.wd / 32)).isSome || (contPoison d v.core (opS2 v) i).isSome then fail .poison 0
  else
    let x : Int := ((u.getD i 0).toNat : Int)
    match elementPlace d p v.x.regD x n i true with
    | .error f => { dev := d, fault := some f }
    | .ok q => memWrite d v.core q (addAddr v.x.regD (BitVec.ofInt 64 x)) (Bits.toBytes n (src.getD i 0)) i

/-- VSCAT (R195). -/
def runVscat (d : Dev) (v : VecCtx) (lo : Nat) : EngOut :=
  match cmdPlace d v.core v.x v.x.regD with
  | none => lostPlace d v.x.regD lo
  | some p =>
    let src := operandElems d v.core (opS1 v) 0 v.wd v.n
    runSteps d (scatterElem v (activeLanes d v) p (indexConts d v) src) ((List.range (v.n - lo)).map (· + lo))

end Sys2Proof.Machine
end

