-- ==== Sys2Proof/Machine/VectorEngine.lean ====
section
/-!
DEFINITION. The vector engine: what each command of Table 8.3 does when it executes (R190 to R208), from the step at which it starts or
resumes (R210).
-/

namespace Sys2Proof.Machine

/-! ### Bound vectors (R202) -/

/-- Half the spacing of a type at the largest result of a group. -/
def boundHalf (t : Ty) (l : List FVal) : Bound :=
  if tyInt t then .fin (mkRat 1 2)
  else if t = .pt8 then .fin (mkRat 1 4)
  else if l.any fun x => match x with | .inf _ => true | _ => false then .inf
  else
    let mags := l.filterMap fun x => match x with | .fin _ m => if m = 0 then none else some (ilog2 m) | _ => none
    .fin (pow2 (mags.foldl max (minExp t) - ((fmtOf t).man : Int) - 1))

/-- The update of one group's bound, from its active elements' sources and results, with h(g) scaled. -/
def boundStep (t : Ty) (scale : ℚ) (b : BitVec 16) (items : List (FVal × Rounded)) : BitVec 16 :=
  if items.any fun p => p.2.flags.of || (tyInt t && p.2.flags.nv && !fvalIsNan p.1) then 0xFF00
  else if items.any fun p => p.2.flags.nx then
    ub16Up (boundAdd (ub16Value b) (boundMul (boundHalf t (items.map fun p => elemValue t p.2.bits)) (.fin scale)))
  else b

/-- Write new values of the bound elements of a command. -/
def writeBounds (d : Dev) (v : VecCtx) (p : VOperand) (get : Nat → Option Nat) : Dev :=
  let g := (v.n + 15) / 16
  writeDest d v.core p 0 16 g 0 (spanConts g 16) get

/-- The elements of group g below n that are active. -/
def groupActive (v : VecCtx) (act : Array Bool) (g : Nat) : List Nat :=
  ((List.range 16).map (16 * g + ·)).filter fun i => decide (i < v.n) && isActive act i

/-- The groups whose last element lies in the elements lo to hi - 1. -/
def groupEnds (v : VecCtx) (lo hi g : Nat) : Bool :=
  let last := min (16 * g + 15) (v.n - 1)
  lo ≤ last && last < hi

/-! ### Elementwise commands -/

/-- The sources of an elementwise command in operand order. -/
def elemSources (v : VecCtx) : List VSource :=
  let f := v.x.f
  let s1 : VSource := { p := opS1 v, m := f.modS1, w := v.w1 }
  let s2 : VSource := { p := opS2 v, m := f.modS2, w := v.wd }
  match v.o with
  | .vfma => [s1, s2, { p := opD v, w := v.wd }]
  | .vcvt => if engBv f then [s1, { p := opS2 v, w := 16, per := 16 }] else [s1]
  | .vdqnt => [s1, { p := opS2 v, w := 16, per := 32 }]
  | .vshl | .vshr => if Bits.bit (ctxX v) 7 then [s1] else [s1, s2]
  | _ => if (vecRow v.o).s2.isSome then [s1, s2] else [s1]

/-- One element from the sources' elements. -/
def elemOf (v : VecCtx) (sel : Array Bool) (data : List (Array Nat)) (i : Nat) : Rounded :=
  let at_ (k j : Nat) : Nat := (data.getD k #[]).getD j 0
  vecElem v (at_ 0 i) (at_ 1 (if v.o = .vdqnt then i / 32 else i)) (at_ 2 i) (sel.getD i false)

def runElementwise (d : Dev) (v : VecCtx) (lo : Nat) : EngOut :=
  let sel := maskLanes (getCore d v.core) (ctxMask v) (if v.o = .vsel then v.n else 0)
  elementwise d v lo (elemSources v) (opD v) v.x.f.modD true (elemOf v sel)

/-- The source of VCVT by element; of a group that a fault has divided, the elements before it as they were read then (R202). -/
def vcvtSource (d : Dev) (v : VecCtx) (lo : Nat) : Nat → Nat :=
  let x := operandElems d v.core (opS1 v) v.x.f.modS1 v.w1 v.n
  let kept := ((findRun (getCore d v.core) v.x.age).map (·.kept)).getD []
  let base := 16 * (lo / 16)
  fun i => if base ≤ i && i < lo then kept.getD (i - base) (x.getD i 0) else x.getD i 0

/-- VCVT, with the groups of its bound vector (R201, R202). A group that a fault divides is updated when its last element is. -/
def runVcvt (d : Dev) (v : VecCtx) (lo : Nat) : EngOut :=
  let r := runElementwise d v lo
  if !engBv v.x.f then r
  else
    let act := activeLanes d v
    let e := 32 / v.wd
    let hi := match r.fault with | some f => f.step * e | none => v.n
    let x := vcvtSource d v (lo * e)
    let b := operandElems d v.core (opS2 v) 0 16 ((v.n + 15) / 16)
    let item (i : Nat) : FVal × Rounded := (elemValue v.tyS (x i), vecElem v (x i) 0 0 false)
    let kept := (List.range (hi % 16)).map fun j => x (16 * (hi / 16) + j)
    let get (g : Nat) : Option Nat :=
      if groupEnds v (lo * e) hi g && !(groupActive v act g).isEmpty then
        some (boundStep v.tyD 1 (BitVec.ofNat 16 (b.getD g 0)) ((groupActive v act g).map item)).toNat
      else none
    { r with dev := modCore (writeBounds r.dev v (opS2 v) get) v.core fun k => modRun k v.x.age fun u => { u with kept := kept } }

/-! ### VQNT (R203) -/

/-- QMAX of a quantised type. -/
def qmax (t : Ty) : ℚ :=
  match t with
  | .e4m3 => 448
  | .pt8 => 2
  | .i8 => 127
  | _ => 7

/-- The scale and the results of one block of active elements. -/
structure QBlock where
  scale : Rounded
  items : List (Nat × FVal × Rounded)
  bad   : Bool := false

/-- Quantise a block: (index, f32 pattern) of its active elements (R203); a block of none has a = 0 (log entry 130). -/
def quantise (t : Ty) (mode : RMode) (l : List (Nat × Nat)) : QBlock :=
  let xs := l.map fun p => (p.1, elemValue .f32 p.2)
  if xs.any fun p => !fvalFinite p.2 then
    { scale := { bits := 0x7FC0, flags := { nv := true } }, bad := true
      items := xs.map fun p => (p.1, p.2, { bits := match t with | .e4m3 => 0x7F | .pt8 => 0x77 | _ => 0 }) }
  else
    let a := xs.foldl (fun m p => max m (fvalRat (absVal p.2))) 0
    let s : Rounded := if a = 0 then { bits := 0x3F80 } else roundFloat .bf16 .rup (.fin false (a / qmax t))
    let sv := fvalRat (elemValue .bf16 s.bits)
    let q (x : FVal) : FVal :=
      match x with
      | .fin neg m => .fin neg (m / sv)
      | y => y
    { scale := s, items := xs.map fun p => (p.1, p.2, convert t mode (q p.2)) }

/-- The active elements of block j. -/
def blockActive (v : VecCtx) (act : Array Bool) (j : Nat) : List Nat :=
  ((List.range 32).map (32 * j + ·)).filter fun i => decide (i < v.n) && isActive act i

/-- A word that block j reads is poisoned: EADDR. -/
def blockPoison (d : Dev) (v : VecCtx) (act : Array Bool) (j : Nat) : Option Word :=
  (blockActive v act j).findSome? fun i =>
    match contPoison d v.core (opS1 v) i with
    | some a => some a
    | none => if engBv v.x.f then contPoison d v.core (opS3 v) (i / 16 / 2) else none

/-- Update the bounds of the groups of the quantised blocks. -/
def quantBounds (d : Dev) (v : VecCtx) (j0 : Nat) (blocks : Array QBlock) (b : Array Nat) : Dev :=
  writeBounds d v (opS3 v) fun g =>
    let j := g / 2
    if j < j0 then none
    else
      match blocks[j - j0]? with
      | none => none
      | some q =>
        if q.bad then some 0xFF00
        else
          match q.items.filter fun p => p.1 / 16 = g with
          | [] => none
          | l => some (boundStep v.tyD (fvalRat (elemValue .bf16 q.scale.bits)) (BitVec.ofNat 16 (b.getD g 0)) (l.map (·.2))).toNat

def runVqnt (d : Dev) (v : VecCtx) (lo : Nat) : EngOut :=
  let act := activeLanes d v
  let nb := (v.n + 31) / 32
  let j0 := lo / v.wd
  let stop := ((List.range (nb - j0)).map (· + j0)).findSome? fun j => (blockPoison d v act j).map fun a => (j, a)
  let j1 := (stop.map (·.1)).getD nb
  let x := operandElems d v.core (opS1 v) 0 32 v.n
  let blocks := ((List.range (j1 - j0)).map fun j =>
    quantise v.tyD v.x.frm ((blockActive v act (j0 + j)).map fun i => (i, x.getD i 0))).toArray
  let items := (blocks.toList.flatMap fun q => q.items.map fun p => (p.1, p.2.2.bits))
  let res := (items.foldl (fun (m : Array Nat) p => m.setIfInBounds (p.1 - 32 * j0) p.2) (Array.replicate (32 * (j1 - j0)) 0))
  let got (i : Nat) : Option Nat := laneResult v act (fun i => res.getD (i - 32 * j0) 0) i
  let b := operandElems d v.core (opS3 v) 0 16 (if engBv v.x.f then (v.n + 15) / 16 else 0)
  let out := writeDest d v.core (opD v) 0 v.wd v.n (j0 * v.wd) (min (j1 * v.wd) (spanConts v.n v.wd)) got
  let out := writeDest out v.core (opS2 v) 0 16 nb (j0 / 2) ((j1 + 1) / 2) fun j =>
    if j0 ≤ j && j < j1 then (blocks[j - j0]?).map fun q => q.scale.bits else none
  { dev := if engBv v.x.f then quantBounds out v j0 blocks b else out
    flags := Flags.gather (blocks.toList.flatMap fun q => q.scale.flags :: q.items.map fun p => p.2.2.flags)
    fault := stop.map fun p => { cause := .poison, step := p.1 * v.wd, eaddr := p.2 } }

/-! ### Commands that check poison before they write (R210) -/

/-- POISON with STEP = 0, unless every word read is sound. -/
def guarded (d : Dev) (sound : Bool) (body : EngOut) : EngOut :=
  if sound then body else { dev := d, fault := some { cause := .poison } }

/-- The elements of a register that a command reads lie in sound containers. -/
def regSound (d : Dev) (v : VecCtx) (p : VOperand) (w : Nat) (l : List Nat) : Bool :=
  (getCore d v.core).poisonV.isEmpty || l.all fun i => (contPoison d v.core p (i * w / 32)).isNone

/-- Lanes 0 to n - 1 of a mask lie in sound words. -/
def maskSound (d : Dev) (core m n : Nat) : Bool :=
  (getCore d core).poisonM.isEmpty || (List.range n).all fun i => !maskPoison d core m i

/-- The mask of a masked command is sound. -/
def meSound (d : Dev) (v : VecCtx) : Bool := !engMe v.x.f || maskSound d v.core (ctxMask v) v.n

/-- The active elements. -/
def activeList (v : VecCtx) (act : Array Bool) : List Nat := (List.range v.n).filter (isActive act)

/-- Write D's elements by activity. -/
def writeLanes (d : Dev) (v : VecCtx) (act : Array Bool) (f : Nat → Nat) : Dev :=
  writeDest d v.core (opD v) 0 v.wd v.n 0 (spanConts v.n v.wd) (laneResult v act f)

/-- The conditions of Table 8.5 for VCMP, with NV. -/
def fcmp (c : Nat) (x y : FVal) : Bool × Bool :=
  let nan := fvalIsNan x || fvalIsNan y
  let snan := fvalIsSNan x || fvalIsSNan y
  let lt : Bool :=
    match x, y with
    | .inf true, .inf true => false
    | .inf true, _ => true
    | _, .inf true => false
    | .inf false, _ => false
    | _, .inf false => true
    | a, b => decide (fvalRat a < fvalRat b)
  let eq : Bool :=
    match x, y with
    | .inf a, .inf b => a = b
    | .fin a p, .fin b q => decide (fvalRat (.fin a p) = fvalRat (.fin b q))
    | _, _ => false
  match c with
  | 0 => (!nan && eq, snan)
  | 1 => (nan || !eq, snan)
  | 2 => (!nan && lt, nan)
  | 3 => (!nan && (lt || eq), nan)
  | 4 => (!nan && !(lt || eq), nan)
  | 5 => (!nan && !lt, nan)
  | 6 => (nan, snan)
  | _ => (!nan, snan)

/-- The conditions of Table 8.5 for VICMP. -/
def icmp (c : Nat) (t : Ty) (x y : Nat) : Bool :=
  let a := signedIf (tySigned t) (tyWidth t) x
  let b := signedIf (tySigned t) (tyWidth t) y
  match c with
  | 0 => x = y
  | 1 => x ≠ y
  | 2 => a < b
  | 3 => a ≤ b
  | 4 => b < a
  | 5 => b ≤ a
  | 6 => x &&& y ≠ 0
  | _ => x &&& y = 0

/-- VCMP and VICMP (R191). -/
def runCompare (d : Dev) (v : VecCtx) : EngOut :=
  let act := activeLanes d v
  let l := activeList v act
  let x := operandElems d v.core (opS1 v) v.x.f.modS1 v.wd v.n
  let y := operandElems d v.core (opS2 v) v.x.f.modS2 v.wd v.n
  let one (i : Nat) : Bool × Bool :=
    if v.o = .vcmp then fcmp (ctxX v % 8) (elemValue v.tyD (x.getD i 0)) (elemValue v.tyD (y.getD i 0))
    else (icmp (ctxX v % 8) v.tyD (x.getD i 0) (y.getD i 0), false)
  let res := ((List.range v.n).map fun i => if isActive act i then one i else (false, false)).toArray
  guarded d (meSound d v && regSound d v (opS1 v) v.wd l && regSound d v (opS2 v) v.wd l)
    { dev := writeMask d v.core (physMask v.x.split v.x.stream v.x.f.d.toNat) v.n fun i =>
        if isActive act i then some (res.getD i (false, false)).1 else if engMz v.x.f then some false else none
      flags := { nv := res.any fun p => p.2 } }

/-- VPERM (R193). -/
def runVperm (d : Dev) (v : VecCtx) : EngOut :=
  let act := activeLanes d v
  let l := activeList v act
  let x := operandElems d v.core (opS1 v) 0 v.wd v.n
  let y := operandElems d v.core (opS2 v) 0 v.wd v.n
  let picked := (l.map fun i => y.getD i 0).filter (· < v.n)
  guarded d (meSound d v && regSound d v (opS2 v) v.wd l && regSound d v (opS1 v) v.wd picked)
    { dev := writeLanes d v act fun i => if y.getD i 0 < v.n then x.getD (y.getD i 0) 0 else 0 }

/-- VBCAST and VIOTA (R193). -/
def runFill (d : Dev) (v : VecCtx) : EngOut :=
  let s := v.x.regS1.toNat % 2 ^ v.wd
  guarded d (meSound d v)
    { dev := writeLanes d v (activeLanes d v) fun i => if v.o = .viota then (s + i) % 2 ^ v.wd else s }

/-- The prefix sums of VSCAN from element i on: the running sum, and what each element receives. -/
def scanFrom (t : Ty) (sat excl : Bool) : Nat → List (Bool × Nat) → List Nat
  | _, [] => []
  | run, (a, x) :: r =>
    let next := if a then alu (if sat then .sadd else .add) run x (tyWidth t) (tySigned t) else run
    (if excl then run else next) :: scanFrom t sat excl next r

/-- VSCAN (R193). -/
def runVscan (d : Dev) (v : VecCtx) : EngOut :=
  let act := activeLanes d v
  let x := operandElems d v.core (opS1 v) 0 v.wd v.n
  let y := (scanFrom v.tyD (Bits.bit (ctxX v) 0) (Bits.bit (ctxX v) 1) 0
    ((List.range v.n).map fun i => (isActive act i, x.getD i 0))).toArray
  guarded d (meSound d v && regSound d v (opS1 v) v.wd (activeList v act)) { dev := writeLanes d v act fun i => y.getD i 0 }

/-! ### Reductions (R172, R197, R198) -/

/-- The identity of a reduction (Table 7.6, R197). -/
def redIdentity (op : Nat) (t : Ty) : Nat :=
  let f := fmtOf t
  let sign := 2 ^ (f.exp + f.man)
  let largest := (2 ^ f.exp - 1) * 2 ^ f.man + (if t = .e4m3 then 6 else 0)
  match op, tyFloat t with
  | 0, true => sign
  | 1, true => sign + largest
  | _, true => largest
  | 1, false => Bits.wrap (tyWidth t) (intMin t)
  | 2, false => Bits.wrap (tyWidth t) (intMax t)
  | 3, false => 2 ^ tyWidth t - 1
  | _, false => 0

/-- One node of the tree. -/
def redNode (op : Nat) (t : Ty) (mode : RMode) (x y : Rounded) : Rounded :=
  if tyFloat t then
    let a := elemValue t x.bits
    let b := elemValue t y.bits
    let r := finish t mode (match op with | 0 => addExact mode a b | 1 => maxVal a b | _ => minVal a b)
    { bits := r.bits, flags := (x.flags.or y.flags).or r.flags }
  else
    let o : AluOp := match op with | 0 => .add | 1 => .max | 2 => .min | 3 => .and | 4 => .or | _ => .xor
    { bits := alu o x.bits y.bits (tyWidth t) (tySigned t) }

/-- The root of a tree of one lane: a NaN comes out as the canonical one, as from any arithmetic operation (R158). -/
def reduceOne (t : Ty) (mode : RMode) (b : Nat) : Rounded :=
  match tyFloat t, elemValue t b with
  | true, .nan s => roundFloat t mode (.nan s)
  | _, _ => { bits := b }

/-- Reduce lanes; an excluded lane takes the identity. -/
def reduce (op : Nat) (t : Ty) (mode : RMode) (lanes : List (Option Nat)) : Rounded :=
  let ident : Rounded := { bits := redIdentity op t }
  match lanes with
  | [some b] => reduceOne t mode b
  | _ => reduceTree (redNode op t mode) ident (lanes.map fun x => match x with | some b => { bits := b } | none => ident)

/-- VRED (R197). -/
def runVred (d : Dev) (v : VecCtx) : EngOut :=
  let act := activeLanes d v
  let x := operandElems d v.core (opS1 v) 0 v.wd v.n
  let r := reduce (ctxX v % 8) v.tyD v.x.frm ((List.range v.n).map fun i => if isActive act i then some (x.getD i 0) else none)
  guarded d (meSound d v && regSound d v (opS1 v) v.wd (activeList v act))
    { dev := writeDest d v.core (opD v) 0 v.wd v.n 0 1 fun i => if i = 0 then some r.bits else none, flags := r.flags }

/-- The segments of a list of (head, lane) pairs; lane 0 starts the first. -/
def segments {α : Type} : List (Bool × α) → List (List α)
  | [] => []
  | (_, a) :: r =>
    match segments r, r with
    | s :: t, (false, _) :: _ => (a :: s) :: t
    | l, _ => [a] :: l

/-- VSEGRED (R198). -/
def runVsegred (d : Dev) (v : VecCtx) : EngOut :=
  let act := activeLanes d v
  let heads := maskLanes (getCore d v.core) (ctxMask v) v.n
  let x := operandElems d v.core (opS1 v) 0 v.wd v.n
  let lanes := (List.range v.n).map fun i => (heads.getD i false, if isActive act i then some (x.getD i 0) else none)
  let rs := ((segments lanes).map (reduce (ctxX v % 8) v.tyD v.x.frm)).toArray
  guarded d (meSound d v && regSound d v (opS1 v) v.wd (activeList v act))
    { dev := writeDest d v.core (opD v) 0 v.wd v.n 0 (spanConts rs.size v.wd) fun j => (rs[j]?).map (·.bits)
      flags := Flags.gather (rs.toList.map (·.flags)) }

/-! ### Masks (R199) and VTRN (R200) -/

/-- The logic operations of MLOGIC. -/
def maskOp (op : Nat) (a b : Bool) : Bool :=
  match op with
  | 0 => a && b
  | 1 => a || b
  | 2 => a != b
  | 3 => a && !b
  | 4 => !a
  | 5 => a
  | 6 => true
  | _ => false

/-- MLOGIC. -/
def runMlogic (d : Dev) (v : VecCtx) : EngOut :=
  let m (r : BitVec 8) : Nat := physMask v.x.split v.x.stream r.toNat
  let op := ctxX v % 8
  let k := getCore d v.core
  let a := maskLanes k (m v.x.f.s1) v.n
  let b := maskLanes k (m v.x.f.s2) v.n
  guarded d ((5 < op || maskSound d v.core (m v.x.f.s1) v.n) && (3 < op || maskSound d v.core (m v.x.f.s2) v.n))
    { dev := writeMask d v.core (m v.x.f.d) v.n fun i => some (maskOp op (a.getD i false) (b.getD i false)) }

/-- MPOPC: the count goes to container 0. -/
def runMpopc (d : Dev) (v : VecCtx) : EngOut :=
  let m := physMask v.x.split v.x.stream v.x.f.s1.toNat
  let lim := vcLimit v
  let c := (Sparse.dense (getCore d v.core).mask false (16384 * m) lim).countP id
  guarded d (maskSound d v.core m lim) { dev := writeDest d v.core (opD v) 0 32 1 0 1 fun _ => some c }

/-- VTRN. -/
def runVtrn (d : Dev) (v : VecCtx) : EngOut :=
  let c := v.x.regS2.toNat % 65536
  let r := v.n / c
  let x := operandElems d v.core (opS1 v) 0 v.wd v.n
  if c = 0 ∨ r = 0 then { dev := d }
  else
    guarded d (regSound d v (opS1 v) v.wd (List.range (r * c)))
      { dev := writeDest d v.core (opD v) 0 v.wd v.n 0 (spanConts (r * c) v.wd) fun i =>
          if i < r * c then some (x.getD (i % r * c + i / r) 0) else none }

/-! ### Accumulators and bound files (R205 to R207) -/

/-- The first accumulator word of AREAD and AWRITE: the element at (row0, 0). -/
def firstWord (v : VecCtx) (a : Nat) : Nat := 32768 * a + 128 * (v.x.regS2.toNat % 256)

/-- The value of an accumulator word under its precision state, with flags of a signalling NaN (R171, R205). -/
def accValue (p : Precision) (mode : RMode) (hi lo : BitVec 32) : Exact :=
  match p with
  | .i32 => { val := elemValue .i32 hi.toNat }
  | .a2x32 => addExact mode (elemValue .f32 hi.toNat) (elemValue .f32 lo.toNat)
  | _ => { val := elemValue .f32 hi.toNat }

/-- AREAD (R205). -/
def runAread (d : Dev) (v : VecCtx) : EngOut :=
  let a := physAcc v.x.split v.x.stream v.x.f.s1.toNat
  let k := getCore d v.core
  let p := precOf k a
  let two := p = .a2x32 && v.tyD ≠ .i32
  let hi := (Sparse.dense k.acc 0 (firstWord v a) v.n).toArray
  let lo := (Sparse.dense k.acc 0 (firstWord v (partner a)) (if two then v.n else 0)).toArray
  let act := activeLanes d v
  let l := activeList v act
  let sound := k.poisonA.isEmpty ||
    l.all fun i => !k.poisonA.contains (firstWord v a + i) && !(two && k.poisonA.contains (firstWord v (partner a) + i))
  let one (i : Nat) : Rounded :=
    if v.tyD = .i32 then { bits := (hi.getD i 0).toNat }
    else finish v.tyD (vecMode v) (accValue p (vecMode v) (hi.getD i 0) (lo.getD i 0))
  let res := ((List.range v.n).map fun i => if isActive act i then one i else { bits := 0 }).toArray
  guarded d (meSound d v && sound)
    { dev := writeLanes d v act fun i => (res.getD i { bits := 0 }).bits, flags := Flags.gather (res.toList.map (·.flags)) }

/-- The word that AWRITE writes: f32 and i32 as they are, the narrower types widened exactly; that widening is a conversion, of whose NaNs R158
speaks (log entry 110). -/
def accWiden (t : Ty) (x : Nat) : Rounded := if t = .bf16 || t = .f16 then roundFloat .f32 .rne (elemValue t x) else { bits := x }

/-- Every element of bound cell c is written by the active elements. -/
def cellWhole (row0 : Nat) (act : Array Bool) (c : Nat) : Bool :=
  (List.range 256).all fun j =>
    let row := 16 * (c / 8) + j / 16
    let col := 16 * (c % 8) + j % 16
    decide (row0 ≤ row) && isActive act (128 * (row - row0) + col)

/-- AWRITE (R206). MZ reaches registers, masks and S-form ranges only (R181): an inactive element keeps its word. -/
def runAwrite (d : Dev) (v : VecCtx) : EngOut :=
  let a := physAcc v.x.split v.x.stream v.x.f.d.toNat
  let act := activeLanes d v
  let l := activeList v act
  let x := operandElems d v.core (opS1 v) 0 v.wd v.n
  let res := ((List.range v.n).map fun i => if isActive act i then accWiden v.tyD (x.getD i 0) else { bits := 0 }).toArray
  let put (k : Core) (base : Nat) (zero : Bool) : Core :=
    let old := (Sparse.dense k.acc 0 base v.n).toArray
    let new := (List.range v.n).map fun i =>
      if isActive act i then (if zero then 0 else BitVec.ofNat 32 (res.getD i { bits := 0 }).bits) else old.getD i 0
    { k with acc := Sparse.setRange k.acc 0 base new
             poisonA := k.poisonA.filter fun w => !(decide (base ≤ w ∧ w < base + v.n) && isActive act (w - base)) }
  let whole := (List.range 128).filter (cellWhole (v.x.regS2.toNat % 256) act)
  guarded d (meSound d v && regSound d v (opS1 v) v.wd l)
    { dev := modCore d v.core fun k =>
        let k1 := put k (firstWord v a) false
        let k2 := if precOf k a = .a2x32 then put k1 (firstWord v (partner a)) true else k1
        let k3 := whole.foldl (fun k c => setBndCell k a c 0) k2
        { k3 with poisonB := k3.poisonB.filter fun c => !(decide (c / 128 = a) && whole.contains (c % 128)) }
      flags := Flags.gather (res.toList.map (·.flags)) }

/-- BRD (R207). -/
def runBrd (d : Dev) (v : VecCtx) : EngOut :=
  let a := physAcc v.x.split v.x.stream v.x.f.s1.toNat
  let k := getCore d v.core
  let cells := (Sparse.dense k.bnd 0 (128 * a) 128).toArray
  guarded d (k.poisonB.all fun c => c / 128 ≠ a)
    { dev := writeDest d v.core (opD v) 0 16 128 0 64 fun i => some (cells.getD i 0).toNat }

/-- BWR (R207). -/
def runBwr (d : Dev) (v : VecCtx) : EngOut :=
  let a := physAcc v.x.split v.x.stream v.x.f.d.toNat
  let x := operandElems d v.core (opS1 v) 0 16 128
  guarded d (regSound d v (opS1 v) 16 (List.range 128))
    { dev := modCore d v.core fun k =>
        { setBndCells k a (x.toList.map (BitVec.ofNat 16)) with poisonB := k.poisonB.filter fun c => c / 128 ≠ a } }

/-! ### The engine -/

/-- Execute a vector command from its step (R183, R210). -/
def runVector (d : Dev) (core : Nat) (o : VecOp) (r : Run) : EngOut :=
  let v := vecCtx core o r
  if v.n = 0 then { dev := d }
  else
    match o with
    | .vcmp | .vicmp => runCompare d v
    | .vperm => runVperm d v
    | .vbcast | .viota => runFill d v
    | .vscan => runVscan d v
    | .vld => runVld d v r.step
    | .vst => runVst d v r.step
    | .vlds => runVlds d v r.step
    | .vgath => runVgath d v r.step
    | .vscat => runVscat d v r.step
    | .vred => runVred d v
    | .vsegred => runVsegred d v
    | .vmld => runVmld d v r.step
    | .mlogic => runMlogic d v
    | .mpopc => runMpopc d v
    | .vtrn => runVtrn d v
    | .aread => runAread d v
    | .awrite => runAwrite d v
    | .vcvt => runVcvt d v r.step
    | .vqnt => runVqnt d v r.step
    | .brd => runBrd d v
    | .bwr => runBwr d v
    | _ => runElementwise d v r.step

/-- The steps that a completed vector command performed, as Table 8.9 counts them (R280). -/
def vectorSteps (core : Nat) (o : VecOp) (r : Run) : Nat :=
  let v := vecCtx core o r
  match o with
  | .vlds | .vgath | .vscat => v.n
  | .vmld => spanConts v.n 1
  | .vcmp | .vicmp | .vperm | .vbcast | .viota | .vscan | .vred | .vsegred | .mlogic | .mpopc | .vtrn | .aread | .awrite | .brd | .bwr => 0
  | _ => spanConts v.n v.wd

end Sys2Proof.Machine
end

