-- ==== Sys2Proof/Machine/MatrixEngine.lean ====
section
/-!
DEFINITION. The matrix engine: operand regions (R211, R212), one k-block of a product with its bound cells and threshold test (R170, R171,
R221, R232, R234, R240), REISSUE (R245), and the port commands ASTORE, ALOAD and ABOUND (R226 to R228, R237 to R239).
-/

namespace Sys2Proof.Machine

/-! ### Reading operand regions -/

/-- An operand of a product: rows of A or columns of B, its type, its sections, its place and the address that named it. -/
structure MatOperand where
  rows  : Nat
  ty    : Ty
  reg   : Region
  nb    : Nat
  place : Place
  addr  : Word
  deriving DecidableEq, Repr

/-- The four sections of k-block q: offset in the region, and bytes (Table 9.1). -/
def sectionSpans (m : MatOperand) (q : Nat) : List (Nat × Nat) :=
  let r := m.reg
  [(q * r.data, r.data), (m.nb * r.data + q * r.meta_, r.meta_), (m.nb * (r.data + r.meta_) + q * r.scale, r.scale),
   (m.nb * (r.data + r.meta_ + r.scale) + q * r.plane, r.plane)]

/-- The first poisoned byte of a scratchpad range. -/
def firstPoisoned (k : Core) (off n : Nat) : Option Nat :=
  let l := k.poisonSpm.filter fun g => decide (0 < n) && decide (off < 64 * g + 64 && 64 * g < off + n)
  match l with
  | [] => none
  | _ => some (l.foldl (fun b g => min b (max off (64 * g))) (off + n))

/-- Read a range of an operand: scratchpad at once, global memory sector by sector. -/
def readRun (d : Dev) (core : Nat) (p : Place) (a : Word) (off n step : Nat) : Except FaultRec (List Byte × Dev) :=
  match p with
  | .spm c o _ =>
    match firstPoisoned (getCore d c) (o + off) n with
    | some b => .error { cause := .poison, step := step, eaddr := addAddr a (BitVec.ofNat 64 (b - o)) }
    | none => .ok (Sparse.dense (getCore d c).spm 0 (o + off) n, d)
  | .global va =>
    (cutSectors (va + off) n).foldlM
      (fun s r =>
        match globalRead s.2 core ((va + off + r.1) % 2 ^ 60) r.2 with
        | .error c => .error { cause := c, step := step, eaddr := addAddr a (BitVec.ofNat 64 (off + r.1)) }
        | .ok t => .ok (s.1 ++ t.1, t.2))
      ([], d)

/-- Read several ranges. -/
def readRuns (d : Dev) (core : Nat) (p : Place) (a : Word) (l : List (Nat × Nat)) (step : Nat) : Except FaultRec (List (List Byte) × Dev) :=
  l.foldlM
    (fun s r =>
      match readRun s.2 core p a r.1 r.2 step with
      | .error f => .error f
      | .ok t => .ok (s.1 ++ [t.1], t.2))
    ([], d)

/-- The elements of packed bytes. -/
def byteElems (w : Nat) (l : List Byte) : Array Nat := contElems w 0 (contsOfBytes l)

/-! ### A k-block (R170) -/

/-- Twice-power unit of a type: every finite value is an integer times 2^-u. -/
def tyUnit (t : Ty) : Nat := if tyFloat t then (fmtOf t).bias + (fmtOf t).man - 1 else if t = .pt8 then 6 else 0

/-- A finite element as an integer in its type's unit; none for a NaN or an infinity. -/
def scaledInt (t : Ty) (x : Nat) : Option Int :=
  if tyFloat t then
    let f := fmtOf t
    let m := x % 2 ^ f.man
    let e := x / 2 ^ f.man % 2 ^ f.exp
    let n : Nat := if e = 0 then m else (2 ^ f.man + m) * 2 ^ (e - 1)
    if fvalFinite (floatValue t x) then some (if Bits.bit x (f.exp + f.man) then -(n : Int) else n) else none
  else if t = .pt8 then
    let term (s : Bool) (k : Nat) : Int := if k = 7 then 0 else if s then -(2 ^ (6 - k) : Nat) else (2 ^ (6 - k) : Nat)
    some (term (Bits.bit x 7) (Bits.field x 6 4) + term (Bits.bit x 3) (Bits.field x 2 0))
  else if tySigned t then some (Bits.signed (tyWidth t) x)
  else some (x % 2 ^ tyWidth t : Nat)

/-- One row of A, or column of B, of a k-block: (k, element) pairs, their integers, whether one is special, and the block scale. -/
structure MatLine where
  raw     : List (Nat × Nat)
  ints    : List (Nat × Int)
  special : Bool
  scale   : FVal

/-- A k-block of an operand: its lines and its plane entries. -/
structure MatBlock where
  lines : Array MatLine
  plane : Array Nat

/-- A line from its live elements: a term at or beyond the limit is a zero product (R170, R221). -/
def matLine (t : Ty) (limit : Nat) (l : List (Nat × Nat)) (scale : FVal) : MatLine :=
  let raw := l.filter fun p => p.1 < limit
  let vals := raw.map fun p => (p.1, scaledInt t p.2)
  { raw := raw, special := vals.any fun p => p.2.isNone, scale := scale
    ints := vals.filterMap fun p => match p.2 with | some 0 => none | some n => some (p.1, n) | none => none }

/-- The dense elements of line i. -/
def denseLine (data : Array Nat) (i : Nat) : List (Nat × Nat) := (List.range 32).map fun k => (k, data.getD (32 * i + k) 0)

/-- The pattern of a zero element of a matrix type (R161: a pt8 term is 0 for k = 7). -/
def zeroElem (t : Ty) : Nat := if t = .pt8 then 0x77 else 0

/-- The dense row that a 2:4 sparse row stands for under its metadata word (R212): its stored elements, and zeros at the other k, which
form products as any element does (R170). -/
def sparseLine (t : Ty) (data : Array Nat) (meta_ : Nat) (i : Nat) : List (Nat × Nat) :=
  (List.range 8).flatMap fun g =>
    let u := Bits.field meta_ (4 * g + 1) (4 * g)
    let v := Bits.field meta_ (4 * g + 3) (4 * g + 2)
    [(4 * g + u, data.getD (16 * i + 2 * g) 0), (4 * g + v, data.getD (16 * i + 2 * g + 1) 0)]
      ++ ([0, 1, 2, 3].filter fun j => j ≠ u && j ≠ v).map fun j => (4 * g + j, zeroElem t)

/-- The k-block from its four sections; `limit` live values of k remain in it. Where none does, its products are exact zeros whatever its scales hold
(R221, R223). -/
def matBlock (m : MatOperand) (limit : Nat) (secs : List (List Byte)) : MatBlock :=
  let data := byteElems (tyWidth m.ty) (secs.getD 0 [])
  let metas := byteElems 32 (secs.getD 1 [])
  let scales := byteElems 16 (secs.getD 2 [])
  let line (i : Nat) : MatLine :=
    matLine m.ty limit (if m.reg.meta_ = 0 then denseLine data i else sparseLine m.ty data (metas.getD i 0) i)
      (if m.reg.scale = 0 || limit = 0 then .fin false 1 else elemValue .bf16 (scales.getD i 0))
  { lines := ((List.range m.rows).map line).toArray, plane := byteElems 16 (secs.getD 3 []) }

/-- A column as an array by k. -/
def columnInts (l : MatLine) : Array Int := l.ints.foldl (fun (m : Array Int) p => m.setIfInBounds p.1 p.2) (Array.replicate 32 0)

/-- The exact sum of products of finite values. -/
def dotInts (row : List (Nat × Int)) (col : Array Int) : Int := row.foldl (fun s p => s + p.2 * col.getD p.1 0) 0

/-- The sum of products that hold a NaN or an infinity (R170). -/
def dotSpecial (ta tb : Ty) (row col : MatLine) : Exact :=
  let ps := row.raw.flatMap fun p => (col.raw.filter fun q => q.1 = p.1).map fun q => mulExact (elemValue ta p.2) (elemValue tb q.2)
  let fl := Flags.gather (ps.map (·.flags))
  let pos := ps.any fun p => p.val = .inf false
  let neg := ps.any fun p => p.val = .inf true
  if ps.any fun p => fvalIsNan p.val then { val := .nan false, flags := { fl with nv := fl.nv || (pos && neg) } }
  else if pos && neg then { val := .nan false, flags := { fl with nv := true } }
  else if pos || neg then { val := .inf neg, flags := fl }
  else { val := fvalOfRat (ps.foldl (fun s p => s + fvalRat p.val) 0), flags := fl }

/-- An exact zero is +0 (R170). -/
def plusZero (x : FVal) : FVal := if fvalIsZero x then .fin false 0 else x

/-- c = S × σ of one element. -/
def blockTerm (ta tb : Ty) (row col : MatLine) (ints : Array Int) (sigma : Exact) : Exact :=
  let s : Exact :=
    if row.special || col.special then dotSpecial ta tb row col
    else { val := fvalOfRat (mkRat (dotInts row.ints ints) (2 ^ (tyUnit ta + tyUnit tb))) }
  let c := mulExact (plusZero s.val) sigma.val
  { val := plusZero c.val, flags := (s.flags.or sigma.flags).or c.flags }

/-- One element after a k-block: its words, flags, the exponent of an inexact rounding's new word, whether it was clamped. -/
structure AccEl where
  hi      : BitVec 32
  lo      : BitVec 32
  flags   : Flags := {}
  ex      : Option Int := none
  clamped : Bool := false

/-- An f32 rounding with the exponent of an inexact result. -/
def roundWord (mode : RMode) (e : Exact) : Rounded × Option Int :=
  let r := finish .f32 mode e
  (r, if r.flags.nx then some (exponentOf (elemValue .f32 r.bits)) else none)

/-- accumulate of R171 in A32. -/
def accA32 (mode : RMode) (w : BitVec 32) (c : Exact) : AccEl :=
  let r := roundWord mode (addExact mode (elemValue .f32 w.toNat) c.val)
  { hi := BitVec.ofNat 32 r.1.bits, lo := 0, flags := c.flags.or r.1.flags, ex := r.2 }

/-- accumulate of R171 in A2x32: NX comes from the rounding of lo alone; a remainder of exactly zero is +0 (log entry 129). -/
def accA2x32 (mode : RMode) (hi lo : BitVec 32) (c : Exact) : AccEl :=
  let sum := addExact mode (elemValue .f32 hi.toNat) c.val
  let h := finish .f32 mode sum
  let hv := elemValue .f32 h.bits
  let e : FVal := if fvalFinite hv then fvalOfRat (fvalRat sum.val - fvalRat hv) else .fin false 0
  let l := roundWord mode (addExact mode (elemValue .f32 lo.toNat) e)
  { hi := BitVec.ofNat 32 h.bits, lo := BitVec.ofNat 32 l.1.bits
    flags := (c.flags.or { h.flags with nx := false }).or l.1.flags, ex := l.2 }

/-- accumulate of R171 in I32. -/
def accI32 (w : BitVec 32) (c : Exact) : AccEl :=
  let s := w.toInt + floorQ (fvalRat c.val)
  let y := max (-(2 ^ 31 : Int)) (min (2 ^ 31 - 1) s)
  { hi := BitVec.ofInt 32 y, lo := 0, flags := { nv := decide (y ≠ s) }, clamped := decide (y ≠ s) }

/-- A finite f32 word that adding +0 leaves as it is. -/
def steady (w : BitVec 32) : Bool := w.toNat / 2 ^ 23 % 256 ≠ 255 && w ≠ 0x80000000

/-- One element after a k-block under the accumulator's precision state. -/
def accStep (p : Precision) (mode : RMode) (hi lo : BitVec 32) (c : Exact) : AccEl :=
  match p with
  | .i32 => accI32 hi c
  | .a2x32 => if c.val = fvalZero && steady hi && steady lo then { hi := hi, lo := lo, flags := c.flags } else accA2x32 mode hi lo c
  | _ => if c.val = fvalZero && steady hi then { hi := hi, lo := 0, flags := c.flags } else accA32 mode hi c

/-- Every element of the accumulator after a k-block, element (i, j) at 128 i + j. -/
def blockElements (p : Precision) (mode : RMode) (ta tb : Ty) (a b : MatBlock) (hi lo : Array (BitVec 32)) : Array AccEl :=
  let cols := (List.range 128).map fun j => match b.lines[j]? with
    | some l => (l, columnInts l)
    | none => ({ raw := [], ints := [], special := false, scale := .fin false 1 }, #[])
  ((List.range 256).flatMap fun i =>
    match a.lines[i]? with
    | none => []
    | some row =>
      (cols.zip (List.range 128)).map fun q =>
        accStep p mode (hi.getD (128 * i + q.2) 0) (lo.getD (128 * i + q.2) 0)
          (blockTerm ta tb row q.1.1 q.1.2 (mulExact row.scale q.1.1.scale))).toArray

/-! ### Bound cells (R232, R234) and the threshold test (R240) -/

/-- The elements of cell c. -/
def cellElems {α : Type} (d : α) (els : Array α) (c : Nat) : List α :=
  (List.range 256).map fun n => els.getD (128 * (16 * (c / 8) + n / 16) + 16 * (c % 8) + n % 16) d

/-- μ of 16 lines: the largest scaled magnitude (R234). -/
def lineMax (t : Ty) (lines : List MatLine) : BitVec 16 :=
  let one (l : MatLine) : Bound :=
    match l.special, l.scale with
    | false, .fin _ s =>
      .fin (s * mkRat ((l.ints.foldl (fun m p => max m p.2.natAbs) 0 : Nat) : Int) (2 ^ tyUnit t))
    | _, _ => .inf
  let bigger (x y : Bound) : Bound :=
    match x, y with
    | .fin p, .fin q => .fin (max p q)
    | _, _ => .inf
  ub16Up ((lines.map one).foldl bigger (.fin 0))

/-- The sixteen lines of group g. -/
def lineGroup (b : MatBlock) (g : Nat) : List MatLine := (List.range 16).filterMap fun i => b.lines[16 * g + i]?

/-- The input term t(r, c, q) from βA, βB, μA and μB. -/
def inputTerm (ba bb ma mb : BitVec 16) : BitVec 16 :=
  let v (x : BitVec 16) : Bound := ub16Value x
  let prod (x y : BitVec 16) : BitVec 16 := ub16Up (boundMul (v x) (v y))
  let x := prod ba mb
  let x := ub16Up (boundAdd (v x) (v (prod ma bb)))
  let x := ub16Up (boundAdd (v x) (v (prod ba bb)))
  ub16Up (boundMul (.fin 32) (v x))

/-- An f32 word is an infinity or a NaN. -/
def wordSpecial (w : BitVec 32) : Bool := w.toNat / 2 ^ 23 % 256 = 255

/-- Growth of one cell (R232); `t` is its input term when a plane is present. -/
def growCell (p : Precision) (mode : RMode) (t : Option (BitVec 16)) (els : List AccEl) (b : BitVec 16) : BitVec 16 :=
  let plus (b : BitVec 16) : BitVec 16 := match t with | some t => ub16Up (boundAdd (ub16Value b) (ub16Value t)) | none => b
  if p = .i32 then plus (if els.any (·.clamped) then 0xFF00 else b)
  else if els.any fun e => wordSpecial e.hi || wordSpecial e.lo then 0xFF00
  else
    match els.filterMap (·.ex) with
    | [] => plus b
    | e :: l => ub16Up (boundAdd (ub16Value (plus b)) (.fin (pow2 (l.foldl max e - 24 + (if mode = .rne then 0 else 1)))))

/-- The value of an element under a precision state. -/
def elValue (p : Precision) (e : AccEl) : FVal := (accValue p .rne e.hi e.lo).val

/-- exceeds(r, c) of R240; `mode` is MODE of the BMODE nibble. -/
def cellExceeds (mode : Nat) (tau : BitVec 16) (p : Precision) (els : List AccEl) (b : BitVec 16) : Bool :=
  match mode, ub16Value tau with
  | 0, _ => false
  | _, .inf => false
  | 1, .fin t => match ub16Value b with | .inf => true | .fin x => x > t
  | _, .fin t =>
    let vals := els.map (elValue p)
    if !vals.all fvalFinite then true
    else
      match ub16Value b with
      | .inf => true
      | .fin x => x > t * vals.foldl (fun m v => max m (fvalRat (absVal v))) 0

/-! ### One k-block of a product -/

/-- The operands of a product. -/
def operandA (d : Dev) (core : Nat) (r : Run) : MatOperand :=
  let x := r.cmd
  { rows := 256, ty := r.tyA, nb := matBlocks x, addr := x.regS1, place := (cmdPlace d core x x.regS1).getD (.global 0)
    reg := regionOf 256 (tyWidth r.tyA) (matSparse x) (matPrec x ≠ .i32 && scaledTy r.tyA) (matPa x) }
def operandB (d : Dev) (core : Nat) (r : Run) : MatOperand :=
  let x := r.cmd
  { rows := 128, ty := r.tyB, nb := matBlocks x, addr := x.regS2, place := (cmdPlace d core x x.regS2).getD (.global 0)
    reg := regionOf 128 (tyWidth r.tyB) false (matPrec x ≠ .i32 && scaledTy r.tyB) (matPb x) }

/-- kv of R221. -/
def matLimit (x : Cmd) : Nat := if fnBit x.f 2 then min (matK x) x.vcnt else matK x

/-- A word or bound cell of the accumulator, or of its lo, is poisoned. -/
def accPoisoned (k : Core) (a : Nat) : Bool :=
  k.poisonA.any (fun w => w / 32768 = a || (precOf k a = .a2x32 && w / 32768 = partner a)) || k.poisonB.any fun c => c / 128 = a

/-- Write every word of an accumulator from a function of its index. -/
def putAcc (k : Core) (a : Nat) (els : Array AccEl) (word : AccEl → BitVec 32) : Core :=
  setAccWords k a ((els.toList.zip (List.range els.size)).filterMap fun p => if word p.1 = 0 then none else some (p.2, word p.1))

/-- What applying one k-block gives: the device, the flags, and the lowest cell that exceeds. -/
structure BlockOut where
  dev   : Dev
  flags : Flags
  hit   : Option Nat

/-- Apply k-block q to acc_a, update bnd_a and test it (R221, R232, R240). The first fault of A, of B and of the accumulator is
reported, in that order (log entry 118). B of block q is read in this step, not ahead of it (R224, log entry 139). -/
def applyBlock (d : Dev) (core a q : Nat) (r : Run) : Except FaultRec BlockOut := do
  let ma := operandA d core r
  let mb := operandB d core r
  let sa ← readRuns d core ma.place ma.addr (sectionSpans ma q) q
  let sb ← readRuns sa.2 core mb.place mb.addr (sectionSpans mb q) q
  let d := sb.2
  let k := getCore d core
  if accPoisoned k a then .error { cause := .poison, step := q }
  let limit := matLimit r.cmd - 32 * q
  let ba := matBlock ma limit sa.1
  let bb := matBlock mb limit sb.1
  let p := precOf k a
  let mode := r.cmd.frm
  let hi := (Sparse.dense k.acc 0 (32768 * a) 32768).toArray
  let lo := (Sparse.dense k.acc 0 (32768 * partner a) (if p = .a2x32 then 32768 else 0)).toArray
  let els := blockElements p mode r.tyA r.tyB ba bb hi lo
  let cells := (Sparse.dense k.bnd 0 (128 * a) 128).toArray
  let planes := matPa r.cmd || matPb r.cmd
  let muA := ((List.range (if planes then 16 else 0)).map fun g => lineMax r.tyA (lineGroup ba g)).toArray
  let muB := ((List.range (if planes then 8 else 0)).map fun g => lineMax r.tyB (lineGroup bb g)).toArray
  let beta (on : Bool) (b : MatBlock) (g : Nat) : BitVec 16 := if on then BitVec.ofNat 16 (b.plane.getD g 0) else 0
  let term (c : Nat) : Option (BitVec 16) :=
    if planes then
      some (inputTerm (beta (matPa r.cmd) ba (c / 8)) (beta (matPb r.cmd) bb (c % 8)) (muA.getD (c / 8) 0) (muB.getD (c % 8) 0))
    else none
  let blank : AccEl := { hi := 0, lo := 0 }
  let groups := (List.range 128).map fun c => (c, cellElems blank els c)
  let grown := groups.map fun g => (g.1, g.2, growCell p mode (term g.1) g.2 (cells.getD g.1 0))
  let n := nibble k.bmode a
  let hit := grown.find? fun g => cellExceeds (n % 4) (bthOf k a) p g.2.1 g.2.2
  let k := putAcc k a els (·.hi)
  let k := if p = .a2x32 then putAcc k (partner a) els (·.lo) else k
  let k := setBndCells k a (grown.map (·.2.2))
  pure { dev := setCore d core k, flags := els.foldl (fun f e => f.or e.flags) {}, hit := hit.map (·.1) }

/-- ESTAT.ISW after BOUND_TRAP (Table 10.3). -/
def trapIsw (k : Core) (a cell : Nat) (rerun : Bool) : BitVec 16 :=
  BitVec.ofNat 16 ((if rerun then 32768 else 0) + a * 2048 + nibble k.bmode a % 4 * 512 + cell)

/-- The restore of R245: the checkpoint goes back, and acc_a moves from A32 to A2X32. -/
def restoreAcc (k : Core) (a : Nat) : Core := claimLo (setPrec (copyAcc k (partner a) a) a .a2x32) a

/-- One K_BLOCK of a product that has been picked up and has a k-block left (R221, R242, R245). One without a checkpoint takes BOUND_TRAP, whatever the
mode is by now (log entry 121). -/
def productBlock (d : Dev) (core : Nat) (r : Run) : Dev :=
  match matNames r.cmd with
  | none => d
  | some a =>
    let q := r.step
    match applyBlock d core a q r with
    | .error f => engineFault d core r.cmd f
    | .ok o =>
      match o.hit with
      | none => modCore o.dev core fun k => modRun k r.cmd.age fun v => { v with step := q + 1, flags := v.flags.or o.flags }
      | some cell =>
        if r.phase = .first then
          modCore o.dev core fun k => modRun (restoreAcc k a) r.cmd.age fun v => { v with step := 0, flags := {}, phase := .rerun }
        else
          let d := modCore o.dev core fun k => modRun k r.cmd.age fun v => { v with flags := v.flags.or o.flags }
          engineFault d core r.cmd
            { cause := .boundTrap, step := q, isw := trapIsw (getCore o.dev core) a cell (r.phase = .rerun) }

/-! ### ASTORE and ALOAD (R226, R227, R237 to R239) -/

/-- The row of a tile as a range of its operand. -/
def tileRow (x : Cmd) (w i : Nat) : Nat := i * pitchOf x w

/-- Every sector of a global range can be written: none, or the first that cannot. -/
def writableRun (d : Dev) (core va : Nat) (a : Word) (off n step : Nat) : Option FaultRec :=
  (cutSectors (va + off) n).findSome? fun r =>
    match translateFor d core ((va + off + r.1) % 2 ^ 60) .write with
    | .error c => some { cause := c, step := step, eaddr := addAddr a (BitVec.ofNat 64 (off + r.1)) }
    | .ok _ => none

/-- Write bytes at an offset of an operand: nothing of them is written when a part cannot be. -/
def writeRun (d : Dev) (core : Nat) (p : Place) (a : Word) (off : Nat) (bytes : List Byte) (step : Nat) : EngOut :=
  match p with
  | .spm c o _ => { dev := spmWrite d c (o + off) bytes }
  | .global va =>
    match writableRun d core va a off bytes.length step with
    | some f => { dev := d, fault := some f }
    | none =>
      runSteps d
        (fun d r => memWrite d core (.global ((va + off + r.1) % 2 ^ 60)) (addAddr a (BitVec.ofNat 64 (off + r.1)))
          ((bytes.drop r.1).take r.2) step)
        (cutSectors (va + off) bytes.length)

/-- An element that ASTORE converts: its value, what it is stored as, and whether no word of it was a NaN. -/
structure StoreEl where
  val    : Exact
  stored : Rounded
  number : Bool := true

/-- The word is a NaN. -/
def wordNan (w : BitVec 32) : Bool := fvalIsNan (elemValue .f32 w.toNat)

/-- The converted elements of row i of an accumulator. -/
def storeRow (k : Core) (a i : Nat) (t : Ty) (mode : RMode) : List StoreEl :=
  let p := precOf k a
  let hi := Sparse.dense k.acc 0 (32768 * a + 128 * i) 128
  let lo := Sparse.dense k.acc 0 (32768 * partner a + 128 * i) 128
  (hi.zip lo).map fun w =>
    let e := accValue p mode w.1 w.2
    let r := convert t mode e.val
    { val := e, stored := { r with flags := e.flags.or r.flags }
      number := p = .i32 || !(wordNan w.1 || (p = .a2x32 && wordNan w.2)) }

/-- The bytes of a row of elements of w bits. -/
def rowOut (w : Nat) (l : List Nat) : List Byte := Bits.toBytes (l.length * w / 8) (Bits.ofElements w l)

/-- A word of row i, or of its lo, is poisoned. -/
def rowPoisoned (k : Core) (a i : Nat) : Bool :=
  k.poisonA.any fun w =>
    (w / 32768 = a || (precOf k a = .a2x32 && w / 32768 = partner a)) && w % 32768 / 128 = i

/-- One row of ASTORE; poisoned words of the accumulator are found before the destination's translation (log entry 140). -/
def astoreRow (core a : Nat) (p : Place) (r : Run) (d : Dev) (i : Nat) : EngOut :=
  let k := getCore d core
  if rowPoisoned k a i then { dev := d, fault := some { cause := .poison, step := i } }
  else
    let l := storeRow k a i r.tyD r.cmd.frm
    let o := writeRun d core p r.cmd.regD (tileRow r.cmd (tyWidth r.tyD) i) (rowOut (tyWidth r.tyD) (l.map (·.stored.bits))) i
    { o with flags := if o.fault.isSome then {} else Flags.gather (l.map (·.stored.flags)) }

/-- A conversion overflowed, saturated, was clamped, or gave a NaN from a non-NaN (R237). -/
def storedWide (t : Ty) (p : StoreEl) : Bool :=
  p.stored.flags.of || (tyInt t && p.stored.flags.nv && !fvalIsNan p.val.val) || (fvalIsNan p.val.val && p.number)

/-- b' of a cell from its conversions (R237). -/
def storedBound (t : Ty) (mode : RMode) (b : BitVec 16) (l : List StoreEl) : BitVec 16 :=
  if l.any (storedWide t) then 0xFF00
  else if l.any fun p => p.stored.flags.nx then
    ub16Up (boundAdd (ub16Value b)
      (boundMul (boundHalf t (l.map fun p => elemValue t p.stored.bits)) (.fin (if mode = .rne then 1 else 2))))
  else b

/-- The bound plane that ASTORE writes (R163, R238, log entry 124). -/
def storedPlane (k : Core) (a : Nat) (t : Ty) (mode : RMode) : List Byte :=
  let els := ((List.range 256).flatMap fun i => storeRow k a i t mode).toArray
  let blank : StoreEl := { val := { val := fvalZero }, stored := { bits := 0 } }
  (List.range 128).flatMap fun c => Bits.toBytes 2 (ub16Write (storedBound t mode (bndCell k a c) (cellElems blank els c))).toNat

/-- ASTORE from row r.step on; the plane is step 256. -/
def runAstore (d : Dev) (core a : Nat) (r : Run) : EngOut :=
  match cmdPlace d core r.cmd r.cmd.regD with
  | none => lostPlace d r.cmd.regD r.step
  | some p =>
    let o := runSteps d (astoreRow core a p r) ((List.range (256 - r.step)).map (· + r.step))
    if !withPlane r.cmd then o
    else
      chain o fun d =>
        let k := getCore d core
        if k.poisonB.any fun c => c / 128 = a then { dev := d, fault := some { cause := .poison, step := 256 } }
        else writeRun d core p r.cmd.regD (planeOffset r.cmd) (storedPlane k a r.tyD r.cmd.frm) 256

/-- One row of ALOAD. -/
def aloadRow (core a : Nat) (p : Place) (r : Run) (d : Dev) (i : Nat) : EngOut :=
  let w := tyWidth r.tyA
  match readRun d core p r.cmd.regS1 (tileRow r.cmd w i) (rowBytes w) i with
  | .error f => { dev := d, fault := some f }
  | .ok (bytes, d) =>
    let l := (byteElems w bytes).toList.map (accWiden r.tyA)
    let base := 32768 * a + 128 * i
    { dev := modCore d core fun k =>
        { k with acc := Sparse.setRange k.acc 0 base (l.map fun x => BitVec.ofNat 32 x.bits)
                 poisonA := k.poisonA.filter fun q => q < base ∨ base + 128 ≤ q }
      flags := Flags.gather (l.map (·.flags)) }

/-- ALOAD from row r.step on; the plane is step 256 (R227, R163, log entry 124). -/
def runAload (d : Dev) (core a : Nat) (r : Run) : EngOut :=
  match cmdPlace d core r.cmd r.cmd.regS1 with
  | none => lostPlace d r.cmd.regS1 r.step
  | some p =>
    let o := runSteps d (aloadRow core a p r) ((List.range (256 - r.step)).map (· + r.step))
    if !withPlane r.cmd then o
    else
      chain o fun d =>
        match readRun d core p r.cmd.regS1 (planeOffset r.cmd) 256 256 with
        | .error f => { dev := d, fault := some f }
        | .ok (bytes, d) => { dev := modCore d core fun k => setBndCells k a ((byteElems 16 bytes).toList.map fun x => ub16Write (BitVec.ofNat 16 x)) }

/-! ### ABOUND (R228) -/

/-- One cell of ABOUND set, max and add (R163, R228, log entry 124). -/
def aboundCell (op : Nat) (b e : BitVec 16) : BitVec 16 :=
  ub16Write
    (match op with
     | 0 => e
     | 1 => ub16Max b e
     | _ => ub16Up (boundAdd (ub16Value b) (ub16Value e)))

/-- ABOUND (R228); poisoned cells are found before poisoned bytes of the plane (log entry 140). -/
def runAbound (d : Dev) (core a : Nat) (r : Run) : EngOut :=
  let k := getCore d core
  let off := r.cmd.regS1.toNat % 2 ^ 22
  let op := immBits r.cmd.f 25 24
  let cells := Sparse.dense k.bnd 0 (128 * a) 128
  if k.poisonB.any fun c => c / 128 = a then { dev := d, fault := some { cause := .poison } }
  else if op = 3 then { dev := spmWrite d core off (cells.flatMap fun c => Bits.toBytes 2 (ub16Write c).toNat) }
  else
    match readRun d core (.spm core off true) r.cmd.regS1 0 256 0 with
    | .error f => { dev := d, fault := some f }
    | .ok (bytes, d) =>
      { dev := modCore d core fun k =>
          setBndCells k a ((cells.zip (byteElems 16 bytes).toList).map fun p => aboundCell op p.1 (BitVec.ofNat 16 p.2)) }

/-! ### The engine -/

/-- The k-blocks that a product still has to apply. -/
def blocksLeft (r : Run) : Bool :=
  match r.cmd.op with
  | .mat .mma | .mat .mmas | .mat .mmaz => r.step < matBlocks r.cmd
  | _ => false

/-- What a matrix command does at its completion; a product has applied its k-blocks, ACLR has acted at its pickup. -/
def runMatrix (d : Dev) (core : Nat) (o : MatOp) (r : Run) : EngOut :=
  match o, matNames r.cmd with
  | .astore, some a => runAstore d core a r
  | .aload, some a => runAload d core a r
  | .abound, some a => runAbound d core a r
  | _, _ => { dev := d }

/-- The steps that a completed matrix command performed (R280). -/
def matrixSteps (o : MatOp) (r : Run) : Nat :=
  match o with
  | .mma | .mmas | .mmaz => matBlocks r.cmd
  | .astore | .aload => 256
  | .aclr | .abound => 0

end Sys2Proof.Machine
end

