-- ==== Sys2Proof/Machine/CopyEngine.lean ====
section
/-!
DEFINITION. The copy engine: the pieces of a copy over its nest (R253, R257), their sources with poison zeroed or raised (R260), their
destinations and arrivals (R257, R262, R263, R266, R267), combining contributions (R264, R265), and a copy's two completions (R258).
-/

namespace Sys2Proof.Machine

/-! ### The nest (R253) and the pieces of a block (R257) -/

/-- The level indices of a linear index, level 0 first. -/
def nestIndices : List Nat → Nat → List Nat
  | [], _ => []
  | n :: r, k => k % n :: nestIndices r (k / n)

/-- The sum of index × stride at a linear index; `first` replaces the index of level 0. -/
def nestOffset (levels : List (Nat × Int)) (k : Nat) (first : Option Nat) : Int :=
  let idx := nestIndices (levels.map (·.1)) k
  let idx := match first, idx with | some u, _ :: r => u :: r | _, l => l
  (idx.zip (levels.map (·.2))).foldl (fun s p => s + (p.1 : Int) * p.2) 0

/-- Pieces of one iteration: data pieces of at most 4,096 bytes, then the plane piece. -/
def dataPieces (x : Cmd) : Nat := (cpyLen x + 4095) / 4096
def pieceCount (x : Cmd) : Nat := dataPieces x + (if cpyPlen x = 0 then 0 else 1)

/-- Piece p of a block: its offset from the block's start and its bytes. -/
def pieceSpan (x : Cmd) (p : Nat) : Int × Nat :=
  if p < dataPieces x then ((4096 * p : Nat), min 4096 (cpyLen x - 4096 * p)) else (cpyBoff x, 2 * cpyPlen x)

/-- A copy still has a piece to move. -/
def piecesLeft (r : Run) : Bool := !zeroExtent r.cmd && r.step < nestIterations r.cmd

/-- The run at its next piece; the next iteration reads its own index (R266). -/
def nextPiece (r : Run) : Run :=
  if r.piece + 1 < pieceCount r.cmd then { r with piece := r.piece + 1 } else { r with step := r.step + 1, piece := 0, index := none }

/-- A fault of a copy at its piece (Table 11.6). -/
def pieceFault (r : Run) (c : Cause) (a : Word) : FaultRec := { cause := c, step := r.step, isw := BitVec.ofNat 16 r.piece, eaddr := a }

/-- An address moved by an offset. -/
def moveAddr (a : Word) (x : Int) : Word := addAddr a (BitVec.ofInt 64 x)

/-- A side moved by an offset. -/
def moveSide (s : Side) (x : Int) : Side :=
  match s with
  | .global va => .global (((va : Int) + x) % ((2 ^ 60 : Nat) : Int)).toNat
  | .spm c off own => .spm c ((off : Int) + x).toNat own
  | .multi m off => .multi m ((off : Int) + x).toNat

/-! ### Sources -/

/-- What a source read gives: the bytes, the poisoned granules read as zeros, the device. -/
structure SourceRead where
  bytes  : List Byte
  zeroed : Nat
  dev    : Dev

/-- Zero the bytes of poisoned granules of a scratchpad range. -/
def zeroGranules (k : Core) (off : Nat) (l : List Byte) : List Byte :=
  (l.zip (List.range l.length)).map fun p => if k.poisonSpm.contains ((off + p.2) / 64) then 0 else p.1

/-- Read n bytes of a source side; `a` is the address that named it (R260). -/
def readSource (d : Dev) (core : Nat) (z : Bool) (s : Side) (a : Word) (n : Nat) (fail : Cause → Word → FaultRec) : Except FaultRec SourceRead :=
  match s with
  | .spm c off _ =>
    let k := getCore d c
    let bytes := Sparse.dense k.spm 0 off n
    match firstPoisoned k off n with
    | none => .ok { bytes := bytes, zeroed := 0, dev := d }
    | some b =>
      if z then
        let hits := k.poisonSpm.dedup.filter fun g => off < 64 * g + 64 && 64 * g < off + n
        .ok { bytes := zeroGranules k off bytes, zeroed := hits.length, dev := d }
      else .error (fail .poison (moveAddr a ((b : Int) - off)))
  | .global va =>
    (cutSectors va n).foldlM
      (fun t r =>
        match globalRead t.dev core ((va + r.1) % 2 ^ 60) r.2 with
        | .ok g => .ok { t with bytes := t.bytes ++ g.1, dev := g.2 }
        | .error .poison =>
          if z then .ok { t with bytes := t.bytes ++ List.replicate r.2 0, zeroed := t.zeroed + 1 }
          else .error (fail .poison (moveAddr a r.1))
        | .error c => .error (fail c (moveAddr a r.1)))
      { bytes := [], zeroed := 0, dev := d }
  | .multi _ _ => .error (fail .address a)

/-- POISON_COUNT rises for each granule read as zeros, and saturates (R260, Table 4.5). -/
def countZeroed (d : Dev) (core n : Nat) : Dev :=
  if n = 0 then d else modCore d core fun k => { k with poisonCount := BitVec.ofNat 32 (min (k.poisonCount.toNat + n) 0xFFFFFFFF) }

/-- The index u(i0) of a gather or scatter at an iteration, read as the iteration is reached (R266). -/
def listIndex (d : Dev) (core : Nat) (r : Run) : Except FaultRec Nat :=
  match r.index with
  | some u => .ok u
  | none =>
    let x := r.cmd
    let i0 := (nestIndices (nestCounts x) r.step).headD 0
    let off := x.regS3.toNat % 2 ^ 22 + 4 * i0
    if spmPoisoned (getCore d core) off 4 then .error (pieceFault r .poison (moveAddr x.regS3 (4 * i0 : Nat)))
    else .ok (Bits.ofBytes (Sparse.dense (getCore d core).spm 0 off 4))

/-- The run keeps the index of an iteration that it has begun (R266). -/
def keepIndex (d : Dev) (core : Nat) (o : CpyOp) (r v : Run) : Run :=
  if o = .cpyg || o = .cpys then { v with index := (listIndex d core r).toOption } else v

/-- The checks of an indexed block at its iteration (R266), on sums that R93 has not reduced (log entry 142). -/
def indexedCheck (d : Dev) (r : Run) (s : Side) (a : Word) (x : Int) : Except FaultRec Unit :=
  let n := cpyLen r.cmd
  let bad (c : Cause) : Except FaultRec Unit := .error { cause := c, step := r.step, eaddr := moveAddr a x }
  let last : Int := match s with | .global _ => ((2 ^ 56 : Nat) : Int) | _ => spmLast + 1
  let lo := (sideBase s : Int) + x
  if lo < 0 ∨ last < lo + n then bad .address
  else
    match s with
    | .spm c _ _ =>
      if touchesQueue (getCore d c) lo.toNat n then bad .queueCfg
      else if foreignRegion d c lo.toNat n then bad .permission
      else .ok ()
    | _ => .ok ()

/-- The offset from its base of a block of one side at the run's iteration. -/
def blockOffset (d : Dev) (core : Nat) (r : Run) (s : Side) (a : Word) (levels : List (Nat × Int)) (indexed : Bool) : Except FaultRec Int :=
  if indexed then do
    let u ← listIndex d core r
    let x := nestOffset levels r.step (some u)
    indexedCheck d r s a x
    pure x
  else .ok (nestOffset levels r.step none)

/-- The bytes of a fill from an offset of its block (R267). -/
def fillBytes (pattern : Word) (off n : Nat) : List Byte := (List.range n).map fun j => BitVec.ofNat 8 (pattern.toNat / 256 ^ ((off + j) % 8))

/-- The checks that a peer's scratchpad makes at execution, be it a copy's source or its destination (Table 11.6, R18, R327, log entry 115). -/
def peerCheck (d : Dev) (core off n : Nat) (cores : List Nat) : Option Cause :=
  let others := cores.filter (· ≠ core)
  if others.any fun c => touchesQueue (getCore d c) off n then some .queueCfg
  else if others.any fun c => foreignRegion d c off n then some .permission
  else none

/-- The checks of a piece's source: those of a peer (R327). -/
def sourceCheck (d : Dev) (core : Nat) (s : Side) (n : Nat) : Option Cause :=
  match s with
  | .spm c off _ => peerCheck d core off n [c]
  | _ => none

/-- The bytes of the run's piece at its source. -/
def pieceSource (d : Dev) (core : Nat) (o : CpyOp) (r : Run) : Except FaultRec SourceRead :=
  let x := r.cmd
  let sp := pieceSpan x r.piece
  if o = .cpyf then .ok { bytes := fillBytes x.regS1 sp.1.toNat sp.2, zeroed := 0, dev := d }
  else
    match sideOf d core x x.regS1 with
    | none => .error (pieceFault r .address x.regS1)
    | some s => do
      let b ← blockOffset d core r s x.regS1 (srcLevels x) (o = .cpyg)
      match sourceCheck d core (moveSide s (b + sp.1)) sp.2 with
      | some c => .error (pieceFault r c (moveAddr x.regS1 (b + sp.1)))
      | none => readSource d core (cpyZ x) (moveSide s (b + sp.1)) (moveAddr x.regS1 (b + sp.1)) sp.2 (pieceFault r)

/-! ### Destinations -/

/-- Deliver one arrival at each destination core of a copy with W = 1 (R257, R263). -/
def deliverArrivals (d : Dev) (x : Cmd) (cores : List Nat) (n : Nat) : Dev :=
  if cpyW x then cores.foldl (fun d c => syncArrive d c (syncOffset x) n) d else d

/-- Translate the sectors of a global write: the runs of bytes by physical address, and the device that holds the translations. -/
def placeHomes (core va : Nat) (a : Word) (bytes : List Byte) (r : Run) : Dev → List (Nat × Nat) → Except FaultRec (Dev × List (Nat × List Byte))
  | d, [] => .ok (d, [])
  | d, q :: t =>
    match translateFor d core ((va + q.1) % 2 ^ 60) .write with
    | .error c => .error (pieceFault r c (moveAddr a q.1))
    | .ok e =>
      match placeHomes core va a bytes r (fillTlb d core e) t with
      | .error f => .error f
      | .ok (d, l) => .ok (d, (physical e ((va + q.1) % 2 ^ 60), (bytes.drop q.1).take q.2) :: l)

/-- A piece at its destination, with every check that its write makes (Table 11.6): nothing of it can fault later. -/
def placePiece (d : Dev) (core : Nat) (r : Run) (s : Side) (a : Word) (bytes : List Byte) : Except FaultRec (Dev × PieceOut) :=
  match s with
  | .global va =>
    match writableRun d core va a 0 bytes.length r.step with
    | some f => .error { f with isw := BitVec.ofNat 16 r.piece }
    | none => (placeHomes core va a bytes r d (cutSectors va bytes.length)).map fun p => (p.1, { homes := p.2 })
  | _ =>
    let cores := sideCores (getCore d core) core s
    match peerCheck d core (sideBase s) bytes.length cores with
    | some c => .error (pieceFault r c a)
    | none =>
      if syncForeign d r.cmd cores then .error (pieceFault r .permission r.cmd.regS3)
      else .ok (d, { cores := cores, off := sideBase s, bytes := bytes })

/-- Where the run's piece goes. -/
def pieceDest (d : Dev) (core : Nat) (o : CpyOp) (r : Run) (bytes : List Byte) : Except FaultRec (Dev × PieceOut) :=
  let x := r.cmd
  let sp := pieceSpan x r.piece
  match sideOf d core x x.regD with
  | none => .error (pieceFault r .address x.regD)
  | some s =>
    match blockOffset d core r s x.regD (dstLevels x) (o = .cpys) with
    | .error f => .error f
    | .ok b => placePiece d core r (moveSide s (b + sp.1)) (moveAddr x.regD (b + sp.1)) bytes

/-- Write a placed piece and deliver its arrivals (R257, R263), at every member at once (log entry 143). -/
def writePiece (d : Dev) (core : Nat) (x : Cmd) (p : PieceOut) : Dev :=
  let d := p.homes.foldl (fun d q => engineStore d core q.1 q.2) d
  deliverArrivals (p.cores.foldl (fun d c => spmWrite d c p.off p.bytes) d) x p.cores p.bytes.length

/-- The sectors that a placed piece writes at homes (R136). -/
def pieceSig (p : PieceOut) : BitVec 512 := sigOfRanges (p.homes.map fun q => (q.1, q.2.length))

/-! ### CPYR (R264, R265) -/

/-- The f32 words of a piece. -/
def f32Words (l : List Byte) : List Nat := (byteElems 32 l).toList

/-- round(y + c, f32, RNE). -/
def combineWord (y c : Nat) : Nat := (finish .f32 .rne (addExact .rne (elemValue .f32 y) (elemValue .f32 c))).bits

/-- Every NaN result is the canonical NaN (R264). -/
def combinedWord (y : Nat) : Nat := if fvalIsNan (elemValue .f32 y) then cnan .f32 else y

/-- Combine contributions in ascending rank, from the destination's words when A = 1. -/
def combinePieces (start : Option (List Nat)) (l : List (List Nat)) : List Nat :=
  let sum :=
    match start, l with
    | some y, _ => l.foldl (fun y c => List.zipWith combineWord y c) y
    | none, [] => []
    | none, c :: r => r.foldl (fun y c => List.zipWith combineWord y c) c
  sum.map combinedWord

/-- Two contributions belong to one destination piece (R265). -/
def samePiece (a b : Contribution) : Bool := a.core = b.core && a.off = b.off && a.mask = b.mask && a.zero = b.zero

/-- The contribution that the run's piece sends. -/
def contribute (d : Dev) (core : Nat) (r : Run) (bytes : List Byte) (zero : Bool) : Dev :=
  let x := r.cmd
  match sideOf d core x x.regD with
  | some (.spm c off _) =>
    let b := nestOffset (dstLevels x) r.step none + (pieceSpan x r.piece).1
    let t : Contribution :=
      { core := c, off := if zero then off else ((off : Int) + b).toNat, mask := BitVec.ofNat 8 (cpyMask x), rank := cmdRank (getCore d core) x
        src := core, age := x.age, add := fnBit x.f 1, data := bytes, word := if cpyW x then some (syncOffset x) else none, zero := zero }
    { d with combining := d.combining ++ [t] }
  | _ => d

/-- The oldest contribution of each rank of a mask to one piece, of those that have reached the switch; none while one is missing. -/
def gathered (d : Dev) (t : Contribution) : Option (List Contribution) :=
  ((List.range 8).filter fun i => Bits.bit t.mask.toNat i).mapM fun i => d.combining.find? fun c => samePiece c t && c.rank = i && c.done

/-- Write a complete combination, with its one arrival, and free its contributions; the words that A = 1 adds to are read as they stand (R264, log
entry 131). -/
def finishCombination (d : Dev) (t : Contribution) (l : List Contribution) : Dev :=
  let words := combinePieces
    (if l.any (·.add) then some (f32Words (Sparse.dense (getCore d t.core).spm 0 t.off (t.data.length))) else none)
    (l.map fun c => f32Words c.data)
  let d := if t.zero then d else spmWrite d t.core t.off ((words.flatMap fun w => Bits.toBytes 4 w).take t.data.length)
  let d := match l.findSome? (·.word) with | some w => syncArrive d t.core w t.data.length | none => d
  { d with combining := d.combining.filter fun c => !l.contains c }

/-- The n-th contribution under way waits: for an older one of its rank to its piece (R265), or for an earlier one of its command, whose pieces reach
the switch in their order (R257). -/
def contributionWaits (d : Dev) (n : Nat) (t : Contribution) : Bool :=
  (d.combining.take n).any fun c => (samePiece c t && c.rank = t.rank) || (c.src = t.src && c.age = t.age && !c.done)

/-- A contribution reaches the switch, unless it waits. -/
def contributionArrives (d : Dev) (n : Nat) : Dev :=
  match d.combining[n]? with
  | none => d
  | some t =>
    if t.done || contributionWaits d n t then d
    else
      let d := { d with combining := d.combining.set n { t with done := true } }
      match gathered d t with
      | some l => finishCombination d t l
      | none => d

/-! ### One piece -/

/-- The destination is the issuing core's own scratchpad, or a multicast set that holds it: its bytes are written by completion (R258). -/
def localDest (d : Dev) (core : Nat) (o : CpyOp) (x : Cmd) : Bool :=
  match o, sideOf d core x x.regD with
  | .cpyr, _ => false
  | _, some (.spm _ _ own) => own
  | _, some (.multi m _) => ownMember (getCore d core) x m
  | _, _ => false

/-- The run after a piece of it has been written. -/
def pieceWritten (d : Dev) (core : Nat) (r : Run) (p : PieceOut) (g : Run → Run) : Dev :=
  modCore (writePiece d core r.cmd p) core fun k => modRun k r.cmd.age fun v => g { v with sig := v.sig ||| pieceSig p }

/-- The contribution of a CPYR's piece, with the check of its destination (Table 11.6). -/
def sendContribution (d : Dev) (core : Nat) (r : Run) (s : SourceRead) : Dev :=
  match sideOf d core r.cmd r.cmd.regD with
  | some (.spm c off _) =>
    let at_ := ((off : Int) + nestOffset (dstLevels r.cmd) r.step none + (pieceSpan r.cmd r.piece).1).toNat
    match peerCheck d core at_ s.bytes.length [c] with
    | some e => engineFault d core r.cmd (pieceFault r e (moveAddr r.cmd.regD ((at_ : Int) - off)))
    | none =>
      if syncForeign d r.cmd [c] then engineFault d core r.cmd (pieceFault r .permission r.cmd.regS3)
      else modCore (contribute (countZeroed s.dev core s.zeroed) core r s.bytes false) core fun k => modRun k r.cmd.age nextPiece
  | _ => engineFault d core r.cmd (pieceFault r .address r.cmd.regD)

/-- Move the run's next piece (R257): from its source to its destination, or, once the copy has completed, the next of the pieces it has
read. -/
def movePiece (d : Dev) (core : Nat) (o : CpyOp) (r : Run) : Dev :=
  match r.done, r.buf with
  | true, [] => d
  | true, p :: rest => pieceWritten d core r p fun v => { v with buf := rest }
  | false, _ =>
    if !piecesLeft r then d
    else
      match pieceSource d core o r with
      | .error f => engineFault d core r.cmd f
      | .ok s =>
        if o = .cpyr then sendContribution d core r s
        else
          match pieceDest s.dev core o r s.bytes with
          | .error f => engineFault d core r.cmd f
          | .ok (e, p) => pieceWritten (countZeroed e core s.zeroed) core r p fun v => nextPiece (keepIndex d core o r v)

/-- Read every remaining piece of a copy and check where it goes; none when one faults. -/
def readAhead (core : Nat) (o : CpyOp) : Nat → Dev → Run → List PieceOut → Option (Dev × List PieceOut)
  | 0, d, _, l => some (d, l.reverse)
  | n + 1, d, r, l =>
    if !piecesLeft r then some (d, l.reverse)
    else
      match pieceSource d core o r with
      | .error _ => none
      | .ok s =>
        match pieceDest s.dev core o r s.bytes with
        | .error _ => none
        | .ok (e, p) => readAhead core o n (countZeroed e core s.zeroed) (nextPiece (keepIndex d core o r r)) (p :: l)

/-- The pieces that a run has not moved. -/
def remainingPieces (r : Run) : Nat := (nestIterations r.cmd - r.step) * pieceCount r.cmd - r.piece

/-- Send every remaining contribution of a CPYR. -/
def contributeAll (core age : Nat) : Nat → Dev → Dev
  | 0, d => d
  | n + 1, d =>
    match findRun (getCore d core) age with
    | some r => if r.stopped.isSome || !piecesLeft r then d else contributeAll core age n (movePiece d core .cpyr r)
    | none => d

/-- The arrival of a copy of zero extent (R261); a CPYR contributes one of 0 bytes whatever its own W (R264). -/
def zeroArrival (d : Dev) (core : Nat) (o : CpyOp) (r : Run) : Dev :=
  if o = .cpyr then contribute d core r [] true
  else if !cpyW r.cmd then d
  else
    match sideOf d core r.cmd r.cmd.regD with
    | some s => deliverArrivals d r.cmd (sideCores (getCore d core) core s) 0
    | none => d

/-- The writes of a completed copy have reached every destination (Table 11.5). -/
def copyWritten (d : Dev) (core : Nat) (r : Run) : Bool :=
  r.buf.isEmpty && !d.combining.any fun c => c.src = core && c.age = r.cmd.age && !c.zero

end Sys2Proof.Machine
end

