-- ==== Sys2Proof/Machine/KvEngine.lean ====
section
/-!
DEFINITION. The KV commands of the copy engine: sequence tables, block entries, pages and draft slots in global memory (R269 to R277).
-/

namespace Sys2Proof.Machine

/-- A sequence table entry (Table 11.7) and its address. -/
structure KvEntry where
  va     : Nat
  length : Nat
  blktab : Nat
  draft  : Nat
  nblk   : Nat
  rowb   : Nat
  deriving DecidableEq, Repr

/-- A block entry (Table 11.8) and its address. -/
structure KvBlock where
  va   : Nat
  page : Nat
  s    : Nat
  deriving DecidableEq, Repr

/-- KV_RANGE with its status word (Table 11.10). -/
def kvFault (step isw : Nat) : FaultRec := { cause := .kvRange, step := step, isw := BitVec.ofNat 16 isw }

/-- A global address as EADDR receives it. -/
def globalAddr (va : Nat) : Word := mkAddr 0 va

/-- The physical address of a byte of a range that has been translated. -/
def kvPhys (d : Dev) (core va : Nat) : Nat :=
  match translate d core va with
  | some e => physical e va
  | none => 0

/-- Read bytes whatever their poison marks. -/
def kvBytes (d : Dev) (core va n : Nat) : List Byte := (cutSectors va n).flatMap fun r => homeBytes d (kvPhys d core (va + r.1)) r.2

/-- A part of a global range cannot be read. -/
def kvUnreadable (d : Dev) (core va n step : Nat) : Option FaultRec :=
  (cutSectors va n).findSome? fun q =>
    match translateFor d core ((va + q.1) % 2 ^ 60) .read with
    | .error c => some { cause := c, step := step, eaddr := globalAddr (va + q.1) }
    | .ok _ => none

/-- Read a global range of structure, without Z; a command that keeps poison marks reads through them (R273). -/
def kvRead (marks : Bool) (d : Dev) (core va n step : Nat) : Except FaultRec (Nat × Dev) :=
  if marks then
    match readRun d core (.global (va % 2 ^ 60)) (globalAddr va) 0 n step with
    | .error f => .error f
    | .ok r => .ok (Bits.ofBytes r.1, r.2)
  else
    match kvUnreadable d core (va % 2 ^ 60) n step with
    | some f => .error f
    | none => .ok (Bits.ofBytes (kvBytes d core (va % 2 ^ 60) n), d)

/-- The entry of a sequence, checked (R271, Table 11.10), under the binding that the stream has as the command starts or resumes (log entry 150). The tags
of DRAFT and BLKTAB have no effect (log entry 152). -/
def kvEntry (marks : Bool) (d : Dev) (core : Nat) (r : Run) (seq : Word) (step : Nat) : Except FaultRec (KvEntry × Dev) :=
  match (getStream d core r.cmd.stream).kv with
  | none => .error (kvFault step 1)
  | some (base, count) =>
    if count ≤ seq.toNat then .error (kvFault step 2)
    else
      let va := (base.toNat + 32 * seq.toNat) % 2 ^ 60
      match kvRead marks d core va 32 step with
      | .error f => .error f
      | .ok (v, d) =>
        let e : KvEntry := { va := va, length := Bits.field v 31 0, blktab := Bits.field v 127 64, draft := Bits.field v 191 128
                             nblk := Bits.field v 223 192, rowb := Bits.field v 239 224 }
        if Bits.field v 255 240 ≠ 0 ∨ Bits.field v 63 32 ≠ 0 ∨ e.rowb = 0 ∨ e.rowb % 4 ≠ 0 ∨ e.draft % 64 ≠ 0 ∨ e.blktab % 16 ≠ 0 then
          .error (kvFault step 3)
        else .ok (e, d)

/-- The entry of block b. PAGE need not be aligned, and its tag has no effect (log entry 152). -/
def kvBlock (marks : Bool) (d : Dev) (core : Nat) (e : KvEntry) (b step : Nat) : Except FaultRec (KvBlock × Dev) :=
  if e.nblk ≤ b then .error (kvFault step 5)
  else
    let va := (e.blktab + 16 * b) % 2 ^ 60
    match kvRead marks d core va 16 step with
    | .error f => .error f
    | .ok (v, d) => .ok ({ va := va, page := Bits.field v 63 0, s := Bits.field v 127 64 }, d)

/-- The block entry of a command that needs its page. -/
def kvPageBlock (marks : Bool) (d : Dev) (core : Nat) (e : KvEntry) (b step : Nat) : Except FaultRec (KvBlock × Dev) :=
  match kvBlock marks d core e b step with
  | .error f => .error f
  | .ok (k, d) => if k.page = 0 then .error (kvFault step 5) else .ok (k, d)

/-- popcount(S and (2^o - 1)): the slot of offset o (R270). -/
def kvSlot (s o : Nat) : Nat := Bits.popcount o s

/-- Read ROWB bytes of a data row, under Z (R260). -/
def kvRow (d : Dev) (core : Nat) (r : Run) (s : Side) (a : Word) (n step : Nat) : Except FaultRec (List Byte × Dev) :=
  match readSource d core (cpyZ r.cmd) s a n fun c e => { cause := c, step := step, eaddr := e } with
  | .error f => .error f
  | .ok t => .ok (t.bytes, countZeroed t.dev core t.zeroed)

/-- Write a global range that has passed its translation. -/
def kvWrite (core : Nat) (va step : Nat) (bytes : List Byte) (d : Dev) : EngOut :=
  writeRun d core (.global (va % 2 ^ 60)) (globalAddr va) 0 bytes step

/-- Each of the global ranges of an append can be written. -/
def kvWritable (d : Dev) (core step : Nat) (l : List (Nat × Nat)) : Option FaultRec :=
  l.findSome? fun p => writableRun d core (p.1 % 2 ^ 60) (globalAddr p.1) 0 p.2 step

/-- Append one row at LENGTH (R272): the row's bytes, then S(b), then LENGTH. -/
def kvAppend (d : Dev) (core : Nat) (e : KvEntry) (bytes : List Byte) (j : Nat) : EngOut :=
  let b := e.length / 64
  let o := e.length % 64
  match kvPageBlock true d core e b j with
  | .error f => { dev := d, fault := some f }
  | .ok (k, d) =>
    let row := k.page + kvSlot k.s o * e.rowb
    match kvWritable d core j [(row, e.rowb), (k.va + 8, 8), (e.va, 4)] with
    | some f => { dev := d, fault := some f }
    | none =>
      chain (chain (kvWrite core row j bytes d) (kvWrite core (k.va + 8) j (Bits.toBytes 8 (k.s ||| 2 ^ o))))
        (kvWrite core e.va j (Bits.toBytes 4 (e.length + 1)))

/-- Append rows from row j on: `source` gives the row's bytes; the entry is read again for each row's LENGTH, and the block
is asked for before the source (log entry 132). -/
def kvAppends (core : Nat) (r : Run) (seq : Word) (source : Dev → KvEntry → Nat → Except FaultRec (List Byte × Dev)) (n : Nat) (d : Dev) :
    EngOut :=
  runSteps d
    (fun d j =>
      match kvEntry true d core r seq j with
      | .error f => { dev := d, fault := some f }
      | .ok (e, d) =>
        match kvPageBlock true d core e (e.length / 64) j with
        | .error f => { dev := d, fault := some f }
        | .ok _ =>
          match source d e j with
          | .error f => { dev := d, fault := some f }
          | .ok (bytes, d) => kvAppend d core e bytes j)
    ((List.range (n - r.step)).map (· + r.step))

/-- A command that appends nothing still checks its entry (R271). -/
def kvChecked (d : Dev) (core : Nat) (r : Run) (seq : Word) (body : Dev → EngOut) : EngOut :=
  match kvEntry true d core r seq r.step with
  | .error f => { dev := d, fault := some f }
  | .ok (_, d) => body d

/-- KVAPP (R272). -/
def runKvapp (d : Dev) (core : Nat) (r : Run) : EngOut :=
  let x := r.cmd
  let off := x.regS1.toNat % 2 ^ 22
  kvChecked d core r x.regS2
    (kvAppends core r x.regS2
      (fun d e j => kvRow d core r (.spm core (off + j * e.rowb) true) (moveAddr x.regS1 (j * e.rowb : Nat)) e.rowb j) x.regS3.toNat)

/-- KVCOMP (R274). -/
def runKvcomp (d : Dev) (core : Nat) (r : Run) : EngOut :=
  let x := r.cmd
  let off := x.regS2.toNat % 2 ^ 22
  kvChecked d core r x.regS1
    (kvAppends core r x.regS1
      (fun d e j =>
        if spmPoisoned (getCore d core) (off + j) 1 then .error { cause := .poison, step := j, eaddr := moveAddr x.regS2 j }
        else
          let dj := Bits.ofBytes (Sparse.dense (getCore d core).spm 0 (off + j) 1)
          if 64 ≤ dj then .error (kvFault j 6)
          else kvRow d core r (.global ((e.draft + dj * e.rowb) % 2 ^ 60)) (globalAddr (e.draft + dj * e.rowb)) e.rowb j)
      x.regS3.toNat)

/-! ### KVEVICT (R273) -/

/-- Move a row, its poison marks with it: a sector that takes a byte of a poisoned sector becomes poisoned. -/
def kvMoveRow (core n : Nat) (d : Dev) (src dst : Nat) : EngOut :=
  if src = dst then { dev := d }
  else
    let bytes := kvBytes d core src n
    let bad := (List.range n).filter fun i => homePoisoned d (kvPhys d core (src + i)) 1
    let marks := (bad.map fun i => kvPhys d core (dst + i) / 64).dedup
    let o := kvWrite core dst 0 bytes d
    { o with dev := { o.dev with poison := (o.dev.poison ++ marks).dedup } }

/-- The moves of KVEVICT: for each survivor its old and its new slot, ascending. -/
def kvMoves (old new : Nat) : List (Nat × Nat) :=
  ((List.range 64).filter fun o => Bits.bit new o).map fun o => (kvSlot old o, kvSlot new o)

/-- The block entry and the whole page can be read and written. -/
def kvPrepared (d : Dev) (core : Nat) (l : List (Nat × Nat)) : Option FaultRec :=
  l.findSome? fun p => (cutSectors p.1 p.2).findSome? fun q =>
    let va := (p.1 + q.1) % 2 ^ 60
    let bad (k : AccessKind) : Option FaultRec :=
      match translateFor d core va k with
      | .error c => some { cause := c, eaddr := globalAddr va }
      | .ok _ => none
    match bad .read with
    | some f => some f
    | none => bad .write

/-- KVEVICT (R273): it never raises POISON. -/
def runKvevict (d : Dev) (core : Nat) (r : Run) : EngOut :=
  let x := r.cmd
  match kvEntry false d core r x.regS1 0 with
  | .error f => { dev := d, fault := some f }
  | .ok (e, d) =>
    match kvPageBlock false d core e x.regS2.toNat 0 with
    | .error f => { dev := d, fault := some f }
    | .ok (b, d) =>
      match kvPrepared d core [(b.va, 16), (b.page, 64 * e.rowb)] with
      | some f => { dev := d, fault := some f }
      | none =>
        let new := b.s &&& (2 ^ 64 - 1 - x.regS3.toNat)
        let o := runSteps d (fun d m => kvMoveRow core e.rowb d (b.page + m.1 * e.rowb) (b.page + m.2 * e.rowb)) (kvMoves b.s new)
        chain o (kvWrite core (b.va + 8) 0 (Bits.toBytes 8 new))

/-! ### KVGATH and KVRANK (R275, R276) -/

/-- Positions outside p0 ≤ p1 or more than 131,072 of them (ISW 0x0004). -/
def kvSpanOk (x : Cmd) : Bool := kvP0 x ≤ kvP1 x && kvP1 x - kvP0 x ≤ 131072

/-- Position p is present under a block entry and a LENGTH (R270). -/
def kvPresent (b : KvKept) (p : Nat) : Bool := p < b.length && Bits.bit b.s (p % 64)

/-- Take one position of a gather of rows of some bytes: its row, then its mask bit and the count; the page is asked for at a present position (R271,
log entry 123). The record's bytes are read as they stand (log entry 134), and of where the count puts the row
only the end of scratchpad is checked (log entry 151). -/
def gatherPosition (core : Nat) (r : Run) (rowb : Nat) (b : KvKept) (d : Dev) (p : Nat) : EngOut :=
  let x := r.cmd
  if !kvPresent b p then { dev := d }
  else if b.page = 0 then { dev := d, fault := some (kvFault p 5) }
  else
    let va := b.page + kvSlot b.s (p % 64) * rowb
    match kvRow d core r (.global (va % 2 ^ 60)) (globalAddr va) rowb p with
    | .error f => { dev := d, fault := some f }
    | .ok (bytes, d) =>
      let rec_ := x.regS3.toNat % 2 ^ 22
      let c := Bits.ofBytes (Sparse.dense (getCore d core).spm 0 rec_ 8)
      let off := x.regD.toNat % 2 ^ 22 + c * rowb
      if !inSpm off rowb then { dev := d, fault := some { cause := .address, step := p, eaddr := moveAddr x.regD (c * rowb : Nat) } }
      else
        let d := spmWrite d core off bytes
        let i := p - kvP0 x
        let m := Bits.ofBytes (Sparse.dense (getCore d core).spm 0 (rec_ + 8 + i / 8) 1)
        let d := spmWrite d core (rec_ + 8 + i / 8) [BitVec.ofNat 8 (m ||| 2 ^ (i % 8))]
        { dev := spmWrite d core rec_ (Bits.toBytes 8 (c + 1)) }

/-- One position of KVRANK, which asks for no page (R271, log entry 123). -/
def rankPosition (core : Nat) (x : Cmd) (b : KvKept) (d : Dev) (p : Nat) : EngOut :=
  let v := if kvPresent b p then kvSlot b.s (p % 64) else 0xFFFFFFFF
  { dev := spmWrite d core (x.regD.toNat % 2 ^ 22 + 4 * (p - kvP0 x)) (Bits.toBytes 4 v) }

/-- KVGATH and KVRANK walk over positions, block by block, a COPY_PIECE each (R277, log entry 135). -/
def kvWalks (o : CpyOp) : Bool := o = .kvgath || o = .kvrank

/-- The position at which a walk stands; `piece` 1 says that it has begun. -/
def walkStart (r : Run) : Nat := if r.piece = 0 then kvP0 r.cmd else r.step

/-- Positions of a walk are left. -/
def walkLeft (r : Run) : Bool :=
  match r.cmd.op with
  | .cpy o => kvWalks o && walkStart r < kvP1 r.cmd
  | _ => false

/-- The position at which the walk's block ends. -/
def walkEnd (r : Run) : Nat := min (kvP1 r.cmd) (64 * (walkStart r / 64) + 64)

/-- A walk begins once its sequence's entry and its positions have been checked: KVGATH clears the count and the mask bytes of its record (R271, R275). -/
def beginWalk (d : Dev) (core : Nat) (o : CpyOp) (r : Run) : Dev :=
  let n := 8 + (kvP1 r.cmd - kvP0 r.cmd + 7) / 8
  let d := if r.piece = 0 && o = .kvgath then spmWrite d core (r.cmd.regS3.toNat % 2 ^ 22) (List.replicate n 0) else d
  modCore d core fun k => modRun k r.cmd.age fun v => { v with piece := 1, step := walkStart r }

/-- The entry of the walk's block, with LENGTH. It is read once, and not at or beyond LENGTH (R275, R277); a walk that resumes within the block keeps
what it read, but for a page that was not there. -/
def walkEntry (d : Dev) (core : Nat) (r : Run) (e : KvEntry) : Except FaultRec (KvKept × Dev) :=
  let p := walkStart r
  match r.block with
  | some b =>
    if b.page ≠ 0 then .ok (b, d)
    else
      match kvBlock true d core e (p / 64) p with
      | .error f => .error f
      | .ok (k, d) => .ok ({ b with page := k.page }, d)
  | none =>
    if e.length ≤ p then .ok ({ page := 0, s := 0, length := e.length }, d)
    else
      match kvBlock true d core e (p / 64) p with
      | .error f => .error f
      | .ok (k, d) => .ok ({ page := k.page, s := k.s, length := e.length }, d)

/-- The positions of the walk's block, from the one at which it stands: a fault keeps the block's entry for the resumption. -/
def walkPositions (d : Dev) (core : Nat) (r : Run) (b : KvKept) (one : KvKept → Dev → Nat → EngOut) : EngOut :=
  let p := walkStart r
  let d := modCore d core fun k => modRun k r.cmd.age fun v => { v with block := some b }
  let o := runSteps d (one b) ((List.range (walkEnd r - p)).map (p + ·))
  match o.fault with
  | some _ => o
  | none => { o with dev := modCore o.dev core fun k => modRun k r.cmd.age fun v => { v with step := walkEnd r, block := none } }

/-- A walk's sequence, checked, and the walk begun; then a body. -/
def walkChecked (d : Dev) (core : Nat) (o : CpyOp) (r : Run) (body : KvEntry → Dev → EngOut) : EngOut :=
  match kvEntry true d core r r.cmd.regS1 (walkStart r) with
  | .error f => { dev := d, fault := some f }
  | .ok (e, d) => if !kvSpanOk r.cmd then { dev := d, fault := some (kvFault (walkStart r) 4) } else body e (beginWalk d core o r)

/-- One block of KVGATH or KVRANK (R275, R276, R277). -/
def walkBlock (d : Dev) (core : Nat) (o : CpyOp) (r : Run) : EngOut :=
  walkChecked d core o r fun e d =>
    match walkEntry d core r e with
    | .error f => { dev := d, fault := some f }
    | .ok (b, d) => walkPositions d core r b (if o = .kvgath then gatherPosition core r e.rowb else rankPosition core r.cmd)

/-- The completion of KVGATH or KVRANK: one of no positions makes its checks here, and KVGATH clears its record. -/
def finishWalk (d : Dev) (core : Nat) (o : CpyOp) (r : Run) : EngOut :=
  if r.piece = 0 then walkChecked d core o r fun _ d => { dev := d } else { dev := d }

/-! ### The commands -/

/-- KVMAP: the stream's binding from here on (R271). -/
def runKvmap (d : Dev) (core : Nat) (r : Run) : EngOut :=
  { dev := modStream d core r.cmd.stream fun t => { t with kv := some (r.cmd.regS1, r.cmd.regS2.toNat) } }

/-- Execute a KV command from its step; of a walk, what is left once its blocks are taken. -/
def runKv (d : Dev) (core : Nat) (o : CpyOp) (r : Run) : EngOut :=
  match o with
  | .kvmap => runKvmap d core r
  | .kvgath | .kvrank => finishWalk d core o r
  | .kvapp => runKvapp d core r
  | .kvcomp => runKvcomp d core r
  | .kvevict => runKvevict d core r
  | _ => { dev := d }

/-- A KV command that writes global memory, whose visibility is a step of its own (R270). -/
def kvGlobal (o : CpyOp) : Bool := o = .kvapp || o = .kvcomp || o = .kvevict

/-- The steps that a completed copy-queue command performed (R280): the iterations of a copy, the rows or positions that a KV command counts
as its steps (log entry 106); none of a copy of zero extent (log entry 144). -/
def copySteps (o : CpyOp) (r : Run) : Nat :=
  match o with
  | .kvapp | .kvcomp => r.cmd.regS3.toNat
  | .kvgath | .kvrank => kvP1 r.cmd - kvP0 r.cmd
  | .kvmap | .kvevict => 0
  | _ => if zeroExtent r.cmd then 0 else nestIterations r.cmd

end Sys2Proof.Machine
end

