-- ==== Sys2Proof/Machine/Waits.lean ====
section
/-!
DEFINITION. TWAIT, and which of the waits for a counter is served first (R24, R140, log entry 125).
-/

namespace Sys2Proof.Machine

/-! ### A bundle that waits -/

/-- A slot of a bundle as it would issue now: its stream's registers and its device are those of now. -/
def slotState (d : Dev) (core i : Nat) (x : Nat × Word × Instr) : State :=
  { dev := d, pre := d, cur := { core := core, stream := i, slot := x.1, pc := x.2.1, bundle := x.2.1 } }

/-- The instruction's effect is a stall. -/
def stalls (r : Result) : Bool :=
  match r with
  | .next t => decide (t.status = .stalled)
  | _ => false

/-- An instruction other than a TWAIT stalls in a state: those that can are the engine commands, the accesses that the range checker holds, and the
instructions that wait for a condition of their own. -/
def slotStalls (i : Instr) (s : State) : Bool :=
  match engineOf i with
  | some (o, f) => stalls (instr true f s (enqueueBody o f))
  | none =>
    match i with
    | .ld f => stalls (execLd f s) | .st f => stalls (execSt f s) | .lda f => stalls (execLda f s) | .sta f => stalls (execSta f s)
    | .push f => stalls (execPush f s) | .pop f => stalls (execPop f s) | .call f => stalls (execCall f s) | .ret f => stalls (execRet f s)
    | .vany f => stalls (execVany f s) | .vall f => stalls (execVall f s)
    | .swinit f => stalls (execSwinit f s) | .swarm f => stalls (execSwarm f s) | .swwait f => stalls (execSwwait f s)
    | .swarrive f => stalls (execSwarrive f s) | .fence f => stalls (execFence f s) | .garrive f => stalls (execGarrive f s)
    | .gwait f => stalls (execGwait f s) | .watch f => stalls (execWatch f s) | .unwatch f => stalls (execUnwatch f s)
    | .exit f => stalls (execExit f s) | .split f => stalls (execSplit f s) | .join f => stalls (execJoin f s)
    | .syswr f => stalls (execSyswr f s) | .qcfg f => stalls (execQcfg f s) | .genf f => stalls (execGenf f s)
    | .boundcfg f => stalls (execBoundcfg f s) | .tick f => stalls (execTick f s)
    | .oaxdef f => stalls (execOaxdef f s) | .slwait f => stalls (execSlwait f s) | .launch f => stalls (execLaunch f s)
    | _ => false

/-- The counters that the TWAITs of a bundle take. -/
def waitCounters (l : List (Nat × Word × Instr)) (s : State) : List Nat :=
  l.flatMap fun x =>
    match x.2.2 with
    | .twait f => if gateOpen f s then [f.d.toNat] else []
    | .twaitB2 _ d _ => [d.toNat]
    | _ => []

/-- The bundle that a stream waits at would now issue: nothing keeps the stream, the counters hold what its TWAITs take, and none of its other slots
stalls, each tested by itself (log entry 125). -/
def bundleGoes (d : Dev) (core i : Nat) (l : List (Nat × Word × Instr)) : Bool :=
  let k := getCore d core
  let t := coreStream k i
  streamGoes d t && !axisBlocks k t && countsMet k (waitCounters l (slotState d core i (0, 0, .nop {}))) &&
    l.all fun x => !slotStalls x.2.2 (slotState d core i x)

/-- A bundle whose TWAITs have waited since before an age, and which would now issue, takes one of the counters first (R24, log entry 125). -/
def waiterFirst (d : Dev) (core age : Nat) (counters : List Nat) : Bool :=
  let k := getCore d core
  (streamsOf k).any fun i => (coreStream k i).wait.any fun w =>
    w.1 < age && (waitCounters w.2 (slotState d core i (0, 0, .nop {}))).any counters.contains && bundleGoes d core i w.2

/-! ### TWAIT (R140) -/

/-- The age of a TWAIT of the stream: that which its bundle took as it first stalled, else that of the next command (R24, log entry 125). -/
def waitAge (s : State) : Nat := ((preStream s).wait.map (·.1)).getD (preCore s).nextAge

/-- Stall until the count is at least 1, then take 1 (R140). An older command that can start, or an older TWAIT, takes the counter first (R24). -/
def twaitBody (f : Fields) (s : State) : State :=
  withQuota s f.d.toNat fun s =>
    let x := getToken (curCore s) f.d.toNat
    if x.count = 0 || servedFirst (curCore s) (waitAge s) [f.d.toNat] || waiterFirst s.dev s.cur.core (waitAge s) [f.d.toNat] then stall s
    else onCore s fun k => setToken k f.d.toNat { x with count := x.count - 1 }

/-- TWAIT (R140). -/
def execTwait (f : Fields) (s : State) : Result := instr (legalToken (isSplit s) f) f s (twaitBody f)

/-- TWAIT_B2: row 15 of Table 3.4 (R41, R140). -/
def execTwaitB2 (fin : Bool) (d : BitVec 5) (e : BitVec 4) (s : State) : Result :=
  let f := (shortWord 15 fin d e).2
  instr (decide (e = 0) && legalToken (isSplit s) f) f s (twaitBody f)

end Sys2Proof.Machine
end

