-- ==== Sys2Proof/Machine/EngineRun.lean ====
section
/-!
DEFINITION. When an engine starts, steps and completes its commands (R13, R14, R17, R19, R23, R208, R217, R219, R258, R259): each function
answers none where the event cannot happen.
-/

namespace Sys2Proof.Machine

/-! ### Starting -/

/-- Remove the head of a queue. -/
def popHead (k : Core) (i : Nat) (q : QueueId) : Core :=
  modCoreStream k i fun t => modQueue t q fun x => { x with entries := x.entries.drop 1 }

/-- A matrix command of the lease's holder has started: the lease counts it, and ends at its length or at its LREL (R114, R219). -/
def countLease (k : Core) (i : Nat) : Core :=
  match k.lease with
  | none => k
  | some l =>
    let k := { k with lease := some { l with used := l.used + 1 } }
    let released := (coreStream k i).lrel.any fun a => !(queuedCmds (coreStream k i).qmtx).any fun x => x.age < a
    if l.len ≤ l.used + 1 || released then endLease k i else k

/-- COMMAND_START (R13, R23); an older command that can start, or an older TWAIT, takes a counter first (R24). A queue whose head is a fence that its older commands have passed drops it. -/
def startCommand (d : Dev) (core i : Nat) (q : QueueId) : Option Dev :=
  let k := getCore d core
  let k1 := popFences k i q
  match startable k1 i q with
  | some x =>
    if !turnAllows k1 i q || servedFirst k1 x.age (waitFields x) || waiterFirst (setCore d core k1) core (x.age + 1) (waitFields x) then none
    else
      let k2 := popHead (takeTokens k1 x) i q
      let k3 := if q = .mtx && k2.split then countLease k2 i else if q = .cpy then { k2 with cpyTurn := i } else k2
      let p := pickup k3 { cmd := x }
      let d := setCore d core { p.1 with running := p.1.running ++ [p.2.1] }
      some (match p.2.2 with | none => d | some f => engineFault d core x f)
  | none => if (getQueue (coreStream k1 i) q).entries ≠ (getQueue (coreStream k i) q).entries then some (setCore d core k1) else none

/-- A command whose pickup faulted is picked up again when it goes on. -/
def repick (d : Dev) (core : Nat) (r : Run) : Dev × Option Run :=
  if r.picked then (d, some r)
  else
    let p := pickup (getCore d core) r
    let d := setCore d core (modRun p.1 r.cmd.age fun _ => p.2.1)
    match p.2.2 with
    | none => (d, some p.2.1)
    | some f => (engineFault d core r.cmd f, none)

/-! ### Stepping -/

/-- A run of a core that goes on. -/
def liveRun (d : Dev) (core age : Nat) : Option Run := (findRun (getCore d core) age).filter (goesOn (getCore d core))

/-- The array is the run's: a resumed product waits for one that has the array, and resumed ones go by age (R217). -/
def arrayTurn (k : Core) (r : Run) : Bool :=
  k.running.all fun v =>
    v.cmd.age = r.cmd.age || !onArray v.cmd || v.stopped.isSome || (v.resumed && (!r.resumed || r.cmd.age < v.cmd.age))

/-- K_BLOCK (R221, R232, R240). -/
def stepBlock (d : Dev) (core age : Nat) : Option Dev :=
  match liveRun d core age with
  | none => none
  | some r =>
    if !blocksLeft r || !arrayTurn (getCore d core) r then none
    else
      match repick d core r with
      | (d, none) => some d
      | (d, some r) => some (productBlock d core r)

/-- Take what an execution did: a fault stops the run; otherwise `next` goes on with the run as it then stands. -/
def afterExec (o : EngOut) (core : Nat) (r : Run) (next : Dev → Run → Dev) : Dev :=
  let d := modCore o.dev core fun k => modRun k r.cmd.age fun v => { v with flags := v.flags.or o.flags, sig := v.sig ||| o.sig }
  match o.fault with
  | some f => engineFault d core r.cmd f
  | none => next d { r with flags := r.flags.or o.flags, sig := r.sig ||| o.sig }

/-- COPY_PIECE (R257); of KVGATH and KVRANK, a block of their positions (R277, log entry 135). -/
def stepPiece (d : Dev) (core age : Nat) : Option Dev :=
  match liveRun d core age with
  | none => none
  | some r =>
    match r.cmd.op with
    | .cpy o =>
      if walkLeft r then some (afterExec (walkBlock d core o r) core r fun d _ => d)
      else if isKv o || (if r.done then r.buf.isEmpty else !piecesLeft r) then none else some (movePiece d core o r)
    | _ => none

/-! ### Completing (R20, R23, R177, R258) -/

/-- The steps that a completed command performed (R280). -/
def commandSteps (core : Nat) (r : Run) : Nat :=
  match r.cmd.op with
  | .vec o => vectorSteps core o r
  | .mat o => matrixSteps o r
  | .cpy o => copySteps o r

/-- What follows a completion: fences pass, rules leave the table, retire counts follow. -/
def afterCompletion (d : Dev) (core : Nat) (x : Cmd) : Dev :=
  settleRules (modCore d core fun k => popFences k x.stream (queueOf x.op)) core

/-- A command completes and leaves the core: flags, then its posts. `vis` also reaches its visibility. -/
def retireCommand (d : Dev) (core : Nat) (r : Run) (vis : Bool) : Dev :=
  let x := r.cmd
  let n := commandSteps core r
  let d := modCore (gatherFlags d core x r.flags) core fun k => dropRun k x.age
  let d := makePost d core x n false (completionPost x)
  afterCompletion (if vis then makePost d core x n true (visibilityPost x) else d) core x

/-- A copy-queue command completes; its visibility is still to come. -/
def completeCopy (d : Dev) (core : Nat) (r : Run) (buf : List PieceOut) : Dev :=
  let x := r.cmd
  let d := modCore d core fun k => modRun k x.age fun v => { v with done := true, buf := buf }
  afterCompletion (makePost d core x (commandSteps core r) false (completionPost x)) core x

/-- An engine command without a visibility scope posts its signature at GANG, DIE and DEVICE before its completion (R136). -/
def postWritten (d : Dev) (core : Nat) (r : Run) (scope : Nat) : Dev := if r.sig = 0 then d else postTo d core scope r.sig

/-- The completion of a copy (Table 11.5): one with a local destination once every piece is written; any other once its source is
read. -/
def finishCopy (d : Dev) (core : Nat) (o : CpyOp) (r : Run) : Option Dev :=
  if zeroExtent r.cmd then some (retireCommand (zeroArrival d core o r) core r true)
  else if localDest d core o r.cmd then (if piecesLeft r then none else some (retireCommand d core r true))
  else if o = .cpyr then
    let d := contributeAll core r.cmd.age (remainingPieces r) d
    match liveRun d core r.cmd.age with
    | some r => if piecesLeft r then none else some (completeCopy d core r [])
    | none => some d
  else
    match readAhead core o (remainingPieces r) d r [] with
    | none => none
    | some (d, l) => some (completeCopy d core r l)

/-- COMMAND_COMPLETION (R23): the vector engine, the accumulator port and the KV commands do their work here. -/
def completeCommand (d : Dev) (core age : Nat) : Option Dev :=
  match liveRun d core age with
  | none => none
  | some r =>
    if r.done || blocksLeft r || walkLeft r then none
    else
      match repick d core r with
      | (d, none) => some d
      | (d, some r) =>
        match r.cmd.op with
        | .vec o => some (afterExec (runVector d core o r) core r fun d r => retireCommand (postWritten d core r 4) core r false)
        | .mat o => some (afterExec (runMatrix d core o r) core r fun d r => retireCommand (postWritten d core r 4) core r false)
        | .cpy o =>
          if isKv o then
            some (afterExec (runKv d core o r) core r fun d r => if kvGlobal o then completeCopy d core r [] else retireCommand d core r true)
          else finishCopy d core o r

/-- COPY_VISIBILITY (R136, R258). -/
def copyVisible (d : Dev) (core age : Nat) : Option Dev :=
  match findRun (getCore d core) age with
  | none => none
  | some r =>
    if !r.done || r.stopped.isSome || !copyWritten d core r then none
    else
      let d := postWritten d core r (cpyScope r.cmd)
      let d := modCore d core fun k => dropRun k age
      some (makePost d core r.cmd (commandSteps core r) true (visibilityPost r.cmd))

/-! ### Leases (R219) -/

/-- LEASE_GRANT: to the first stream after the last holder that has a startable matrix head. -/
def grantLease (d : Dev) (core : Nat) : Option Dev :=
  let k := getCore d core
  if !k.split || k.lease.isSome then none
  else
    match (turnsAfter k.leaseLast).find? fun i => (clearHead k i .mtx).isSome with
    | none => none
    | some i =>
      let t := coreStream k i
      let l : Lease := { holder := i, len := leaseLength t (t.leaseReq.getD 0), used := 0, explicit := t.leaseReq.isSome }
      some (setCore d core (modCoreStream { k with lease := some l } i fun t => { t with leaseReq := none }))

/-- LEASE_IDLE_END: a lease not taken by LEASE ends when its holder has no startable matrix head. -/
def idleLease (d : Dev) (core : Nat) : Option Dev :=
  let k := getCore d core
  match k.lease with
  | none => none
  | some l => if l.explicit || (clearHead k l.holder .mtx).isSome then none else some (setCore d core (endLease k l.holder))

end Sys2Proof.Machine
end

