-- ==== Sys2Proof/Machine/CoreEvents.lean ====
section
/-!
DEFINITION. Events of a core besides its engines': delivery of engine faults and return from the handler (R76 to R79), arrivals and peer
accesses (R21, R27), L1 evictions (R130), watch matches and notifications (R152, R289), and firings (R300, R301).
-/

namespace Sys2Proof.Machine

/-! ### Faults -/

/-- The oldest pending fault by age (R77). -/
def oldestFault (l : List PendingFault) : Option PendingFault :=
  match l with
  | [] => none
  | f :: r => some (r.foldl (fun b x => if x.age < b.age then x else b) f)

/-- The stream as a fault finds it: one parked in JOIN is to execute its JOIN again afterwards (R68, log entry 103). -/
def unparked (t : Stream) : Stream :=
  match t.run with
  | .parked _ => { t with run := .running }
  | _ => t

/-- FAULT_DELIVERY: at an issue boundary that no delay slot of a transfer follows, once the last bundle has completed and the firings that its SLCOMMITs
owe are enqueued (R76, R77, R78, R299, log entry 114). A fault of a point whose stream has completed EXIT goes to system software (R309). -/
def deliverPending (d : Dev) (core i : Nat) : Option Dev :=
  let t := getStream d core i
  match oldestFault t.faults with
  | none => none
  | some f =>
    if t.suspended || t.delay.isSome || t.ret.isSome || axisBlocks (getCore d core) t then none
    else
      let d := setStream d core i { unparked t with faults := t.faults.erase f }
      some (deliverFault d core i { f with nodel := f.nodel || decide (t.run = .exited) } true t.pc)

/-- The return that SYSWR of STATUS has asked for, with DISCARD or without (R79). -/
def returnStatus (d : Dev) (core i : Nat) (discard : Bool) : Option Dev :=
  let t := getStream d core i
  if t.ret = some discard then some (returnFromFault (setStream d core i { t with ret := none }) core i discard) else none

/-! ### Arrivals and accesses from outside the core -/

/-- ARRIVAL: the k-th arrival under way reaches its word (R27, R142). -/
def arrive (d : Dev) (n : Nat) : Option Dev :=
  match d.arrivals[n]? with
  | none => none
  | some a => some (syncArrive { d with arrivals := d.arrivals.eraseIdx n } a.core a.off a.n)

/-- PEER_ACCESS: bytes of another core's store reach this core's scratchpad; the range checker does not see them (R21). -/
def peerAccess (d : Dev) (core off : Nat) (data : List Byte) : Option Dev :=
  if data.isEmpty || coreCount ≤ core || !inSpm off data.length then none else some (spmWrite d core off data)

/-- L1_EVICTION (R130). -/
def evictL1 (d : Dev) (core s : Nat) : Option Dev :=
  let k := getCore d core
  if (sectorCells k.l1dirty s).isEmpty && (sectorCells k.l1clean s).isEmpty then none else some (evictSector d core s)

/-! ### Watches -/

/-- WATCH_MATCH: a write to these bytes has been performed at the home, and matches the entries whose condition holds (R152). -/
def writeMatches (d : Dev) (pa n : Nat) : Option Dev :=
  let d' := markWatches d fun lo m => decide (0 < n) && pa < lo + m && lo < pa + n
  if d'.watches = d.watches ∧ d'.pushes = d.pushes then none else some d'

/-- The notification of a point's entry: the note, then its token, saturating (R152). A note that has come to lie in another slot's persistent region
is not written (R327, log entry 147). -/
def notePoint (d : Dev) (core : Nat) (w : Watch) : Dev :=
  let d := if foreignRegion d core w.arg 8 then d else spmWrite d core w.arg (memBytes d w.pa 8)
  if w.ten then modCore d core fun k => postSaturating k w.tok else d

/-- NOTIFICATION: it reaches the watching core, or the dispatcher of an axis (R152, R289); those of a saved point wait
for its restore (R333). -/
def deliverNote (d : Dev) (h : Nat) : Option Dev :=
  match Sparse.find? d.watches h with
  | none => none
  | some w =>
    if !w.owed then none
    else
      let d := { d with watches := Sparse.insert d.watches h { w with owed := false } }
      match w.owner with
      | .point core l s o m n => if (pointPlaces d l s o m n).any fun q => q.1 = core then some (notePoint d core w) else none
      | .axis core x =>
        match findAxis (getCore d core) x with
        | some a => if a.watch = some h then some (modCore d core fun k => setAxis k x { a with note := true }) else none
        | none => none
      | .ring _ => some d

/-- COMMIT_WATCH: an axis takes the latest value of its commit word (R289, R290). -/
def applyCommit (d : Dev) (core x : Nat) : Option Dev :=
  match findAxis (getCore d core) x with
  | none => none
  | some a =>
    if !a.note then none
    else
      match a.watch.bind (Sparse.find? d.watches) with
      | none => none
      | some w =>
        let v := memNat d w.pa 8
        some (advanceAxis (modCore d core fun k => setAxis k x { a with note := false }) core x (v % 2 ^ 63) (Bits.bit v 63))

/-! ### Firings -/

/-- The rule that fires next on an axis: by slice, then rank, then install number (R293, R300). -/
def nextRule (k : Core) (x : Nat) : Option (Nat × Rule) :=
  match findAxis k x with
  | none => none
  | some a =>
    (k.rules.filter fun p => ruleOwes x a.n p.2).foldl
      (fun b p =>
        match b with
        | none => some p
        | some q =>
          let before := p.2.next < q.2.next || (p.2.next = q.2.next && (p.2.rank < q.2.rank || (p.2.rank = q.2.rank && p.2.seq < q.2.seq)))
          some (if before then p else q)) none

/-- An operand of a body at slice s: the slice's address for an open-axis operand (R288, R297). -/
def firingReg (k : Core) (cls : Option Cls) (r : BitVec 8) (v : Word) (s : Nat) : Word :=
  if cls = some .a && 16 ≤ r.toNat then (match findAxis k (r.toNat - 16) with | some a => sliceAddr a s | none => v) else v

/-- The command of one firing (R182, R251, R300). -/
def firingCmd (k : Core) (n : Nat) (r : Rule) : Cmd :=
  let h := engineShape r.op r.f
  let x : Cmd :=
    { op := r.op, f := r.f, regD := firingReg k h.d r.f.d r.regD r.next, regS1 := firingReg k h.s1 r.f.s1 r.regS1 r.next
      regS2 := firingReg k h.s2 r.f.s2 r.regS2 r.next, regS3 := firingReg k h.s3 r.f.s3 r.regS3 r.next, firing := some (n, r.next), rseq := r.seq }
  captureStream k.split r.owner (coreStream k r.owner) x

/-- A firing whose enqueue checks fail (R301, R308). -/
def firingRefused (d : Dev) (core n : Nat) (r : Rule) (c : Cause) (a : Word) : Dev :=
  let k := getCore d core
  let r' := { r with state := .suspended, held := false, enqFail := true, cause := causeCode c, eaddr := a, estat := 0 }
  let t := coreStream k r.owner
  let ecmd := BitVec.ofNat 64 (2 ^ 63 + n % 64 * 2 ^ 56 + t.cmdIndex.toNat)
  pendFault (settleRules (setCore d core (setRule k n r')) core) core r.owner
    { age := k.nextAge, cause := .ruleFault, ecmd := ecmd, eeng := eengWord r.owner 4, eaddr := a, nodel := decide (c = .translation) }

/-- The rule dispatcher has stopped for a core: a point on it is to be saved (R311, R331). -/
def dispatcherStopped (d : Dev) (core : Nat) : Bool :=
  (corePoints (getCore d core)).any fun q => pointToSave d q.2

/-- FIRING: the dispatcher enqueues the next firing of an axis, or waits for room (R300). -/
def fireAxis (d : Dev) (core x : Nat) : Option Dev :=
  let k := getCore d core
  match nextRule k x with
  | none => none
  | some (n, r) =>
    if dispatcherStopped d core then none
    else
      let c := firingCmd k n r
      match commandRanges d core c with
      | .error (e, a) => some (firingRefused d core n r e a)
      | .ok g =>
        if queueFull (getQueue (coreStream k r.owner) (queueOf r.op)) || checkerFull k then none
        else
          let d := enqueueCmd d core r.owner { c with reads := g.reads, writes := g.writes }
          some (settleRules (modCore d core fun k => setRule k n { r with next := r.next + 1 }) core)

end Sys2Proof.Machine
end

