-- ==== Sys2Proof/Machine/Placement.lean ====
section
/-!
DEFINITION. Placing a point (R321, R323, R74): free slots, the state of Table 4.6, and the freeing of cores.
-/

namespace Sys2Proof.Machine

/-! ### Free slots (R321) -/

/-- The core holds no point. -/
def coreFree (d : Dev) (c : Nat) : Bool := (corePoints (getCore d c)).isEmpty

/-- The core lies in the launch's bays. -/
def inPlacement (l : Launch) (c : Nat) : Bool := Bits.bit (recBays l.nrec) (c / 8)

/-- The free gang slot with the lowest core number, by its lowest core. -/
def gangSlot (d : Dev) (l : Launch) (size : Nat) : Option Nat :=
  ((List.range (coreCount / size)).map (size * ·)).find? fun b => inPlacement l b && (List.range size).all fun j => coreFree d (b + j)

/-- The lowest free stream of a core already in split mode for the launch. -/
def splitSlot (d : Dev) (n : Nat) (l : Launch) : Option (Nat × Nat) :=
  (List.range coreCount).findSome? fun c =>
    let k := getCore d c
    if k.slaunch && (corePoints k).any (fun p => p.2.launch = n && p.2.serial = l.serial) then
      ([0, 1, 2, 3].find? fun i => (coreStream k i).point.isNone).map fun i => (c, i)
    else none

/-- Where the launch's next fresh point goes: its lowest core, and its stream. -/
def freshSlot (d : Dev) (n : Nat) (l : Launch) : Option (Nat × Nat) :=
  if recSplit l.nrec then (splitSlot d n l).orElse fun _ => (gangSlot d l 1).map fun c => (c, 0)
  else (gangSlot d l (recGang l.nrec)).map fun c => (c, 0)

/-! ### Values that a dispatch leaves undefined (R74) -/

/-- The offset lies in a persistent region of a loaded slot on the core (R327). -/
def persistentAt (d : Dev) (core off : Nat) (other : Nat → Bool) : Bool :=
  d.slots.any fun p => other p.1 && Bits.bit (recBays p.2.nrec) (core / 8) && p.2.poff ≤ off && off < p.2.poff + p.2.psize

/-- Entries outside a test keep their values; inside it they become those of a list. -/
def replaceWhere {α : Type} [DecidableEq α] (m : List (Nat × α)) (z : α) (inside : Nat → Bool) (l : List (Nat × α)) : List (Nat × α) :=
  (l.filter fun p => inside p.1).foldl (fun m p => Sparse.set m z p.1 p.2) (m.filter fun p => !inside p.1)

/-- The scratchpad outside persistent regions holds no defined value. -/
def undefSpm (d : Dev) (core : Nat) : Dev :=
  bumpFresh (modCore d core fun k =>
    { k with spm := replaceWhere k.spm 0 (fun a => !persistentAt d core a fun _ => true)
                      ((Config.undefScratchpad d.fresh).filter fun p => p.1 ≤ spmLast) })

/-- The vector registers and masks that the streams name hold no defined value. -/
def undefVectors (d : Dev) (core : Nat) (i : Option Nat) : Dev :=
  let range (n : Nat) (a : Nat) : Bool := match i with | some i => i * n ≤ a && a < i * n + n | none => a < 4 * n
  bumpFresh (modCore d core fun k =>
    { k with vreg := replaceWhere k.vreg 0 (range (20 * 2048)) (Config.undefVector d.fresh)
             mask := replaceWhere k.mask false (range (8 * 16384)) (Config.undefMask d.fresh) })

/-! ### The state of a dispatch (R74, R323) -/

/-- The core-wide state, when the core held no point before (R22, R148, R287, R323, Table 4.5). No accumulator is left in a state that
would claim its partner (R215). -/
def freshCore (l : Launch) (k : Core) : Core :=
  { k with split := recSplit l.nrec, slaunch := recSplit l.nrec, streams := [], tokens := [], gangSize := recGang l.nrec
           tenant := l.tenant, scopeSys := l.vf.sys, tquota := l.vf.tquota, root := l.vf.root, rules := [], axes := []
           installSeq := 0, arrived := 0, lease := none, leaseLast := 3, cpyTurn := 3, running := []
           accPrec := [], acc := [], bnd := [], poisonA := [], poisonB := []
           applied := Sparse.insert k.applied 2 0
           slot := if recSlot l.nrec = 255 then none else some (recSlot l.nrec) }

/-- An accumulator that the streams name: CLEAR, with BTH and BMODE at reset (R74). -/
def freshAcc (k : Core) (a : Nat) : Core :=
  let k := setBth (clearAcc k a) a 0xFF00
  { k with bmode := setNibble k.bmode a 0 }

/-- The scalar and address files of a cluster (Table 4.6). -/
def freshCluster (p : Point) (l : Launch) : Cluster :=
  let r := l.nrec
  let slot := if recSlot r = 255 then 0xFFFFFFFF else recSlot r
  { s := Sparse.ofList 0
      [(1, BitVec.ofNat 64 p.o), (2, BitVec.ofNat 64 p.m), (3, BitVec.ofNat 64 p.n), (4, BitVec.ofNat 64 p.rank)
       , (5, BitVec.ofNat 64 p.launch), (6, BitVec.ofNat 64 slot)]
    a := Sparse.ofList 0
      (([1, 2, 3, 4, 5, 6, 7].map fun j => (7 + j, recBuf r j)) ++ [(15, mkAddr 8 (recStkLimit r))]) }

/-- A stream at the entry point; everything else is as Table 4.5 and R250 reset it. -/
def freshStream (p : Point) (l : Launch) : Stream :=
  { run := .running, pc := l.entryPc, point := some p
    sys := { stkBase := BitVec.ofNat 22 (recStkBase l.nrec), stkLimit := BitVec.ofNat 22 (recStkLimit l.nrec) } }

/-- Load a point on one core: stream i of a SPLIT launch, else the joined stream (R323). The order of leases begins at stream 0 (R219). -/
def loadCore (d : Dev) (core i : Nat) (p : Point) (l : Launch) : Dev :=
  let one := recSplit l.nrec
  let d := if coreFree d core then undefSpm (modCore d core (freshCore l)) core else d
  let d := undefVectors d core (if one then some i else none)
  let d := modCore d core fun k =>
    let k := (if one then [i] else [0, 1, 2, 3]).foldl freshAcc k
    let k := (if one then [i] else [0, 1, 2, 3]).foldl (fun k j => setCoreCluster k j (freshCluster p l)) k
    { setCoreStream k i (freshStream p l) with icache := [], leaseLast := 3 }
  acquire d core (acquireScope l)

/-- Dispatch a fresh point at a slot (R317, R323). -/
def dispatchFresh (d : Dev) (number : Nat) (l : Launch) (at_ : Nat × Nat) (q : Nat × Nat × Nat) : Dev :=
  let size := recGang l.nrec
  let (o, m, n) := q
  let point (rank : Nat) : Point :=
    { launch := number, serial := l.serial, o := o, m := m, n := n, rank := rank, base := at_.1, size := size, tick := d.tick }
  let d := setLaunch d number { markFlight l (o * recEm l.nrec + m) n with since := d.tick.toNat }
  let d := if coreFree d at_.1 then setGang d at_.1 {} else d
  (List.range size).foldl (fun d j => loadCore d (at_.1 + j) at_.2 (point j) l) d

/-! ### Freeing cores -/

/-- A core that holds no point any more. -/
def freedCore (k : Core) : Core :=
  { k with split := false, slaunch := false, streams := [], rules := [], axes := [], running := [], lease := none, slot := none }

/-- A stream's point leaves its core; with its last point the core is free and its axes are unbound (R61, R287). -/
def freeStream (d : Dev) (core i : Nat) : Dev :=
  let d := modCore d core fun k => setCoreStream k i {}
  if coreFree d core then modCore ((List.range 16).foldl (fun d x => unbindAxis d core x) d) core freedCore else d

end Sys2Proof.Machine
end

