-- ==== Sys2Proof/Machine/RecordCmds.lean ====
section
/-!
DEFINITION. The rule table, the range-checker entries and the stopped commands of a context record as they lie in its state block (R293, R311,
R333, Table 15.8). The manual gives where each lies and what it holds; the order inside is the model's (log entry 9).
-/

namespace Sys2Proof.Machine

/-- An optional number as one word: 0 for none. -/
def optWord (x : Option Nat) : Nat := (x.map (· + 1)).getD 0
def optOfWord (w : Nat) : Option Nat := if w = 0 then none else some (w - 1)

/-- A truth value in bit n of a word. -/
def bitWord (b : Bool) (n : Nat) : Nat := if b then 2 ^ n else 0

/-! ### Internal words -/

/-- The operation of an opcode, and the opcode of an operation (Table 3.9). -/
def opOfOpc (opc : Nat) : Option EngineOp := ((ofOpcode opc {}).bind engineOf).map (·.1)
def opcOfOp (o : EngineOp) : Nat := ((List.range 256).find? fun n => opOfOpc n = some o).getD 0

/-- The internal word of a command, as its B12 form carries it, and what a word holds. -/
def bodyWord (o : EngineOp) (f : Fields) : Nat := wideWord .b12 (opcOfOp o) f
def bodyOfWord (w : Nat) : Option (EngineOp × Fields) := let p := expandWide .b12 w; (opOfOpc p.1).map fun o => (o, p.2)

/-! ### The rule table: 64 bytes each from 0x0C00, and 32 more behind the streams -/

/-- Where rule k lies in a record, and where its slice numbers do. -/
def ruleAt (k : Nat) : Nat := 0xC00 + 64 * k
def ruleTailAt (k : Nat) : Nat := 0x2800 + 0x1000 * (k / 16) + 32 * (k % 16)

/-- A rule: its captured registers, EADDR, its body, its small fields, ESTAT. -/
def ruleWords (r : Rule) : List Nat :=
  let w := bodyWord r.op r.f
  let small := r.axis + 16 * r.owner + 64 * r.rank + bitWord (r.state = .suspended) 14 + bitWord r.held 15 + bitWord r.enqFail 16 + 2 ^ 17 + 2 ^ 18 * r.cause
  [r.regD.toNat, r.regS1.toNat, r.regS2.toNat, r.regS3.toNat, r.eaddr.toNat, w % 2 ^ 64, w / 2 ^ 64 + 2 ^ 32 * small, r.estat.toNat]

/-- Its install sequence number, its first slice, next and horizon. -/
def ruleTail (r : Rule) : List Nat := [r.seq, r.first, r.next, r.horizon]

/-- The fields of ESTAT; its other bits read 0 (R3, Table 4.5). -/
def estatMask : Word := 0x0000FFFFFFFFFFFF

/-- The rule that words hold, if the entry is not FREE; reserved bits of its ESTAT read 0, whatever stands there (R3, log entry 9). -/
def ruleOfWords (w t : Nat → Nat) : Option Rule :=
  let small := w 6 / 2 ^ 32
  if Bits.bit small 17 then
    (bodyOfWord (w 5 + 2 ^ 64 * (w 6 % 2 ^ 32))).map fun b =>
      { op := b.1, f := b.2, regD := BitVec.ofNat 64 (w 0), regS1 := BitVec.ofNat 64 (w 1), regS2 := BitVec.ofNat 64 (w 2), regS3 := BitVec.ofNat 64 (w 3)
        eaddr := BitVec.ofNat 64 (w 4), estat := BitVec.ofNat 64 (w 7) &&& estatMask, axis := small % 16, owner := small / 16 % 4, rank := small / 64 % 256
        state := if Bits.bit small 14 then .suspended else .active, held := Bits.bit small 15, enqFail := Bits.bit small 16, cause := small / 2 ^ 18
        seq := t 0, first := t 1, next := t 2, horizon := t 3 }
  else none

/-! ### Range-checker entries: 64 bytes each from 0x6000 -/

/-- Up to three ranges, a word each. -/
def rangeWords (l : List (Nat × Nat)) : List Nat := (List.range 3).map fun i => ((l[i]?).map fun p => 2 ^ 63 + 2 ^ 32 * p.2 + p.1).getD 0
def rangesOfWords (w : Nat → Nat) : List (Nat × Nat) :=
  (List.range 3).filterMap fun i => if Bits.bit (w i) 63 then some (w i % 2 ^ 32, w i / 2 ^ 32 % 2 ^ 31) else none

/-- The entry of a command: its age, its reads, its writes (R19, R20). -/
def entryWords (x : Cmd) : List Nat := (x.age + 1) :: rangeWords x.reads ++ rangeWords x.writes ++ [0]

/-- The entry that words hold: age, reads, writes. -/
def entryOfWords (w : Nat → Nat) : Option (Nat × List (Nat × Nat) × List (Nat × Nat)) :=
  (optOfWord (w 0)).map fun age => (age, rangesOfWords fun i => w (1 + i), rangesOfWords fun i => w (4 + i))

/-- A command with the ranges of its entry. -/
def withEntry (l : List (Nat × List (Nat × Nat) × List (Nat × Nat))) (x : Cmd) : Cmd :=
  match l.find? fun e => e.1 = x.age with
  | some e => { x with reads := e.2.1, writes := e.2.2 }
  | none => { x with reads := [], writes := [] }

/-! ### Stopped commands: from 0xA000 -/

/-- Every cause of Table 4.7. -/
def allCauses : List Cause :=
  [.illegalEncoding, .illegalInstruction, .fetchFault, .fetchEcc, .stackFault, .align, .translation, .permission, .scope, .tokenCeiling, .address, .queueCfg
   , .lease, .boundTrap, .formatTable, .poison, .kvRange, .ruleFault, .splitJoin, .divide, .trap, .watchFull, .syncWord, .frontier, .residency]
def causeOfCode (n : Nat) : Option Cause := allCauses.find? fun c => causeCode c = n

/-- Precision states, by number. -/
def precCode (p : Precision) : Nat := match p with | .clear => 0 | .a32 => 1 | .a2x32 => 2 | .i32 => 3
def precOfCode (n : Nat) : Precision := if n = 1 then .a32 else if n = 2 then .a2x32 else if n = 3 then .i32 else .clear

/-- The core's precision states, BMODE, thresholds, and its counts of ages and installs: eight words. -/
def stateWords (k : Core) : List Nat :=
  [((List.range 4).map fun a => 4 ^ a * precCode (precOf k a)).sum, k.bmode.toNat] ++ (List.range 4).map (fun a => (bthOf k a).toNat) ++ [k.nextAge, k.installSeq]

/-- The core with what those words hold. -/
def withStateWords (w : Nat → Nat) (k : Core) : Core :=
  { k with accPrec := ((List.range 4).map fun a => (a, precOfCode (w 0 / 4 ^ a % 4))).filter fun p => p.2 ≠ .clear
           bmode := BitVec.ofNat 16 (w 1) &&& 0x7777, bth := ((List.range 4).map fun a => (a, BitVec.ofNat 16 (w (2 + a)))).filter fun p => p.2 ≠ 0xFF00
           nextAge := w 6, installSeq := w 7 }

/-- A nest level. -/
def levelWords (l : NestLevel) : List Nat := [l.count.toNat, l.ss.toNat, l.ds.toNat]
def levelOfWords (w : Nat → Nat) : NestLevel := { count := BitVec.ofNat 32 (w 0), ss := BitVec.ofNat 64 (w 1), ds := BitVec.ofNat 64 (w 2) }

/-- What a command captured (R72, R182): 12 words. -/
def cmdWords (x : Cmd) : List Nat :=
  let w := bodyWord x.op x.f
  let small := rmodeCode x.frm + 4 * x.stream + bitWord x.split 4 + 32 * x.entry + 512 * optWord (x.firing.map (·.1))
  [w % 2 ^ 64, w / 2 ^ 64 + 2 ^ 32 * small, x.regD.toNat, x.regS1.toNat, x.regS2.toNat, x.regS3.toNat, x.vl + 2 ^ 32 * x.vcnt
   , x.gen.toNat + 2 ^ 32 * x.ftval.toNat, x.index.toNat, x.age, (x.firing.map (·.2)).getD 0, x.rseq]

/-- The command that words hold; its ranges stand in its entry, and its nest elsewhere. -/
def cmdOfWords (w : Nat → Nat) (x : Cmd) : Cmd :=
  let small := w 1 / 2 ^ 32
  match bodyOfWord (w 0 + 2 ^ 64 * (w 1 % 2 ^ 32)) with
  | none => x
  | some b =>
    { x with
      op := b.1, f := b.2, regD := BitVec.ofNat 64 (w 2), regS1 := BitVec.ofNat 64 (w 3), regS2 := BitVec.ofNat 64 (w 4), regS3 := BitVec.ofNat 64 (w 5)
      vl := w 6 % 2 ^ 32, vcnt := w 6 / 2 ^ 32, frm := rmodeOfCode (small % 4), gen := BitVec.ofNat 32 (w 7), entry := small / 32 % 16
      ftval := BitVec.ofNat 32 (w 7 / 2 ^ 32), index := BitVec.ofNat 32 (w 8), age := w 9, stream := small / 4 % 4, split := Bits.bit small 4
      firing := (optOfWord (small / 512)).map fun n => (n, w 10), rseq := w 11 }

/-- Where a command stands: 14 words. -/
def progressWords (r : Run) : List Nat :=
  let phase := match r.phase with | .plain => 0 | .first => 1 | .rerun => 2
  let bits := bitWord r.held 0 + bitWord r.resumed 1 + bitWord r.done 2 + bitWord r.picked 3 + bitWord r.typed 4
  let small := codeOfTy r.tyA + 16 * codeOfTy r.tyB + 256 * codeOfTy r.tyD + 2 ^ 12 * r.flags.toBits.toNat + 2 ^ 17 * bits + 2 ^ 22 * phase
  [small + 2 ^ 24 * optWord (r.stopped.map fun f => causeCode f.cause) + 2 ^ 33 * (r.stopped.map (·.isw.toNat)).getD 0, r.step, r.piece
   , (r.stopped.map (·.step)).getD 0, (r.stopped.map (·.eaddr.toNat)).getD 0, optWord r.index]
    ++ (List.range 8).map fun i => (r.sig.extractLsb' (64 * i) 64).toNat

/-- The flags that a word holds. -/
def flagsOfWord (w : Nat) : Flags := { nv := Bits.bit w 4, dz := Bits.bit w 3, of := Bits.bit w 2, uf := Bits.bit w 1, nx := Bits.bit w 0 }

/-- The run where words say that it stands. -/
def progressOfWords (w : Nat → Nat) (r : Run) : Run :=
  let bits := w 0 / 2 ^ 17
  let phase := w 0 / 2 ^ 22 % 4
  { r with
    tyA := tyOfCode (w 0 % 16), tyB := tyOfCode (w 0 / 16 % 16), tyD := tyOfCode (w 0 / 256 % 16), step := w 1, piece := w 2, flags := flagsOfWord (w 0 / 2 ^ 12)
    stopped := (optOfWord (w 0 / 2 ^ 24 % 2 ^ 9)).bind fun n => (causeOfCode n).map fun c =>
      { cause := c, step := w 3, isw := BitVec.ofNat 16 (w 0 / 2 ^ 33), eaddr := BitVec.ofNat 64 (w 4) }
    held := Bits.bit bits 0, resumed := Bits.bit bits 1, done := Bits.bit bits 2, picked := Bits.bit bits 3, typed := Bits.bit bits 4
    phase := if phase = 1 then .first else if phase = 2 then .rerun else .plain
    index := optOfWord (w 5), sig := (List.range 8).foldl (fun s i => s ||| BitVec.ofNat 512 (w (6 + i) * 2 ^ (64 * i))) 0 }

/-- The nest of a copy-queue command, and the block that it has begun: 21 words (R251, R277). -/
def copyWords (r : Run) : List Nat :=
  ((List.range 6).flatMap fun i => levelWords (r.cmd.nest.getD i {}))
    ++ (match r.block with | some b => [2 * b.length + 1, b.page, b.s] | none => [0, 0, 0])

/-- The run with what those words hold, and as many nest levels as the saved one has. -/
def copyOfWords (w : Nat → Nat) (r : Run) : Run :=
  { r with cmd := { r.cmd with nest := (List.range r.cmd.nest.length).map fun i => levelOfWords fun j => w (3 * i + j) }
           block := if Bits.bit (w 18) 0 then some { length := w 18 / 2, page := w 19, s := w 20 } else none }

/-- A started command in words: what it captured, where it stands, and what a copy-queue command has besides. -/
def runWords (r : Run) : List Nat := cmdWords r.cmd ++ progressWords r ++ (if queueOf r.cmd.op = .cpy then copyWords r else [])
def runOfWords (w : Nat → Nat) (r : Run) : Run :=
  let r := progressOfWords (fun i => w (12 + i)) { r with cmd := cmdOfWords w r.cmd }
  if queueOf r.cmd.op = .cpy then copyOfWords (fun i => w (26 + i)) r else r

/-! ### Pending contributions, behind the started commands (R265, R331) -/

/-- Bytes as words, the last filled with zeros. -/
def dataWords (l : List Byte) : List Nat := (List.range ((l.length + 7) / 8)).map fun i => Bits.ofBytes ((l.drop (8 * i)).take 8)

/-- A contribution: four words, then its data. -/
def contribWords (c : Contribution) : List Nat :=
  [c.core + 2 ^ 8 * c.off + 2 ^ 32 * c.mask.toNat + 2 ^ 40 * c.rank + 2 ^ 44 * c.src + bitWord c.add 52 + bitWord c.zero 53 + bitWord c.done 54
   , c.age, optWord c.word, c.data.length] ++ dataWords c.data
def contribOfWords (w : Nat → Nat) : Contribution :=
  { core := w 0 % 2 ^ 8, off := w 0 / 2 ^ 8 % 2 ^ 24, mask := BitVec.ofNat 8 (w 0 / 2 ^ 32), rank := w 0 / 2 ^ 40 % 16, src := w 0 / 2 ^ 44 % 2 ^ 8
    add := Bits.bit (w 0) 52, zero := Bits.bit (w 0) 53, done := Bits.bit (w 0) 54, age := w 1, word := optOfWord (w 2)
    data := (List.range (w 3)).map fun i => BitVec.ofNat 8 (w (4 + i / 8) / 256 ^ (i % 8)) }

/-! ### Where they lie -/

/-- The first started command of a record, and the end of its state block. -/
def runsAt : Nat := 0xA040
def blockEnd : Nat := 0x10000

/-- Where parts of so many words each lie, one behind the other. -/
def placesFrom : Nat → List Nat → List Nat
  | _, [] => []
  | a, n :: l => a :: placesFrom (a + 8 * n) l

/-- Parts that lie one behind the other, each read from its place where the state block has room for it; one that has no room stays as it is. -/
def readParts {α : Type} (word : Nat → Nat → Nat) (a : Nat) (size : α → Nat) (get : (Nat → Nat) → α → α) (l : List α) : List α :=
  (l.zip (placesFrom a (l.map size))).map fun p => if p.2 + 8 * size p.1 ≤ blockEnd then get (word p.2) p.1 else p.1

end Sys2Proof.Machine
end

