-- ==== Sys2Proof/Machine/Records.lean ====
section
/-!
DEFINITION. The header, the streams and the open-axis registers of a context record as they lie in its state block (R333, Table 15.8), and what a
record gives back. The manual gives where each lies and what it holds; the order inside is the model's (log entry 9).
-/

namespace Sys2Proof.Machine

/-! ### Streams: 4 KiB each from 0x2000 -/

/-- Where stream i lies in a record. -/
def streamAt (i : Nat) : Nat := 0x2000 + 0x1000 * i

/-- The system registers of a stream, one word each. -/
def sysWords (y : SysRegs) : List Nat :=
  [(statusWord y).toNat, y.cause.toNat, y.epc.toNat, y.ecmd.toNat, y.eeng.toNat, y.estat.toNat, y.eaddr.toNat, rmodeCode y.frm, y.fflags.toNat
   , y.vl.toNat, y.vcnt.toNat, y.leaseLen.toNat, y.gen.toNat, y.stkBase.toNat, y.stkLimit.toNat, y.trapVec.toNat, y.deleg.toNat]

/-- The fields of ECMD and EENG; their other bits read 0 (R3, Table 4.5). -/
def ecmdMask : Word := 0xBF000000FFFFFFFF
def eengMask : Word := 0x307

/-- The system registers that words hold; reserved fields read 0, whatever stands there (R3). -/
def sysOfWords (w : Nat → Nat) : SysRegs :=
  let b (i : Nat) : Word := BitVec.ofNat 64 (w i)
  { inh := Bits.bit (w 0) 0, fpend := Bits.bit (w 0) 1, ppend := Bits.bit (w 0) 2, cause := BitVec.ofNat 9 (w 1), epc := b 2, ecmd := b 3 &&& ecmdMask, eeng := b 4 &&& eengMask
    estat := b 5 &&& estatMask, eaddr := b 6, frm := rmodeOfCode (w 7), fflags := BitVec.ofNat 5 (w 8), vl := BitVec.ofNat 32 (w 9), vcnt := BitVec.ofNat 32 (w 10)
    leaseLen := BitVec.ofNat 7 (w 11), gen := BitVec.ofNat 32 (w 12), stkBase := BitVec.ofNat 22 (w 13), stkLimit := BitVec.ofNat 22 (w 14)
    trapVec := b 15, deleg := BitVec.ofNat 26 (w 16) &&& delegMask }

/-- A loop counter with its start and stages (R105): the lowest bit of the third word says that it has a start. -/
def loopWords (l : LoopCounter) : List Nat := [l.count.toNat, (l.start.getD 0).toNat, 2 * l.stages + (if l.start.isSome then 1 else 0)]
def loopOfWords (w : Nat → Nat) : LoopCounter :=
  { count := BitVec.ofNat 32 (w 0), start := if Bits.bit (w 2) 0 then some (BitVec.ofNat 64 (w 1)) else none, stages := w 2 / 2 }

/-- The binding that words hold. -/
def bindingOfWords (w : Nat → Nat) : Option QBinding := if w 1 = 0 then none else some { base := w 0, depth := w 1 }

/-- A queue's QCW, as base and depth (0 where it is unbound), and the ring slots of its head and of its tail. -/
def queueWords (q : Queue) : List Nat :=
  match q.bound with
  | some b => [b.base, b.depth, (q.tail + b.depth * q.entries.length - q.entries.length) % b.depth, q.tail % b.depth]
  | none => [0, 0, 0, 0]
/-- The queue with the words of a record: its entries lie from the head on. -/
def queueOfWords (w : Nat → Nat) (q : Queue) : Queue := { q with bound := bindingOfWords w, tail := w 2 + q.entries.length }

/-- What a stream is doing, with the target of a JOIN. -/
def stateOfRun (r : RunState) : List Nat := match r with | .idle => [0, 0] | .running => [1, 0] | .parked w => [2, w.toNat] | .exited => [3, 0]
def runOfState (w : Nat → Nat) : RunState :=
  if w 0 = 1 then .running else if w 0 = 2 then .parked (BitVec.ofNat 64 (w 1)) else if w 0 = 3 then .exited else .idle

/-- A stream's point: its handle, its index, its rank, the size of its gang, the tick of its dispatch. -/
def pointWords (p : Option Point) : List Nat :=
  match p with
  | some p => [(handleOf p.serial p.launch).toNat, p.o, p.m, p.n, p.rank, p.size, p.tick.toNat, 1]
  | none => [0, 0, 0, 0, 0, 0, 0, 0]
def pointOfWords (base : Nat) (w : Nat → Nat) : Option Point :=
  if w 7 = 1 then
    some { launch := w 0 % 256, serial := w 0 / 256, o := w 1, m := w 2, n := w 3, rank := w 4, base := base, size := w 5, tick := BitVec.ofNat 64 (w 6) }
  else none

/-- What a stream is doing, whether it is suspended, at a debug stop or has stood, the lease that it has asked for and its LREL, its command index,
its point. -/
def restWords (t : Stream) : List Nat :=
  stateOfRun t.run ++ [bitWord t.suspended 0 + bitWord t.debugStop 1 + bitWord t.stood 2, optWord t.leaseReq, optWord t.lrel, t.cmdIndex.toNat] ++ pointWords t.point

/-- A stream with its cluster, in words of 8 bytes: s0 to s31, a0 to a15, b0 to b3, the pc, c, g, lc0 to lc3, the system registers, the nest, the
format table, the KV binding, the three queues, and the rest. -/
def streamWords (u : Cluster) (t : Stream) : List Nat :=
  (List.range 32).map (fun r => (Sparse.get u.s 0 r).toNat) ++ (List.range 16).map (fun r => (Sparse.get u.a 0 r).toNat)
    ++ (List.range 4).map (fun r => (Sparse.get t.targets 0 r).toNat) ++ [t.pc.toNat, t.conds.toNat, t.gates.toNat]
    ++ (List.range 4).flatMap (fun r => loopWords (Sparse.get t.loops {} r)) ++ sysWords t.sys ++ (List.range 6).flatMap (fun r => levelWords (t.nest.getD r {}))
    ++ (List.range 16).map (fun r => (Sparse.get t.ftable 0 r).toNat)
    ++ (match t.kv with | some p => [1, p.1.toNat, p.2] | none => [0, 0, 0]) ++ (allQueues.flatMap fun q => queueWords (getQueue t q)) ++ restWords t

/-- A sparse file of the values of a function below n; a value that an unlisted key reads as is not listed. -/
def fileOf {α : Type} [DecidableEq α] (z : α) (n : Nat) (f : Nat → α) : List (Nat × α) := ((List.range n).map fun r => (r, f r)).filter fun p => p.2 ≠ z

/-- The scalar and address files that words hold. -/
def clusterOfWords (w : Nat → Nat) : Cluster :=
  { s := fileOf 0 32 fun r => BitVec.ofNat 64 (w r), a := fileOf 0 16 fun r => BitVec.ofNat 64 (w (32 + r)) }

/-- A stream with what words hold; its point's gang begins at a core. -/
def streamOfWords (base : Nat) (w : Nat → Nat) (t : Stream) : Stream :=
  let bind (q : Queue) (j : Nat) : Queue := queueOfWords (fun i => w (121 + 4 * j + i)) q
  { t with targets := fileOf 0 4 fun r => BitVec.ofNat 64 (w (48 + r))
           pc := BitVec.ofNat 64 (w 52), conds := BitVec.ofNat 8 (w 53), gates := BitVec.ofNat 15 (w 54)
           loops := fileOf {} 4 fun r => loopOfWords fun i => w (55 + 3 * r + i)
           sys := sysOfWords fun i => w (67 + i)
           nest := (List.range 6).map fun r => levelOfWords fun i => w (84 + 3 * r + i)
           ftable := fileOf 0 16 fun r => BitVec.ofNat 32 (w (102 + r))
           kv := if w 118 = 1 then some (BitVec.ofNat 64 (w 119), w 120) else none
           qcpy := bind t.qcpy 0, qvec := bind t.qvec 1, qmtx := bind t.qmtx 2
           run := runOfState fun i => w (133 + i)
           suspended := Bits.bit (w 135) 0, debugStop := Bits.bit (w 135) 1, stood := Bits.bit (w 135) 2
           leaseReq := optOfWord (w 136), lrel := optOfWord (w 137), cmdIndex := BitVec.ofNat 32 (w 138)
           point := pointOfWords base fun i => w (139 + i) }

/-- The words of a record from an offset on. -/
def recordWord (d : Dev) (a i : Nat) : Nat := memNat d (a + 8 * i) 8

/-! ### Open-axis registers: 128 bytes each from 0x0400 -/

/-- An axis: its descriptor's fields, N, the retire count, its flags, and its commit watch. -/
def axisWords (a : Axis) : List Nat :=
  [a.base.toNat, a.commit.toNat, a.retire.toNat, a.n, a.retired, a.stride, a.sbytes, a.cap
   , 1 + (if a.isLocal then 2 else 0) + (if a.closed then 4 else 0) + (if a.note then 8 else 0) + 16 * a.scope, (a.watch.map (· + 1)).getD 0]

/-- The axis that words hold, if the register is bound. -/
def axisOfWords (w : Nat → Nat) : Option Axis :=
  if Bits.bit (w 8) 0 then
    some { base := BitVec.ofNat 64 (w 0), commit := BitVec.ofNat 64 (w 1), retire := BitVec.ofNat 64 (w 2), n := w 3, retired := w 4, stride := w 5
           sbytes := w 6, cap := w 7, isLocal := Bits.bit (w 8) 1, closed := Bits.bit (w 8) 2, note := Bits.bit (w 8) 3, scope := w 8 / 16
           watch := if w 9 = 0 then none else some (w 9 - 1) }
  else none

/-- The bytes of the open-axis registers; an unbound one is zero. -/
def axesBytes (k : Core) : List Byte :=
  (List.range 16).flatMap fun x =>
    let l := ((Sparse.find? k.axes x).map axisWords).getD []
    (l ++ List.replicate (16 - l.length) 0).flatMap (Bits.toBytes 8)

/-- The open-axis registers of a record. -/
def readAxes (d : Dev) (a : Nat) : List (Nat × Axis) :=
  (List.range 16).filterMap fun x => (axisOfWords (recordWord d (a + 0x400 + 128 * x))).map fun y => (x, y)

/-! ### The watch handles of the point, 8 bytes each from 0x1C00 -/

/-- The handles of the entries that the core's points have registered, each plus one. -/
def handleBytes (d : Dev) (k : Core) (core : Nat) : List Byte :=
  let owns (w : Watch) : Bool :=
    match w.owner with
    | .point c l s o m n => c = core && (corePoints k).any fun q => q.2.launch = l && q.2.serial = s && q.2.o = o && q.2.m = m && q.2.n = n
    | _ => false
  ((d.watches.filter fun p => owns p.2).take 128).flatMap fun p => Bits.toBytes 8 (p.1 + 1)

/-! ### The header: the first 256 bytes -/

/-- The words of the header, 8 bytes each in the order that Table 15.8 lists them, then the number under which the device knows the record (log entry
9). -/
def stateHead (d : Dev) (k : Core) (next number : Nat) : List Byte :=
  let q := (corePoints k).head?
  let p := (q.map (·.2)).getD { launch := 0, serial := 0, o := 0, m := 0, n := 0, rank := 0, base := 0, size := 0, tick := 0 }
  let i := (q.map (·.1)).getD 0
  let g := if p.rank = 0 then getGang d p.base else {}
  [(handleOf p.serial p.launch).toNat, p.o, p.m, p.n, p.rank, k.gangSize, bitWord k.split 0 + bitWord k.slaunch 1
   , (statusWord (coreStream k i).sys).toNat, next, k.arrived.toNat, g.c.toNat, g.k0, g.k1, number].flatMap (Bits.toBytes 8)

/-- Where the address of the next record, and the record's own number, lie in a record. -/
def nextAt : Nat := 64
def numberAt : Nat := 104

/-- The streams of a core that runs one point all run the header's. -/
def headedPoint (w : Nat → Nat) (p : Point) : Point :=
  { p with launch := w 0 % 256, serial := w 0 / 256, o := w 1, m := w 2, n := w 3, rank := w 4, size := w 5 }

/-- A core with what the header holds: MODE, GANG_SIZE, the arrival count, and its point unless it is one of a SPLIT launch. -/
def headedCore (w : Nat → Nat) (k : Core) : Core :=
  let streams := if Bits.bit (w 6) 1 then k.streams else k.streams.map fun p => (p.1, { p.2 with point := p.2.point.map (headedPoint w) })
  { k with split := Bits.bit (w 6) 0, slaunch := Bits.bit (w 6) 1, gangSize := w 5 % 16, arrived := BitVec.ofNat 32 (w 9), streams := streams }

/-- The barrier that the header of rank 0 holds (R148). -/
def headedGang (w : Nat → Nat) (g : Gang) : Gang := { g with c := BitVec.ofNat 32 (w 10), k0 := w 11, k1 := w 12 }

/-! ### Rules, ranges and stopped commands in memory -/

/-- The bytes of the rule table, and those of the slice numbers of 16 rules from one on; a FREE entry is zero. -/
def rulesBytes (k : Core) : List Byte :=
  (List.range 64).flatMap fun n => (((Sparse.find? k.rules n).map ruleWords).getD (List.replicate 8 0)).flatMap (Bits.toBytes 8)
def ruleTailsBytes (k : Core) (n : Nat) : List Byte :=
  (List.range 16).flatMap fun j => (((Sparse.find? k.rules (n + j)).map ruleTail).getD (List.replicate 4 0)).flatMap (Bits.toBytes 8)

/-- The rules of a record. -/
def readRules (d : Dev) (a : Nat) : List (Nat × Rule) :=
  (List.range 64).filterMap fun n => (ruleOfWords (recordWord d (a + ruleAt n)) (recordWord d (a + ruleTailAt n))).map fun r => (n, r)

/-- The bytes of the range-checker entries, of which there are no more than 256 (R20). -/
def entriesBytes (k : Core) : List Byte := ((checkerEntries k).take 256).flatMap fun x => (entryWords x).flatMap (Bits.toBytes 8)

/-- The entries of a record: age, reads, writes. -/
def readEntries (d : Dev) (a : Nat) : List (Nat × List (Nat × Nat) × List (Nat × Nat)) :=
  (List.range 256).filterMap fun j => entryOfWords (recordWord d (a + 0x6000 + 64 * j))

/-- The commands of a queue with the ranges of their entries. -/
def queueEntries (l : List (Nat × List (Nat × Nat) × List (Nat × Nat))) (q : Queue) : Queue :=
  { q with entries := q.entries.map fun e => match e with | .cmd x => .cmd (withEntry l x) | .fence a g => .fence a g }

/-- A core with the ranges of a record. -/
def withEntries (l : List (Nat × List (Nat × Nat) × List (Nat × Nat))) (k : Core) : Core :=
  { k with running := k.running.map fun r => { r with cmd := withEntry l r.cmd }
           streams := k.streams.map fun p =>
             (p.1, { p.2 with qcpy := queueEntries l p.2.qcpy, qvec := queueEntries l p.2.qvec, qmtx := queueEntries l p.2.qmtx }) }

/-- The started commands of a core as a record has them. -/
def recordRuns (d : Dev) (a : Nat) (l : List Run) : List Run :=
  readParts (fun off => recordWord d (a + off)) runsAt (fun r => (runWords r).length) runOfWords l

/-- The contributions that were pending for a core, as its record has them behind its started commands. -/
def recordContribs (d : Dev) (a : Nat) (runs : List Run) (l : List Contribution) : List Contribution :=
  let at_ := runsAt + 8 * (runs.map fun r => (runWords r).length).sum
  readParts (fun off => recordWord d (a + off)) at_ (fun c => (contribWords c).length) (fun w _ => contribOfWords w) l

end Sys2Proof.Machine
end

