-- ==== Sys2Proof/Machine/Rings.lean ====
section
/-!
DEFINITION. Launch rings (R345 to R347, R350): descriptors, translation for the Onyx die's threads, packet slots and completions.
-/

namespace Sys2Proof.Machine

/-! ### Accesses of the Onyx die -/

/-- Translate an address through a function's tables from a root; the threads hold no translation (R350, R351). -/
def translateRoot (d : Dev) (root va : Nat) (k : AccessKind) : Except Cause Nat :=
  if 2 ^ 56 ≤ va then .error .translation
  else
    match walkFrom d va 3 root with
    | .bad => .error .translation
    | .leaf pa size r w x =>
      if permits { vf := 0, va := 0, size := size, pa := pa, r := r, w := w, x := x } k then .ok (pa + va % size) else .error .permission

/-! ### Descriptors (Table 17.3) -/

def ringField (r : Ring) (hi lo : Nat) : Nat := Bits.field r.desc.toNat hi lo
def ringTenant (r : Ring) : Nat := ringField r 23 19
def ringPriv (r : Ring) : Bool := Bits.bit r.desc.toNat 25
def ringMsix (r : Ring) : Nat := ringField r 37 30
def ringTail (r : Ring) : Nat := ringField r 191 128
/-- The packet slots S. -/
def ringSlots (r : Ring) : Nat := 2 ^ (ringField r 15 12 + 4)
/-- BASE, in the second word of the descriptor's pair. -/
def ringBase (r : Ring) : Nat := ringField r 575 512
/-- The global address of the packet slot of an index. -/
def slotVa (r : Ring) (index : Nat) : Nat := ringBase r + 256 * (index % ringSlots r)
/-- The root of the ring's owning function. -/
def ringRoot (d : Dev) (r : Ring) : Nat := (getVf d (ringTenant r)).root

def stateCode (s : RingState) : Nat :=
  match s with
  | .idle => 0
  | .active => 1
  | .blocked => 2
  | .stopped => 3

/-- The first word of the descriptor as the ring table shows it, with STATE and HEAD. -/
def ringWord (r : Ring) : Nat :=
  Bits.setField (Bits.setField (ringField r 511 0) 29 28 (stateCode r.state)) 95 64 r.head.toNat

/-- Change a ring, and its descriptor in the ring table with it. -/
def putRing (d : Dev) (n : Nat) (r : Ring) : Dev :=
  homeStore (setRing d n r) (d.ctl.ringTab.toNat + 128 * n) (Bits.toBytes 64 (ringWord r))

/-- STATE becomes FETCH_BLOCKED, with an event of type 1 (R350). -/
def blockRing (d : Dev) (n addr : Nat) : Dev :=
  writeEvent (putRing d n { getRing d n with state := .blocked }) 1 n (BitVec.ofNat 64 addr)

/-! ### Completions (R347) -/

/-- Write the completion of a packet: handle and tick, then the completion word, then the interrupt. -/
def writeCompletion (d : Dev) (c : Completion) : Except Cause Dev :=
  let r := getRing d c.ring
  match translateRoot d (ringRoot d r) (slotVa r c.index) .write with
  | .error e => .error e
  | .ok pa =>
    let h := memNat d pa 8
    let d := homeStore d (pa + 200) (Bits.toBytes 8 c.handle.toNat ++ Bits.toBytes 8 d.tick.toNat)
    let d := homeStore d (pa + 192) (Bits.toBytes 8 (Bits.field h 63 32 * 2 ^ 32 + 256 + c.status))
    .ok (if Bits.bit h 19 then { d with irqs := d.irqs ++ [ringMsix r] } else d)

/-- Complete a packet; a completion write that faults is held, and an active ring is blocked (R350). One that has stopped or is not
enabled stays so (R346). -/
def finishPacket (d : Dev) (ring index status : Nat) (handle : Word) : Dev :=
  let c : Completion := { ring := ring, index := index, status := status, handle := handle }
  match writeCompletion d c with
  | .ok d => d
  | .error _ =>
    let r := getRing d ring
    let d := setRing d ring { r with owed := r.owed ++ [c] }
    if r.state = .stopped ∨ r.state = .idle then writeEvent d 1 ring (BitVec.ofNat 64 (slotVa r index)) else blockRing d ring (slotVa r index)

/-- Complete a list of packets with status 0. -/
def finishAll (d : Dev) (l : List (Nat × Nat)) (handle : Word) : Dev := l.foldl (fun d p => finishPacket d p.1 p.2 0 handle) d

/-- RING_RESUME: a blocked ring is active again, and held completions are made (R342, R350); a ring in another state keeps it
(R356 for a part held at Dawn). -/
def resumeRing (d : Dev) (n : Nat) : Option Dev :=
  let r := getRing d n
  if !softwareRuns d || (r.state ≠ .blocked && r.owed.isEmpty) then none
  else
    let r' := { r with state := if r.state = .blocked then .active else r.state, owed := [] }
    some (r.owed.foldl (fun d c => finishPacket d c.ring c.index c.status c.handle) (putRing d n r'))

end Sys2Proof.Machine
end

