-- ==== Sys2Proof/Machine/Preempt.lean ====
section
/-!
DEFINITION. Pre-emption and restore (R309, R311, R319, R320, R329 to R335, R364, R365): context records, the frontier record, and the loading
of a saved core.
-/

namespace Sys2Proof.Machine

/-! ### When a gang can be saved (R331) -/

/-- The stream stands at an issue boundary with nothing to be taken there before the request (R81, R104), or waits in a SLCOMMIT for firings that
the rule dispatcher no longer enqueues (R299, R331). -/
def streamQuiet (k : Core) (t : Stream) : Bool := t.delay.isNone && t.ret.isNone && (t.faults.isEmpty || t.suspended || axisBlocks k t)

/-- A run that has nothing more to do before the save: it has stopped, cannot go on, or waits for a combination (R331). -/
def runQuiet (d : Dev) (core : Nat) (r : Run) : Bool :=
  r.stopped.isSome || !goesOn (getCore d core) r || (r.done && decide (r.cmd.op = .cpy .cpyr) && !copyWritten d core r)

/-- No command of the core runs or can start. -/
def coreQuiet (d : Dev) (core : Nat) : Bool :=
  let k := getCore d core
  ((corePoints k).all fun q => streamQuiet k (coreStream k q.1)) && (k.running.all fun r => runQuiet d core r)
    && [0, 1, 2, 3].all fun i => allQueues.all fun q => (startable (popFences k i q) i q).isNone

/-- A contribution has reached its switch, or waits there behind an earlier one (R257, R265): both are forwarded and saved (R331). -/
def contributionSettled (d : Dev) (p : Contribution × Nat) : Bool :=
  p.1.done || contributionWaits d p.2 p.1

/-- Nothing is on its way to the core (R331); the entries of a point that was saved from it, and the commit watch of such a point's axis, are another
context's (R311, R333). -/
def linksDrained (d : Dev) (core : Nat) : Bool :=
  (d.arrivals.all fun a => a.core ≠ core) && (d.combining.zipIdx.all fun p => contributionSettled d p || (p.1.core ≠ core && p.1.src ≠ core))
    && d.watches.all fun w =>
      match w.2.owner with
      | .point c l s o m n => !(w.2.owed && c = core && (pointPlaces d l s o m n).any fun q => q.1 = core)
      | .axis c x => !(w.2.owed && c = core && (findAxis (getCore d core) x).any fun a => a.watch = some w.1)
      | .ring _ => true

/-! ### Context records (R333, Table 15.7) -/

/-- Bytes of one context record. -/
def contextBytes : Nat := 0x550000

/-- The bytes of a sparse map of words of w bytes, as cells. -/
def wordCells {n : Nat} (w : Nat) (m : List (Nat × BitVec n)) : List Host.Cell :=
  m.flatMap fun p => ((List.range w).map fun j => (w * p.1 + j, BitVec.ofNat 8 (p.2.toNat / 256 ^ j))).filter fun c => decide (c.2 ≠ 0)

/-- The words of w bytes that a list of cells holds. -/
def cellWords (n w : Nat) (l : List Host.Cell) : List (Nat × BitVec n) :=
  l.foldl (fun m c => Sparse.modify m 0 (c.1 / w) (· ||| BitVec.ofNat n (c.2.toNat * 256 ^ (c.1 % w)))) []

/-- Mask bits as cells: lane i of a mask is bit i mod 8 of byte i div 8. -/
def maskCells (m : List (Nat × Bool)) : List Host.Cell :=
  m.foldl (fun l p => if p.2 then Sparse.modify l 0 (p.1 / 8) (· ||| BitVec.ofNat 8 (2 ^ (p.1 % 8))) else l) []

/-- The mask bits that a list of cells holds. -/
def cellMasks (l : List Host.Cell) : List (Nat × Bool) :=
  l.flatMap fun c => ((List.range 8).filter fun j => Bits.bit c.2.toNat j).map fun j => (8 * c.1 + j, true)

/-- Overwrite an area of memory with cells numbered from its start; cells in no rising order are put in order first. One behind a link that
is down is dropped (R354). -/
def storeArea (d : Dev) (pa n : Nat) (l : List Host.Cell) : Dev :=
  if linkCut d pa then dropWrite d pa
  else
  let l := if Sparse.sorted l then l else Sparse.ofList memDefault l
  let mem := (d.mem.filter fun c => c.1 < pa) ++ (l.filter fun c => c.1 < n && c.2 ≠ memDefault).map (fun c => (pa + c.1, c.2))
    ++ d.mem.filter fun c => pa + n ≤ c.1
  markWatches { d with mem := mem, poison := d.poison.filter fun s => ¬ (pa ≤ 64 * s ∧ 64 * s + 64 ≤ pa + n) } fun lo m =>
    pa < lo + m && lo < pa + n

/-- Bytes as cells numbered from 0. -/
def byteCells (l : List Byte) : List Host.Cell := l.zipIdx.map fun p => (p.2, p.1)

/-- What the bytes of the state block hold that no quantity of Table 15.8 takes: free bytes (log entry 9). -/
def stateBlock (v : Nat) : List Host.Cell := (List.range 65536).map fun i => (i, Config.contextByte v i)

/-- The counters of a record at 0x0100: ceiling in the low half of 4 bytes, count in the high one, as TSET has them (R140). -/
def tokenBytes (k : Core) : List Byte :=
  (List.range 32).flatMap fun t => Bits.toBytes 4 ((getToken k t).count.toNat * 65536 + (getToken k t).ceiling.toNat)

/-- The pending signatures of a record at 0x0200, GANG to SYSTEM. -/
def pendingBytes (k : Core) : List Byte := [2, 3, 4, 5, 6].flatMap fun q => Bits.toBytes 64 (Sparse.get k.pending 0 q).toNat

/-- Write the streams of a record: 147 words each, of the 512 that a stream has, and the slice numbers of 16 rules behind each. -/
def storeStreams (d : Dev) (a : Nat) (k : Core) : Dev :=
  [0, 1, 2, 3].foldl (fun d i =>
    storeArea (storeArea d (a + streamAt i) 1176 (byteCells ((streamWords (coreCluster k i) (coreStream k i)).flatMap (Bits.toBytes 8))))
      (a + ruleTailAt (16 * i)) 512 (byteCells (ruleTailsBytes k (16 * i)))) d

/-- What stands at 0xA000: the precision states, the started commands and the pending contributions, cut where the state block ends. -/
def stoppedBytes (k : Core) (cs : List Contribution) : List Byte :=
  ((stateWords k ++ k.running.flatMap runWords ++ cs.flatMap contribWords).take 3072).flatMap (Bits.toBytes 8)

/-- Write the rule table, the range-checker entries, and what stands behind them. -/
def storeCmds (d : Dev) (a : Nat) (k : Core) (cs : List Contribution) : Dev :=
  let d := storeArea d (a + 0xC00) 0x1000 (byteCells (rulesBytes k))
  let d := storeArea d (a + 0x6000) 0x4000 (byteCells (entriesBytes k))
  storeArea d (a + 0xA000) (stoppedBytes k cs).length (byteCells (stoppedBytes k cs))

/-- Write the context record of a core, with the contributions pending for it, at an address under a number (Tables 15.7 and 15.8). -/
def writeContext (d : Dev) (core a number : Nat) (k : Core) (cs : List Contribution) : Dev :=
  let handles := byteCells (handleBytes d k core)
  let head := byteCells (stateHead d k 0 number)
  let d := bumpFresh (storeArea d a 0x10000 (stateBlock d.fresh))
  let d := storeArea d a 0x100 head
  let d := storeArea d (a + 0x100) 0x80 (byteCells (tokenBytes k))
  let d := storeArea d (a + 0x200) 0x140 (byteCells (pendingBytes k))
  let d := storeArea d (a + 0x400) 0x800 (byteCells (axesBytes k))
  let d := storeArea d (a + 0x1C00) 0x400 handles
  let d := storeCmds (storeStreams d a k) a k cs
  let d := storeArea d (a + 0x10000) 0x10000 (maskCells k.mask)
  let d := storeArea d (a + 0x20000) 0x10000 (wordCells 2 k.bnd)
  let d := storeArea d (a + 0x30000) 0x80000 (wordCells 4 k.acc)
  let d := storeArea d (a + 0xB0000) 0xA0000 (wordCells 4 k.vreg)
  storeArea d (a + 0x150000) 0x400000 k.spm

/-- The stream's fault is kept for redelivery (R81, R364). -/
def keepFault (t : Stream) : Stream := if t.suspended then { t with sys := { t.sys with fpend := true } } else t

/-- A saved core's lease ends with its holder's save (R219). -/
def saveLease (k : Core) : Core := (k.lease.map fun l => endLease k l.holder).getD k

/-- Save one core at a context address: EPC at each stream's next bundle, L1 written back, record written, links taken along (R154, R155,
R278, R331 to R333). -/
def saveCore (d : Dev) (core a : Nat) : Dev :=
  let d := modCore (writeBackAll d core) core fun k =>
    { saveLease k with streams := (saveLease k).streams.map fun p => (p.1, keepFault (stopEpc p.2)) }
  let k := getCore d core
  let rank0 := (corePoints k).all fun q => q.2.rank = 0
  let cs := d.combining.filter fun c => c.core = core
  let x : Context := { core := k, number := core, gang := if rank0 then some (getGang d core) else none, contribs := cs }
  let n := d.records
  let d := writeContext d core a n k cs
  modCore { d with contexts := Sparse.insert d.contexts n x, records := n + 1, combining := d.combining.filter fun c => c.core ≠ core } core freedCore

/-- The points of a gang as held points. -/
def heldPoints (d : Dev) (cores ctxs : List Nat) : List HeldPoint :=
  match cores.head? with
  | none => []
  | some c => ((corePoints (getCore d c)).map fun q => { o := q.2.o, m := q.2.m, n := q.2.n, ctxs := ctxs, size := cores.length }).dedup

/-- CONTEXT_SAVE: the gang of a core is asked to stop, and saved once it is quiet (R331). -/
def saveGang (d : Dev) (core : Nat) : Option Dev :=
  let l := gangCores d core
  if !gangToSave d core then none
  else
    let places := l.flatMap fun c => (corePoints (getCore d c)).map fun q => (c, q.1)
    if places.any fun q => !(getStream d q.1 q.2).halted then some (haltSources d places)
    else if !(l.all fun c => coreQuiet d c && linksDrained d c) then none
    else
      match (corePoints (getCore d core)).head?.bind fun q => (getLaunch d q.2.launch).map fun x => (q.2.launch, x) with
      | none => none
      | some (number, x) =>
        match x.preempt with
        | none => none
        | some q =>
          let ctxs := (List.range l.length).map fun j => q.ctx + contextBytes * (q.used + j)
          let x := { x with held := x.held ++ heldPoints d l ctxs, preempt := some { q with used := q.used + l.length } }
          some (setLaunch ((l.zip ctxs).foldl (fun d p => saveCore d p.1 p.2) d) number x)

/-! ### The frontier record (R319) -/

/-- Chain records in order: each holds the address of the next (R333). -/
def chainContexts (d : Dev) : List Nat → Dev
  | [] => d
  | a :: r => chainContexts (homeStore d (a + nextAt) (Bits.toBytes 8 (r.headD 0))) r

/-- The context addresses of held points, each once, in order. -/
def heldContexts (l : Launch) : List Nat := (l.held.flatMap (·.ctxs)).reverse.dedup.reverse

/-- The held points of a row. -/
def heldInRow (l : Launch) (ρ : Nat) : Nat := (l.held.filter fun h => h.o * recEm l.nrec + h.m = ρ).length

/-- A frontier record (Tables 15.4 and 15.5). -/
def frontierBytes (number : Nat) (l : Launch) (forced : Bool) : List Byte :=
  Bits.toBytes 4 ((if l.slipped then 65536 else 0) + (if forced then 131072 else 0)) ++ Bits.toBytes 4 l.w0 ++ Bits.toBytes 4 l.w1
    ++ Bits.toBytes 4 l.held.length ++ Bits.toBytes 8 (handleOf l.serial number).toNat ++ Bits.toBytes 8 ((heldContexts l).headD 0)
    ++ (List.range (l.w1 - l.w0)).flatMap fun i =>
      Bits.toBytes 4 (rowOf l (l.w0 + i)).c ++ Bits.toBytes 8 (rowOf l (l.w0 + i)).a.toNat ++ Bits.toBytes 4 (heldInRow l (l.w0 + i))

/-- LAUNCH_SAVE (R330). -/
def saveLaunch (d : Dev) (number : Nat) : Option Dev :=
  match getLaunch d number with
  | none => none
  | some l =>
    match l.preempt with
    | none => none
    | some q =>
      if !(launchOnCores d number).isEmpty || inFlight l ≠ 0 || launchComplete d number l then none
      else
        let d := homeStore (chainContexts d (heldContexts l)) q.frontier (frontierBytes number l q.forced)
        some (finishAll (setLaunch d number { l with saved := true, preempt := none }) q.packets (handleOf l.serial number))

/-! ### Restore (R320, R334, R365) -/

/-- The record that memory holds at an address, by the number in it; none behind a link that is down (R354, log entry 9). -/
def contextAt (d : Dev) (a : Nat) : Option Context :=
  if a = 0 || linkCut d a then none else Sparse.find? d.contexts (memNat d (a + numberAt) 8)

/-- The header's words of a record. -/
def headWord (d : Dev) (a : Nat) : Nat → Nat := recordWord d a

/-- The chain of context records from an address. -/
def contextChain (d : Dev) : Nat → Nat → List (Nat × Context)
  | 0, _ => []
  | k + 1, a =>
    match contextAt d a with
    | some x => (a, x) :: contextChain d k (memNat d (a + nextAt) 8)
    | none => []

/-- The rows of a record in memory, with HELD. -/
def recordRows (d : Dev) (a w0 w1 : Nat) : List (Nat × Row × Nat) :=
  (List.range (w1 - w0)).map fun i =>
    let x := memNat d (a + 32 + 16 * i) 16
    (w0 + i, { c := Bits.field x 31 0, a := BitVec.ofNat 64 (Bits.field x 95 32) }, Bits.field x 127 96)

/-- A row of a record is well formed (R320). -/
def rowOk (en : Nat) (w : Row) : Bool :=
  w.c ≤ en && !Bits.bit w.a.toNat 0 && (en - w.c ≥ 64 || decide (w.a.toNat < 2 ^ (en - w.c)))

/-- The flight bits of held points; one outside its row's reach, or one that the record shows done as well, is kept beside the rows (R340). The
rows up to a held point's are opened, beyond W1 too (log entry 154). -/
def markHeld (l : Launch) (held : List HeldPoint) : Launch :=
  held.foldl (fun l h =>
    let ρ := h.o * recEm l.nrec + h.m
    let l := if l.w0 ≤ ρ && ρ < l.w0 + 1024 then openRows l ρ else l
    if joinsRow l (ρ, h.n, false) then setFlight l ρ h.n else { l with far := l.far ++ [(ρ, h.n, false)] }) l

/-- The counters of a record. -/
def readTokens (d : Dev) (a : Nat) : List (Nat × Token) :=
  (List.range 32).map fun t =>
    let x := memNat d (a + 0x100 + 4 * t) 4
    (t, { count := BitVec.ofNat 16 (x / 65536), ceiling := BitVec.ofNat 16 (x % 65536) })

/-- The pending signatures of a record. -/
def readPending (d : Dev) (a : Nat) : List (Nat × BitVec 512) :=
  (List.range 5).map fun j => (j + 2, BitVec.ofNat 512 (memNat d (a + 0x200 + 64 * j) 64))

/-- The streams of a record, with their clusters; a gang begins at a core. -/
def readStreams (d : Dev) (base a : Nat) (k : Core) : Core :=
  { k with clusters := [0, 1, 2, 3].map fun i => (i, clusterOfWords (recordWord d (a + streamAt i)))
           streams := k.streams.map fun p => (p.1, streamOfWords base (recordWord d (a + streamAt p.1)) p.2) }

/-- The counters, the pending signatures, the open-axis registers, the rules and the arrays of a record. -/
def readTables (d : Dev) (a : Nat) (k : Core) : Core :=
  { k with tokens := readTokens d a, pending := readPending d a, axes := readAxes d a, rules := readRules d a
           mask := cellMasks (Sparse.slice d.mem (a + 0x10000) 0x10000)
           bnd := cellWords 16 2 (Sparse.slice d.mem (a + 0x20000) 0x400)
           acc := cellWords 32 4 (Sparse.slice d.mem (a + 0x30000) 0x80000)
           vreg := cellWords 32 4 (Sparse.slice d.mem (a + 0xB0000) 0xA0000)
           spm := Sparse.slice d.mem (a + 0x150000) 0x400000 }

/-- The started commands of a record, with their ranges and those of the queued ones, and the precision states. -/
def readCmds (d : Dev) (a : Nat) (k : Core) : Core :=
  withEntries (readEntries d a) (withStateWords (recordWord d (a + 0xA000)) { k with running := recordRuns d a k.running })

/-- A core with everything that a record holds, as memory now has it; what has no place there is the saved core's (log entry 9). -/
def readContext (d : Dev) (base a : Nat) (k : Core) : Core := readCmds d a (readTables d a (headedCore (headWord d a) (readStreams d base a k)))

/-- The held points that a chain names, of one launch: each gang's records lie together in rank order. -/
def chainPoints (d : Dev) (serial : Nat) : List (Nat × Context) → List HeldPoint
  | [] => []
  | (a, x) :: r =>
    let addrs := a :: r.map (·.1)
    let here := ((corePoints (headedCore (headWord d a) (readStreams d 0 a x.core))).filter fun q => q.2.rank = 0 && q.2.serial = serial).map fun q =>
      ({ o := q.2.o, m := q.2.m, n := q.2.n, ctxs := addrs.take q.2.size, size := q.2.size } : HeldPoint)
    here.dedup ++ chainPoints d serial r

/-- Reload the frontier of a saved launch from the record at an address, or refuse it (R320, R334). -/
def reloadFrontier (d : Dev) (a : Nat) : Option (Nat × Launch) :=
  let x := memNat d a 32
  let handle := Bits.field x 191 128
  match getLaunch d (handle % 256) with
  | none => none
  | some l =>
    let w0 := Bits.field x 63 32
    let w1 := Bits.field x 95 64
    if l.serial ≠ handle / 256 || !l.saved || w1 < w0 || w0 + 1024 < w1 || recRows l.nrec < w1 then none
    else
      let rows := recordRows d a w0 w1
      let held := chainPoints d l.serial (contextChain d coreCount (Bits.field x 255 192))
      let named := (rows.map fun r => r.2.2).sum
      if !(rows.all fun r => rowOk (recEn l.nrec) r.2.1) || named ≠ Bits.field x 127 96 || named ≠ held.length then none
      else
        let l := { l with saved := false, w0 := w0, w1 := w1, rows := rows.map (fun r => (r.1, r.2.1)), held := held, far := [] }
        some (handle % 256, shiftFront (recEn l.nrec) 1024 (markHeld l held))

/-- A saved stream on its new core. -/
def restoredStream (t : Stream) : Stream := { t with sys := { t.sys with ppend := false, fpend := false }, halted := false }

/-- The core that a record restores: the new core keeps its counts, its translations and other slots' regions, holds no clean byte of
L1, and has the record's pending signatures beside its own (R334). -/
def restoredCore (d : Dev) (core base a : Nat) (x : Context) : Core :=
  let k0 := getCore d core
  let k := readContext d base a x.core
  { k with poisonCount := k0.poisonCount, ceCount := k0.ceCount, utlb := k0.utlb, icache := [], l1clean := [], l1dirty := k0.l1dirty
           poisonL1 := k0.poisonL1.filter fun s => k0.l1dirty.any fun c => c.1 / 64 = s
           spm := replaceWhere k.spm 0 (fun o => persistentAt d core o fun s => k.slot ≠ some s) k0.spm
           pending := [2, 3, 4, 5, 6].foldl (fun m q => Sparse.modify m 0 q (· ||| Sparse.get k0.pending 0 q)) k.pending
           streams := k.streams.map fun p => (p.1, restoredStream p.2) }

/-- last(B) := head(B) for each board (R334). -/
def levelBoards (d : Dev) (core : Nat) : Dev :=
  [2, 3, 4, 5, 6].foldl (fun d q =>
    let h := (boardAt d core q).head
    modCore d core fun k => { k with applied := Sparse.insert k.applied (appliedKey k q) h }) d

/-- The watch entries of a restored core follow it. -/
def moveWatches (d : Dev) (old core : Nat) (k : Core) : Dev :=
  let points := (corePoints k).map fun q => (q.2.launch, q.2.serial, q.2.o, q.2.m, q.2.n)
  let handles := k.axes.filterMap (·.2.watch)
  let move (h : Nat) (w : Watch) : Watch :=
    match w.owner with
    | .point c l s o m n => if c = old && points.contains (l, s, o, m, n) then { w with owner := .point core l s o m n } else w
    | .axis c x => if c = old && handles.contains h then { w with owner := .axis core x } else w
    | .ring _ => w
  { d with watches := d.watches.map fun p => (p.1, move p.1 p.2) }

/-- A contribution of a gang that has moved. -/
def moveContribution (old base : Nat) (c : Contribution) : Contribution :=
  { c with core := base + (c.core - old), src := base + (c.src - old) }

/-- The axes of a restored core read their commit words (R311). -/
def recommit (d : Dev) (core : Nat) : Dev :=
  (getCore d core).axes.foldl (fun d p =>
    match p.2.watch.bind (Sparse.find? d.watches) with
    | some w => let v := memNat d w.pa 8; advanceAxis d core p.1 (v % 2 ^ 63) (Bits.bit v 63)
    | none => d) d

/-- Saved faults are delivered again (R81, R367). -/
def redeliver (d : Dev) (core : Nat) : Dev :=
  [0, 1, 2, 3].foldl (fun d i =>
    let t := getStream d core i
    if t.suspended then reportSuspension d core i t.debugStop else d) d

/-- Load one core of a gang from its record (R334). -/
def loadContext (d : Dev) (core base a : Nat) : Dev :=
  match contextAt d a with
  | none => d
  | some x =>
    let cs := recordContribs d a x.core.running x.contribs
    let k := restoredCore d core base a x
    let head := headWord d a
    let d := setCore (moveWatches d x.number core k) core k
    let d := match x.gang with
      | some g => setGang d base (headedGang head g)
      | none => d
    let old := x.number - (core - base)
    let d := { d with combining := d.combining ++ cs.map (moveContribution old base) }
    redeliver (recommit (levelBoards d core) core) core

/-- Place the launch's first held point, with the points that share its records, at a slot (R322, R334). -/
def placeHeld (d : Dev) (number : Nat) (l : Launch) (h : HeldPoint) (base : Nat) : Dev :=
  let rest := l.held.filter fun g => g.ctxs ≠ h.ctxs
  let l := { l with held := rest, since := d.tick.toNat }
  let d := setLaunch d number (if rest.isEmpty then { l with restores := [] } else l)
  let d := (h.ctxs.zipIdx).foldl (fun d p => loadContext d (base + p.2) base p.1) d
  if rest.isEmpty then finishAll d l.restores (handleOf l.serial number) else d

end Sys2Proof.Machine
end

