-- ==== Sys2Proof/Machine/Dispatcher.lean ====
section
/-!
DEFINITION. The dispatchers (R315 to R326): the choice of a launch and its point, completion of points and of launches, release, deadlines and
the tick. Each function answers none where its event cannot happen.
-/

namespace Sys2Proof.Machine

/-! ### Dispatch (R321, R322) -/

/-- What a dispatch places: a held point, or a fresh one, at a slot. -/
inductive Placing where
  | held (h : HeldPoint) (base : Nat)
  | fresh (q : Nat × Nat × Nat) (at_ : Nat × Nat)

/-- What the dispatcher would place for a launch, if it may (R322); a held point waits while its records cannot be read (R354, log entry 10). -/
def placingOf (d : Dev) (number : Nat) (l : Launch) : Option Placing :=
  if l.saved || l.preempt.isSome || !(l.deps.all (depMet d)) || !l.released || launchLocked d l then none
  else
    match l.held with
    | h :: _ => if h.ctxs.all fun a => (contextAt d a).isSome then (gangSlot d l h.size).map fun b => .held h b else none
    | [] => (firstEligible l).bind fun q => (freshSlot d number l).map fun a => .fresh q a

/-- dl(X) of R322. -/
def launchDeadline (l : Launch) : Nat := if recDlen l.nrec then recDeadline l.nrec else 2 ^ 64 - 1

/-- The order in which a dispatcher chooses (R322). -/
def chosenBefore (d : Dev) (a b : Nat × Launch) : Bool :=
  let ca := launchClass d a.2
  let cb := launchClass d b.2
  ca < cb || (ca = cb && (launchDeadline a.2 < launchDeadline b.2 ||
    (launchDeadline a.2 = launchDeadline b.2 && (a.2.serial < b.2.serial || (a.2.serial = b.2.serial && a.1 < b.1)))))

/-- The launch that a dispatcher chooses, with what it places. -/
def choose (d : Dev) (die : Nat) : Option (Nat × Launch × Placing) :=
  ((homedOn d die).filterMap fun p => (placingOf d p.1 p.2).map fun q => (p, q)).foldl
    (fun b x =>
      match b with
      | none => some (x.1.1, x.1.2, x.2)
      | some y => if chosenBefore d x.1 (y.1, y.2.1) then some (x.1.1, x.1.2, x.2) else some y) none

/-- The dispatchers have been released and not held again (R357, R360). -/
def running (d : Dev) : Bool := d.boot.phase = .noon

/-- POINT_DISPATCH (R321 to R323, R334). -/
def dispatchPoint (d : Dev) (die : Nat) : Option Dev :=
  if !running d || 4 ≤ die then none
  else
    match choose d die with
    | none => none
    | some (n, l, .held h b) => some (placeHeld d n l h b)
    | some (n, l, .fresh q a) => some (dispatchFresh d n l a q)

/-! ### Points done (R31, R153, R309, R317) -/

/-- The entries that a point registered. -/
def ownsWatch (number serial o m n : Nat) (w : Watch) : Bool :=
  match w.owner with
  | .point _ l s a b c => l = number && s = serial && a = o && b = m && c = n
  | _ => false

/-- POINT_DONE: every stream has completed EXIT, no live rule is left and the queues have drained; a stream that stood publishes once
more (R31, R309). -/
def finishPoint (d : Dev) (number o m n : Nat) : Option Dev :=
  match getLaunch d number with
  | none => none
  | some l =>
    let places := pointPlaces d number l.serial o m n
    if places.isEmpty || !places.all (streamEnded d) then none
    else
      let d := places.foldl (fun d q => if (getStream d q.1 q.2).stood then publish d q.1 (publishScope l) else d) d
      let d := places.foldl (fun d q => freeStream d q.1 q.2) d
      let d := { d with watches := d.watches.filter fun w => !ownsWatch number l.serial o m n w.2 }
      some (modLaunch d number fun l => markDone l (o * recEm l.nrec + m) n)

/-! ### Launches complete (R318, R325, R347, R362) -/

/-- The add to CWORD: none when it is made or there is none, else why it is not (R318). -/
def raiseCword (d : Dev) (number : Nat) (l : Launch) : Dev × Option Cause :=
  let cw := recCword l.nrec
  if cw = 0 then (d, none)
  else
    match translateRoot d l.vf.root (cw.toNat % 2 ^ 60) .write with
    | .error e => (d, some e)
    | .ok pa =>
      if region pa = 3 then (d, some .permission)
      else if homePoisoned d pa 8 then (d, some .poison)
      else
        let d := homeStore d pa (Bits.toBytes 8 (memNat d pa 8 + 1))
        let g := sigOf (pa / 64)
        let post (d : Dev) (b : Nat) : Dev := { d with boards := Sparse.insert d.boards b (postBoard (getBoard d b) g) }
        (post (post d (number / 64)) 4, none)

/-- A slip event (Table 15.6). -/
def writeSlip (d : Dev) (number : Nat) (l : Launch) : Dev :=
  if d.ctl.slipLog2n = 0 then d
  else
    let size := 2 ^ d.ctl.slipLog2n
    let j := d.ctl.slipHead.toNat
    let bytes := Bits.toBytes 8 (recDeadline l.nrec) ++ Bits.toBytes 8 d.tick.toNat
      ++ Bits.toBytes 8 (number + 256 * recFgroup l.nrec + 65536 * l.tenant) ++ Bits.toBytes 8 (handleOf l.serial number).toNat
    let d := homeStore d (d.ctl.slipBase.toNat + 32 * (j % size)) bytes
    let ovf := if j < size || d.ctl.slipOvf = BitVec.allOnes 64 then d.ctl.slipOvf else d.ctl.slipOvf + 1
    { d with ctl := { d.ctl with slipHead := d.ctl.slipHead + 1, slipOvf := ovf } }

/-- The completion of what admitted a launch: a packet's, or the interrupt that a registration entry asked for when the push was
admitted (R361, R362). -/
def completeSource (d : Dev) (number : Nat) (l : Launch) (e : Option Cause) : Dev :=
  match l.source with
  | .instr => d
  | .packet r i => finishPacket d r i ((e.map causeCode).getD 0) (handleOf l.serial number)
  | .registered _ irq => { d with irqs := d.irqs ++ irq.toList }

/-- LAUNCH_COMPLETION (R318). -/
def completeLaunch (d : Dev) (number : Nat) : Option Dev :=
  match getLaunch d number with
  | none => none
  | some l =>
    if !running d || !launchComplete d number l then none
    else
      let h := handleOf l.serial number
      let (d, e) := raiseCword d number l
      let d := if e.isSome then writeEvent d 11 h.toNat (recCword l.nrec) else d
      let d := completeSource d number l e
      let d := if l.slipped then writeSlip d number l else d
      let d := finishAll d (((l.preempt.map (·.packets)).getD []) ++ l.restores) h
      some { d with launches := Sparse.erase d.launches number }

/-! ### The timetable (R324, R325, R360) -/

/-- RELEASE: since(X) becomes the tick of the release (R322, R324). -/
def releaseLaunch (d : Dev) (number : Nat) : Option Dev :=
  match getLaunch d number with
  | none => none
  | some l =>
    if l.released || (recRlen l.nrec && d.tick.toNat < recRelease l.nrec) then none
    else some (setLaunch d number { l with released := true, since := d.tick.toNat })

/-- SLIPPED (R325). -/
def slipLaunch (d : Dev) (number : Nat) : Option Dev :=
  match getLaunch d number with
  | none => none
  | some l =>
    if l.slipped || !recDlen l.nrec || d.tick.toNat < recDeadline l.nrec || launchComplete d number l then none
    else some (setLaunch d number { l with slipped := true })

/-- What the tick makes of a launch: released from RELEASE on, slipped from DEADLINE on while it is not complete (R324, R325). -/
def timeLaunch (d : Dev) (number : Nat) (l : Launch) : Launch :=
  let l := if !l.released && recRelease l.nrec ≤ d.tick.toNat then { l with released := true, since := d.tick.toNat } else l
  if recDlen l.nrec && recDeadline l.nrec ≤ d.tick.toNat && !launchComplete d number l then { l with slipped := true } else l

/-- The step word of a ring-group member (R355). -/
def stepWord (d : Dev) (m : Nat × Nat) : Nat := memNat d m.1 8

/-- The step that a member's successor has reached (R355). -/
def successorStep (d : Dev) (g : RingGroup) (m : Nat) : Nat := ((g.members[(m + 1) % g.members.length]?).map (stepWord d)).getD 0

/-- A step is still awaited of a member's successor: it has not reached it, and the member has not gone back from it since its ring-timeout (R355, log
entry 35). -/
def stepAwaited (d : Dev) (g : RingGroup) (m k : Nat) : Bool :=
  successorStep d g m < k && (k ≤ ((g.members[m]?).map (stepWord d)).getD 0 || !g.raised.contains (m, k))

/-- What the link units of a ring group's members have seen: the steps that a member has reached and its successor has not, each with
the tick at which the member reached it, and which of them have raised a ring-timeout (R355). -/
def watchGroup (d : Dev) (g : RingGroup) : RingGroup :=
  let new (p : (Nat × Nat) × Nat) : List (Nat × (Nat × Nat)) :=
    if g.reached.any fun q => q.1 = p.2 && q.2.1 = stepWord d p.1 then [] else [(p.2, (stepWord d p.1, d.tick.toNat))]
  { g with
    reached := (g.reached ++ g.members.zipIdx.flatMap new).filter fun q => stepAwaited d g q.1 q.2.1
    raised := g.raised.filter fun q => stepAwaited d g q.1 q.2 }

/-- FRAME_TICK counts from Noon on (R357, R360); the timetable's marks follow it, and the step words of ring groups are watched. -/
def advanceTick (d : Dev) : Option Dev :=
  if running d then
    let d' : Dev := { d with tick := d.tick + 1, groups := d.groups.map fun p => (p.1, watchGroup d p.2) }
    some { d' with launches := d.launches.map fun p => (p.1, timeLaunch d' p.1 p.2) }
  else none

end Sys2Proof.Machine
end

