-- ==== Sys2Proof/Machine/Packets.lean ====
section
/-!
DEFINITION. Packets of launch rings and pushes of registered launches (R346 to R350, R361 to R368). Each function answers none where its
event cannot happen: no such packet is at the ring's head, or it must wait there.
-/

namespace Sys2Proof.Machine

/-! ### The packet at the head (Tables 17.4 and 17.5) -/

def pkType (x : Nat) : Nat := Bits.field x 3 0
def pkOrd (x : Nat) : Bool := Bits.bit x 20
def pkAcq (x : Nat) : Nat := Bits.field x 23 21
def pkRel (x : Nat) : Nat := Bits.field x 26 24
def pkTenant (x : Nat) : Nat := Bits.field x 31 27
/-- The dependences DEP0 to DEP3. -/
def pkDeps (x : Nat) : List Word := [0, 1, 2, 3].map fun j => BitVec.ofNat 64 (Bits.field x (319 + 64 * j) (256 + 64 * j))
/-- The eight bytes of the packet from byte b on. -/
def pkWord (x b : Nat) : Nat := Bits.field x (8 * b + 63) (8 * b)
/-- The nest record of a LAUNCH packet. -/
def pkRecord (x : Nat) : BitVec 1024 := BitVec.ofNat 1024 (Bits.field x 1535 512)

/-- What a ring's thread finds at HEAD (R346, R350). -/
inductive AtHead where
  | nothing
  | runaway
  | unreadable (addr : Nat)
  | packet (x : Nat)

/-- Read the packet at HEAD. -/
def readHead (d : Dev) (n : Nat) : AtHead :=
  let r := getRing d n
  if !running d || r.state ≠ .active then .nothing
  else
    match translateRoot d (ringRoot d r) (ringTail r) .read with
    | .error _ => .unreadable (ringTail r)
    | .ok t =>
      let left := (memNat d t 4 + 2 ^ 32 - r.head.toNat) % 2 ^ 32
      if left = 0 then .nothing
      else if ringSlots r < left then .runaway
      else
        match translateRoot d (ringRoot d r) (slotVa r r.head.toNat) .read with
        | .error _ => .unreadable (slotVa r r.head.toNat)
        | .ok pa => .packet (memNat d pa 256)

/-- A reserved field of the packet is not 0. -/
def reservedSet (x : Nat) : Bool :=
  let body :=
    match pkType x with
    | 2 => decide (256 ≤ pkWord x 64) || Bits.field x 1535 1024 ≠ 0
    | 5 => decide (2 ≤ pkWord x 72)
    | _ => false
  Bits.field x 255 64 ≠ 0 || Bits.field x 18 4 ≠ 0 || Bits.field x 2047 1728 ≠ 0 || body

/-- Steps 1 and 2 of R348. -/
def headerFault (d : Dev) (r : Ring) (x : Nat) : Option Cause :=
  let ty := pkType x
  if pkTenant x ≠ ringTenant r || (4 ≤ ty && ty ≤ 9 && !ringPriv r) then some .permission
  else if 10 ≤ ty || reservedSet x then some .illegalEncoding
  else if pkAcq x = 7 || pkRel x = 7 then some .illegalInstruction
  else if (pkAcq x = 6 || pkRel x = 6) && !(getVf d (ringTenant r)).sys then some .scope
  else if (pkDeps x).any fun h => h ≠ 0 && (liveSerial d h).any fun l => l.tenant ≠ ringTenant r then some .permission
  else none

/-- HEAD advances (R346). -/
def advanceHead (d : Dev) (n : Nat) : Dev := let r := getRing d n; putRing d n { r with head := r.head + 1 }

/-- Complete the packet at HEAD and go on. -/
def finishHead (d : Dev) (n status : Nat) (handle : Word) : Dev :=
  advanceHead (finishPacket d n (getRing d n).head.toNat status handle) n

/-- A LAUNCH or INVOKE that has completed without a launch leaves nothing for ORD to wait for (R348). -/
def clearOrder (d : Dev) (n ty : Nat) : Dev := if ty = 1 || ty = 2 then setRing d n { getRing d n with prev := 0 } else d

/-- A packet is refused: it completes with the cause's code (R348). -/
def refusePacket (d : Dev) (n ty : Nat) (c : Cause) : Dev := clearOrder (finishHead d n (causeCode c) 0) n ty

/-- Serve the packet at HEAD when its TYPE is one of the event's (R346, R348). -/
def serveHead (d : Dev) (n : Nat) (mine : Nat → Bool) (body : Ring → Nat → Option Dev) : Option Dev :=
  let r := getRing d n
  match readHead d n with
  | .nothing => none
  | .runaway => some (writeEvent (putRing d n { r with state := .stopped }) 1 n 0)
  | .unreadable a => some (blockRing d n a)
  | .packet x =>
    if !mine (pkType x) then none
    else
      match headerFault d r x with
      | some c => some (refusePacket d n (pkType x) c)
      | none => body r x

/-! ### NOP, FENCE, LAUNCH, INVOKE, INVAL (R348) -/

/-- NOP; a packet of a reserved TYPE completes here with its status. -/
def serveNop (d : Dev) (n : Nat) : Option Dev :=
  serveHead d n (fun ty => ty = 0 || 10 ≤ ty) fun _ _ => some (finishHead d n 0 0)

/-- The dependences of a packet, with that of ORD. -/
def packetDeps (r : Ring) (x : Nat) : List Word := (pkDeps x).filter (· ≠ 0) ++ (if pkOrd x && r.prev ≠ 0 then [r.prev] else [])

/-- FENCE waits at HEAD for its dependences (R348). -/
def serveFence (d : Dev) (n : Nat) : Option Dev :=
  serveHead d n (· = 3) fun r x => if (packetDeps r x).all (depMet d) then some (finishHead d n 0 0) else none

/-- Admit the launch of a packet, or complete the packet with the record's fault, or wait for room (R348). -/
def admitPacket (d : Dev) (n : Nat) (r : Ring) (x : Nat) (rec : BitVec 1024) (fault : Option (Cause × Nat)) : Option Dev :=
  match fault with
  | some c => some (refusePacket d n 1 c.1)
  | none =>
    if !canAdmit d (ringTenant r) rec then none
    else
      let (d, h) := takeLaunch d (ringTenant r) rec (recPrio rec) (pkAcq x) (pkRel x) (packetDeps r x) (.packet n r.head.toNat)
      some (advanceHead (setRing d n { getRing d n with prev := h }) n)

/-- LAUNCH (R348). -/
def serveLaunch (d : Dev) (n : Nat) : Option Dev :=
  serveHead d n (· = 1) fun r x =>
    admitPacket d n r x (pkRecord x) (recordFault d (ringTenant r) (getVf d (ringTenant r)).sys (pkRecord x))

/-- The template of a slot with the invocation's buffers (R328). -/
def invokeRecord (t : BitVec 1024) (x : Nat) : BitVec 1024 := BitVec.ofNat 1024 (Bits.setField t.toNat 959 512 (Bits.field x 1023 576))

/-- INVOKE (R328, R348). -/
def serveInvoke (d : Dev) (n : Nat) : Option Dev :=
  serveHead d n (· = 2) fun r x =>
    match (Sparse.find? d.slots (pkWord x 64)).filter fun p => p.owner = ringTenant r with
    | none => some (refusePacket d n 2 .residency)
    | some p =>
      let rec' := invokeRecord p.nrec x
      admitPacket d n r x rec' (recordFaultBy d (ringTenant r) (getVf d (ringTenant r)).sys true rec')

/-- A TLB entry that an INVAL of count pages from an address names. -/
def invalHits (f va count : Nat) (e : TlbEntry) : Bool := e.vf = f && (count = 0 || (e.va < va + 65536 * count && va < e.va + e.size))

/-- INVAL drops translations on every die (R128, R348). -/
def serveInval (d : Dev) (n : Nat) : Option Dev :=
  serveHead d n (· = 4) fun _ x =>
    let keep (l : List TlbEntry) : List TlbEntry := l.filter fun e => !invalHits (pkWord x 80 % 32) (pkWord x 64) (pkWord x 72 % 2 ^ 32) e
    let d := { d with cores := d.cores.map fun p => (p.1, { p.2 with utlb := keep p.2.utlb })
                      bayTlb := d.bayTlb.map fun p => (p.1, keep p.2) }
    some (finishHead d n 0 0)

/-! ### PREEMPT and RESTORE (R364, R365) -/

/-- Cores that hold a point of a launch. -/
def coresOf (d : Dev) (number : Nat) : Nat := ((launchOnCores d number).map (·.1)).dedup.length

/-- Begin or raise a pre-emption (R329, R364): at either level the launch's streams find it pending (Table 4.5, R115). -/
def beginPreempt (d : Dev) (number : Nat) (l : Launch) (q : Preempt) (packet : Nat × Nat) : Dev :=
  let q' : Preempt :=
    match l.preempt with
    | none => { q with packets := [packet] }
    | some p => if q.forced && !p.forced then { q with packets := p.packets ++ [packet] } else { p with packets := p.packets ++ [packet] }
  let d := setLaunch d number { l with preempt := some q' }
  setPpend d (launchOnCores d number)

/-- PREEMPT (R364). -/
def servePreempt (d : Dev) (n : Nat) : Option Dev :=
  serveHead d n (· = 5) fun r x =>
    let h := pkWord x 64
    match (getLaunch d (h % 256)).filter fun l => l.serial = h / 256 && !l.saved with
    | none => some (finishHead d n (causeCode .frontier) 0)
    | some l =>
      if pkWord x 80 % 64 ≠ 0 || pkWord x 88 % 65536 ≠ 0 then some (finishHead d n (causeCode .align) 0)
      else if pkWord x 96 < coresOf d (h % 256) then some (finishHead d n (causeCode .address) 0)
      else
        let q : Preempt := { forced := Bits.bit x 576, frontier := pkWord x 80, ctx := pkWord x 88, nctx := pkWord x 96 }
        some (advanceHead (beginPreempt d (h % 256) l q (n, r.head.toNat)) n)

/-- RESTORE (R365). With no held point it completes here, and the launch ages from this tick (R341). -/
def serveRestore (d : Dev) (n : Nat) : Option Dev :=
  serveHead d n (· = 6) fun r x =>
    let a := pkWord x 64
    if a % 64 ≠ 0 then some (finishHead d n (causeCode .align) 0)
    else
      match reloadFrontier d a with
      | none => some (finishHead d n (causeCode .frontier) 0)
      | some (number, l) =>
        if l.held.isEmpty then some (finishHead (setLaunch d number { l with since := d.tick.toNat }) n 0 (handleOf l.serial number))
        else some (advanceHead (setLaunch d number { l with restores := l.restores ++ [(n, r.head.toNat)] }) n)

/-! ### RESUME (R367) -/

/-- The suspended fault is a firing fault (R308). -/
def firingSuspended (t : Stream) : Bool := !t.debugStop && Bits.bit t.sys.cause.toNat 8 && Bits.bit t.sys.ecmd.toNat 63

/-- The stream issues again at EPC. -/
def endSuspension (t : Stream) (epc : Option Word) : Stream :=
  let y := match epc with
    | some w => { t.sys with epc := w }
    | none => t.sys
  { t with suspended := false, debugStop := false, slink := none, delay := none, sys := y, pc := y.epc }

/-- The action of a RESUME on the faulted command, or on the rule that ECMD names. -/
def resumeAction (d : Dev) (core i action horizon : Nat) (t : Stream) : Dev :=
  let rule := Bits.field t.sys.ecmd.toNat 61 56
  match action with
  | 2 => resumeRule d core rule false
  | 3 => resumeRule d core rule true
  | 4 => revokeRule d core rule horizon
  | a =>
    match t.slink with
    | some age => resumeCommand d core i age (a = 1)
    | none => d

/-- The point of a stream issues again once none of its streams is suspended: the waiting packets complete. -/
def completeResumes (d : Dev) (core i : Nat) (packet : Nat × Nat) : Dev :=
  let d := modStream d core i fun t => { t with resumes := t.resumes ++ [packet] }
  let t := getStream d core i
  let places := match t.point with
    | some p => placesOf d p
    | none => [(core, i)]
  if places.any fun q => (getStream d q.1 q.2).suspended then d
  else
    let h := (t.point.map fun p => handleOf p.serial p.launch).getD 0
    let l := places.flatMap fun q => (getStream d q.1 q.2).resumes
    finishAll (places.foldl (fun d q => modStream d q.1 q.2 fun t => { t with resumes := [] }) d) l h

/-- RESUME (R367). -/
def serveResume (d : Dev) (n : Nat) : Option Dev :=
  serveHead d n (· = 7) fun r x =>
    let core := pkWord x 64
    let i := pkWord x 72 % 4
    let action := pkWord x 80 % 8
    let t := getStream d core i
    if !t.suspended then some (finishHead d n (causeCode .frontier) 0)
    else if 5 ≤ action || (2 ≤ action && !firingSuspended t) then some (finishHead d n (causeCode .illegalInstruction) 0)
    else
      let epc := if Bits.bit (pkWord x 104) 0 then some (BitVec.ofNat 64 (pkWord x 96)) else none
      let d := resumeAction (modStream d core i fun t => endSuspension t epc) core i action (pkWord x 88) t
      some (advanceHead (completeResumes d core i (n, r.head.toNat)) n)

/-! ### SLOTLOAD and SLOTUNLOAD (R368) -/

/-- The slot of a descriptor in memory (Table 17.13). -/
def readSlot (owner x : Nat) : Slot :=
  { owner := owner, image := BitVec.ofNat 64 (pkWord x 0), size := pkWord x 8, poff := Bits.field x 159 128, psize := Bits.field x 191 160
    nrec := pkRecord x }

/-- The checks of R368 on a descriptor, and that its reserved bytes are 0 (R3) and its image untagged and at a multiple of 64 (log entry 74). -/
def slotOk (d : Dev) (slot x : Nat) (p : Slot) : Bool :=
  let r := p.nrec
  let common (c : Nat) (q : Slot) : Bool := Bits.bit (recBays q.nrec) (c / 8)
  let cores := (List.range coreCount).filter fun c => Bits.bit (recBays r) (c / 8)
  let vf := getVf d p.owner
  p.image.toNat % 64 = 0 && tagOf p.image = 0 && Bits.field x 511 256 = 0 && Bits.field x 2047 1536 = 0
    && recSlot r = slot && (recEntry r).toNat % 2 = 0 && (recEntry r).toNat < p.size
    && (frontierCode d true r).isNone && (recScope r ≠ 6 || vf.sys) && recBays r &&& vf.bays.toNat = recBays r
    && p.poff % 65536 = 0 && p.psize % 65536 = 0 && p.poff < 0x400000 && p.poff + p.psize ≤ 0x400000 && p.psize ≤ 0x100000
    && (cores.all fun c => p.psize + ((d.slots.filter fun q => common c q.2).map fun q => q.2.psize).sum ≤ 0x100000)
    && (d.slots.all fun q =>
      !(cores.any fun c => common c q.2) || p.psize = 0 || q.2.psize = 0 || p.poff + p.psize ≤ q.2.poff || q.2.poff + q.2.psize ≤ p.poff)

/-- The persistent region of every core of the placement is set to zeros. -/
def zeroRegion (d : Dev) (p : Slot) : Dev :=
  ((List.range coreCount).filter fun c => Bits.bit (recBays p.nrec) (c / 8)).foldl (fun d c =>
    modCore d c fun k =>
      { k with spm := Sparse.clearRange k.spm p.poff p.psize
               poisonSpm := k.poisonSpm.filter fun g => ¬ (p.poff ≤ 64 * g ∧ 64 * g + 64 ≤ p.poff + p.psize) }) d

/-- SLOTLOAD (R368). -/
def serveSlotload (d : Dev) (n : Nat) : Option Dev :=
  serveHead d n (· = 8) fun _ x =>
    let slot := pkWord x 64 % 64
    let y := memNat d (pkWord x 80) 256
    let p := readSlot (pkWord x 72 % 32) y
    if (Sparse.find? d.slots slot).isSome then some (finishHead d n (causeCode .residency) 0)
    else if pkWord x 80 % 64 ≠ 0 || !slotOk d slot y p then some (finishHead d n (causeCode .frontier) 0)
    else some (finishHead (zeroRegion { d with slots := Sparse.insert d.slots slot p } p) n 0 0)

/-- SLOTUNLOAD waits at HEAD until no launch of the slot remains (R368). -/
def serveSlotunload (d : Dev) (n : Nat) : Option Dev :=
  serveHead d n (· = 9) fun _ x =>
    let slot := pkWord x 64 % 64
    if (Sparse.find? d.slots slot).isNone then some (finishHead d n (causeCode .residency) 0)
    else if d.launches.any fun l => recSlot l.2.nrec = slot then none
    else some (finishHead { d with slots := Sparse.erase d.slots slot } n 0 0)

/-! ### Registered launches (R361, R362) -/

/-- The entry as a nest record. -/
def regRecord (d : Dev) (entry : Nat) : BitVec 1024 := BitVec.ofNat 1024 (memNat d (d.ctl.regTab.toNat + 256 * entry + 64) 128)

/-- Steps 1 and 3 of R348 on a registration entry. -/
def registeredFault (d : Dev) (entry : Nat) : Option Cause :=
  let c := regControl d entry
  let base := d.ctl.regTab.toNat + 256 * entry
  let tenant := Bits.field c 5 1
  if d.ctl.regN ≤ entry || !Bits.bit c 0 then some .permission
  else if Bits.field c 63 23 ≠ 0 || memNat d (base + 24) 40 ≠ 0 || memNat d (base + 192) 64 ≠ 0 then some .illegalEncoding
  else if Bits.field c 10 8 = 7 || Bits.field c 13 11 = 7 then some .illegalInstruction
  else if (Bits.field c 10 8 = 6 || Bits.field c 13 11 = 6) && !(getVf d tenant).sys then some .scope
  else (recordFault d tenant (getVf d tenant).sys (regRecord d entry)).map (·.1)

/-- REGISTERED_LAUNCH_PUSH: one push of the entry is admitted or dropped; it waits for room (R362). -/
def servePush (d : Dev) (entry : Nat) : Option Dev :=
  match d.pushes.find? fun p => p.2 = entry with
  | none => none
  | some p =>
    let taken := { d with pushes := d.pushes.erase p }
    let c := regControl d entry
    let base := d.ctl.regTab.toNat + 256 * entry
    let tenant := Bits.field c 5 1
    if !running d then none
    else
      match registeredFault d entry with
      | some e => some (writeEvent taken 10 entry (BitVec.ofNat 64 (causeCode e)))
      | none =>
        if !canAdmit d tenant (regRecord d entry) then none
        else
          let r := regRecord d entry
          let irq := if Bits.bit c 14 then some (Bits.field c 22 15) else none
          let (d, h) := takeLaunch taken tenant r (recPrio r) (Bits.field c 10 8) (Bits.field c 13 11) [] (.registered entry irq)
          let d := homeStore d (base + 16) (Bits.toBytes 8 h.toNat)
          some (homeStore d (base + 8) (Bits.toBytes 8 (memNat d (base + 8) 8 + 1)))

end Sys2Proof.Machine
end

