-- ==== Sys2Proof/Machine/Onyx.lean ====
section
/-!
DEFINITION. The Onyx die (R341 to R345, R351 to R360): the control window, function records, rings into service, boot, heat, links, ring
groups, errors, and requests from outside the package. Each function answers none where its event cannot happen.
-/

namespace Sys2Proof.Machine

/-! ### The control window (Table 17.1) -/

/-- The value is one that a register takes; a misaligned base and a size out of range are illegal. -/
def controlOk (off v : Nat) : Bool :=
  match off with
  | 0x000 => 1 ≤ v && v < 2 ^ 32
  | 0x008 => v % 65536 = 0
  | 0x010 => v % 1024 = 0
  | 0x018 | 0x038 => v % 32 = 0
  | 0x020 | 0x040 => v ≤ 16
  | 0x060 | 0x070 => v % 4096 = 0
  | 0x068 => v ≤ 65536
  | _ => true

/-- A register of the window after a write of a legal value; read-only offsets keep theirs. -/
def writeControl (c : Control) (off : Nat) (v : Word) : Control :=
  match off with
  | 0x000 => { c with ageLimit := v.setWidth 32 }
  | 0x008 => { c with ringTab := v }
  | 0x010 => { c with vfTab := v }
  | 0x018 => { c with slipBase := v }
  | 0x020 => { c with slipLog2n := v.toNat }
  | 0x038 => { c with evtBase := v }
  | 0x040 => { c with evtLog2n := v.toNat }
  | 0x060 => { c with regTab := v }
  | 0x068 => { c with regN := v.toNat }
  | 0x070 => { c with faultBuf := v }
  | 0x078 => { c with dbgEn := BitVec.ofNat 160 (Bits.setField c.dbgEn.toNat 63 0 v.toNat) }
  | 0x080 => { c with dbgEn := BitVec.ofNat 160 (Bits.setField c.dbgEn.toNat 127 64 v.toNat) }
  | 0x088 => { c with dbgEn := BitVec.ofNat 160 (Bits.setField c.dbgEn.toNat 159 128 (v.toNat % 2 ^ 32)) }
  | _ => c

/-- CONTROL_WINDOW_WRITE: an illegal value is ignored, and offset 0x050 is RING_RESUME's (R342). A part held at Dawn takes no write (R356). -/
def controlWrite (d : Dev) (off : Nat) (v : Word) : Dev :=
  if !softwareRuns d then d
  else if off = 0x050 then (resumeRing d v.toNat).getD d else if controlOk off v.toNat then { d with ctl := writeControl d.ctl off v } else d

/-! ### What system software sets without an event (log entries 7, 35) -/

/-- TICK_PERIOD takes 190 to 0xFFFF_FFFF, other values being illegal (R71), and a package has ring groups 0 to 15 (R355); a group with no member is
withdrawn. A part held at Dawn takes no write (R356). -/
def systemWrite (d : Dev) (w : SystemWrite) : Dev :=
  if !softwareRuns d then d
  else match w with
  | .tickPeriod v => if 190 ≤ v.toNat ∧ v.toNat < 2 ^ 32 then { d with tickPeriod := v.setWidth 32 } else d
  | .ringGroup g members timeout =>
    if 16 ≤ g then d
    else if members.isEmpty then { d with groups := Sparse.erase d.groups g }
    else { d with groups := Sparse.insert d.groups g { members := members, timeout := timeout } }

/-! ### Functions and rings -/

/-- A VF record's fields (Table 17.2). -/
def vfOfRecord (x : Nat) : Vf :=
  { root := Bits.field x 63 0, sys := Bits.bit x 64, en := Bits.bit x 65, lquota := Bits.field x 77 69, tquota := Bits.field x 83 78
    bays := BitVec.ofNat 20 (Bits.field x 103 84), l2lim := BitVec.ofNat 32 (Bits.field x 159 128) }

/-- A bay mask holds a bay of a die. -/
def bayOnDie (bays die : Nat) : Bool := bays / 32 ^ die % 32 ≠ 0

/-- The record is refused at its write (R343), or holds a value that Table 17.2 forbids. -/
def vfRefused (d : Dev) (vf x : Nat) : Bool :=
  let v := vfOfRecord x
  let others := (d.vfs.filter fun p => p.1 ≠ vf && p.2.en).map (·.2)
  let sum (die : Nat) : Nat := v.lquota + ((others.filter fun o => bayOnDie o.bays.toNat die).map (·.lquota)).sum
  v.en && ((others.any fun o => o.bays &&& v.bays ≠ 0) || ([0, 1, 2, 3].any fun die => bayOnDie v.bays.toNat die && 64 < sum die)
    || 64 < v.lquota || v.tquota = 0 || 32 < v.tquota || v.root % 2 ^ 20 ≠ 0
    || Bits.field x 255 160 ≠ 0 || Bits.field x 127 104 ≠ 0 || Bits.field x 68 66 ≠ 0)

/-- VF_RECORD_WRITE (R343). The event of type 7 has the function's number as its SOURCE and 0 as its ARG (log entry 155). -/
def writeVf (d : Dev) (vf : Nat) (r : BitVec 256) : Option Dev :=
  if 32 ≤ vf || !softwareRuns d then none
  else
    let refused := vfRefused d vf r.toNat
    let x := if refused then Bits.setField r.toNat 65 65 0 else r.toNat
    let d := homeStore { d with vfs := Sparse.insert d.vfs vf (vfOfRecord x) } (d.ctl.vfTab.toNat + 32 * vf) (Bits.toBytes 32 x)
    some (if refused then writeEvent d 7 vf 0 else d)

/-- A ring's thread watches its TAIL word (R346). -/
def watchTail (d : Dev) (n : Nat) : Dev :=
  let d := { d with watches := d.watches.filter fun w => w.2.owner ≠ .ring n }
  let r := getRing d n
  match translateRoot d (ringRoot d r) (ringTail r) .read with
  | .error _ => d
  | .ok pa =>
    match freeWatch d (homeSlice d pa) with
    | none => d
    | some h =>
      let w : Watch := { owner := .ring n, pa := pa, len := 0, cond := 0, value := 0, mask := 0, act := false, arg := 0, ten := false, tok := 0 }
      { d with watches := Sparse.insert d.watches h w }

/-- RING_ENABLE: a write of a ring's descriptor (R345, R346). HEAD is the device's own. Reserved bits are kept and have no effect (R3, log
entry 113). A write with EN = 0 sets STATE to IDLE (log entry 157). -/
def enableRing (d : Dev) (n : Nat) (desc : BitVec 1024) : Option Dev :=
  if 256 ≤ n || !softwareRuns d then none
  else
    let r := getRing d n
    let en := Bits.bit desc.toNat 24
    let bad := en && 13 ≤ Bits.field desc.toNat 15 12
    if bad then some (writeEvent d 1 n 0)
    else
      let r := { r with desc := desc, state := if en then .active else .idle }
      let d := homeStore (putRing d n r) (d.ctl.ringTab.toNat + 128 * n + 64) (Bits.toBytes 64 (Bits.field desc.toNat 1023 512))
      some (if en then watchTail d n else { d with watches := d.watches.filter fun w => w.2.owner ≠ .ring n })

/-! ### Boot (R356, R357) -/

/-- What the boot ROM makes of an image: the failing check, or Dawn. -/
def judgeImage (b : Boot) (img : BootImage) : Phase :=
  if !img.edOk then .heldAtDawn 1 else if !img.mlOk then .heldAtDawn 2 else if img.version < b.fused then .heldAtDawn 3 else .dawn

/-- DAWN (R356). -/
def bootDawn (d : Dev) (img : BootImage) : Option Dev :=
  if d.boot.phase = .powerOn then some { d with boot := { d.boot with phase := judgeImage d.boot img } } else none

/-- NEW_BOOT_IMAGE (R356). -/
def bootAgain (d : Dev) (img : BootImage) : Option Dev :=
  match d.boot.phase with
  | .heldAtDawn _ => some { d with boot := { d.boot with phase := judgeImage d.boot img } }
  | _ => none

/-- NOON: the record is verified and applied, FRAME_TICK starts at 0, and the dispatchers are released (R315, R357, R358). -/
def bootNoon (d : Dev) (r : ConfigRecord) : Option Dev :=
  if d.boot.phase ≠ .dawn then none
  else if !r.edOk || !r.mlOk then some d
  else
    let links : List (Nat × Link) := (List.range 16).map fun i => (i, { Sparse.get d.links {} i with up := Bits.bit r.links.toNat i })
    some { d with
      boot := { d.boot with phase := .noon, pkgId := r.pkgId, bays := r.bays, linksIn := r.links, hbm := r.hbm, roles := r.roles, power := r.power }
      links := links, tick := 0, serial := 1 }

/-! ### Heat and power (R360) -/

/-- THERMAL_STEP: 100 MHz down to no less than 1.2 GHz, or up to the full clock. The event's SOURCE is 0 (log entry 156). -/
def stepClock (d : Dev) (up : Bool) (temp : Word) : Option Dev :=
  let m := d.boot.clockMhz
  if !running d || (if up then 1900 ≤ m else m ≤ 1200) then none
  else some (writeEvent { d with boot := { d.boot with clockMhz := if up then m + 100 else m - 100 } } 6 0 temp)

/-- THERMAL_RESET: what the compute dies held is lost, and the part is at Dawn. -/
def resetCompute (d : Dev) : Option Dev :=
  if !running d then none
  else
    some { d with
      boot := { d.boot with phase := .dawn }
      cores := [], gangs := [], boards := [], watches := [], pushes := [], launches := [], slots := [], bayTlb := [], combining := [], arrivals := []
      contexts := [] }

/-! ### Links and ring groups (R353 to R355) -/

/-- FLIT_RETRY (R353). -/
def retryFlit (d : Dev) (i : Nat) : Option Dev :=
  let l := getLink d i
  if i < 16 && l.up then some { d with links := Sparse.insert d.links i { l with retries := l.retries + 1 } } else none

/-- LINK_DOWN, with the writes that it drops (R354). -/
def downLink (d : Dev) (i lost : Nat) : Option Dev :=
  let l := getLink d i
  if i < 16 && l.up then
    some (writeEvent { d with links := Sparse.insert d.links i { l with up := false, dropped := l.dropped + lost } } 3 i 0)
  else none

/-- The least step of a member that is overdue and has raised no ring-timeout: its successor has not reached it within TIMEOUT ticks of the member's
reaching it. -/
def overdueStep (d : Dev) (r : RingGroup) (m : Nat) : Option Nat :=
  ((r.reached.filter fun q =>
    q.1 = m && q.2.2 + r.timeout ≤ d.tick.toNat && successorStep d r m < q.2.1 && !r.raised.contains (m, q.2.1)).map (·.2.1)).min?

/-- RING_TIMEOUT: the member's successor has not reached a step within TIMEOUT ticks of the member's own reaching it (R355). Each step raises one (log
entry 35). -/
def timeoutRing (d : Dev) (g m : Nat) : Option Dev :=
  match Sparse.find? d.groups g with
  | none => none
  | some r =>
    match r.members[m]?, overdueStep d r m with
    | some a, some k =>
      let d := { d with groups := Sparse.insert d.groups g { r with raised := r.raised ++ [(m, k)] } }
      some (writeEvent (homeStore d a.2 (Bits.toBytes 8 (2 ^ 62 + k))) 4 g (BitVec.ofNat 64 k))
    | _, _ => none

/-- RING_ABORT: every member's status word receives the least step (R355). -/
def abortRing (d : Dev) (g m : Nat) : Option Dev :=
  match Sparse.find? d.groups g with
  | none => none
  | some r =>
    match r.members[m]? with
    | none => none
    | some a =>
      let s := (r.members.map (stepWord d)).foldl min (stepWord d a)
      let d := (r.members.filter fun b => !linkCut d b.2).foldl (fun d b => homeStore d b.2 (Bits.toBytes 8 (2 ^ 63 + s))) d
      some (writeEvent d 5 g (BitVec.ofNat 64 s))

/-! ### Errors (R359) -/

/-- UNCORRECTABLE_ERROR: the sector or word is poisoned, with an event of type 2, whose SOURCE is the slice or the core (log entry 153). -/
def poisonSite (d : Dev) (site : ErrSite) : Option Dev :=
  let core (c : Nat) (addr : Nat) (f : Core → Core) : Option Dev :=
    if c < coreCount then some (writeEvent (modCore d c f) 2 c (BitVec.ofNat 64 addr)) else none
  match site with
  | .sector s => some (writeEvent { d with poison := addPoison d.poison s } 2 (homeSlice d (64 * s)) (BitVec.ofNat 64 (64 * s)))
  | .spm c g => if g < 65536 then core c (64 * g) fun k => { k with poisonSpm := addPoison k.poisonSpm g } else none
  | .vreg c x => if x < 163840 then core c 0 fun k => { k with poisonV := addPoison k.poisonV x } else none
  | .mask c x => if x < 16384 then core c 0 fun k => { k with poisonM := addPoison k.poisonM x } else none
  | .acc c x => if x < 131072 then core c 0 fun k => { k with poisonA := addPoison k.poisonA x } else none
  | .bnd c x => if x < 512 then core c 0 fun k => { k with poisonB := addPoison k.poisonB x } else none
  | .l1 c s => if (List.range 64).any fun j => l1Has (getCore d c) (64 * s + j) then core c (64 * s) fun k => { k with poisonL1 := addPoison k.poisonL1 s } else none
  | .icache c s => core c (64 * s) fun k => { k with icache := holdSector k.icache s .ecc }
  | _ => none

/-- CORRECTED_ERROR: counted in CE_COUNT, which saturates, or for its slice (keys 0 to 159), stack (from 256) or link. -/
def correctSite (d : Dev) (site : ErrSite) : Option Dev :=
  let core (c : Nat) : Option Dev :=
    if c < coreCount then some (modCore d c fun k => { k with ceCount := if k.ceCount = BitVec.allOnes 32 then k.ceCount else k.ceCount + 1 }) else none
  let count (key : Nat) : Option Dev := some { d with ceCounts := Sparse.modify d.ceCounts 0 key (· + 1) }
  match site with
  | .sector s => count (homeSlice d (64 * s))
  | .spm c _ | .vreg c _ | .mask c _ | .acc c _ | .bnd c _ | .icache c _ | .l1 c _ => core c
  | .slice n => if n < 160 then count n else none
  | .stack n => count (256 + n)
  | .link i => if i < 16 then some { d with links := Sparse.insert d.links i { getLink d i with retries := (getLink d i).retries + 1 } } else none

/-! ### Requests from outside the package (R351, R353) -/

/-- A root-port group has the role IO or STOR. -/
def hasIo (d : Dev) : Bool := (List.range 16).any fun g => 2 ≤ Bits.field d.boot.roles.toNat (2 * g + 1) (2 * g)

/-- DMA bytes performed one at a time through a function's tables; none where a byte does not translate. -/
def dmaRuns (d : Dev) (root va : Nat) : List Byte → Option (List (Nat × Byte))
  | [] => some []
  | b :: r =>
    match translateRoot d root va .write with
    | .error _ => none
    | .ok pa => (dmaRuns d root (va + 1) r).map fun l => (pa, b) :: l

/-- INBOUND_DMA_WRITE: an endpoint of a function, or of system software (function 32, physical addresses), writes at the homes (R351). -/
def inboundDma (d : Dev) (vf : Nat) (va : Word) (data : List Byte) : Option Dev :=
  if !running d || !hasIo d || data.isEmpty then none
  else if vf = 32 then some (homeStore d va.toNat data)
  else
    match dmaRuns d (getVf d vf).root va.toNat data with
    | none => none
    | some l => some (homeRuns d (runsOf l))

/-- REMOTE_LINK_REQUEST: performed at the home (R147, R353); the answer to a read or an ATOM leaves the package. What another package publishes is
posted to this package's board of that function, or to its SYSTEM board (R132, R344, log entry 158). -/
def remoteRequest (d : Dev) (q : RemoteRequest) : Option Dev :=
  let linked := (List.range 16).any fun i => (getLink d i).up
  let here (pa : Nat) : Bool := region pa ≤ 1
  if !running d || !linked then none
  else
    match q with
    | .read pa _ => if here pa then some d else none
    | .write pa data => if here pa then some (homeStore d pa data) else none
    | .post vf sig =>
      let b := match vf with | some n => 8 + n | none => 5
      if vf.any (32 ≤ ·) then none else some { d with boards := Sparse.insert d.boards b (postBoard (getBoard d b) sig) }
    | .atom op wide uns pa x e =>
      let n := if wide then 8 else 4
      if !here pa || pa % n ≠ 0 || homePoisoned d pa n then none
      else
        some (homeStore d pa (Bits.toBytes n (atomNew op uns (8 * n) (memNat d pa n) (x.toNat % 256 ^ n) (e.toNat % 256 ^ n))))

end Sys2Proof.Machine
end

