-- ==== Sys2Proof/Machine/Events.lean ====
section
/-!
DEFINITION. Meanings of the device's events: the rows of the opcode table that are no encoded instruction. Each applies one function of the
device; an event that cannot happen in a state leaves the state as it is (log entry 2).
-/

namespace Sys2Proof.Machine

/-- What an event does to the machine: the device it gives, or nothing where it cannot happen. -/
def happen (s : State) (e : Dev → Option Dev) : Result := .next { s with dev := (e s.dev).getD s.dev }

/-- CPYR_CONTRIBUTION of the n-th contribution under way, which waits for no earlier one. -/
def combineNext (d : Dev) (n : Nat) : Option Dev :=
  match d.combining[n]? with
  | none => none
  | some t => if t.done || contributionWaits d n t then none else some (contributionArrives d n)

/-- A fill ahead of need: the sector must have a tag of 0x0. -/
def fillOnDemand (d : Dev) (core : Nat) (va : Word) : Option Dev :=
  if tagOf va ≠ 0 || coreCount ≤ core then none else fillSector d core (va.toNat / 64)

/-- COMMAND_START (R13, R17, R19, R23). -/
def execCommandStart (core stream : Nat) (q : QueueId) (s : State) : Result := happen s fun d => startCommand d core stream q

/-- COMMAND_COMPLETION (R20, R23, R177, R258). -/
def execCommandCompletion (core age : Nat) (s : State) : Result := happen s fun d => completeCommand d core age

/-- COPY_VISIBILITY (R136, R258). -/
def execCopyVisibility (core age : Nat) (s : State) : Result := happen s fun d => copyVisible d core age

/-- K_BLOCK (R221, R232, R240). -/
def execKBlock (core age : Nat) (s : State) : Result := happen s fun d => stepBlock d core age

/-- COPY_PIECE (R257). -/
def execCopyPiece (core age : Nat) (s : State) : Result := happen s fun d => stepPiece d core age

/-- ARRIVAL (R27, R142). -/
def execArrival (k : Nat) (s : State) : Result := happen s fun d => arrive d k

/-- CPYR_CONTRIBUTION (R264, R265). -/
def execCpyrContribution (k : Nat) (s : State) : Result := happen s fun d => combineNext d k

/-- PEER_ACCESS (R21). -/
def execPeerAccess (core off : Nat) (data : List Byte) (s : State) : Result := happen s fun d => Sys2Proof.Machine.peerAccess d core off data

/-- L1_EVICTION (R130). -/
def execL1Eviction (core sector : Nat) (s : State) : Result := happen s fun d => evictL1 d core sector

/-- ICACHE_FILL (R38). -/
def execIcacheFill (core : Nat) (va : Word) (s : State) : Result := happen s fun d => fillOnDemand d core va

/-- FAULT_DELIVERY (R76 to R78). -/
def execFaultDelivery (core stream : Nat) (s : State) : Result := happen s fun d => deliverPending d core stream

/-- STATUS_RESUME (R79). -/
def execStatusResume (core stream : Nat) (s : State) : Result := happen s fun d => returnStatus d core stream false

/-- STATUS_DISCARD (R79). -/
def execStatusDiscard (core stream : Nat) (s : State) : Result := happen s fun d => returnStatus d core stream true

/-- LEASE_GRANT (R219). -/
def execLeaseGrant (core : Nat) (s : State) : Result := happen s fun d => grantLease d core

/-- LEASE_IDLE_END (R219). -/
def execLeaseIdleEnd (core : Nat) (s : State) : Result := happen s fun d => idleLease d core

/-- WATCH_MATCH (R152). -/
def execWatchMatch (pa n : Nat) (s : State) : Result := happen s fun d => writeMatches d pa n

/-- NOTIFICATION (R152, R289). -/
def execNotification (handle : Nat) (s : State) : Result := happen s fun d => deliverNote d handle

/-- COMMIT_WATCH (R289, R290). -/
def execCommitWatch (core axis : Nat) (s : State) : Result := happen s fun d => applyCommit d core axis

/-- FIRING (R300, R301). -/
def execFiring (core axis : Nat) (s : State) : Result := happen s fun d => fireAxis d core axis

/-- REGISTERED_LAUNCH_PUSH (R362). -/
def execRegisteredLaunchPush (entry : Nat) (s : State) : Result := happen s fun d => servePush d entry

/-- POINT_DISPATCH (R321 to R323). -/
def execPointDispatch (die : Nat) (s : State) : Result := happen s fun d => dispatchPoint d die

/-- POINT_DONE (R31, R317). -/
def execPointDone (launch o m n : Nat) (s : State) : Result := happen s fun d => finishPoint d launch o m n

/-- LAUNCH_COMPLETION (R318). -/
def execLaunchCompletion (launch : Nat) (s : State) : Result := happen s fun d => completeLaunch d launch

/-- RELEASE (R324). -/
def execRelease (launch : Nat) (s : State) : Result := happen s fun d => releaseLaunch d launch

/-- SLIPPED (R325). -/
def execSlipped (launch : Nat) (s : State) : Result := happen s fun d => slipLaunch d launch

/-- FRAME_TICK (R360). -/
def execFrameTick (s : State) : Result := happen s fun d => advanceTick d

/-- LAUNCH_SAVE (R330). -/
def execLaunchSave (launch : Nat) (s : State) : Result := happen s fun d => saveLaunch d launch

/-- CONTEXT_SAVE (R331 to R333). -/
def execContextSave (core : Nat) (s : State) : Result := happen s fun d => saveGang d core

/-- NOP_PACKET (R348). -/
def execNopPacket (ring : Nat) (s : State) : Result := happen s fun d => serveNop d ring

/-- LAUNCH_PACKET (R348). -/
def execLaunchPacket (ring : Nat) (s : State) : Result := happen s fun d => serveLaunch d ring

/-- INVOKE (R328, R348). -/
def execInvoke (ring : Nat) (s : State) : Result := happen s fun d => serveInvoke d ring

/-- FENCE_PACKET (R348). -/
def execFencePacket (ring : Nat) (s : State) : Result := happen s fun d => serveFence d ring

/-- INVAL (R128, R348). -/
def execInval (ring : Nat) (s : State) : Result := happen s fun d => serveInval d ring

/-- PREEMPT (R329, R364). -/
def execPreempt (ring : Nat) (s : State) : Result := happen s fun d => servePreempt d ring

/-- RESTORE (R334, R365). -/
def execRestore (ring : Nat) (s : State) : Result := happen s fun d => serveRestore d ring

/-- RESUME (R367). -/
def execResume (ring : Nat) (s : State) : Result := happen s fun d => serveResume d ring

/-- SLOTLOAD (R368). -/
def execSlotload (ring : Nat) (s : State) : Result := happen s fun d => serveSlotload d ring

/-- SLOTUNLOAD (R368). -/
def execSlotunload (ring : Nat) (s : State) : Result := happen s fun d => serveSlotunload d ring

/-- RING_RESUME (R342, R350). -/
def execRingResume (ring : Nat) (s : State) : Result := happen s fun d => resumeRing d ring

/-- RING_ENABLE (R345). -/
def execRingEnable (ring : Nat) (desc : BitVec 1024) (s : State) : Result := happen s fun d => enableRing d ring desc

/-- VF_RECORD_WRITE (R343). -/
def execVfRecordWrite (vf : Nat) (rec : BitVec 256) (s : State) : Result := happen s fun d => writeVf d vf rec

/-- CONTROL_WINDOW_WRITE (R342). -/
def execControlWindowWrite (off : Nat) (v : Word) (s : State) : Result := happen s fun d => some (controlWrite d off v)

/-- DAWN (R356). -/
def execDawn (img : BootImage) (s : State) : Result := happen s fun d => bootDawn d img

/-- NOON (R357, R358). -/
def execNoon (rec : ConfigRecord) (s : State) : Result := happen s fun d => bootNoon d rec

/-- THERMAL_STEP (R360). -/
def execThermalStep (up : Bool) (temp : Word) (s : State) : Result := happen s fun d => stepClock d up temp

/-- THERMAL_RESET (R360). -/
def execThermalReset (s : State) : Result := happen s fun d => resetCompute d

/-- FLIT_RETRY (R353). -/
def execFlitRetry (link : Nat) (s : State) : Result := happen s fun d => retryFlit d link

/-- LINK_DOWN (R354). -/
def execLinkDown (link : Nat) (lostWrites : Nat) (s : State) : Result := happen s fun d => downLink d link lostWrites

/-- RING_TIMEOUT (R355). -/
def execRingTimeout (group member : Nat) (s : State) : Result := happen s fun d => timeoutRing d group member

/-- RING_ABORT (R355). -/
def execRingAbort (group member : Nat) (s : State) : Result := happen s fun d => abortRing d group member

/-- UNCORRECTABLE_ERROR (R359). -/
def execUncorrectableError (site : ErrSite) (s : State) : Result := happen s fun d => poisonSite d site

/-- CORRECTED_ERROR (R359). -/
def execCorrectedError (site : ErrSite) (s : State) : Result := happen s fun d => correctSite d site

/-- INBOUND_DMA_WRITE (R351). -/
def execInboundDmaWrite (vf : Nat) (va : Word) (data : List Byte) (s : State) : Result := happen s fun d => inboundDma d vf va data

/-- REMOTE_LINK_REQUEST (R353). -/
def execRemoteLinkRequest (req : RemoteRequest) (s : State) : Result := happen s fun d => remoteRequest d req

/-- NEW_BOOT_IMAGE (R356). -/
def execNewBootImage (img : BootImage) (s : State) : Result := happen s fun d => bootAgain d img

end Sys2Proof.Machine
end

