-- ==== Sys2Proof/Machine/Dispatch.lean ====
section
/-!
DEFINITION. The dispatch of every instruction and event to its meaning.
-/

namespace Sys2Proof.Machine

/-- What an instruction or event does to the machine. -/
def exec (i : Instr) (s : State) : Host.Outcome State Fault Refusal :=
  match i with
  | .add f => Sys2Proof.Machine.execAdd f s
  | .addB2 fin d e => Sys2Proof.Machine.execAddB2 fin d e s
  | .sub f => Sys2Proof.Machine.execSub f s
  | .subB2 fin d e => Sys2Proof.Machine.execSubB2 fin d e s
  | .mul f => Sys2Proof.Machine.execMul f s
  | .mulh f => Sys2Proof.Machine.execMulh f s
  | .and f => Sys2Proof.Machine.execAnd f s
  | .andB2 fin d e => Sys2Proof.Machine.execAndB2 fin d e s
  | .or f => Sys2Proof.Machine.execOr f s
  | .orB2 fin d e => Sys2Proof.Machine.execOrB2 fin d e s
  | .xor f => Sys2Proof.Machine.execXor f s
  | .xorB2 fin d e => Sys2Proof.Machine.execXorB2 fin d e s
  | .andn f => Sys2Proof.Machine.execAndn f s
  | .shl f => Sys2Proof.Machine.execShl f s
  | .shlB2 fin d e => Sys2Proof.Machine.execShlB2 fin d e s
  | .shr f => Sys2Proof.Machine.execShr f s
  | .shrB2 fin d e => Sys2Proof.Machine.execShrB2 fin d e s
  | .sha f => Sys2Proof.Machine.execSha f s
  | .rot f => Sys2Proof.Machine.execRot f s
  | .min f => Sys2Proof.Machine.execMin f s
  | .minB2 fin d e => Sys2Proof.Machine.execMinB2 fin d e s
  | .max f => Sys2Proof.Machine.execMax f s
  | .maxB2 fin d e => Sys2Proof.Machine.execMaxB2 fin d e s
  | .sadd f => Sys2Proof.Machine.execSadd f s
  | .ssub f => Sys2Proof.Machine.execSsub f s
  | .addi f => Sys2Proof.Machine.execAddi f s
  | .addiB2 fin d e => Sys2Proof.Machine.execAddiB2 fin d e s
  | .movi f => Sys2Proof.Machine.execMovi f s
  | .popc f => Sys2Proof.Machine.execPopc f s
  | .popcB2 fin d e => Sys2Proof.Machine.execPopcB2 fin d e s
  | .clz f => Sys2Proof.Machine.execClz f s
  | .ctz f => Sys2Proof.Machine.execCtz f s
  | .bfx f => Sys2Proof.Machine.execBfx f s
  | .bfi f => Sys2Proof.Machine.execBfi f s
  | .sel f => Sys2Proof.Machine.execSel f s
  | .mov f => Sys2Proof.Machine.execMov f s
  | .movB2 fin d e => Sys2Proof.Machine.execMovB2 fin d e s
  | .xmov f => Sys2Proof.Machine.execXmov f s
  | .div f => Sys2Proof.Machine.execDiv f s
  | .rem f => Sys2Proof.Machine.execRem f s
  | .rank f => Sys2Proof.Machine.execRank f s
  | .fcvt f => Sys2Proof.Machine.execFcvt f s
  | .fmas f => Sys2Proof.Machine.execFmas f s
  | .aadd f => Sys2Proof.Machine.execAadd f s
  | .aaddB2 fin d e => Sys2Proof.Machine.execAaddB2 fin d e s
  | .aidx f => Sys2Proof.Machine.execAidx f s
  | .amov f => Sys2Proof.Machine.execAmov f s
  | .aldi f => Sys2Proof.Machine.execAldi f s
  | .ld f => Sys2Proof.Machine.execLd f s
  | .st f => Sys2Proof.Machine.execSt f s
  | .lda f => Sys2Proof.Machine.execLda f s
  | .sta f => Sys2Proof.Machine.execSta f s
  | .push f => Sys2Proof.Machine.execPush f s
  | .pop f => Sys2Proof.Machine.execPop f s
  | .prfm f => Sys2Proof.Machine.execPrfm f s
  | .acmp f => Sys2Proof.Machine.execAcmp f s
  | .pbr f => Sys2Proof.Machine.execPbr f s
  | .pbra f => Sys2Proof.Machine.execPbra f s
  | .cmp f => Sys2Proof.Machine.execCmp f s
  | .cmpi f => Sys2Proof.Machine.execCmpi f s
  | .br f => Sys2Proof.Machine.execBr f s
  | .brn f => Sys2Proof.Machine.execBrn f s
  | .jmp f => Sys2Proof.Machine.execJmp f s
  | .call f => Sys2Proof.Machine.execCall f s
  | .ret f => Sys2Proof.Machine.execRet f s
  | .loop f => Sys2Proof.Machine.execLoop f s
  | .lset f => Sys2Proof.Machine.execLset f s
  | .vany f => Sys2Proof.Machine.execVany f s
  | .vall f => Sys2Proof.Machine.execVall f s
  | .gset f => Sys2Proof.Machine.execGset f s
  | .nop f => Sys2Proof.Machine.execNop f s
  | .nopB2 fin => Sys2Proof.Machine.execNopB2 fin s
  | .tset f => Sys2Proof.Machine.execTset f s
  | .tpost f => Sys2Proof.Machine.execTpost f s
  | .tpostB2 fin d e => Sys2Proof.Machine.execTpostB2 fin d e s
  | .twait f => Sys2Proof.Machine.execTwait f s
  | .twaitB2 fin d e => Sys2Proof.Machine.execTwaitB2 fin d e s
  | .swinit f => Sys2Proof.Machine.execSwinit f s
  | .swarm f => Sys2Proof.Machine.execSwarm f s
  | .swwait f => Sys2Proof.Machine.execSwwait f s
  | .swarrive f => Sys2Proof.Machine.execSwarrive f s
  | .publish f => Sys2Proof.Machine.execPublish f s
  | .acquire f => Sys2Proof.Machine.execAcquire f s
  | .fence f => Sys2Proof.Machine.execFence f s
  | .atom f => Sys2Proof.Machine.execAtom f s
  | .garrive f => Sys2Proof.Machine.execGarrive f s
  | .gwait f => Sys2Proof.Machine.execGwait f s
  | .watch f => Sys2Proof.Machine.execWatch f s
  | .unwatch f => Sys2Proof.Machine.execUnwatch f s
  | .trap f => Sys2Proof.Machine.execTrap f s
  | .exit f => Sys2Proof.Machine.execExit f s
  | .sysrd f => Sys2Proof.Machine.execSysrd f s
  | .syswr f => Sys2Proof.Machine.execSyswr f s
  | .split f => Sys2Proof.Machine.execSplit f s
  | .join f => Sys2Proof.Machine.execJoin f s
  | .lease f => Sys2Proof.Machine.execLease f s
  | .lrel f => Sys2Proof.Machine.execLrel f s
  | .yield f => Sys2Proof.Machine.execYield f s
  | .qcfg f => Sys2Proof.Machine.execQcfg f s
  | .genf f => Sys2Proof.Machine.execGenf f s
  | .ftset f => Sys2Proof.Machine.execFtset f s
  | .boundcfg f => Sys2Proof.Machine.execBoundcfg f s
  | .tick f => Sys2Proof.Machine.execTick f s
  | .dbgbrk f => Sys2Proof.Machine.execDbgbrk f s
  | .oaxdef f => Sys2Proof.Machine.execOaxdef f s
  | .install f => Sys2Proof.Machine.execInstall f s
  | .revoke f => Sys2Proof.Machine.execRevoke f s
  | .slcommit f => Sys2Proof.Machine.execSlcommit f s
  | .slwait f => Sys2Proof.Machine.execSlwait f s
  | .rstat f => Sys2Proof.Machine.execRstat f s
  | .rsusp f => Sys2Proof.Machine.execRsusp f s
  | .rresume f => Sys2Proof.Machine.execRresume f s
  | .vadd f => Sys2Proof.Machine.execVadd f s
  | .vsub f => Sys2Proof.Machine.execVsub f s
  | .vmul f => Sys2Proof.Machine.execVmul f s
  | .vfma f => Sys2Proof.Machine.execVfma f s
  | .vmax f => Sys2Proof.Machine.execVmax f s
  | .vmin f => Sys2Proof.Machine.execVmin f s
  | .vdiv f => Sys2Proof.Machine.execVdiv f s
  | .vsqrt f => Sys2Proof.Machine.execVsqrt f s
  | .vexp2 f => Sys2Proof.Machine.execVexp2 f s
  | .vlog2 f => Sys2Proof.Machine.execVlog2 f s
  | .vrcp f => Sys2Proof.Machine.execVrcp f s
  | .vrsq f => Sys2Proof.Machine.execVrsq f s
  | .vabs f => Sys2Proof.Machine.execVabs f s
  | .vneg f => Sys2Proof.Machine.execVneg f s
  | .vscale f => Sys2Proof.Machine.execVscale f s
  | .vcmp f => Sys2Proof.Machine.execVcmp f s
  | .viadd f => Sys2Proof.Machine.execViadd f s
  | .visub f => Sys2Proof.Machine.execVisub f s
  | .vimul f => Sys2Proof.Machine.execVimul f s
  | .vand f => Sys2Proof.Machine.execVand f s
  | .vor f => Sys2Proof.Machine.execVor f s
  | .vxor f => Sys2Proof.Machine.execVxor f s
  | .vshl f => Sys2Proof.Machine.execVshl f s
  | .vshr f => Sys2Proof.Machine.execVshr f s
  | .vsel f => Sys2Proof.Machine.execVsel f s
  | .vperm f => Sys2Proof.Machine.execVperm f s
  | .vbcast f => Sys2Proof.Machine.execVbcast f s
  | .viota f => Sys2Proof.Machine.execViota f s
  | .vscan f => Sys2Proof.Machine.execVscan f s
  | .vpopc f => Sys2Proof.Machine.execVpopc f s
  | .vmov f => Sys2Proof.Machine.execVmov f s
  | .vicmp f => Sys2Proof.Machine.execVicmp f s
  | .vld f => Sys2Proof.Machine.execVld f s
  | .vst f => Sys2Proof.Machine.execVst f s
  | .vlds f => Sys2Proof.Machine.execVlds f s
  | .vgath f => Sys2Proof.Machine.execVgath f s
  | .vscat f => Sys2Proof.Machine.execVscat f s
  | .vred f => Sys2Proof.Machine.execVred f s
  | .vsegred f => Sys2Proof.Machine.execVsegred f s
  | .vmld f => Sys2Proof.Machine.execVmld f s
  | .mlogic f => Sys2Proof.Machine.execMlogic f s
  | .mpopc f => Sys2Proof.Machine.execMpopc f s
  | .vsetl f => Sys2Proof.Machine.execVsetl f s
  | .vtrn f => Sys2Proof.Machine.execVtrn f s
  | .aread f => Sys2Proof.Machine.execAread f s
  | .awrite f => Sys2Proof.Machine.execAwrite f s
  | .vcvt f => Sys2Proof.Machine.execVcvt f s
  | .vqnt f => Sys2Proof.Machine.execVqnt f s
  | .vdqnt f => Sys2Proof.Machine.execVdqnt f s
  | .brd f => Sys2Proof.Machine.execBrd f s
  | .bwr f => Sys2Proof.Machine.execBwr f s
  | .mma f => Sys2Proof.Machine.execMma f s
  | .mmas f => Sys2Proof.Machine.execMmas f s
  | .mmaz f => Sys2Proof.Machine.execMmaz f s
  | .aclr f => Sys2Proof.Machine.execAclr f s
  | .astore f => Sys2Proof.Machine.execAstore f s
  | .aload f => Sys2Proof.Machine.execAload f s
  | .abound f => Sys2Proof.Machine.execAbound f s
  | .cpy f => Sys2Proof.Machine.execCpy f s
  | .cpym f => Sys2Proof.Machine.execCpym f s
  | .cpyr f => Sys2Proof.Machine.execCpyr f s
  | .cpyg f => Sys2Proof.Machine.execCpyg f s
  | .cpys f => Sys2Proof.Machine.execCpys f s
  | .cpyf f => Sys2Proof.Machine.execCpyf f s
  | .nset f => Sys2Proof.Machine.execNset f s
  | .nclr f => Sys2Proof.Machine.execNclr f s
  | .kvmap f => Sys2Proof.Machine.execKvmap f s
  | .kvgath f => Sys2Proof.Machine.execKvgath f s
  | .kvapp f => Sys2Proof.Machine.execKvapp f s
  | .kvcomp f => Sys2Proof.Machine.execKvcomp f s
  | .kvevict f => Sys2Proof.Machine.execKvevict f s
  | .kvrank f => Sys2Proof.Machine.execKvrank f s
  | .launch f => Sys2Proof.Machine.execLaunch f s
  | .frread f => Sys2Proof.Machine.execFrread f s
  | .ptinfo f => Sys2Proof.Machine.execPtinfo f s
  | .commandStart core stream q => Sys2Proof.Machine.execCommandStart core stream q s
  | .commandCompletion core age => Sys2Proof.Machine.execCommandCompletion core age s
  | .copyVisibility core age => Sys2Proof.Machine.execCopyVisibility core age s
  | .kBlock core age => Sys2Proof.Machine.execKBlock core age s
  | .copyPiece core age => Sys2Proof.Machine.execCopyPiece core age s
  | .arrival k => Sys2Proof.Machine.execArrival k s
  | .cpyrContribution k => Sys2Proof.Machine.execCpyrContribution k s
  | .peerAccess core off data => Sys2Proof.Machine.execPeerAccess core off data s
  | .l1Eviction core sector => Sys2Proof.Machine.execL1Eviction core sector s
  | .icacheFill core va => Sys2Proof.Machine.execIcacheFill core va s
  | .faultDelivery core stream => Sys2Proof.Machine.execFaultDelivery core stream s
  | .statusResume core stream => Sys2Proof.Machine.execStatusResume core stream s
  | .statusDiscard core stream => Sys2Proof.Machine.execStatusDiscard core stream s
  | .leaseGrant core => Sys2Proof.Machine.execLeaseGrant core s
  | .leaseIdleEnd core => Sys2Proof.Machine.execLeaseIdleEnd core s
  | .watchMatch pa n => Sys2Proof.Machine.execWatchMatch pa n s
  | .notification handle => Sys2Proof.Machine.execNotification handle s
  | .commitWatch core axis => Sys2Proof.Machine.execCommitWatch core axis s
  | .firing core axis => Sys2Proof.Machine.execFiring core axis s
  | .registeredLaunchPush entry => Sys2Proof.Machine.execRegisteredLaunchPush entry s
  | .pointDispatch die => Sys2Proof.Machine.execPointDispatch die s
  | .pointDone launch o m n => Sys2Proof.Machine.execPointDone launch o m n s
  | .launchCompletion launch => Sys2Proof.Machine.execLaunchCompletion launch s
  | .release launch => Sys2Proof.Machine.execRelease launch s
  | .slipped launch => Sys2Proof.Machine.execSlipped launch s
  | .frameTick => Sys2Proof.Machine.execFrameTick s
  | .launchSave launch => Sys2Proof.Machine.execLaunchSave launch s
  | .contextSave core => Sys2Proof.Machine.execContextSave core s
  | .nopPacket ring => Sys2Proof.Machine.execNopPacket ring s
  | .launchPacket ring => Sys2Proof.Machine.execLaunchPacket ring s
  | .invoke ring => Sys2Proof.Machine.execInvoke ring s
  | .fencePacket ring => Sys2Proof.Machine.execFencePacket ring s
  | .inval ring => Sys2Proof.Machine.execInval ring s
  | .preempt ring => Sys2Proof.Machine.execPreempt ring s
  | .restore ring => Sys2Proof.Machine.execRestore ring s
  | .resume ring => Sys2Proof.Machine.execResume ring s
  | .slotload ring => Sys2Proof.Machine.execSlotload ring s
  | .slotunload ring => Sys2Proof.Machine.execSlotunload ring s
  | .ringResume ring => Sys2Proof.Machine.execRingResume ring s
  | .ringEnable ring desc => Sys2Proof.Machine.execRingEnable ring desc s
  | .vfRecordWrite vf rec => Sys2Proof.Machine.execVfRecordWrite vf rec s
  | .controlWindowWrite off v => Sys2Proof.Machine.execControlWindowWrite off v s
  | .dawn img => Sys2Proof.Machine.execDawn img s
  | .noon rec => Sys2Proof.Machine.execNoon rec s
  | .thermalStep up temp => Sys2Proof.Machine.execThermalStep up temp s
  | .thermalReset => Sys2Proof.Machine.execThermalReset s
  | .flitRetry link => Sys2Proof.Machine.execFlitRetry link s
  | .linkDown link lostWrites => Sys2Proof.Machine.execLinkDown link lostWrites s
  | .ringTimeout group member => Sys2Proof.Machine.execRingTimeout group member s
  | .ringAbort group member => Sys2Proof.Machine.execRingAbort group member s
  | .uncorrectableError site => Sys2Proof.Machine.execUncorrectableError site s
  | .correctedError site => Sys2Proof.Machine.execCorrectedError site s
  | .inboundDmaWrite vf va data => Sys2Proof.Machine.execInboundDmaWrite vf va data s
  | .remoteLinkRequest req => Sys2Proof.Machine.execRemoteLinkRequest req s
  | .newBootImage img => Sys2Proof.Machine.execNewBootImage img s

end Sys2Proof.Machine
end

