-- ==== Sys2Proof/Machine/Issue.lean ====
section
/-!
DEFINITION. Issuing a bundle (R46, R47, R63, R75, R102 to R104) and taking a turn: the head of the agenda, or in turn the stream in focus and what
the device does on its own (R10, log entries 1, 2).
-/

namespace Sys2Proof.Machine

/-! ### Issue -/

/-- The stream can issue its next bundle (R76 to R79, R104, R299, R331). A fault that pends when
a handler starts is taken before the handler's first bundle (R77, log entry 104), and an L1 that holds too much gives up a sector first
(R7, log entry 22). -/
def canIssue (d : Dev) (core i : Nat) : Bool :=
  let k := getCore d core
  let t := coreStream k i
  running d && (streamsOf k).contains i && streamGoes d t && !axisBlocks k t && !l1Full k

/-- The quota refuses the counter of a TWAIT (R344). -/
def quotaRefuses (s : State) (i : Instr) : Bool := (preCore s).tquota ≤ (fieldsOf i).d.toNat

/-- The order in which the slots of a bundle take effect: in a bundle with a TPOST, its TWAITs come after the posts (R24, R63). -/
def slotOrder (s : State) (l : List (Nat × Word × Instr)) : List (Nat × Word × Instr) :=
  if l.any fun x => opcOf x.2.2 = 0x41 then
    let waits (x : Nat × Word × Instr) : Bool := opcOf x.2.2 = 0x42 && !quotaRefuses s x.2.2
    l.filter (fun x => !waits x) ++ l.filter waits
  else l

/-- Run the slots of a bundle while it goes on: the first slot that faults or cannot proceed decides (R63, R75, log entry 105). -/
def runSlots : List (Nat × Word × Instr) → State → Result
  | [], s => .next s
  | (slot, pc, i) :: r, s =>
    if s.status = .going then
      match exec i { s with cur := { s.cur with slot := slot, pc := pc } } with
      | .next t => runSlots r t
      | o => o
    else .next s

/-- A taken transfer whose slots have issued: its target's tag is tested, then its bit 0 (R37, R102). -/
def finishTransfer (x : Delay) (s : State) : State :=
  let s := onStream s fun t => { t with delay := none }
  match x.target with
  | none => s
  | some w =>
    let raise (c : Cause) : State :=
      { s with dev := deliverFault s.dev s.cur.core s.cur.stream { age := 0, cause := c, eeng := eengWord s.cur.stream 0, eaddr := w } false x.at_
               status := .faulted }
    if tagOf w ≠ 0 then raise .address
    else if w.toNat % 2 = 1 then raise .align
    else onStream s fun t => { t with pc := w }

/-- The stream at the end of its group, where a debug stop of its point is taken that came within the group (R104, R278). -/
def groupEnd (s : State) : State := if s.status = .going && (curStream s).point.any (pointDebugStop s.dev) then onStream s stopEpc else s

/-- What follows a bundle: one delay slot fewer, and the transfer after the second (R102). -/
def afterBundle (s : State) : State :=
  if s.status = .going then
    match (preStream s).delay with
    | none => s
    | some x =>
      if x.left ≤ 1 then groupEnd (finishTransfer x s)
      else onStream s fun t => { t with delay := some { x with left := x.left - 1, group := x.group.drop 1 } }
  else s

/-- The next state after a result. -/
def mapNext (r : Result) (f : State → State) : Result :=
  match r with
  | .next s => .next (f s)
  | o => o

/-- A transfer keeps the bundles of its group as they were decoded with it (R103). -/
def keepGroup (l : List GroupBundle) (s : State) : State :=
  if s.status = .going && !l.isEmpty then onStream s fun t => { t with delay := t.delay.map fun x => { x with group := l } } else s

/-- A bundle with TWAITs that stalls, at whichever of its slots, is noted with an age of its own, which it takes at its first stall and keeps until it
issues; so of several the first to wait is the oldest (R24, log entry 125). -/
def noteWait (l : List (Nat × Word × Instr)) (s : State) : State :=
  if s.status = .stalled then
    if (waitCounters l s).isEmpty then onStream s fun t => { t with wait := none }
    else
      onCore s fun k =>
        modCoreStream (if (preStream s).wait.isSome then k else { k with nextAge := k.nextAge + 1 }) s.cur.stream fun t =>
          { t with wait := some (waitAge s, l) }
  else s

/-- A gathered bundle, once its checks have passed. -/
def runBundle (s : State) (core i : Nat) (pc : Word) (g : Gathered) : Result :=
  let (l, body) := splitBody g.items
  let d := modStream g.dev core i fun t => { t with pc := g.next, waitAxis := [], wait := none }
  let cur : Cur := { core := core, stream := i, pc := pc, bundle := pc, next := g.next, after := g.after, body := body }
  let s := { s with pre := g.dev, dev := d, cur := cur, status := .going }
  mapNext (runSlots (slotOrder s l) s) fun s => noteWait l (keepGroup g.group (afterBundle s))

/-- The next bundle of a transfer group, which is not fetched or decoded again (R103). -/
def runGroup (s : State) (core i : Nat) (b : GroupBundle) : Result :=
  let d := modStream s.dev core i fun t => { t with pc := b.next, wait := none }
  let cur : Cur := { core := core, stream := i, pc := b.pc, bundle := b.pc, next := b.next, after := b.next }
  let s := { s with pre := s.dev, dev := d, cur := cur, status := .going }
  mapNext (runSlots (slotOrder s b.slots) s) fun s => noteWait b.slots (afterBundle s)

/-- A bundle that fails before it issues (R47 to R49). -/
def failBundle (s : State) (core i : Nat) (pc : Word) (g : Gathered) (f : EarlyFault) : State :=
  let d := match f.poison with
    | some off => dropSectors g.dev core (f.eaddr.toNat - off) off
    | none => g.dev
  takeFault f.cause f.eaddr 0 f.epc { s with pre := d, dev := d, cur := { core := core, stream := i, pc := pc, bundle := pc } }

/-- A stream issues its next bundle, if it can. A pc that no transfer could leave, from EPC, SPLIT, JOIN or LOOP, raises what a transfer to it would (R37,
log entry 20). -/
def issueBundle (s : State) (core i : Nat) : Result :=
  if !canIssue s.dev core i then .next { s with status := .stalled }
  else
    match ((getStream s.dev core i).delay.map (·.group)).bind (·.head?) with
    | some b => runGroup s core i b
    | none =>
    let pc := (getStream s.dev core i).pc
    let cur : Cur := { core := core, stream := i, pc := pc, bundle := pc }
    if tagOf pc ≠ 0 then .next (takeFault .address pc 0 pc { s with pre := s.dev, cur := cur })
    else if pc.toNat % 2 = 1 then .next (takeFault .align pc 0 pc { s with pre := s.dev, cur := cur })
    else
      let g := gatherAt s.dev core (getCore s.dev core).split pc
      match g.fault with
      | some f => .next (failBundle s core i pc g f)
      | none => runBundle s core i pc g

/-! ### What the device does on its own (log entry 2) -/

/-- An L1 that holds too much evicts its lowest sector (R7, R130, log entry 22). -/
def makeRoom (d : Dev) (c : Nat) : Option Dev :=
  let k := getCore d c
  if l1Full k then ((sectorsIn k.l1clean ++ sectorsIn k.l1dirty).min?).bind fun s => evictL1 d c s else none

/-- A list begun at its n-th element, round and round. -/
def rotate {α : Type} (l : List α) (n : Nat) : List α := l.drop (n % l.length) ++ l.take (n % l.length)

/-- A list of keyed entries begun at the first key from n on, round and round. -/
def fromKey {α : Type} (l : List (Nat × α)) (n : Nat) : List (Nat × α) := (l.filter fun p => n ≤ p.1) ++ l.filter fun p => p.1 < n

/-- The first event of a list that can happen. -/
def firstOf (l : List (Dev → Option Dev)) (d : Dev) : Option Dev := l.findSome? fun f => f d

/-- An event of the oldest run of a core that it can happen to. -/
def runEvent (c : Nat) (f : Dev → Nat → Nat → Option Dev) (d : Dev) : Option Dev := (getCore d c).running.findSome? fun r => f d c r.cmd.age

/-- The events of one core: 63 of them, whatever its state. -/
def coreEvents (c : Nat) : List (Dev → Option Dev) :=
  let streams := [0, 1, 2, 3].flatMap fun i =>
    [fun d => returnStatus d c i false, fun d => returnStatus d c i true, fun d => deliverPending d c i]
  let axes := (List.range 16).flatMap fun x => [fun d => applyCommit d c x, fun d => fireAxis d c x]
  let starts := [0, 1, 2, 3].flatMap fun i => allQueues.map fun q => fun d => startCommand d c i q
  streams ++ axes ++ (fun d => makeRoom d c) :: (fun d => grantLease d c) :: starts
    ++ [runEvent c stepBlock, runEvent c stepPiece, runEvent c completeCommand, runEvent c copyVisible, fun d => idleLease d c]

/-- What is under way between cores and homes: the oldest arrival, the oldest contribution that can, the notifications from a handle on. -/
def linkEvents (d : Dev) (n : Nat) : List (Dev → Option Dev) :=
  rotate
    [firstOf ((List.range d.arrivals.length).map fun j d => arrive d j), firstOf ((List.range d.combining.length).map fun j d => combineNext d j)
     , firstOf ((fromKey d.watches (n / 3 % 2560)).map fun p d => deliverNote d p.1)] n

/-- What the dispatchers do, launches and cores taken from a number on. -/
def dispatcherEvents (d : Dev) (n : Nat) : List (Dev → Option Dev) :=
  let launches (f : Dev → Nat → Option Dev) : Dev → Option Dev := firstOf ((fromKey d.launches (n / 10 % 256)).map fun p d => f d p.1)
  let cores := fromKey d.cores (n / 10 % 160)
  rotate
    ([launches releaseLaunch, launches slipLaunch, launches saveLaunch, launches completeLaunch
      , firstOf (cores.flatMap fun c => (corePoints c.2).map fun q d => finishPoint d q.2.launch q.2.o q.2.m q.2.n)
      , firstOf (cores.map fun c d => saveGang d c.1)] ++ [0, 1, 2, 3].map fun die d => dispatchPoint d die) n

/-- What the queue-scheduling threads do: the oldest push that can, then the rings from a number on. -/
def threadEvents (d : Dev) (n : Nat) : List (Dev → Option Dev) :=
  let serve (r : Nat) : List (Dev → Option Dev) :=
    [serveNop, serveLaunch, serveInvoke, serveFence, serveInval, servePreempt, serveRestore, serveResume, serveSlotload, serveSlotunload].map fun f d => f d r
  rotate [firstOf (d.pushes.map fun p d => servePush d p.2), firstOf ((fromKey d.rings (n / 2 % 256)).flatMap fun r => serve r.1)] n

/-- Each agent of the device with its events, the n-th time that it comes first: the cores from one on, the links, the dispatchers, the threads, and
FRAME_TICK's advance. -/
def agentEvents (d : Dev) (n : Nat) : List (List (Dev → Option Dev)) :=
  [(fromKey d.cores (n % 160)).flatMap fun c => rotate (coreEvents c.1) (n / 160), linkEvents d n, dispatcherEvents d n, threadEvents d n, [advanceTick]]

/-- The first event that can happen, in an order that turns with n: each event of each agent, of each core, launch, ring and watch comes to be the first
for endlessly many n, so that none that can happen for good is passed over (R10, log entry 2). -/
def ownEvent (d : Dev) (n : Nat) : Option Dev := firstOf (rotate (agentEvents d (n / 5)) n).flatten d

/-- Every stream that can issue. -/
def issuers (d : Dev) : List (Nat × Nat) :=
  d.cores.flatMap fun c => ([0, 1, 2, 3].filter fun i => canIssue d c.1 i).map fun i => (c.1, i)

/-- The stream after a focus, in core order, among those that can issue. -/
def nextFocus (d : Dev) (f : Nat × Nat) : Nat × Nat :=
  let l := issuers d
  ((l.find? fun p => 4 * f.1 + f.2 < 4 * p.1 + p.2).orElse fun _ => l.head?).getD f

/-- The focus moves to the next stream that can issue. -/
def moveFocus (s : State) : State := { s with focus := nextFocus s.dev s.focus }

/-- The device does an event of its own. -/
def idleTurn (s : State) : State := { s with dev := (ownEvent s.dev (s.turn / 2)).getD s.dev }

/-- One turn: the head of the agenda (a write of system software's among them); with none, every other turn is the bundle of the focus, which then moves, so that every stream that can issue
comes to its turn, and every other turn an event of the device's own, as is the turn of a focus that stalls. An instruction is no event, and its
turn passes. -/
def takeTurn (s : State) : Result :=
  match s.agenda with
  | .event e :: r => if isEncoded e then .next { s with agenda := r } else exec e { s with agenda := r }
  | .issue core i :: r => issueBundle { s with agenda := r } core i
  | .system w :: r => .next { s with agenda := r, dev := systemWrite s.dev w }
  | [] =>
    let s' := { s with turn := s.turn + 1 }
    if s.turn % 2 = 1 then .next (idleTurn s')
    else mapNext (issueBundle s' s.focus.1 s.focus.2) fun t => moveFocus (if t.status = .stalled then idleTurn t else t)

end Sys2Proof.Machine
end

