-- ==== Sys2Proof/Machine/Loader.lean ====
section
/-!
DEFINITION. How an instruction is put where the next step fetches it (log entry 8): core 0 runs a point of a launch at an
address whose translation its micro-TLB holds.
-/

namespace Sys2Proof.Machine

/-- Where the word is placed, virtual and physical. -/
def loadAt : Nat := 0x10000

/-- The bytes of a word as the opcode table numbers its bits, then zeros up to the longest form (R36, Table 3.1). -/
def wordBytes (nbits w : Nat) : List Byte := Bits.toBytesBE (nbits / 8) w ++ List.replicate (12 - nbits / 8) 0

/-- The length that the first byte gives. -/
def leadLength (l : List Byte) : Nat := ((l.head?.bind formOf).map formLen).getD 2

/-- One-instruction NOP bundles, B2 with END = 1 (R42). -/
def nopPad (n : Nat) : List Byte := (List.replicate n [0x40#8, 0x00#8]).flatten

/-- A command word that an INSTALL can capture: the VSHL body of Table 14.6. -/
def installBody : List Byte := [0xF6#8, 0x1A#8, 0xA0#8, 0x10#8, 0x10#8, 0x00#8, 0x81#8, 0x00#8, 0x00#8, 0x00#8, 0x00#8, 0x00#8]

/-- The opcode of an INSTALL. -/
def loadsInstall (l : List Byte) : Bool :=
  match decode l with
  | .ok (.install _, _) => true
  | _ => false

/-- The instruction must be the only one of its bundle and does not end it: split mode, which ignores END, runs it alone (R46). -/
def loadsAlone (l : List Byte) : Bool :=
  match decode l with
  | .ok (i, _) => soloOpcodes.contains (opcOf i) && !(fieldsOf i).fin
  | _ => false

/-- The program: the word, the body that an INSTALL needs, and NOPs behind them. -/
def loadProgram (nbits w : Nat) : List Byte :=
  let l := wordBytes nbits w
  let one := l.take (leadLength l)
  one ++ (if loadsInstall l then installBody else []) ++ nopPad 20

/-- The point that core 0 runs. -/
def loadPoint : Point := { launch := 0, serial := 1, o := 0, m := 0, n := 0, rank := 0, base := 0, size := 1, tick := 0 }

/-- Core 0 as it stands at the word: at an issue boundary, in joined mode unless the word must stand alone, with its page in the micro-TLB. -/
def loadCore0 (split : Bool) (k : Core) : Core :=
  let t := coreStream k 0
  let e : TlbEntry := { vf := k.tenant, va := loadAt, size := 65536, pa := loadAt, r := true, w := true, x := true }
  { setCoreStream k 0 { t with run := .running, suspended := false, debugStop := false, pc := BitVec.ofNat 64 loadAt, delay := none, faults := []
                               ret := none, waitAxis := [], wait := none, halted := false, point := some loadPoint
                               sys := { t.sys with inh := false, ppend := false } } with
    split := split, slaunch := false, icache := [], l1clean := if l1Full k then [] else k.l1clean, l1dirty := if l1Full k then [] else k.l1dirty, utlb := e :: k.utlb.filter fun x => x.va ≠ loadAt }

/-- Place a word for the next step: the load that a dispatch and a fill from memory stand for. -/
def loadWord (s : State) (nbits w : Nat) : State :=
  let bytes := loadProgram nbits w
  let d := modCore s.dev 0 (loadCore0 (loadsAlone (wordBytes nbits w)))
  { s with
    dev := { d with
      boot := { d.boot with phase := .noon, hbm := BitVec.allOnes 256 }
      mem := Sparse.setRange d.mem memDefault loadAt bytes
      poison := d.poison.filter fun x => x < loadAt / 64 ∨ loadAt / 64 + 2 < x }
    agenda := [], focus := (0, 0), turn := 0 }

end Sys2Proof.Machine
end

