-- ==== Sys2Proof/WellFormed.lean ====
section
/-!
DEFINITION. Well-formed terms of Instr: an instruction that some encoding carries and that passes the decode checks of a mode (R43, R44, R59,
R60), or an event whose numbers name agents that the device has.
-/

namespace Sys2Proof

/-- The numbers of an event name a core, stream, ring, die, link or function of the device (R8, R315, R345, R353). -/
def eventOk (i : Instr) : Bool :=
  match i with
  | .commandStart c s _ | .faultDelivery c s | .statusResume c s | .statusDiscard c s => c < 160 && s < 4
  | .commandCompletion c _ | .copyVisibility c _ | .kBlock c _ | .copyPiece c _ | .leaseGrant c | .leaseIdleEnd c | .l1Eviction c _
  | .contextSave c | .icacheFill c _ => c < 160
  | .peerAccess c o l => c < 160 && o + l.length ≤ 0x400000
  | .commitWatch c x | .firing c x => c < 160 && x < 16
  | .notification h => h < 2560
  | .pointDispatch die => die < 4
  | .pointDone l _ _ _ | .launchCompletion l | .release l | .slipped l | .launchSave l => l < 256
  | .nopPacket r | .launchPacket r | .invoke r | .fencePacket r | .inval r | .preempt r | .restore r | .resume r | .slotload r
  | .slotunload r | .ringResume r | .ringEnable r _ => r < 256
  | .registeredLaunchPush e => e < 65536
  | .vfRecordWrite v _ => v < 32
  | .inboundDmaWrite v _ _ => v ≤ 32
  | .controlWindowWrite o _ => o < 0x90 && o % 8 = 0 && o ≠ 0x50
  | .flitRetry l | .linkDown l _ => l < 16
  | .ringTimeout g _ | .ringAbort g _ => g < 16
  | _ => true

/-- The instruction passes every check of a mode: for a short form the limits of Table 3.4, and check 3 of R60. -/
def wellFormed (split : Bool) (i : Instr) : Bool :=
  if isEncoded i then shortLimits i && Machine.legal split i else eventOk i

end Sys2Proof
end

