-- ==== Sys2Proof/Safety.lean ====
section
/-!
DEFINITION. What claims say: of a run, the canonical form of memory, which every step keeps, and that no stream is suspended; of one instruction, the
registers it reads and what alone has changed after it.
-/

namespace Sys2Proof

open Machine

/-- Global memory keeps its canonical form: addresses rising, no entry equal to what an unlisted byte reads as. -/
def MemoryCanonical (s : State) : Prop := memWf s.dev.mem = true ∧ memWf s.pre.mem = true

/-- No stream of the device is suspended for system software or at a debug stop (R78, R121). -/
def NoneSuspended (s : State) : Prop := ∀ c i, (getStream s.dev c i).suspended = false

/-- A safe outcome of a step: a next state, in canonical form, with no stream suspended. -/
def SafeOutcome (o : Host.Outcome State Fault Refusal) : Prop := ∃ s, o = .next s ∧ MemoryCanonical s ∧ NoneSuspended s

/-- A run of k steps whose every outcome is safe. -/
def SafeRun : Nat → State → Prop
  | 0, _ => True
  | k + 1, s => ∃ t, step s = .next t ∧ SafeOutcome (.next t) ∧ SafeRun k t

end Sys2Proof

namespace Sys2Proof.Machine

/-! ### What the statements speak of -/

/-- s(r) of cluster u of core c; s0 reads zero (Table 4.2). -/
def scalarIn (d : Dev) (c u r : Nat) : Word := if r = 0 then 0 else Sparse.get (coreCluster (getCore d c) u).s 0 r

/-- a(r) of cluster u of core c. -/
def addressIn (d : Dev) (c u r : Nat) : Word := Sparse.get (coreCluster (getCore d c) u).a 0 r

/-- A byte of global memory at its home. -/
def homeByte (d : Dev) (pa : Nat) : Byte := Sparse.get d.mem memDefault pa

/-- A byte of a core's scratchpad. -/
def spmByte (d : Dev) (c off : Nat) : Byte := Sparse.get (getCore d c).spm 0 off

/-- The registers as an instruction reads them: those before its bundle (R63), of its own cluster (R62). -/
def srcS (s : State) (r : BitVec 8) : Word := scalarIn s.pre s.cur.core (clusterOf s) r.toNat
def srcA (s : State) (r : BitVec 8) : Word := addressIn s.pre s.cur.core (clusterOf s) r.toNat

/-- The instruction has passed its decode checks and its gate is 1 (R33, R45, R60). -/
def Ready (i : Instr) (s : State) : Prop := legal (isSplit s) i = true ∧ gateOpen (fieldsOf i) s = true

/-- Nothing outside the device's cores has changed: memory at the homes, launches, rings, the turn and the agenda are as they were. -/
structure OnlyCores (s t : State) : Prop where
  turn    : t = { s with dev := t.dev }
  outside : t.dev = { s.dev with cores := t.dev.cores }

/-- One scalar register of the instruction's cluster has changed, to v; nothing at all where it is s0 (R82). Every other scalar register, every
address register, every stream and its special registers, the scratchpad and all of memory are as they were. -/
structure OnlyScalar (s t : State) (r : BitVec 8) (v : Word) : Prop extends OnlyCores s t where
  cores     : ∀ c, getCore t.dev c = { getCore s.dev c with clusters := (getCore t.dev c).clusters }
  addresses : ∀ c u x, addressIn t.dev c u x = addressIn s.dev c u x
  scalars   : ∀ c u x, scalarIn t.dev c u x =
                if c = s.cur.core ∧ u = clusterOf s ∧ x = r.toNat ∧ x ≠ 0 then v else scalarIn s.dev c u x

/-- One address register of the instruction's cluster has changed, to v, and nothing else. -/
structure OnlyAddress (s t : State) (r : BitVec 8) (v : Word) : Prop extends OnlyCores s t where
  cores     : ∀ c, getCore t.dev c = { getCore s.dev c with clusters := (getCore t.dev c).clusters }
  scalars   : ∀ c u x, scalarIn t.dev c u x = scalarIn s.dev c u x
  addresses : ∀ c u x, addressIn t.dev c u x = if c = s.cur.core ∧ u = clusterOf s ∧ x = r.toNat then v else addressIn s.dev c u x

/-- The issuing stream's own record has changed by g, and nothing else. -/
structure OnlyStream (s t : State) (g : Stream → Stream) : Prop extends OnlyCores s t where
  cores   : ∀ c, getCore t.dev c = { getCore s.dev c with streams := (getCore t.dev c).streams }
  streams : ∀ c i, getStream t.dev c i = if c = s.cur.core ∧ i = s.cur.stream then g (getStream s.dev c i) else getStream s.dev c i

/-- The issuing core's record has changed by g, and nothing else. -/
structure OnlyCore (s t : State) (g : Core → Core) : Prop extends OnlyCores s t where
  cores : ∀ c, getCore t.dev c = if c = s.cur.core then g (getCore s.dev c) else getCore s.dev c

/-! ### Scalar arithmetic on w-bit values (R84), in the words of bit vectors -/

/-- The result of an ALU operation on w-bit values; sgn is sgn of R84. -/
def aluBits (op : AluOp) (sgn : Bool) {w : Nat} (a b : BitVec w) : BitVec w :=
  match op with
  | .add => a + b
  | .sub => a - b
  | .mul => a * b
  | .mulh => if sgn then BitVec.ofInt w (a.toInt * b.toInt / 2 ^ w) else BitVec.ofNat w (a.toNat * b.toNat / 2 ^ w)
  | .and => a &&& b
  | .or => a ||| b
  | .xor => a ^^^ b
  | .andn => a &&& ~~~b
  | .shl => if b.toNat < w then a <<< b.toNat else 0
  | .shr => if b.toNat < w then a >>> b.toNat else 0
  | .sha => a.sshiftRight (min b.toNat (w - 1))
  | .rot => a.rotateLeft (b.toNat % w)
  | .min => if (if sgn then a.sle b else a.ule b) then a else b
  | .max => if (if sgn then b.sle a else b.ule a) then a else b
  | .sadd =>
    if sgn then
      (if 2 ^ (w - 1) ≤ a.toInt + b.toInt then BitVec.intMax w else if a.toInt + b.toInt < -2 ^ (w - 1) then BitVec.intMin w else a + b)
    else if 2 ^ w ≤ a.toNat + b.toNat then BitVec.allOnes w
    else a + b
  | .ssub =>
    if sgn then
      (if 2 ^ (w - 1) ≤ a.toInt - b.toInt then BitVec.intMax w else if a.toInt - b.toInt < -2 ^ (w - 1) then BitVec.intMin w else a - b)
    else if a.toNat < b.toNat then 0
    else a - b

/-- The instruction of an ALU operation. -/
def aluInstr (op : AluOp) (f : Fields) : Instr :=
  match op with
  | .add => .add f | .sub => .sub f | .mul => .mul f | .mulh => .mulh f | .and => .and f | .or => .or f | .xor => .xor f | .andn => .andn f
  | .shl => .shl f | .shr => .shr f | .sha => .sha f | .rot => .rot f | .min => .min f | .max => .max f | .sadd => .sadd f | .ssub => .ssub f

/-- Element j of a container, for elements of w bits. -/
def lane (w j : Nat) (x : BitVec 32) : BitVec w := x.extractLsb' (w * j) w

/-- R44's view: both halves as they are, the low half twice, the high half twice, or the halves exchanged. -/
def viewBits (m : BitVec 2) (x : BitVec 32) : BitVec 32 :=
  if m = 0 then x else if m = 1 then x.extractLsb' 0 16 ++ x.extractLsb' 0 16 else if m = 2 then x.extractLsb' 16 16 ++ x.extractLsb' 16 16
  else x.extractLsb' 0 16 ++ x.extractLsb' 16 16

/-- R44's merge of a result y into the old destination z. -/
def mergeBits (m : BitVec 2) (z y : BitVec 32) : BitVec 32 :=
  if m = 0 then y else if m = 1 then z.extractLsb' 16 16 ++ y.extractLsb' 0 16 else if m = 2 then y.extractLsb' 16 16 ++ z.extractLsb' 0 16
  else y.extractLsb' 0 16 ++ y.extractLsb' 16 16

/-! ### Addresses, loads and stores -/

/-- addr(tag, x) of R93. -/
def addrBits (tag : BitVec 4) (x : Word) : Word := tag ++ x.extractLsb' 0 60

/-- The effective address of a scalar access (R95). -/
def accessAt (s : State) (r : BitVec 8) (imm : BitVec 32) : Word :=
  addrBits ((srcA s r).extractLsb' 60 4) (srcA s r + imm.signExtend 64)

/-- The access size of a size code (R95). -/
def accessSize (code : BitVec 2) : Nat := if code = 0 then 4 else if code = 1 then 1 else if code = 2 then 2 else 8

/-- Byte j of a checked place as the stream sees it: of a scratchpad, or of global memory through its core's L1. -/
def placeByte (s : State) (p : Place) (j : Nat) : Byte :=
  match p with
  | .spm c off _ => spmByte s.dev c (off + j)
  | .global va => l1Byte s.dev (getCore s.dev s.cur.core) (physOf s va + j)

/-- The low n bytes of a value, lowest first (R2). -/
def lowBytes (n : Nat) (v : Word) : List Byte := (List.range n).map fun j => v.extractLsb' (8 * j) 8

/-- All is as it was but for the clean bytes of the L1s, the TLBs, and the number of free values drawn: a load may have filled an L1 and a TLB. Registers,
streams, scratchpads, memory at the homes, and what each core sees of global memory are as they were. Region 0x3 holds devices and no memory. -/
structure OnlyCaches (s t : State) : Prop where
  turn      : t = { s with dev := t.dev }
  scalars   : ∀ c u x, scalarIn t.dev c u x = scalarIn s.dev c u x
  addresses : ∀ c u x, addressIn t.dev c u x = addressIn s.dev c u x
  streams   : ∀ c i, getStream t.dev c i = getStream s.dev c i
  spm       : ∀ c off, spmByte t.dev c off = spmByte s.dev c off
  homes     : ∀ pa, homeByte t.dev pa = homeByte s.dev pa
  seen      : ∀ c pa, region pa ≠ 3 → l1Byte t.dev (getCore t.dev c) pa = l1Byte s.dev (getCore s.dev c) pa
  cores     : ∀ c, getCore t.dev c = { getCore s.dev c with l1clean := (getCore t.dev c).l1clean, utlb := (getCore t.dev c).utlb }
  device    : t.dev = { s.dev with cores := t.dev.cores, bayTlb := t.dev.bayTlb, fresh := t.dev.fresh }

/-- The bytes l have been stored from offset off on in the scratchpad of core c, and nothing else has changed (but that granules overwritten
whole are no longer poisoned). -/
structure OnlySpm (s t : State) (c off : Nat) (l : List Byte) : Prop extends OnlyCores s t where
  cores : ∀ e, getCore t.dev e = { getCore s.dev e with spm := (getCore t.dev e).spm, poisonSpm := (getCore t.dev e).poisonSpm }
  spm   : ∀ e a, spmByte t.dev e a = if e = c ∧ off ≤ a ∧ a < off + l.length then l.getD (a - off) 0 else spmByte s.dev e a

/-- The bytes l have been stored from physical address pa on, in the issuing core's L1 (R129): that core sees them; nothing has changed but what
its L1 holds and the TLBs. -/
structure OnlySeen (s t : State) (pa : Nat) (l : List Byte) : Prop where
  turn      : t = { s with dev := t.dev }
  scalars   : ∀ c u x, scalarIn t.dev c u x = scalarIn s.dev c u x
  addresses : ∀ c u x, addressIn t.dev c u x = addressIn s.dev c u x
  streams   : ∀ c i, getStream t.dev c i = getStream s.dev c i
  spm       : ∀ c off, spmByte t.dev c off = spmByte s.dev c off
  homes     : ∀ a, homeByte t.dev a = homeByte s.dev a
  seen      : ∀ a, region a ≠ 3 → l1Byte t.dev (getCore t.dev s.cur.core) a =
                if pa ≤ a ∧ a < pa + l.length then l.getD (a - pa) 0 else l1Byte s.dev (getCore s.dev s.cur.core) a
  others    : ∀ c, c ≠ s.cur.core → getCore t.dev c = getCore s.dev c
  core      : ∀ k, k = getCore t.dev s.cur.core → k = { getCore s.dev s.cur.core with l1dirty := k.l1dirty, l1clean := k.l1clean, utlb := k.utlb }
  device    : t.dev = { s.dev with cores := t.dev.cores, bayTlb := t.dev.bayTlb }

/-- The bytes l have been stored at a checked place, and nothing else has changed. -/
def StoredAt (s t : State) (p : Place) (l : List Byte) : Prop :=
  match p with
  | .spm c off _ => OnlySpm s t c off l
  | .global va => OnlySeen s t (physOf s va) l

/-- A condition register with bit r set to v. -/
def withCond (x : BitVec 8) (r : Nat) (v : Bool) : BitVec 8 := if v then x ||| (1#8 <<< r) else x &&& ~~~(1#8 <<< r)

/-- A stream's record with c(r) := v. -/
def setCond (r : BitVec 8) (v : Bool) (x : Stream) : Stream := { x with conds := withCond x.conds r.toNat v }

/-- A stream's record with a transfer under way: two delay slots to come, then the target if there is one (R102). -/
def setDelay (at_ : Word) (target : Option Word) (x : Stream) : Stream := { x with delay := some { left := 2, at_ := at_, target := target } }

/-! ### Atomics and barriers -/

/-- The new word of an ATOM (R147): add, min, max, and, or, xor, swap, cas. -/
def atomBits (op : BitVec 3) (uns : Bool) {w : Nat} (old x e : BitVec w) : BitVec w :=
  if op = 0 then old + x
  else if op = 1 then (if (if uns then x.ult old else x.slt old) then x else old)
  else if op = 2 then (if (if uns then old.ult x else old.slt x) then x else old)
  else if op = 3 then old &&& x
  else if op = 4 then old ||| x
  else if op = 5 then old ^^^ x
  else if op = 6 then x
  else if old = e then x else old

/-- A gang's arrival count K of a phase's parity, and the same count set (R148). -/
def phaseCount (g : Gang) (phase : BitVec 32) : Nat := if phase.getLsbD 0 then g.k1 else g.k0
def withPhaseCount (g : Gang) (phase : BitVec 32) (n : Nat) : Gang := if phase.getLsbD 0 then { g with k1 := n } else { g with k0 := n }

/-- A gang after one member's arrival for a phase is counted. -/
def countArrival (phase : BitVec 32) (g : Gang) : Gang := withPhaseCount g phase (phaseCount g phase + 1)

/-- The loop of GARRIVE: while every member has arrived for phase C + 1, its count is cleared and C advances (R148). -/
inductive PhasesEnd (size : Nat) : Gang → Gang → Prop
  | stop (g : Gang) : phaseCount g (g.c + 1) ≠ size → PhasesEnd size g g
  | again (g h : Gang) : phaseCount g (g.c + 1) = size → PhasesEnd size { withPhaseCount g (g.c + 1) 0 with c := g.c + 1 } h → PhasesEnd size g h

/-! ### Operands of engine commands -/

/-- An address of the own scratchpad: tag 0x8 and an offset of 22 bits (Table 4.3). -/
def LocalAddress (a : Word) (off : Nat) : Prop := a.toNat = 8 * 2 ^ 60 + off ∧ off < 2 ^ 22

/-- The element type of a type field, or of the format table's field for code 14 (R175). -/
def typeOfField (code entry : BitVec 4) : Ty := tyOfCode (if code = 14 then entry else code).toNat

/-- The lowest and the highest sum of index × stride over a copy nest (R256). -/
def nestLow (l : List NestLevel) (stride : NestLevel → Word) : Int := (l.map fun v => min 0 (((v.count.toNat : Int) - 1) * (stride v).toInt)).sum
def nestHigh (l : List NestLevel) (stride : NestLevel → Word) : Int := (l.map fun v => max 0 (((v.count.toNat : Int) - 1) * (stride v).toInt)).sum

/-- The sum of index × stride over a copy nest at a linear index, level 0 first; u replaces the index of level 0 (R253, R266). -/
def nestSum (l : List (Nat × Int)) (k : Nat) (u : Option Nat) : Int :=
  match l with
  | [] => 0
  | (n, x) :: r => (u.getD (k % n) : Nat) * x + nestSum r (k / n) none

/-- A side of a copy lies in global memory. -/
def Side.isGlobal : Side → Bool
  | .global _ => true
  | _ => false

/-- The byte of a side at an offset or address: of a scratchpad, or of global memory under one translation. -/
def sideByte (d : Dev) (e : TlbEntry) (s : Side) (a : Nat) : Byte :=
  match s with
  | .spm c _ _ => spmByte d c a
  | _ => homeByte d (physical e a)

/-- The number of n bytes of a scratchpad, lowest first. -/
def spmNumber (d : Dev) (c off n : Nat) : Nat := ((List.range n).map fun j => (spmByte d c (off + j)).toNat * 256 ^ j).sum

/-- The same of global memory at the homes. -/
def homeNumber (d : Dev) (pa n : Nat) : Nat := ((List.range n).map fun j => (homeByte d (pa + j)).toNat * 256 ^ j).sum

/-- A core's accesses of one kind to the n bytes from va on go through one translation, to memory that is present. -/
def Reaches (d : Dev) (c : Nat) (e : TlbEntry) (k : AccessKind) (va n : Nat) : Prop :=
  ∀ a, va ≤ a → a < va + n → translateFor d c a k = .ok e ∧ region (physical e a) ≠ 3 ∧ linkCut d (physical e a) = false

/-- No byte of them is poisoned. -/
def Clean (d : Dev) (e : TlbEntry) (va n : Nat) : Prop := ∀ a, va ≤ a → a < va + n → homePoisoned d (physical e a) 1 = false

/-- They can be read. -/
def Readable (d : Dev) (c : Nat) (e : TlbEntry) (va n : Nat) : Prop := Reaches d c e .read va n ∧ Clean d e va n

/-- Nothing that the core holds is poisoned (R359). -/
structure Unpoisoned (k : Core) : Prop where
  spm   : k.poisonSpm = []
  vregs : k.poisonV = []
  masks : k.poisonM = []
  accs  : k.poisonA = []
  bnds  : k.poisonB = []

/-- The run is one that goes on and whose engine has picked it up: no standing axis of its core looks on, and it is no firing. -/
structure Working (d : Dev) (c age : Nat) (r : Run) : Prop where
  live   : liveRun d c age = some r
  picked : r.picked = true
  open_  : r.done = false
  plain  : r.cmd.firing = none
  axes   : (getCore d c).axes = []

/-! ### Elements of vectors, masks and accumulators -/

/-- The number of w bits from bit lo of a bit string on. -/
def bitsAt (g : Nat → Bool) (lo w : Nat) : Nat := ((List.range w).map fun j => if g (lo + j) then 2 ^ j else 0).sum

/-- Element i of w bits of physical vector register r (R178). -/
def regElem (k : Core) (r w i : Nat) : Nat := (Sparse.get k.vreg 0 (2048 * r + i * w / 32)).toNat / 2 ^ (i * w % 32) % 2 ^ w

/-- Bit b of the memory from a place on: of a scratchpad, or of global memory under one translation. -/
def placeBit (d : Dev) (e : TlbEntry) (p : Place) (b : Nat) : Bool :=
  match p with
  | .spm c off _ => (spmByte d c (off + b / 8)).getLsbD (b % 8)
  | .global va => (homeByte d (physical e (va + b / 8))).getLsbD (b % 8)

/-- The n bytes from a place on can be read. -/
def PlaceReadable (d : Dev) (c : Nat) (e : TlbEntry) (n : Nat) (p : Place) : Prop :=
  match p with
  | .spm o _ _ => (getCore d o).poisonSpm = []
  | .global va => Readable d c e va n

/-- The place of one element passes the checks of R195. -/
def PlaceAligned (d : Dev) (n : Nat) (p : Place) : Prop :=
  match p with
  | .spm o off own => off + n ≤ 2 ^ 22 ∧ off % n = 0 ∧ (own = false → touchesQueue (getCore d o) off n = false ∧ foreignRegion d o off n = false)
  | .global va => va % n = 0

/-- Lane i of a vector command is active: below its count, below VCNT with VC, and set in its mask with ME (R181). -/
def activeLane (k : Core) (v : VecCtx) (i : Nat) : Bool :=
  decide (i < v.n) && (!engVc v.x.f || decide (i < v.x.vcnt)) && (!engMe v.x.f || maskLane k (ctxMask v) i)

/-- The lanes of register r have become those of g where the command is active, zero elsewhere under MZ, and are otherwise as they were, as is
every other register, and everything of the core but the TLB (R181). -/
structure RegWritten (s t : Core) (v : VecCtx) (r : Nat) (g : Nat → Nat) : Prop where
  lanes  : ∀ i < v.n, regElem t r v.wd i = if activeLane s v i then g i else if engMz v.x.f then 0 else regElem s r v.wd i
  others : ∀ p i, p ≠ r ∨ v.n ≤ i → i < 65536 / v.wd → regElem t p v.wd i = regElem s p v.wd i
  rest   : t = { s with vreg := t.vreg, poisonV := t.poisonV, utlb := t.utlb }

/-- The lanes of mask m have become those of g, and every other lane is as it was. -/
structure MaskWritten (s t : Core) (n m : Nat) (g : Nat → Bool) : Prop where
  lanes  : ∀ i < n, maskLane t m i = g i
  others : ∀ p i, p ≠ m ∨ n ≤ i → i < 16384 → maskLane t p i = maskLane s p i
  rest   : t = { s with mask := t.mask, poisonM := t.poisonM, utlb := t.utlb }

/-- Element (i, j) of an accumulator lies in bound cell c (R230). -/
def InCell (c i j : Nat) : Prop := i / 16 = c / 8 ∧ j / 16 = c % 8 ∧ i < 256 ∧ j < 128

/-- The order of bounds. -/
def Bound.le (x y : Bound) : Prop :=
  match x, y with
  | .fin p, .fin q => p ≤ q
  | _, .inf => True
  | .inf, .fin _ => False

/-- u is the least ub16 pattern at or above x, +inf written 0xFF00 (R163, R164). -/
def LeastUb16 (u : BitVec 16) (x : Bound) : Prop :=
  u.toNat ≤ 0xFF00 ∧ Bound.le x (ub16Value u) ∧ ∀ y : BitVec 16, Bound.le x (ub16Value y) → u.toNat ≤ y.toNat

/-- The value of an accumulator element under a precision state (R230); none for an infinity or a NaN. -/
def elementValue (k : Core) (a i j : Nat) : Option ℚ :=
  match precOf k a, elemValue .f32 (accWord k a i j).toNat, elemValue .f32 (accWord k (partner a) i j).toNat with
  | .i32, _, _ => some ((accWord k a i j).toInt : ℚ)
  | .a2x32, .fin s m, .fin t n => some ((if s then -m else m) + if t then -n else n)
  | .a2x32, _, _ => none
  | _, .fin s m, _ => some (if s then -m else m)
  | _, _, _ => none

/-- exceeds(c) of R240 for acc_a, whose BMODE and BTH say MODE and τ. -/
def CellExceeds (k : Core) (a c : Nat) : Prop :=
  (nibble k.bmode a % 4 = 1 ∧ ¬ Bound.le (ub16Value (bndCell k a c)) (ub16Value (bthOf k a))) ∨
  (2 ≤ nibble k.bmode a % 4 ∧ ∃ τ : ℚ, ub16Value (bthOf k a) = .fin τ ∧
    ((∃ i j, InCell c i j ∧ elementValue k a i j = none) ∨
     ∀ i j x, InCell c i j → elementValue k a i j = some x → ¬ Bound.le (ub16Value (bndCell k a c)) (.fin (τ * |x|))))

/-! ### Sequences of KV commands (R269 to R277) -/

/-- Fields of a sequence table entry (Table 11.7): LENGTH, BLKTAB, DRAFT, NBLK and ROWB. -/
def seqLength (v : Nat) : Nat := v % 2 ^ 32
def seqTable (v : Nat) : Nat := v / 2 ^ 64 % 2 ^ 64
def seqDraft (v : Nat) : Nat := v / 2 ^ 128 % 2 ^ 64
def seqBlocks (v : Nat) : Nat := v / 2 ^ 192 % 2 ^ 32
def seqRow (v : Nat) : Nat := v / 2 ^ 224 % 2 ^ 16

/-- The stream of a KV command has bound a table that holds the sequence; its entry v, at address at_, is well formed, and it and its block table lie
under one translation. -/
structure Sequence (d : Dev) (c : Nat) (r : Run) (seq : Word) (e : TlbEntry) (v at_ : Nat) : Prop where
  bound  : ∃ base n, (getStream d c r.cmd.stream).kv = some (base, n) ∧ seq.toNat < n ∧ at_ = (base.toNat + 32 * seq.toNat) % 2 ^ 60
  reads  : Reaches d c e .read at_ 32
  entry  : v = homeNumber d (physical e at_) 32
  formed : v / 2 ^ 240 = 0 ∧ v / 2 ^ 32 % 2 ^ 32 = 0 ∧ seqRow v ≠ 0 ∧ seqRow v % 4 = 0 ∧ seqDraft v % 64 = 0 ∧ seqTable v % 16 = 0
  table  : Reaches d c e .read (seqTable v) (16 * seqBlocks v)

/-- No byte of an entry or of its block table is poisoned. -/
def SoundSequence (d : Dev) (e : TlbEntry) (v at_ : Nat) : Prop :=
  Clean d e at_ 32 ∧ Clean d e (seqTable v) (16 * seqBlocks v)

/-- PAGE and S of block b. -/
def blockPage (d : Dev) (e : TlbEntry) (v b : Nat) : Nat := homeNumber d (physical e (seqTable v + 16 * b)) 8
def blockBits (d : Dev) (e : TlbEntry) (v b : Nat) : Nat := homeNumber d (physical e (seqTable v + 16 * b + 8)) 8

/-- The slot of offset o under a bitmap: how many bits below it are set (R270). -/
def slotUnder (s o : Nat) : Nat := ((List.range o).filter fun j => s.testBit j).length

/-- Position p is present, and the address of its row (R270). -/
def presentAt (d : Dev) (e : TlbEntry) (v p : Nat) : Bool := decide (p < seqLength v) && (blockBits d e v (p / 64)).testBit (p % 64)
def rowAt (d : Dev) (e : TlbEntry) (v p : Nat) : Nat := blockPage d e v (p / 64) + slotUnder (blockBits d e v (p / 64)) (p % 64) * seqRow v

end Sys2Proof.Machine
end

