-- ==== Sys2Proof/Certificates/Slice0/Obligations.lean ====
section
/-!
DEFINITION. Statements for the provers, each with the rules of spec/ that it rests on. The words they share stand in Safety.lean. A statement of several
parts is the conjunction of its parts, which stand before it as Claims.<Name>.
-/

open Sys2Proof Sys2Proof.Machine

/-! ### Scalar instructions (05_sequencer.md) -/

/-- R84, whole mode: every operation writes its 64-bit result to s(D) and changes nothing else. IMM is 0 but for the shifts (Table 5.2). -/
def Claims.AluWholeResults : Prop :=
  ∀ (op : AluOp) (f : Fields) (s : State), Ready (aluInstr op f) s → fnBit f 5 = false →
    ∃ t, exec (aluInstr op f) s = .next t ∧ OnlyScalar s t f.d (aluBits op (!fnBit f 4) (srcS s f.s1) (srcS s f.s2 + f.imm.signExtend 64))

/-- R84, container mode: every element of the result is the operation on the elements of the viewed sources, merged into the old destination;
bits [63:32] become 0. -/
def Claims.AluContainerResults : Prop :=
  ∀ (op : AluOp) (f : Fields) (s : State), Ready (aluInstr op f) s → fnBit f 5 = true →
    ∃ t, ∃ y : BitVec 32, exec (aluInstr op f) s = .next t ∧
      OnlyScalar s t f.d ((mergeBits f.modD ((srcS s f.d).setWidth 32) y).setWidth 64) ∧
      ∀ w, w = tyWidth (tyOfCode (fnBits f 3 0)) → ∀ j, j < 32 / w →
        lane w j y = aluBits op (tySigned (tyOfCode (fnBits f 3 0))) (lane w j (viewBits f.modS1 ((srcS s f.s1).setWidth 32)))
          (lane w j (viewBits f.modS2 ((srcS s f.s2).setWidth 32)))

/-- R41, R84: the two-source short forms; the second source is the destination. -/
def Claims.AluShortResults : Prop :=
  ∀ (fin : Bool) (d : BitVec 5) (e : BitVec 4) (s : State) (op : AluOp) (i : Instr),
    (op, i) ∈ [(AluOp.add, Instr.addB2 fin d e), (.sub, .subB2 fin d e), (.and, .andB2 fin d e), (.or, .orB2 fin d e), (.xor, .xorB2 fin d e),
      (.shl, .shlB2 fin d e), (.shr, .shrB2 fin d e), (.min, .minB2 fin d e), (.max, .maxB2 fin d e)] →
    ∃ t, exec i s = .next t ∧ OnlyScalar s t (d.setWidth 8) (aluBits op true (srcS s (e.setWidth 8)) (srcS s (d.setWidth 8)))

/-- R83, R59: what the decode checks accept of an ALU word: s registers, S3 unused, and the row of Table 5.2. -/
def Claims.AluDecodeChecks : Prop :=
  ∀ (op : AluOp) (f : Fields) (split : Bool), legal split (aluInstr op f) = true ↔
    f.d.toNat < 32 ∧ f.s1.toNat < 32 ∧ f.s2.toNat < 32 ∧ f.s3 = 0 ∧ f.modS3 = 0 ∧
      (if f.fn.getLsbD 5 then
        f.fn.getLsbD 4 = false ∧ 6 ≤ (f.fn.extractLsb' 0 4).toNat ∧ (f.fn.extractLsb' 0 4).toNat ≤ 13 ∧ f.imm = 0 ∧ op ∉ [.and, .or, .xor, .andn]
      else
        f.modD = 0 ∧ f.modS1 = 0 ∧ f.modS2 = 0 ∧ f.fn.extractLsb' 0 4 = 0 ∧
          (f.fn.getLsbD 4 = true → op ∈ [.mulh, .min, .max, .sadd, .ssub]) ∧
          (if op ∈ [.shl, .shr, .sha, .rot] then f.imm.toNat ≤ 63 else f.imm = 0))

/-- R41, R44, R59, R83, R84: the two-source ALU instructions in both modes and in their short forms, and what their decode checks accept. -/
def Obligations.AluResults : Prop :=
  Claims.AluWholeResults ∧ Claims.AluContainerResults ∧ Claims.AluShortResults ∧ Claims.AluDecodeChecks

/-- R85: ADDI, MOVI and MOVI.H. -/
def Obligations.ImmediateResults : Prop :=
  (∀ (f : Fields) (s : State), Ready (.addi f) s →
    ∃ t, exec (.addi f) s = .next t ∧ OnlyScalar s t f.d (srcS s f.s1 + f.imm.signExtend 64)) ∧
  (∀ (fin : Bool) (d : BitVec 5) (e : BitVec 4) (s : State),
    ∃ t, exec (.addiB2 fin d e) s = .next t ∧ OnlyScalar s t (d.setWidth 8) (srcS s (d.setWidth 8) + e.signExtend 64)) ∧
  (∀ (f : Fields) (s : State), Ready (.movi f) s →
    ∃ t, exec (.movi f) s = .next t ∧
      OnlyScalar s t f.d (if f.fn = 1 then f.imm ++ (srcS s f.d).setWidth 32 else f.imm.signExtend 64))

/-- R86: POPC, CLZ and CTZ on all 64 bits of s(S1); CLZ and CTZ of 0 give 64. -/
def Claims.BitCounts : Prop :=
  (∀ (f : Fields) (s : State), Ready (.popc f) s →
    ∃ t, exec (.popc f) s = .next t ∧ OnlyScalar s t f.d (BitVec.ofNat 64 ((List.range 64).countP fun j => (srcS s f.s1).getLsbD j))) ∧
  (∀ (fin : Bool) (d : BitVec 5) (e : BitVec 4) (s : State),
    ∃ t, exec (.popcB2 fin d e) s = .next t ∧
      OnlyScalar s t (d.setWidth 8) (BitVec.ofNat 64 ((List.range 64).countP fun j => (srcS s (e.setWidth 8)).getLsbD j))) ∧
  (∀ (f : Fields) (s : State), Ready (.clz f) s →
    ∃ t n, exec (.clz f) s = .next t ∧ OnlyScalar s t f.d (BitVec.ofNat 64 n) ∧ n ≤ 64 ∧ (srcS s f.s1).toNat < 2 ^ (64 - n) ∧
      (n < 64 → 2 ^ (63 - n) ≤ (srcS s f.s1).toNat)) ∧
  (∀ (f : Fields) (s : State), Ready (.ctz f) s →
    ∃ t n, exec (.ctz f) s = .next t ∧ OnlyScalar s t f.d (BitVec.ofNat 64 n) ∧ n ≤ 64 ∧ (∀ j < n, (srcS s f.s1).getLsbD j = false) ∧
      (n < 64 → (srcS s f.s1).getLsbD n = true))

/-- R87: BFX reads the field, sign-extended with S = 1; BFI replaces it and leaves every other bit. A field that ends above bit 63 fails the decode check. -/
def Claims.BitFields : Prop :=
  (∀ (f : Fields) (split : Bool), 64 < (f.imm.extractLsb' 0 6).toNat + (f.imm.extractLsb' 6 6).toNat + 1 →
    legal split (.bfx f) = false ∧ legal split (.bfi f) = false) ∧
  (∀ (f : Fields) (s : State), Ready (.bfx f) s →
    ∃ t v, exec (.bfx f) s = .next t ∧ OnlyScalar s t f.d v ∧
      ∀ pos len, pos = (f.imm.extractLsb' 0 6).toNat → len = (f.imm.extractLsb' 6 6).toNat + 1 →
        v = if f.fn = 1 then ((srcS s f.s1).extractLsb' pos len).signExtend 64 else ((srcS s f.s1).extractLsb' pos len).setWidth 64) ∧
  (∀ (f : Fields) (s : State), Ready (.bfi f) s →
    ∃ t v, exec (.bfi f) s = .next t ∧ OnlyScalar s t f.d v ∧
      ∀ pos len, pos = (f.imm.extractLsb' 0 6).toNat → len = (f.imm.extractLsb' 6 6).toNat + 1 → ∀ j < 64,
        v.getLsbD j = if pos ≤ j ∧ j < pos + len then (srcS s f.s1).getLsbD (j - pos) else (srcS s f.d).getLsbD j)

/-- R88: SEL, and MOV in both modes. -/
def Claims.MoveResults : Prop :=
  (∀ (f : Fields) (s : State), Ready (.sel f) s →
    ∃ t, exec (.sel f) s = .next t ∧
      OnlyScalar s t f.d (if (preStream s).conds.getLsbD (f.imm.extractLsb' 0 3).toNat then srcS s f.s1 else srcS s f.s2)) ∧
  (∀ (f : Fields) (s : State), Ready (.mov f) s →
    ∃ t, exec (.mov f) s = .next t ∧
      OnlyScalar s t f.d (if f.fn = 32 then
        (mergeBits f.modD ((srcS s f.d).setWidth 32) (viewBits f.modS1 ((srcS s f.s1).setWidth 32))).setWidth 64 else srcS s f.s1)) ∧
  (∀ (fin : Bool) (d : BitVec 5) (e : BitVec 4) (s : State),
    ∃ t, exec (.movB2 fin d e) s = .next t ∧ OnlyScalar s t (d.setWidth 8) (srcS s (e.setWidth 8)))

/-- R88: XMOV writes register D of cluster IMM[3:2] with register S1 of cluster IMM[1:0], and no other register; split mode refuses it. -/
def Claims.CrossClusterMoves : Prop :=
  (∀ f : Fields, legal true (.xmov f) = false) ∧
  ∀ (f : Fields) (s : State), Ready (.xmov f) s →
    ∃ t, exec (.xmov f) s = .next t ∧ OnlyCores s t ∧
      (∀ c, getCore t.dev c = { getCore s.dev c with clusters := (getCore t.dev c).clusters }) ∧
      ∀ v, v = (if f.fn.getLsbD 0 then addressIn s.pre s.cur.core (f.imm.extractLsb' 0 2).toNat f.s1.toNat
                else scalarIn s.pre s.cur.core (f.imm.extractLsb' 0 2).toNat f.s1.toNat) →
        ∀ c u x, let here := c = s.cur.core ∧ u = (f.imm.extractLsb' 2 2).toNat ∧ x = f.d.toNat
          addressIn t.dev c u x = (if here ∧ f.fn.getLsbD 1 = true then v else addressIn s.dev c u x) ∧
          scalarIn t.dev c u x = (if here ∧ f.fn.getLsbD 1 = false ∧ x ≠ 0 then v else scalarIn s.dev c u x)

/-- R88: SEL, MOV and XMOV between clusters. -/
def Obligations.MovesAndSelections : Prop :=
  Claims.MoveResults ∧ Claims.CrossClusterMoves

/-- R89: the quotient is truncated toward zero, the remainder takes the dividend's sign, and together they give the dividend back; a divisor of 0 raises DIVIDE,
precisely, with nothing written. -/
def Obligations.DivisionResults : Prop :=
  (∀ (f : Fields) (s : State), srcS s f.s2 = 0 →
    (Ready (.div f) s → exec (.div f) s = .next (faultAt .divide 0 s)) ∧ (Ready (.rem f) s → exec (.rem f) s = .next (faultAt .divide 0 s))) ∧
  (∀ (c : Cause) (a : Word) (s : State) (x u r : Nat), scalarIn (faultAt c a s).dev x u r = scalarIn s.pre x u r) ∧
  (∀ x y : Word, y ≠ 0 → x.sdiv y * y + x.srem y = x ∧ x.udiv y * y + x.umod y = x) ∧
  (∀ (f : Fields) (s : State), Ready (.div f) s → srcS s f.s2 ≠ 0 →
    ∃ t, exec (.div f) s = .next t ∧
      OnlyScalar s t f.d (if f.fn = 16 then (srcS s f.s1).udiv (srcS s f.s2) else (srcS s f.s1).sdiv (srcS s f.s2))) ∧
  (∀ (f : Fields) (s : State), Ready (.rem f) s → srcS s f.s2 ≠ 0 →
    ∃ t, exec (.rem f) s = .next t ∧
      OnlyScalar s t f.d (if f.fn = 16 then (srcS s f.s1).umod (srcS s f.s2) else (srcS s f.s1).srem (srcS s f.s2)))

/-- R90: the packed slot of a survivor bitmap. -/
def Claims.RankResults : Prop :=
  ∀ (f : Fields) (s : State), Ready (.rank f) s →
    ∃ t, exec (.rank f) s = .next t ∧ OnlyScalar s t f.d
      (if f.fn = 1 ∧ (srcS s f.s1).getLsbD ((srcS s f.s2).extractLsb' 0 6).toNat = false then BitVec.allOnes 64
       else BitVec.ofNat 64 ((List.range ((srcS s f.s2).extractLsb' 0 6).toNat).countP fun j => (srcS s f.s1).getLsbD j))

/-- R86, R87, R90: counts, bit fields and the packed slot of a survivor bitmap. -/
def Obligations.BitResults : Prop :=
  Claims.BitCounts ∧ Claims.BitFields ∧ Claims.RankResults

/-! ### Conversions and the fused multiply-add -/

/-- R91, R92: FCVT writes the rounded element of its destination type, sign-extended for i types; FMAS rounds x × y + z once. Both OR the
rounding's flags into FFLAGS. -/
def Obligations.ScalarFloatResults : Prop :=
  (∀ (f : Fields) (s : State) (st dt : Ty) (r : Rounded), Ready (.fcvt f) s →
    st = tyOfCode (f.imm.extractLsb' 0 4).toNat → dt = tyOfCode (f.fn.extractLsb' 0 4).toNat →
    r = convert dt (rmodeOfField (f.imm.extractLsb' 4 3).toNat (preStream s).sys.frm) (elemValue st ((srcS s f.s1).toNat % 2 ^ tyWidth st)) →
    ∃ m t, exec (.fcvt f) s = .next t ∧
      OnlyScalar s m f.d (if tySigned dt then (BitVec.ofNat (tyWidth dt) r.bits).signExtend 64 else BitVec.ofNat 64 r.bits) ∧
      OnlyStream m t fun x => { x with sys := { x.sys with fflags := x.sys.fflags ||| r.flags.toBits } }) ∧
  (∀ (f : Fields) (s : State) (ty : Ty) (mode : RMode) (r : Rounded), Ready (.fmas f) s →
    ty = tyOfCode (f.fn.extractLsb' 0 4).toNat → mode = rmodeOfField (f.imm.extractLsb' 0 3).toNat (preStream s).sys.frm →
    r = finish ty mode (fmaExact mode (elemValue ty ((srcS s f.s1).toNat % 2 ^ tyWidth ty)) (elemValue ty ((srcS s f.s2).toNat % 2 ^ tyWidth ty))
          (elemValue ty ((srcS s f.d).toNat % 2 ^ tyWidth ty))) →
    ∃ m t, exec (.fmas f) s = .next t ∧ OnlyScalar s m f.d (BitVec.ofNat 64 r.bits) ∧
      OnlyStream m t fun x => { x with sys := { x.sys with fflags := x.sys.fflags ||| r.flags.toBits } })

/-- R91: a value rounded to an integer under a mode: to nearest with ties to even, toward zero, down or up. -/
def Claims.IntegerRounding : Prop :=
  ∀ q : ℚ, roundInt .rdn q = ⌊q⌋ ∧ roundInt .rup q = ⌈q⌉ ∧ roundInt .rtz q = (if q < 0 then ⌈q⌉ else ⌊q⌋) ∧
    |q - roundInt .rne q| ≤ 1 / 2 ∧ (|q - roundInt .rne q| = 1 / 2 → Even (roundInt .rne q))

/-- R91: a value converted to an integer type. A finite one, of a floating or integer type or of pt8, is rounded under the mode and clamped, with NV where it
was out of range and NX where rounding changed it; an infinity gives the end of the range with NV (and no NX: log entry 37), a NaN gives 0 with NV. An
integer-to-integer conversion saturates with NV set and is otherwise exact; it never sets another flag. -/
def Claims.IntegerConversions : Prop :=
  ∀ (st dt : Ty) (mode : RMode) (x w : Nat) (lo hi : Int) (clamp : Int → Nat) (y : Rounded), tyInt dt = true → w = tyWidth dt →
    lo = (if tySigned dt then -2 ^ (w - 1) else 0) → hi = (if tySigned dt then 2 ^ (w - 1) - 1 else 2 ^ w - 1) →
    (∀ q, clamp q = (BitVec.ofInt w (if q < lo then lo else if hi < q then hi else q)).toNat) → y = convert dt mode (elemValue st x) →
    (∀ (neg : Bool) (m v : ℚ) (q : Int), elemValue st x = .fin neg m → v = (if neg then -m else m) → q = roundInt mode v →
      y.bits = clamp q ∧ y.flags = { nv := decide (q < lo ∨ hi < q), nx := decide ((q : ℚ) ≠ v) }) ∧
    (∀ neg, elemValue st x = .inf neg → y.bits = clamp (if neg then lo else hi) ∧ y.flags = { nv := true }) ∧
    (∀ s, elemValue st x = .nan s → y.bits = 0 ∧ y.flags = { nv := true }) ∧
    (∀ v : Int, tyInt st = true → x < 2 ^ tyWidth st → v = (if tySigned st then (BitVec.ofNat (tyWidth st) x).toInt else (x : Int)) →
      y.bits = clamp v ∧ y.flags = { nv := decide (v < lo ∨ hi < v) })

/-- R91: conversion to and between integers. -/
def Obligations.IntegerConversions : Prop :=
  Claims.IntegerRounding ∧ Claims.IntegerConversions

/-! ### Addresses and memory -/

/-- R93: address arithmetic keeps the tag of its base and works modulo 2^60; AMOV moves all 64 bits, and its direction 3 fails the
decode check. None of them checks its result. -/
def Claims.AddressResults : Prop :=
  (∀ (f : Fields) (split : Bool), f.fn.extractLsb' 0 2 = 3 → legal split (.amov f) = false) ∧
  (∀ (f : Fields) (s : State), Ready (.aadd f) s →
    ∃ t, exec (.aadd f) s = .next t ∧
      OnlyAddress s t f.d (addrBits ((srcA s f.d).extractLsb' 60 4) (srcA s f.d + srcS s f.s1 + f.imm.signExtend 64))) ∧
  (∀ (fin : Bool) (d : BitVec 5) (e : BitVec 4) (s : State), d.toNat < 16 →
    ∃ t, exec (.aaddB2 fin d e) s = .next t ∧
      OnlyAddress s t (d.setWidth 8)
        (addrBits ((srcA s (d.setWidth 8)).extractLsb' 60 4) (srcA s (d.setWidth 8) + srcS s (e.setWidth 8)))) ∧
  (∀ (f : Fields) (s : State), Ready (.aidx f) s →
    ∃ t, exec (.aidx f) s = .next t ∧
      OnlyAddress s t f.d (addrBits ((srcA s f.s1).extractLsb' 60 4) (srcA s f.s1 + srcS s f.s2 * 2 ^ (f.imm.extractLsb' 0 3).toNat))) ∧
  (∀ (f : Fields) (s : State), Ready (.amov f) s → f.fn = 0 →
    ∃ t, exec (.amov f) s = .next t ∧ OnlyAddress s t f.d (srcA s f.s1)) ∧
  (∀ (f : Fields) (s : State), Ready (.amov f) s → f.fn = 1 →
    ∃ t, exec (.amov f) s = .next t ∧ OnlyAddress s t f.d (srcS s f.s1)) ∧
  (∀ (f : Fields) (s : State), Ready (.amov f) s → f.fn = 2 →
    ∃ t, exec (.amov f) s = .next t ∧ OnlyScalar s t f.d (srcA s f.s1))

/-- R94: the five spaces of ALDI. -/
def Claims.AddressImmediates : Prop :=
  ∀ (f : Fields) (s : State), Ready (.aldi f) s →
    ∃ t, exec (.aldi f) s = .next t ∧
      OnlyAddress s t f.d (if f.fn = 4 then addrBits (s.cur.pc.extractLsb' 60 4) (s.cur.pc + f.imm.signExtend 64)
        else addrBits (if f.fn = 0 then 0 else if f.fn = 1 then 8 else if f.fn = 2 then 9 else 10) (f.imm.setWidth 64))

/-- R93, R94: address arithmetic and address immediates. -/
def Obligations.AddressArithmetic : Prop :=
  Claims.AddressResults ∧ Claims.AddressImmediates

/-- R73, R95, R96, R327 (15_frontier_dispatch.md: another slot's persistent region, whose PERMISSION follows QUEUE_CFG): the checks of a scalar access
to a local address, in order, and the hold of the range checker (R19, R20). That the hold is tested on the core as it stood before the bundle is the
model's choice (log entry 62). -/
def Claims.LocalAccessChecks : Prop :=
  ∀ (s : State) (ea : Word) (n : Nat) (stack write : Bool) (off : Nat), ea.extractLsb' 60 4 = 8 → off = (ea.extractLsb' 0 22).toNat →
    checkAccess s ea n stack write =
      if ea.extractLsb' 22 38 ≠ 0 ∨ 2 ^ 22 < off + n then .raise .address
      else if ea.toNat % n ≠ 0 then .raise .align
      else if stack ∧ (off < (preStream s).sys.stkBase.toNat ∨ (preStream s).sys.stkLimit.toNat < off + n) then .raise .stackFault
      else if touchesQueue (curCore s) off n then .raise .queueCfg
      else if foreignRegion s.dev s.cur.core off n then .raise .permission
      else if checkerFull (curCore s) ∨
          accessHeld (preCore s) (if write then [] else [(off, off + n - 1)]) (if write then [(off, off + n - 1)] else []) then .wait
      else if ¬ write ∧ spmPoisoned (curCore s) off n then .raise .poison
      else .go (.spm s.cur.core off true)

/-- R73, R95, R96, R327, Table 5.6: the checks of a scalar access to a global address, where the stack has no place, and to a peer, in order; the own rank
is local; a tag that the table does not list raises ADDRESS. -/
def Claims.FarAccessChecks : Prop :=
  ∀ (s : State) (ea : Word) (n va r off e : Nat) (stack write : Bool), n ∈ [1, 2, 4, 8] → va = ea.toNat % 2 ^ 60 → r = (ea.extractLsb' 24 3).toNat →
    off = (ea.extractLsb' 0 22).toNat → e = gangBase (preCore s) s.cur.core + r →
    (ea.extractLsb' 60 4 = 0 → checkAccess s ea n stack write =
      if ea.toNat % n ≠ 0 then .raise .align
      else if stack then .raise .stackFault
      else match translateFor s.dev s.cur.core va (if write then .write else .read) with
        | .error c => .raise c
        | .ok x => if ¬ write ∧ l1Poisoned s.dev s.cur.core (physical x va) n then .raise .poison else .go (.global va)) ∧
    (ea.extractLsb' 60 4 = 9 → checkAccess s ea n stack write =
      if ea.extractLsb' 27 33 ≠ 0 ∨ ea.extractLsb' 22 2 ≠ 0 ∨ (preCore s).gangSize ≤ r ∨ 2 ^ 22 < off + n then .raise .address
      else if ea.toNat % n ≠ 0 then .raise .align
      else if stack then .raise .stackFault
      else if r = rankOf (preStream s) then checkAccess s (0x8000000000000000 + BitVec.ofNat 64 off) n false write
      else if touchesQueue (getCore s.dev e) off n then .raise .queueCfg
      else if foreignRegion s.dev e off n then .raise .permission
      else if ¬ write ∧ spmPoisoned (getCore s.dev e) off n then .raise .poison
      else .go (.spm e off false)) ∧
    (ea.extractLsb' 60 4 ≠ 0 → ea.extractLsb' 60 4 ≠ 8 → ea.extractLsb' 60 4 ≠ 9 → checkAccess s ea n stack write = .raise .address)

/-- R95: LD reads the bytes at its effective address, zero-extended, or sign-extended with S = 1; LDA reads eight into a(D). Nothing but the
destination and what the caches hold changes. -/
def Claims.LoadResults : Prop :=
  (∀ (f : Fields) (s : State) (p : Place) (n : Nat), Ready (.ld f) s → n = accessSize (f.fn.extractLsb' 0 2) →
    checkAccess s (accessAt s f.s1 f.imm) n (f.s1 = 15) false = .go p →
    ∃ m t v, exec (.ld f) s = .next t ∧ OnlyCaches s m ∧ OnlyScalar m t f.d v ∧ ∀ k < 64,
      v.getLsbD k = if k < 8 * n then (placeByte s p (k / 8)).getLsbD (k % 8) else f.fn.getLsbD 2 && (placeByte s p (n - 1)).getLsbD 7) ∧
  (∀ (f : Fields) (s : State) (p : Place), Ready (.lda f) s → checkAccess s (accessAt s f.s1 f.imm) 8 (f.s1 = 15) false = .go p →
    ∃ m t v, exec (.lda f) s = .next t ∧ OnlyCaches s m ∧ OnlyAddress m t f.d v ∧ ∀ k < 64,
      v.getLsbD k = (placeByte s p (k / 8)).getLsbD (k % 8))

/-- R95: ST writes the low n bytes of s(S2) at its effective address, STA the eight of a(S2); every other byte and every register is as it was. -/
def Claims.StoreResults : Prop :=
  (∀ (f : Fields) (s : State) (p : Place) (n : Nat), Ready (.st f) s → n = accessSize (f.fn.extractLsb' 0 2) →
    checkAccess s (accessAt s f.s1 f.imm) n (f.s1 = 15) true = .go p →
    ∃ t, exec (.st f) s = .next t ∧ StoredAt s t p (lowBytes n (srcS s f.s2))) ∧
  (∀ (f : Fields) (s : State) (p : Place), Ready (.sta f) s → checkAccess s (accessAt s f.s1 f.imm) 8 (f.s1 = 15) true = .go p →
    ∃ t, exec (.sta f) s = .next t ∧ StoredAt s t p (lowBytes 8 (srcA s f.s2)))

/-- R95, R96: scalar and address loads and stores. -/
def Obligations.LoadAndStoreResults : Prop :=
  Claims.LoadResults ∧ Claims.StoreResults

/-- R73, R97: PUSH stores at a15 - 8 and then lowers a15; POP loads from a15, raises it, and then writes its destination, so that pop a15 leaves
the loaded value. -/
def Obligations.StackResults : Prop :=
  (∀ (f : Fields) (s : State) (p : Place), Ready (.push f) s → checkAccess s (accessAt s 15 (-8)) 8 true true = .go p →
    ∃ m t, exec (.push f) s = .next t ∧ StoredAt s m p (lowBytes 8 (if f.fn = 1 then srcA s f.s1 else srcS s f.s1)) ∧
      OnlyAddress m t 15 (accessAt s 15 (-8))) ∧
  (∀ (f : Fields) (s : State) (p : Place), Ready (.pop f) s → checkAccess s (srcA s 15) 8 true false = .go p →
    ∃ m l t v, exec (.pop f) s = .next t ∧ OnlyCaches s m ∧ OnlyAddress m l 15 (accessAt s 15 8) ∧
      (if f.fn = 1 then OnlyAddress l t f.d v else OnlyScalar l t f.d v) ∧ ∀ k < 64, v.getLsbD k = (placeByte s p (k / 8)).getLsbD (k % 8))

/-- R96: a check that fails raises its fault, precisely, with EADDR at the effective address; an access that the range checker holds leaves the
bundle without effect. -/
def Claims.AccessFaults : Prop :=
  ∀ (f : Fields) (s : State) (i : Instr) (ea : Word) (n : Nat) (stack write : Bool),
    (i, ea, n, stack, write) ∈
      [(Instr.ld f, accessAt s f.s1 f.imm, accessSize (f.fn.extractLsb' 0 2), decide (f.s1 = 15), false),
       (.st f, accessAt s f.s1 f.imm, accessSize (f.fn.extractLsb' 0 2), decide (f.s1 = 15), true),
       (.lda f, accessAt s f.s1 f.imm, 8, decide (f.s1 = 15), false), (.sta f, accessAt s f.s1 f.imm, 8, decide (f.s1 = 15), true),
       (.push f, accessAt s 15 (-8), 8, true, true), (.pop f, srcA s 15, 8, true, false),
       (.call f, accessAt s 15 (-8), 8, true, true), (.ret f, srcA s 15, 8, true, false)] →
    Ready i s →
      (∀ c, checkAccess s ea n stack write = .raise c → exec i s = .next (faultAt c ea s)) ∧
      (checkAccess s ea n stack write = .wait → exec i s = .next (stall s))

/-- R73, R95, R96, R19, R20, R327: the checks of a scalar access, and what a failed or a held one does. -/
def Obligations.AccessChecks : Prop :=
  Claims.LocalAccessChecks ∧ Claims.FarAccessChecks ∧ Claims.AccessFaults

/-- R98: PRFM changes no visible state and never faults; a poisoned line, or one in region 0x3, is not brought in (the model's choice, log entry 136). -/
def Claims.PrefetchChangesNothing : Prop :=
  ∀ (f : Fields) (s : State), Ready (.prfm f) s → ∃ t, exec (.prfm f) s = .next t ∧ OnlyCaches s t

/-! ### Control -/

/-- R99, R101: the comparisons write one condition bit; codes 12 to 15 fail the decode check of CMP and CMPI. -/
def Claims.ComparisonResults : Prop :=
  (∀ (f : Fields) (split : Bool), 12 ≤ (f.fn.extractLsb' 0 4).toNat → legal split (.cmp f) = false ∧ legal split (.cmpi f) = false) ∧
  (∀ (f : Fields) (s : State), Ready (.acmp f) s →
    ∃ t, exec (.acmp f) s = .next t ∧ OnlyStream s t (setCond f.d
      (if f.fn = 0 then srcA s f.s1 == srcA s f.s2 else if f.fn = 1 then srcA s f.s1 != srcA s f.s2
       else if f.fn = 2 then (srcA s f.s1).ult (srcA s f.s2) else (srcA s f.s2).ule (srcA s f.s1)))) ∧
  (∀ (f : Fields) (s : State) (i : Instr) (y : Word), (i, y) ∈ [(Instr.cmp f, srcS s f.s2), (.cmpi f, f.imm.signExtend 64)] → Ready i s →
    ∃ t, exec i s = .next t ∧ ∀ x, x = srcS s f.s1 → OnlyStream s t (setCond f.d
      (if f.fn = 0 then x == y else if f.fn = 1 then x != y else if f.fn = 2 then x.slt y else if f.fn = 3 then y.sle x
       else if f.fn = 4 then x.ult y else if f.fn = 5 then y.ule x else if f.fn = 6 then y.slt x else if f.fn = 7 then x.sle y
       else if f.fn = 8 then y.ult x else if f.fn = 9 then x.ule y else if f.fn = 10 then x &&& y != 0 else x &&& y == 0)))

/-- R100: PBR and PBRA set a branch target; PBRA raises ADDRESS for a base whose tag is not 0x0. R100 names the cause alone: that EADDR is the base is the
model's reading (log entry 58). -/
def Claims.BranchTargets : Prop :=
  (∀ (f : Fields) (s : State), Ready (.pbr f) s →
    ∃ t, exec (.pbr f) s = .next t ∧
      OnlyStream s t fun x => { x with targets := Sparse.set x.targets 0 f.d.toNat (s.cur.pc + f.imm.signExtend 64) }) ∧
  (∀ (f : Fields) (s : State), Ready (.pbra f) s → (srcA s f.s1).extractLsb' 60 4 = 0 →
    ∃ t, exec (.pbra f) s = .next t ∧
      OnlyStream s t fun x => { x with targets := Sparse.set x.targets 0 f.d.toNat (srcA s f.s1 + f.imm.signExtend 64) }) ∧
  (∀ (f : Fields) (s : State), Ready (.pbra f) s → (srcA s f.s1).extractLsb' 60 4 ≠ 0 →
    exec (.pbra f) s = .next (faultAt .address (srcA s f.s1) s))

/-- R102: a transfer leaves two delay slots to follow and, when it is taken, its target behind them; CALL pushes the address after the second
delay slot and RET pops its target. -/
def Claims.TransferResults : Prop :=
  (∀ (f : Fields) (s : State) (i : Instr) (taken : Bool),
    (i, taken) ∈ [(Instr.br f, (preStream s).conds.getLsbD f.s1.toNat), (.brn f, !(preStream s).conds.getLsbD f.s1.toNat), (.jmp f, true)] →
    Ready i s →
    ∃ t, exec i s = .next t ∧
      OnlyStream s t (setDelay s.cur.pc (if taken then some (Sparse.get (preStream s).targets 0 f.s2.toNat) else none))) ∧
  (∀ (f : Fields) (s : State) (p : Place), Ready (.call f) s → checkAccess s (accessAt s 15 (-8)) 8 true true = .go p →
    ∃ m l t, exec (.call f) s = .next t ∧ StoredAt s m p (lowBytes 8 s.cur.after) ∧ OnlyAddress m l 15 (accessAt s 15 (-8)) ∧
      OnlyStream l t (setDelay s.cur.pc (some (Sparse.get (preStream s).targets 0 f.s2.toNat)))) ∧
  (∀ (f : Fields) (s : State) (p : Place), Ready (.ret f) s → checkAccess s (srcA s 15) 8 true false = .go p →
    ∃ m l t v, exec (.ret f) s = .next t ∧ OnlyCaches s m ∧ OnlyAddress m l 15 (accessAt s 15 8) ∧
      OnlyStream l t (setDelay s.cur.pc (some v)) ∧ ∀ k < 64, v.getLsbD k = (placeByte s p (k / 8)).getLsbD (k % 8))

/-- R100, R102: branch-target registers and transfers. -/
def Obligations.ControlTransfers : Prop :=
  Claims.BranchTargets ∧ Claims.TransferResults

/-- R105 to R107: LSET, LOOP and GSET on the loop entries and the gate window. -/
def Obligations.LoopResults : Prop :=
  (∀ (f : Fields) (s : State) (count : BitVec 32), Ready (.lset f) s →
    count = (if f.fn.getLsbD 4 then f.s2.setWidth 32 else (srcS s f.s1).setWidth 32) →
    ∃ t, exec (.lset f) s = .next t ∧ OnlyStream s t fun x =>
      { x with loops := Sparse.insert x.loops f.d.toNat
                 { count := count, start := some (s.cur.pc + f.imm.signExtend 64), stages := (f.fn.extractLsb' 0 4).toNat + 1 }
               gates := if count = 0 then 0 else 1 }) ∧
  (∀ (f : Fields) (s : State) (l : LoopCounter) (start : Word) (w : BitVec 15), Ready (.loop f) s →
    l = Sparse.get (preStream s).loops {} f.s1.toNat → l.start = some start →
    w = ((preStream s).gates <<< 1) ||| (if 1 < l.count.toNat then 1 else 0) →
    ∃ t, exec (.loop f) s = .next t ∧ OnlyStream s t fun x =>
      { x with loops := Sparse.insert x.loops f.s1.toNat { l with count := if l.count = 0 then 0 else l.count - 1 }
               gates := w
               pc := if ∃ j < l.stages, w.getLsbD j = true then start else x.pc }) ∧
  (∀ (f : Fields) (s : State), Ready (.loop f) s → (Sparse.get (preStream s).loops {} f.s1.toNat).start = none →
    exec (.loop f) s = .next (faultAt .illegalInstruction 0 s)) ∧
  (∀ (f : Fields) (s : State), Ready (.gset f) s →
    ∃ m t, exec (.gset f) s = .next t ∧
      OnlyStream s m (fun x => { x with gates := if f.fn = 1 then f.imm.setWidth 15 else (srcS s f.s1).setWidth 15 }) ∧
      OnlyScalar m t f.d ((preStream s).gates.setWidth 64))

/-- R108: VANY and VALL collapse the lanes below VL of a mask that no older command of the stream has still to write; otherwise they stall. Poisoned lanes are
read as they stand, which is the model's choice (log entry 126). -/
def Claims.MaskCollapses : Prop :=
  ∀ (f : Fields) (s : State) (m : Nat), m = (if isSplit s then 8 * s.cur.stream else 0) + f.s1.toNat →
    (Ready (.vany f) s → maskBusy (preCore s) s.cur.stream m = false → ∃ t, exec (.vany f) s = .next t ∧
      OnlyStream s t (setCond f.d (decide (∃ j < (preStream s).sys.vl.toNat, Sparse.get (preCore s).mask false (16384 * m + j) = true)))) ∧
    (Ready (.vall f) s → maskBusy (preCore s) s.cur.stream m = false → ∃ t, exec (.vall f) s = .next t ∧
      OnlyStream s t (setCond f.d (decide (∀ j < (preStream s).sys.vl.toNat, Sparse.get (preCore s).mask false (16384 * m + j) = true)))) ∧
    (∀ i ∈ [Instr.vany f, .vall f], Ready i s → maskBusy (preCore s) s.cur.stream m = true → exec i s = .next (stall s))

/-- R99, R101, R108: comparisons write one condition, and VANY and VALL collapse a mask. -/
def Obligations.ConditionResults : Prop :=
  Claims.ComparisonResults ∧ Claims.MaskCollapses

/-- R109, R115: NOP changes no state, nor does YIELD with PPEND = 0. With PPEND = 1 YIELD takes the pending pre-emption: its stream issues no further
bundle, and nothing else of it has changed (that it halts at the boundary after the YIELD is the model's reading, log entry 89). -/
def Claims.NopsChangeNothing : Prop :=
  (∀ (f : Fields) (s : State), Ready (.nop f) s → exec (.nop f) s = .next s) ∧
  (∀ (fin : Bool) (s : State), exec (.nopB2 fin) s = .next s) ∧
  (∀ (f : Fields) (s : State), Ready (.yield f) s →
    ((preStream s).sys.ppend = false → exec (.yield f) s = .next s) ∧
    ((preStream s).sys.ppend = true → ∃ t, exec (.yield f) s = .next t ∧ OnlyStream s t fun x => { x with halted := true })) ∧
  ∀ (d : Dev) (c i : Nat), (getStream d c i).halted = true → (getStream d c i).delay = none → canIssue d c i = false

/-- R98, R109: prefetch and NOP. -/
def Obligations.NoVisibleEffect : Prop :=
  Claims.PrefetchChangesNothing ∧ Claims.NopsChangeNothing

/-! ### Synchronisation (06_phases_and_order.md) -/

/-- A command older than an age that can start waits for counter n, or a stream that goes on has waited for it since before an age in a bundle that would now
issue: its TWAITs could all take their counts, and none of its other slots, by itself, stalls. That one takes the counter first (R24, log entry 125). -/
def Claims.olderWaiter (d : Dev) (c age since n : Nat) : Prop :=
  ∀ k, k = getCore d c →
  (∃ y ∈ startingHeads k, y.age < age ∧ n ∈ waitFields y) ∨
  ∃ i ∈ streamsOf k, ∃ b l ts, (coreStream k i).wait = some (b, l) ∧ b < since ∧ ts = waitCounters l (slotState d c i (0, 0, .nop {})) ∧ n ∈ ts ∧
    streamGoes d (coreStream k i) = true ∧ axisBlocks k (coreStream k i) = false ∧ (∀ m ∈ ts, ts.count m ≤ (getToken k m).count.toNat) ∧
    ∀ x ∈ l, slotStalls x.2.2 (slotState d c i x) = false

/-- R24, R140: what TSET, TPOST and TWAIT leave in the counter t(D) of the core. Nothing else changes. TWAIT takes the counter where no older command
that can start, nor an older TWAIT, waits for it. -/
def Claims.TokenResults : Prop :=
  (∀ (f : Fields) (s : State) (v : BitVec 32), Ready (.tset f) s → v = (if f.fn = 1 then f.imm else (srcS s f.s1).setWidth 32) →
    f.d.toNat < (preCore s).tquota → (v.extractLsb' 16 16).toNat ≤ (v.extractLsb' 0 16).toNat →
    ∃ t, exec (.tset f) s = .next t ∧
      OnlyCore s t fun c => setToken c f.d.toNat { count := v.extractLsb' 16 16, ceiling := v.extractLsb' 0 16 }) ∧
  (∀ (f : Fields) (fin : Bool) (d : BitVec 5) (e : BitVec 4) (s : State) (x : Token) (i : Instr) (k : Nat),
    (i, k) ∈ [(Instr.tpost f, f.d.toNat), (.tpostB2 fin d e, d.toNat)] → Ready i s → k < (preCore s).tquota →
    x = getToken (curCore s) k → x.count.toNat < x.ceiling.toNat →
    ∃ t, exec i s = .next t ∧ OnlyCore s t fun c => setToken c k { x with count := x.count + 1 }) ∧
  (∀ (f : Fields) (fin : Bool) (d : BitVec 5) (e : BitVec 4) (s : State) (x : Token) (i : Instr) (k : Nat),
    (i, k) ∈ [(Instr.twait f, f.d.toNat), (.twaitB2 fin d e, d.toNat)] → Ready i s → k < (preCore s).tquota →
    x = getToken (curCore s) k → x.count ≠ 0 → ¬ Claims.olderWaiter s.dev s.cur.core (waitAge s) (waitAge s) k →
    ∃ t, exec i s = .next t ∧ OnlyCore s t fun c => setToken c k { x with count := x.count - 1 })

/-- R140, R344: a counter at or above TQUOTA raises PERMISSION (log entry 55: before the other tests), a TSET above its ceiling
ILLEGAL_INSTRUCTION, a TPOST at the ceiling TOKEN_CEILING; a TWAIT stalls on a count of 0, and where an older command or TWAIT takes the counter first (R24). -/
def Claims.TokenFaults : Prop :=
  ∀ (f : Fields) (fin : Bool) (d : BitVec 5) (e : BitVec 4) (s : State) (i : Instr) (k : Nat),
    ((i, k) ∈ [(Instr.tset f, f.d.toNat), (.tpost f, f.d.toNat), (.tpostB2 fin d e, d.toNat), (.twait f, f.d.toNat), (.twaitB2 fin d e, d.toNat)] →
      Ready i s → (preCore s).tquota ≤ k → exec i s = .next (faultAt .permission 0 s)) ∧
    (∀ v : BitVec 32, i = .tset f → Ready i s → v = (if f.fn = 1 then f.imm else (srcS s f.s1).setWidth 32) →
      f.d.toNat < (preCore s).tquota → (v.extractLsb' 0 16).toNat < (v.extractLsb' 16 16).toNat →
      exec i s = .next (faultAt .illegalInstruction 0 s)) ∧
    ((i, k) ∈ [(Instr.tpost f, f.d.toNat), (.tpostB2 fin d e, d.toNat)] → Ready i s → k < (preCore s).tquota →
      (getToken (curCore s) k).ceiling.toNat ≤ (getToken (curCore s) k).count.toNat → exec i s = .next (faultAt .tokenCeiling 0 s)) ∧
    ((i, k) ∈ [(Instr.twait f, f.d.toNat), (.twaitB2 fin d e, d.toNat)] → Ready i s → k < (preCore s).tquota →
      (getToken (curCore s) k).count = 0 ∨ Claims.olderWaiter s.dev s.cur.core (waitAge s) (waitAge s) k → exec i s = .next (stall s)) ∧
    waitAge s = (match (preStream s).wait with | some b => b.1 | none => (preCore s).nextAge)

/-- R140, R344: TSET, TPOST and TWAIT, their results, stalls and faults. -/
def Obligations.TokenInstructions : Prop :=
  Claims.TokenResults ∧ Claims.TokenFaults

/-- R141, R143: SWINIT and SWARM write their word, and only its 32 bytes; SWWAIT goes on once GEN differs, raises SYNC_WORD on OVER, and
otherwise stalls. The model's choices: EADDR of SYNC_WORD is a(S1) (log entry 148), and words in poisoned granules are read as they stand (log entry 117). -/
def Claims.SyncWordResults : Prop :=
  ∀ (f : Fields) (s : State) (c off : Nat) (own : Bool) (w : SyncWord), w = readSync s.dev c off →
    (Ready (.swinit f) s → checkSync s (srcA s f.s1) false true = .go (.spm c off own) →
      ∃ t l, exec (.swinit f) s = .next t ∧ l.length = 32 ∧ OnlySpm s t c off l ∧
        readSync t.dev c off =
          { target := (srcS s f.s2).toNat, count := 0, gen := 0, armed := false, auto := false, overrun := false, arrivals := 0 }) ∧
    (Ready (.swarm f) s → checkSync s (srcA s f.s1) false true = .go (.spm c off own) →
      ∃ t l, exec (.swarm f) s = .next t ∧ l.length = 32 ∧ OnlySpm s t c off l ∧
        readSync t.dev c off = { w with armed := true, auto := f.fn.getLsbD 0 }) ∧
    (Ready (.swwait f) s → checkSync s (srcA s f.s1) false false = .go (.spm c off own) →
      (w.overrun = false → w.gen ≠ (srcS s f.s2).toNat % 2 ^ 32 → exec (.swwait f) s = .next s) ∧
      (w.overrun = false → w.gen = (srcS s f.s2).toNat % 2 ^ 32 → exec (.swwait f) s = .next (stall s)) ∧
      (w.overrun = true → exec (.swwait f) s = .next (faultAt .syncWord (srcA s f.s1) s)))

/-- R27, R142: SWARRIVE delivers one arrival of s(S2) bytes, to a word of its own core at once; an arrival at a peer's word is under way
and the stream does not wait for it. -/
def Claims.SyncArrivals : Prop :=
  ∀ (f : Fields) (s : State) (c off : Nat), Ready (.swarrive f) s →
    (checkSync s (srcA s f.s1) true false = .go (.spm c off true) →
      ∃ t l, exec (.swarrive f) s = .next t ∧ l.length = 32 ∧ OnlySpm s t c off l ∧
        ∀ w x m, w = readSync s.dev c off → x = readSync t.dev c off → m = (w.count + (srcS s f.s2).toNat) % 2 ^ 64 →
          x.target = w.target ∧ x.auto = w.auto ∧ x.arrivals = (w.arrivals + 1) % 2 ^ 32 ∧
          (w.armed = true ∧ (w.target = 0 ∨ m = w.target) →
            x.gen = (w.gen + 1) % 2 ^ 32 ∧ x.count = 0 ∧ x.armed = w.auto ∧ x.overrun = w.overrun) ∧
          (w.armed = true ∧ w.target ≠ 0 ∧ w.target < m → x.gen = w.gen ∧ x.count = m ∧ x.armed = true ∧ x.overrun = true) ∧
          (w.armed = false ∨ m < w.target → x.gen = w.gen ∧ x.count = m ∧ x.armed = w.armed ∧ x.overrun = w.overrun)) ∧
    (checkSync s (srcA s f.s1) true false = .go (.spm c off false) →
      exec (.swarrive f) s =
        .next { s with dev := { s.dev with arrivals := s.dev.arrivals ++ [{ core := c, off := off, n := (srcS s f.s2).toNat }] } })

/-- R144: the checks of a sync-word instruction, in order, on an address of tag 0x8; then, by R327 of 15_frontier_dispatch.md, another slot's persistent
region, and the hold of the range checker (that it is tested on the core before the bundle is the model's choice, log entry 62). A failed one raises its
fault with EADDR at the address. SWARRIVE's checks at a peer's word are the same, on that core's scratchpad, and it is not held. -/
def Claims.SyncWordChecks : Prop :=
  (∀ (s : State) (ea : Word) (peer write : Bool) (off : Nat), ea.extractLsb' 60 4 = 8 → off = (ea.extractLsb' 0 22).toNat →
    checkSync s ea peer write =
      if ea.extractLsb' 22 38 ≠ 0 ∨ 2 ^ 22 < off + 32 then .raise .address
      else if ea.toNat % 32 ≠ 0 then .raise .align
      else if touchesQueue (curCore s) off 32 then .raise .queueCfg
      else if foreignRegion s.dev s.cur.core off 32 then .raise .permission
      else if checkerFull (curCore s) ∨
          accessHeld (preCore s) (if write then [] else [(off, off + 31)]) (if write then [(off, off + 31)] else []) then .wait
      else .go (.spm s.cur.core off true)) ∧
  (∀ (s : State) (ea : Word) (c off : Nat), placeOf s ea = some (.spm c off false) →
    checkSync s ea true false =
      if 2 ^ 22 < off + 32 then .raise .address
      else if ea.toNat % 32 ≠ 0 then .raise .align
      else if touchesQueue (getCore s.dev c) off 32 then .raise .queueCfg
      else if foreignRegion s.dev c off 32 then .raise .permission
      else .go (.spm c off false)) ∧
  (∀ (f : Fields) (s : State) (i : Instr) (peer write : Bool),
    (i, peer, write) ∈ [(Instr.swinit f, false, true), (.swarm f, false, true), (.swwait f, false, false), (.swarrive f, true, false)] →
    Ready i s →
      (∀ c, checkSync s (srcA s f.s1) peer write = .raise c → exec i s = .next (faultAt c (srcA s f.s1) s)) ∧
      (checkSync s (srcA s f.s1) peer write = .wait → exec i s = .next (stall s)))

/-- R27, R141 to R144: sync words as the core itself uses them and as arrivals reach them, and the checks of their address. -/
def Obligations.SyncWords : Prop :=
  Claims.SyncWordResults ∧ Claims.SyncArrivals ∧ Claims.SyncWordChecks

/-- R133, R145, R146: PUBLISH and ACQUIRE perform publish and acquire at their scope, SYSTEM only where SCOPE_POLICY.SYS allows it; FENCE waits
for the commands of the stream that its mask selects, those before its bundle (log entry 101), and changes nothing. -/
def Obligations.ScopeResults : Prop :=
  ∀ (f : Fields) (s : State) (scope : Nat), scope = (f.imm.extractLsb' 0 3).toNat →
    (∀ (i : Instr) (d : Dev), (i, d) ∈ [(Instr.publish f, publish s.dev s.cur.core scope), (.acquire f, acquire s.dev s.cur.core scope)] →
      Ready i s →
        (scope ≠ 6 ∨ (preCore s).scopeSys = true → exec i s = .next { s with dev := d }) ∧
        (scope = 6 ∧ (preCore s).scopeSys = false → exec i s = .next (faultAt .scope 0 s))) ∧
    (Ready (.fence f) s → ∀ met : Prop,
      (met ↔ ∀ q, f.fn.extractLsb' 0 3 = 0 ∨ f.fn.getLsbD (match q with | .cpy => 0 | .vec => 1 | .mtx => 2) = true →
        (∀ x ∈ queuedCmds (getQueue (preStream s) q), x.firing.isSome = true) ∧
        ∀ r ∈ (preCore s).running, r.cmd.stream = s.cur.stream → queueOf r.cmd.op = q → r.cmd.firing = none →
          r.done = true ∧ f.fn.getLsbD 3 = false) →
      (met → exec (.fence f) s = .next s) ∧ (¬ met → exec (.fence f) s = .next (stall s)))

/-- R130, R131, R134: after publish no byte of the core's L1 is dirty, every byte that was lies at its home (but where the link to another package is down,
R354), and each board of GANG up to the scope has one more signature, which matches every sector written back. -/
def Obligations.PublishReachesHomes : Prop :=
  ∀ (d e : Dev) (c scope : Nat), e = publish d c scope →
    (getCore e c).l1dirty = [] ∧
    (∀ pa, region pa ≠ 3 → linkCut d pa = false → memByte e pa = (Sparse.find? (getCore d c).l1dirty pa).getD (memByte d pa)) ∧
    (∀ u r, scalarIn e c u r = scalarIn d c u r ∧ addressIn e c u r = addressIn d c u r) ∧
    (c < 160 → ∀ q ∈ [2, 3, 4, 5, 6], q ≤ scope →
      Sparse.get (getCore e c).pending 0 q = 0 ∧ (boardAt e c q).head = (boardAt d c q).head + 1 ∧
      ∃ g, (boardAt e c q).sigs = g :: (boardAt d c q).sigs.take 63 ∧ ∀ p ∈ (getCore d c).l1dirty, sigMatch g (p.1 / 64) = true)

/-- R129, R135: acquire discards no dirty byte and changes no register and no byte at a home. Of the clean bytes it discards those of the sectors that the
signatures match which a board of GANG up to the scope has and the core had not applied, all where there were more than 64 of them, and at SYSTEM those
homed outside the package; it holds every other clean byte still. Each board is then applied up to its head. -/
def Obligations.AcquireKeepsDirty : Prop :=
  ∀ (d e : Dev) (c scope : Nat), e = acquire d c scope →
    (getCore e c).l1dirty = (getCore d c).l1dirty ∧ (∀ pa, memByte e pa = memByte d pa) ∧
    (∀ p, p ∈ (getCore e c).l1clean ↔ p ∈ (getCore d c).l1clean ∧ (scope = 6 → outside (64 * (p.1 / 64)) = false) ∧
      ∀ q ∈ [2, 3, 4, 5, 6], q ≤ scope → ∀ n, n = (boardAt d c q).head - appliedAt (getCore d c) q →
        n ≤ 64 ∧ ∀ g ∈ (boardAt d c q).sigs.take n, sigMatch g (p.1 / 64) = false) ∧
    (∀ u r, scalarIn e c u r = scalarIn d c u r ∧ addressIn e c u r = addressIn d c u r) ∧
    (∀ q ∈ [2, 3, 4, 5, 6], q ≤ scope → appliedAt (getCore e c) q = (boardAt d c q).head)

/-- R147: ATOM returns the old word, zero-extended, and leaves the new one at its home, where the dirty bytes of the core's L1 have been written
back first: those of the word's sector, and with .rel all. Its checks, in order, raise ADDRESS, ALIGN, SCOPE, the translation's fault, and POISON, which is
tested after that writing back and undoes it (that, and EADDR 0 of SCOPE, is the model's choice, log entry 99). R354: over a link that is down it raises
POISON too, and its word is unknown: free bytes (log entry 38). -/
def Obligations.AtomicResults : Prop :=
  (∀ (f : Fields) (s : State) (ea : Word) (w : Nat) (v : Except Cause TlbEntry), Ready (.atom f) s → ea = srcA s f.s1 →
    w = (if f.fn.getLsbD 3 then 64 else 32) → v = translateFor s.dev s.cur.core (ea.toNat % 2 ^ 60) .write →
    (ea.extractLsb' 60 4 ≠ 0 → exec (.atom f) s = .next (faultAt .address ea s)) ∧
    (ea.extractLsb' 60 4 = 0 → ea.toNat % (w / 8) ≠ 0 → exec (.atom f) s = .next (faultAt .align ea s)) ∧
    (ea.extractLsb' 60 4 = 0 → ea.toNat % (w / 8) = 0 →
      ∀ bad : Prop, (bad ↔ f.imm.extractLsb' 0 2 ≠ 0 ∧ f.imm.extractLsb' 2 3 = 6 ∧ (preCore s).scopeSys = false) →
        (bad → exec (.atom f) s = .next (faultAt .scope 0 s)) ∧
        (∀ c, ¬ bad → v = .error c → exec (.atom f) s = .next (faultAt c ea s)) ∧
        (∀ e pa, ¬ bad → v = .ok e → pa = physical e ea.toNat → region pa ≠ 3 → homePoisoned (atomPrepare s.dev s.cur.core f pa) pa (w / 8) = true →
          (linkCut s.dev pa = false → exec (.atom f) s = .next (faultAt .poison ea s)) ∧
          (linkCut s.dev pa = true → ∃ m, exec (.atom f) s = .next (faultAt .poison ea { s with pre := m }) ∧
            m = { s.pre with mem := m.mem, fresh := s.pre.fresh + 1 } ∧
            ∀ a, a < pa ∨ pa + w / 8 ≤ a → homeByte m a = homeByte s.pre a)))) ∧
  ∀ (f : Fields) (s : State) (ea : Word) (pa w : Nat) (e : TlbEntry), Ready (.atom f) s → ea = srcA s f.s1 →
    w = (if f.fn.getLsbD 3 then 64 else 32) → ea.extractLsb' 60 4 = 0 → ea.toNat % (w / 8) = 0 →
    (f.imm.extractLsb' 0 2 = 0 ∨ f.imm.extractLsb' 2 3 ≠ 6 ∨ (preCore s).scopeSys = true) →
    translateFor s.dev s.cur.core ea.toNat .write = .ok e → pa = physical e ea.toNat → region pa ≠ 3 →
    homePoisoned (atomPrepare s.dev s.cur.core f pa) pa (w / 8) = false →
    ∃ t old, exec (.atom f) s = .next t ∧
      (∀ c u x, addressIn t.dev c u x = addressIn s.dev c u x ∧
        scalarIn t.dev c u x = if c = s.cur.core ∧ u = clusterOf s ∧ x = f.d.toNat ∧ x ≠ 0 then old else scalarIn s.dev c u x) ∧
      (∀ c i, getStream t.dev c i = getStream s.dev c i) ∧ (∀ c off, spmByte t.dev c off = spmByte s.dev c off) ∧
      ∀ view : Nat → Byte, (∀ a, view a =
          if a / 64 = pa / 64 ∨ f.imm.getLsbD 1 = true then (Sparse.find? (curCore s).l1dirty a).getD (homeByte s.dev a) else homeByte s.dev a) →
        (∀ k < 64, region (pa + k / 8) ≠ 3 → old.getLsbD k = (decide (k < w) && (view (pa + k / 8)).getLsbD (k % 8))) ∧
        ∀ a, region a ≠ 3 → linkCut s.dev a = false → homeByte t.dev a =
          if pa ≤ a ∧ a < pa + w / 8 then
            (atomBits (f.fn.extractLsb' 0 3) (f.fn.getLsbD 4) (old.setWidth w) ((srcS s f.s2).setWidth w) ((srcS s f.d).setWidth w)).extractLsb' (8 * (a - pa)) 8
          else view a

/-- R148, R149: GARRIVE counts the arrival and ends the phases that are complete; it stalls two arrivals ahead. GWAIT goes on when the phase of
its last arrival has ended. -/
def Obligations.GangBarriers : Prop :=
  ∀ (f : Fields) (s : State) (k : Core) (b : Nat), k = curCore s → b = gangBase k s.cur.core → (preCore s).slaunch = false →
    (isSplit s = true → s.cur.stream = 0) →
    (Ready (.garrive f) s → k.arrived - (getGang s.dev b).c ≠ 2 → 0 < k.gangSize →
      ∃ t g, exec (.garrive f) s = .next t ∧
        t = { s with dev := { s.dev with cores := t.dev.cores, gangs := Sparse.insert s.dev.gangs b g } } ∧
        (∀ c, getCore t.dev c = if c = s.cur.core then { getCore s.dev c with arrived := k.arrived + 1 } else getCore s.dev c) ∧
        PhasesEnd k.gangSize (countArrival (k.arrived + 1) (getGang s.dev b)) g) ∧
    (Ready (.garrive f) s → k.arrived - (getGang s.dev b).c = 2 → exec (.garrive f) s = .next (stall s)) ∧
    (Ready (.gwait f) s → k.arrived = (getGang s.dev b).c → exec (.gwait f) s = .next s) ∧
    (Ready (.gwait f) s → k.arrived ≠ (getGang s.dev b).c → exec (.gwait f) s = .next (stall s))

/-- R150 to R153: WATCH registers its descriptor in a free entry of the home slice and returns the handle; UNWATCH removes an entry of its own point, and
does nothing for a free one. The model's choices: the free entry is the lowest (log entry 100), PERMISSION for the commit watch of an axis of the own point
(log entry 116) and for a note in another slot's persistent region (log entry 147), a watch of region 0x2 takes an entry of this package (log entry 128), a
poisoned descriptor is read as it stands (log entry 117), and an UNWATCH that stalls leaves its entry registered (log entry 137). -/
def Obligations.WatchResults : Prop :=
  (∀ (f : Fields) (s : State) (c off a h : Nat) (own : Bool) (w : WatchDesc) (e : TlbEntry), Ready (.watch f) s →
    checkSync s (srcA s f.s1) false false = .go (.spm c off own) → w = readWatchDesc (spmNat s.dev c off 32) → w.resv = false →
    a = w.addr.toNat → a < 2 ^ 56 → a % 8 = 0 → a % 64 + 8 * (w.len + 1) ≤ 64 → (w.act = false → w.arg % 8 = 0 ∧ w.arg + 8 ≤ 2 ^ 22) →
    translate s.dev s.cur.core a = some e → region (physical e a) ≠ 3 →
    (w.act = true → regUsable s.dev (preCore s).tenant (w.arg % 2 ^ 16) = true) →
    freeWatch s.dev (homeSlice s.dev (physical e a)) = some h →
    (w.act = false → foreignRegion s.dev s.cur.core w.arg 8 = true → exec (.watch f) s = .next (faultAt .permission (mkAddr 8 w.arg) s)) ∧
    ((w.act = false → foreignRegion s.dev s.cur.core w.arg 8 = false) → ∃ m t x, exec (.watch f) s = .next t ∧
      OnlyCaches { s with dev := { s.dev with watches := Sparse.insert s.dev.watches h x } } m ∧ OnlyScalar m t f.d (BitVec.ofNat 64 h) ∧
      x.pa = physical e a ∧ x.owner = pointOwner s ∧ x.len = w.len ∧ x.cond = w.cond ∧ x.value = w.value ∧ x.mask = w.mask ∧ x.act = w.act ∧
      x.ten = w.ten ∧ x.tok = w.tok ∧ x.owed = false ∧ x.arg = (if w.act then w.arg % 2 ^ 16 else w.arg))) ∧
  (∀ (f : Fields) (s : State) (h : Nat), Ready (.unwatch f) s → h = (srcS s f.s1).toNat →
    (2560 ≤ h ∨ Sparse.find? s.dev.watches h = none → exec (.unwatch f) s = .next s) ∧
    (h < 2560 → ∀ w, Sparse.find? s.dev.watches h = some w →
      (ownWatch s w = true → w.owed = false → exec (.unwatch f) s = .next { s with dev := { s.dev with watches := Sparse.erase s.dev.watches h } }) ∧
      (ownWatch s w = true → w.owed = true → exec (.unwatch f) s = .next (stall s)) ∧
      (ownWatch s w = false → exec (.unwatch f) s = .next (faultAt .permission 0 s))))

/-! ### System instructions (04_sequencer.md, 05_sequencer_instructions.md) -/

/-- R70, R71, R112: SYSRD writes the named register, zero-extended, to s(D). -/
def Claims.SystemReads : Prop :=
  (∀ (f : Fields) (s : State), Ready (.sysrd f) s → ∃ t v, exec (.sysrd f) s = .next t ∧ OnlyScalar s t f.d v) ∧
  ∀ (f : Fields) (s : State) (k : Core) (x : Stream) (y : SysRegs) (v : Word), Ready (.sysrd f) s → k = preCore s → x = preStream s → y = x.sys →
    (f.imm, v) ∈ ([
       (0x00, (BitVec.ofBool y.ppend ++ BitVec.ofBool y.fpend ++ BitVec.ofBool y.inh).setWidth 64), (0x01, y.cause.setWidth 64), (0x02, y.epc),
       (0x03, y.ecmd), (0x04, y.eeng), (0x05, y.estat), (0x06, y.eaddr),
       (0x10, match y.frm with | .rne => 0 | .rtz => 1 | .rdn => 2 | .rup => 3), (0x11, y.fflags.setWidth 64), (0x12, y.vl.setWidth 64),
       (0x13, y.vcnt.setWidth 64), (0x14, y.leaseLen.setWidth 64), (0x15, y.gen.setWidth 64), (0x16, y.stkBase.setWidth 64),
       (0x17, y.stkLimit.setWidth 64), (0x18, y.trapVec), (0x19, y.deleg.setWidth 64), (0x20, s.pre.tick), (0x21, s.pre.tickPeriod.setWidth 64),
       (0x30, BitVec.ofNat 64 k.tenant), (0x31, if k.scopeSys then 1 else 0),
       (0x40, (Sparse.get k.bth 0xFF00 (if k.split then s.cur.stream else 0)).setWidth 64), (0x41, (Sparse.get k.bth 0xFF00 1).setWidth 64),
       (0x42, (Sparse.get k.bth 0xFF00 2).setWidth 64), (0x43, (Sparse.get k.bth 0xFF00 3).setWidth 64),
       (0x44, if k.split then (k.bmode.extractLsb' (4 * s.cur.stream) 4).setWidth 64 else k.bmode.setWidth 64), (0x50, k.poisonCount.setWidth 64),
       (0x51, k.ceCount.setWidth 64), (0x60, BitVec.ofNat 64 s.cur.core), (0x61, BitVec.ofNat 64 k.gangSize),
       (0x62, BitVec.ofNat 64 ((if k.split then 4 * s.cur.stream else 0) + (if k.slaunch then 2 else 0) + if k.split then 1 else 0))] : List (BitVec 32 × Word)) →
    ∃ t, exec (.sysrd f) s = .next t ∧ OnlyScalar s t f.d v

/-- R70, R79, Table 5.12: SYSWR of a per-stream register replaces it in the issuing stream, and changes nothing else; STATUS asks for the return
from the handler, which follows the bundle. A value that Table 4.5 does not allow is refused. -/
def Claims.SystemWrites : Prop :=
  ∀ (f : Fields) (s : State) (v : Word), Ready (.syswr f) s → v = srcS s f.s1 →
    (∀ (ok : Bool) (g : SysRegs → SysRegs), (f.imm, ok, g) ∈
        [((0x01 : BitVec 32), decide (v.toNat < 512), fun y : SysRegs => { y with cause := v.setWidth 9 }), (0x02, true, fun y => { y with epc := v }),
         (0x06, true, fun y => { y with eaddr := v }),
         (0x10, decide (v.toNat < 4), fun y => { y with frm := if v = 0 then .rne else if v = 1 then .rtz else if v = 2 then .rdn else .rup }),
         (0x11, decide (v.toNat < 32), fun y => { y with fflags := v.setWidth 5 }), (0x12, decide (v.toNat ≤ 16384), fun y => { y with vl := v.setWidth 32 }),
         (0x13, decide (v.toNat < 2 ^ 32), fun y => { y with vcnt := v.setWidth 32 }),
         (0x14, decide (1 ≤ v.toNat ∧ v.toNat ≤ 64), fun y => { y with leaseLen := v.setWidth 7 }),
         (0x15, decide (v.toNat < 2 ^ 32), fun y => { y with gen := v.setWidth 32 }),
         (0x16, decide (v.toNat < 2 ^ 22 ∧ v.toNat % 8 = 0), fun y => { y with stkBase := v.setWidth 22 }),
         (0x17, decide (v.toNat < 2 ^ 22 ∧ v.toNat % 8 = 0), fun y => { y with stkLimit := v.setWidth 22 }),
         (0x18, decide (v.toNat < 2 ^ 60 ∧ v.toNat % 2 = 0), fun y => { y with trapVec := v }),
         (0x19, decide (v.toNat < 2 ^ 26), fun y => { y with deleg := v.setWidth 26 &&& ~~~0x3000089 })] →
      (ok = true → ∃ t, exec (.syswr f) s = .next t ∧ OnlyStream s t fun x => { x with sys := g x.sys }) ∧
      (ok = false → exec (.syswr f) s = .next (faultAt .illegalInstruction 0 s))) ∧
    (f.imm = 0 →
      (v.toNat < 32 → v.getLsbD 3 = false → exec (.syswr f) s = .next s) ∧
      (v.toNat < 32 → v.getLsbD 3 = true → (preStream s).sys.inh = true →
        ∃ t, exec (.syswr f) s = .next t ∧ OnlyStream s t fun x => { x with ret := some (v.getLsbD 4) }) ∧
      (32 ≤ v.toNat ∨ (v.getLsbD 3 = true ∧ (preStream s).sys.inh = false) → exec (.syswr f) s = .next (faultAt .illegalInstruction 0 s))) ∧
    (f.imm = 0x21 ∨ f.imm = 0x31 → exec (.syswr f) s = .next (faultAt .permission 0 s))

/-- R70, R71, R112, Tables 4.4 and 4.5: SYSRD and SYSWR. -/
def Obligations.SystemRegisters : Prop :=
  Claims.SystemReads ∧ Claims.SystemWrites

/-- R243: the core once the accumulators of a list have been armed or disarmed in joined mode. Each clears its partner, unless the partner holds its lo. A
product that is stopped on one of them has no checkpoint any more (log entry 121). -/
def Claims.armsTo (l : List Nat) (m : BitVec 16) (k : Core) : Core :=
  l.foldl (fun k a => if precOf k a = .a2x32 then k else clearAcc k (partner a))
    { k with bmode := m, running := k.running.map fun r =>
        if r.phase = .first ∧ ∃ a ∈ l, matNames r.cmd = some a then { r with phase := .plain } else r }

/-- R243: a mode in which both of a pair would be armed, or an accumulator that holds lo. -/
def Claims.modeRefused (k : Core) (m : BitVec 16) : Prop :=
  ∃ n < 4, armedNibble (nibble m n) = true ∧ (armedNibble (nibble m (partner n)) = true ∨ precOf k (partner n) = .a2x32)

/-- R119, R241, R243, Table 5.12: SYSWR of BTHk and BOUNDCFG wait for the matrix commands on their accumulator and then write its threshold, BOUNDCFG
its mode as well. In joined mode a mode that would arm both of a pair, or an accumulator that holds lo, is refused with nothing changed. -/
def Claims.ThresholdWrites : Prop :=
  (∀ (f : Fields) (s : State) (a : Nat), Ready (.syswr f) s → (srcS s f.s1).toNat < 2 ^ 16 →
    (a, f.imm) ∈ [(if isSplit s then s.cur.stream else 0, 0x40), (1, 0x41), (2, 0x42), (3, 0x43)] →
    (accsBusy (preCore s) [a] = false → ∃ t, exec (.syswr f) s = .next t ∧
      OnlyCore s t fun k => { k with bth := Sparse.set k.bth 0xFF00 a ((srcS s f.s1).setWidth 16) }) ∧
    (accsBusy (preCore s) [a] = true → exec (.syswr f) s = .next (stall s))) ∧
  (∀ (f : Fields) (s : State) (a : Nat), Ready (.boundcfg f) s → a = (if isSplit s then s.cur.stream else f.d.toNat) →
    (accsBusy (preCore s) [a] = true → exec (.boundcfg f) s = .next (stall s)) ∧
    ∀ (m : BitVec 16), m = setNibble (curCore s).bmode a (f.imm.extractLsb' 0 3).toNat → accsBusy (preCore s) [a] = false →
      ((curCore s).split = true → ∃ t, exec (.boundcfg f) s = .next t ∧
        OnlyCore s t fun k => { k with bmode := m, bth := Sparse.set k.bth 0xFF00 a ((srcS s f.s1).setWidth 16) }) ∧
      ((curCore s).split = false → ¬ Claims.modeRefused (curCore s) m → ∃ t, exec (.boundcfg f) s = .next t ∧
        OnlyCore s t fun k =>
          let k := Claims.armsTo (if armedNibble (nibble m a) = armedNibble (nibble k.bmode a) then [] else [a]) m k
          { k with bth := Sparse.set k.bth 0xFF00 a ((srcS s f.s1).setWidth 16) }) ∧
      ((curCore s).split = false → Claims.modeRefused (curCore s) m → exec (.boundcfg f) s = .next (faultAt .illegalInstruction 0 s)))

/-- R70, R243, Tables 4.5 and 5.12: SYSWR of BMODE, in split mode of the stream's own nibble. A value with a reserved bit or the illegal mode 3 is refused,
and so is one that R243 refuses; otherwise every accumulator that it arms or disarms acts on its partner. -/
def Claims.BoundModeWrites : Prop :=
  ∀ (f : Fields) (s : State) (v : Nat) (ok : Prop), Ready (.syswr f) s → f.imm = 0x44 → v = (srcS s f.s1).toNat →
    (ok ↔ v < (if isSplit s then 16 else 2 ^ 16) ∧ ∀ a < 4, v.testBit (4 * a + 3) = false ∧ v / 16 ^ a % 4 ≠ 3) →
    (¬ ok → exec (.syswr f) s = .next (faultAt .illegalInstruction 0 s)) ∧
    (ok → ∀ l : List Nat, l = (if isSplit s then [s.cur.stream] else [0, 1, 2, 3]) →
      (accsBusy (preCore s) l = true → exec (.syswr f) s = .next (stall s)) ∧
      ∀ m : BitVec 16, m = (if isSplit s then setNibble (curCore s).bmode s.cur.stream v else BitVec.ofNat 16 v) → accsBusy (preCore s) l = false →
        ((curCore s).split = true → ∃ t, exec (.syswr f) s = .next t ∧ OnlyCore s t fun k => { k with bmode := m }) ∧
        ((curCore s).split = false → Claims.modeRefused (curCore s) m → exec (.syswr f) s = .next (faultAt .illegalInstruction 0 s)) ∧
        ((curCore s).split = false → ¬ Claims.modeRefused (curCore s) m → ∃ t, exec (.syswr f) s = .next t ∧ OnlyCore s t fun k =>
          Claims.armsTo ([0, 1, 2, 3].filter fun a => decide (armedNibble (nibble m a) ≠ armedNibble (nibble k.bmode a))) m k))

/-- R119, R241, R243: BTHk and BMODE. -/
def Obligations.BoundControls : Prop :=
  Claims.ThresholdWrites ∧ Claims.BoundModeWrites

/-- R67, R69, R113, R249, R219 (09_matrix_engine.md: no lease, and the first grant begins at stream 0): SPLIT starts four streams at their targets, each
with a copy of the joined stream's registers and FFLAGS 0, and of its nest (R250), format table (R175) and KV binding (R271); stream 0 keeps the queues and the command count. No lease asked for passes on (R114). That the
copy engine's round begins at stream 0 too (cpyTurn := 3) is the model's choice (log entry 51). -/
def Obligations.SplitResults : Prop :=
  ∀ (f : Fields) (s : State), Ready (.split f) s →
    (isSplit s = true ∨ (preStream s).sys.inh = true → exec (.split f) s = .next (faultAt .splitJoin 0 s)) ∧
    (isSplit s = false → (preStream s).sys.inh = false → streamDrained (preCore s) 0 = false → exec (.split f) s = .next (stall s)) ∧
    (isSplit s = false → (preStream s).sys.inh = false → streamDrained (preCore s) 0 = true → (∃ a < 4, precOf (preCore s) a = .a2x32) →
      exec (.split f) s = .next (faultAt .splitJoin 0 s)) ∧
    (isSplit s = false → (preStream s).sys.inh = false → streamDrained (preCore s) 0 = true → (∀ a < 4, precOf (preCore s) a ≠ .a2x32) →
      ∃ t, exec (.split f) s = .next t ∧ OnlyCores s t ∧ (∀ c, c ≠ s.cur.core → getCore t.dev c = getCore s.dev c) ∧
        curCore t = { curCore s with split := true, streams := (curCore t).streams, lease := none, leaseLast := 3, cpyTurn := 3 } ∧
        ∀ i < 4, ∀ x y, x = coreStream (curCore t) i → y = coreStream (curCore s) 0 →
          x.pc = Sparse.get y.targets 0 i ∧ x.conds = y.conds ∧ x.targets = y.targets ∧ x.loops = y.loops ∧ x.gates = y.gates ∧
          x.sys = { y.sys with fflags := 0 } ∧ x.point = y.point ∧ x.run = y.run ∧ x.leaseReq = none ∧ x.lrel = none ∧
          x.nest = y.nest ∧ x.ftable = y.ftable ∧ x.kv = y.kv ∧
          (if i = 0 then x.qcpy = y.qcpy ∧ x.qvec = y.qvec ∧ x.qmtx = y.qmtx ∧ x.cmdIndex = y.cmdIndex
           else x.qcpy = {} ∧ x.qvec = {} ∧ x.qmtx = {} ∧ x.cmdIndex = 0))

/-- R68, R69, R113, R310 (14_standing_rules.md: a stream 1 to 3 that owns a live rule): JOIN parks its stream once its commands have completed; the fourth
to park returns the core to joined mode at the target of stream 0, with the OR of the four FFLAGS. Of a pair that BMODE then arms twice the odd one becomes
TRAP, and every armed accumulator's partner becomes CLEAR, whatever it held (R249). That a parked stream's pc is its JOIN is the model's
reading (log entry 103). -/
def Obligations.JoinResults : Prop :=
  ∀ (f : Fields) (s : State) (k : Core) (i : Nat) (bad : Prop), Ready (.join f) s → k = preCore s → i = s.cur.stream →
    (bad ↔ k.split = false ∨ k.slaunch = true ∨ (preStream s).sys.inh = true ∨ (i ≠ 0 ∧ ∃ p ∈ k.rules, p.2.owner = i)) →
    (bad → exec (.join f) s = .next (faultAt .splitJoin 0 s)) ∧
    (¬ bad → streamDrained k i = false → exec (.join f) s = .next (stall s)) ∧
    (¬ bad → streamDrained k i = true → ∃ t, exec (.join f) s = .next t ∧ OnlyCores s t ∧
      (∀ c, c ≠ s.cur.core → getCore t.dev c = getCore s.dev c) ∧ (curCore t).clusters = (curCore s).clusters ∧ (curCore t).spm = (curCore s).spm ∧
      ((∃ j < 4, j ≠ i ∧ parkedAt (coreStream (curCore s) j) = none) →
        curCore t = { curCore s with streams := (curCore t).streams, lease := (curCore t).lease, leaseLast := (curCore t).leaseLast } ∧ (∀ j, j ≠ i → coreStream (curCore t) j = coreStream (curCore s) j) ∧
        ∃ r, curStream t = { curStream s with run := .parked (Sparse.get (preStream s).targets 0 f.s2.toNat), pc := s.cur.pc, lrel := r } ∧
          (r = (curStream s).lrel ∨ r = none) ∧ ∀ l, (curCore t).lease = some l → l.holder ≠ i) ∧
      ((∀ j < 4, j ≠ i → parkedAt (coreStream (curCore s) j) ≠ none) →
        (∀ u, u = curCore t → u = { curCore s with
          split := false, streams := u.streams, lease := none, leaseLast := u.leaseLast, bmode := u.bmode,
          accPrec := u.accPrec, acc := u.acc, bnd := u.bnd, poisonA := u.poisonA, poisonB := u.poisonB}) ∧
        (∀ j, j ≠ 0 → coreStream (curCore t) j = {}) ∧
        (∀ a < 4, ∀ m u, m = (curCore s).bmode → u = curCore t →
          nibble u.bmode a = (if a % 2 = 1 ∧ armedNibble (nibble m (a - 1)) = true ∧ armedNibble (nibble m a) = true then nibble m a % 4 else nibble m a) ∧
          (armedNibble (nibble u.bmode (partner a)) = true → precOf u a = .clear ∧ (∀ i < 256, ∀ j < 128, accWord u a i j = 0) ∧ ∀ n < 128, bndCell u a n = 0) ∧
          (armedNibble (nibble u.bmode (partner a)) = false → precOf u a = precOf (curCore s) a ∧
            (∀ i < 256, ∀ j < 128, accWord u a i j = accWord (curCore s) a i j) ∧ ∀ n < 128, bndCell u a n = bndCell (curCore s) a n)) ∧
        ∀ x y, x = coreStream (curCore t) 0 → y = coreStream (curCore s) 0 →
          x.run = .running ∧ x.leaseReq = none ∧ x.lrel = none ∧ (i = 0 → x.pc = Sparse.get (preStream s).targets 0 f.s2.toNat) ∧ (i ≠ 0 → parkedAt y = some x.pc) ∧
          x.conds = y.conds ∧ x.targets = y.targets ∧ x.loops = y.loops ∧ x.gates = y.gates ∧ x.qcpy = y.qcpy ∧ x.qvec = y.qvec ∧ x.qmtx = y.qmtx ∧
          x.cmdIndex = y.cmdIndex ∧ x.nest = y.nest ∧ x.ftable = y.ftable ∧ x.kv = y.kv ∧
          x.sys = { y.sys with fflags := y.sys.fflags ||| (coreStream (curCore s) 1).sys.fflags ||| (coreStream (curCore s) 2).sys.fflags |||
                                (coreStream (curCore s) 3).sys.fflags }))

/-- R31, R111: EXIT waits for the stream's commands and their visibility, publishes at the launch's effective scope and parks the stream; its queue
bindings and format table end unless it owns a live rule: then it stands. -/
def Obligations.ExitResults : Prop :=
  ∀ (f : Fields) (s : State) (p : State), Ready (.exit f) s → p = { s with dev := publish s.dev s.cur.core (exitScope s.dev (preStream s)) } →
    ((preStream s).sys.inh = true → exec (.exit f) s = .next (faultAt .illegalInstruction 0 s)) ∧
    ((preStream s).sys.inh = false → exitReady (preCore s) s.cur.stream = false → exec (.exit f) s = .next (stall s)) ∧
    ((preStream s).sys.inh = false → exitReady (preCore s) s.cur.stream = true → ∃ t, exec (.exit f) s = .next t ∧ OnlyCores p t ∧
      (∀ c, c ≠ s.cur.core → getCore t.dev c = getCore p.dev c) ∧
      curCore t = { curCore p with streams := (curCore t).streams, lease := (curCore t).lease, leaseLast := (curCore t).leaseLast } ∧
      (∀ j, j ≠ s.cur.stream → coreStream (curCore t) j = coreStream (curCore p) j) ∧ (∀ l, (curCore t).lease = some l → l.holder ≠ s.cur.stream) ∧
      (curStream t).run = .exited ∧ (curStream t).sys = (curStream p).sys ∧ (curStream t).point = (curStream p).point ∧
      if ∃ r ∈ (curCore p).rules, r.2.owner = s.cur.stream then
        (curStream t).ftable = (curStream p).ftable ∧ (curStream t).qcpy = (curStream p).qcpy ∧ (curStream t).qvec = (curStream p).qvec ∧
        (curStream t).qmtx = (curStream p).qmtx ∧ (curStream t).stood = true
      else (curStream t).ftable = [] ∧ (curStream t).qcpy = {} ∧ (curStream t).qvec = {} ∧ (curStream t).qmtx = {})

/-- R110, R120, R121: TRAP raises TRAP with EADDR := IMM and EPC at the bundle after; TICK reads FRAME_TICK, TICK.W waits for it; DBGBRK is a NOP unless
debug stops are enabled for the core, and then suspends the stream with EPC at the next bundle and EADDR the code; the point's other streams that run
stop at their next bundles, with EPC there (R278), those within a transfer group at its end (R104, DelaySlots). -/
def Obligations.TrapTickBreak : Prop :=
  (∀ (f : Fields) (s : State), Ready (.trap f) s → exec (.trap f) s = .next (takeFault .trap (f.imm.setWidth 64) 0 s.cur.next s)) ∧
  (∀ (f : Fields) (s : State), Ready (.tick f) s →
    (f.fn = 0 ∨ (srcS s f.s1).toNat ≤ s.dev.tick.toNat → ∃ t, exec (.tick f) s = .next t ∧ OnlyScalar s t f.d s.dev.tick) ∧
    (f.fn = 1 → s.dev.tick.toNat < (srcS s f.s1).toNat → exec (.tick f) s = .next (stall s))) ∧
  (∀ (f : Fields) (s : State), Ready (.dbgbrk f) s →
    (s.dev.ctl.dbgEn.getLsbD s.cur.core = false → exec (.dbgbrk f) s = .next s) ∧
    (s.dev.ctl.dbgEn.getLsbD s.cur.core = true → Sparse.sorted s.dev.cores = true → ∃ m t, exec (.dbgbrk f) s = .next t ∧
      t = { m with dev := reportSuspension m.dev s.cur.core s.cur.stream true } ∧ OnlyCores s m ∧
      (∀ c, getCore m.dev c = { getCore s.dev c with streams := (getCore m.dev c).streams }) ∧
      ∀ c i x, x = getStream s.dev c i → getStream m.dev c i =
        if c = s.cur.core ∧ i = s.cur.stream then
          { x with suspended := true, debugStop := true, slink := none, sys := { x.sys with epc := s.cur.next, eaddr := f.imm.setWidth 64 } }
        else if (∃ p, (curStream s).point = some p ∧ (c, i) ∈ placesOf s.dev p) ∧ x.run = .running ∧ x.suspended = false ∧ x.delay = none then
          { x with sys := { x.sys with epc := x.pc } }
        else x))

/-- R16 to R18, R52, R116, R118: QCFG binds a queue once it has drained and no faulted command of it is left to be resumed (R281), and refuses a control word that breaks Table 1.4 or overlaps, and a ring in another slot's persistent region (R327; its place among
the tests is log entry 146's); FTSET writes a format table entry. -/
def Claims.QueueAndFormatConfig : Prop :=
  (∀ (f : Fields) (s : State) (v : Word) (q : QueueId) (base depth : Nat) (ok : Prop), Ready (.qcfg f) s → v = srcS s f.s1 →
    q = (if f.fn = 0 then .cpy else if f.fn = 1 then .vec else .mtx) → base = (v.extractLsb' 0 22).toNat → depth = (v.extractLsb' 22 11).toNat →
    (ok ↔ v.extractLsb' 33 31 = 0 ∧ base % 64 = 0 ∧ 4 ≤ depth ∧ depth ≤ 1024 ∧ base + 32 * depth ≤ 2 ^ 22) →
    (¬ ok → exec (.qcfg f) s = .next (faultAt .queueCfg 0 s)) ∧
    (ok → queueDrained (preCore s) s.cur.stream q = false ∨ (getQueue (preStream s) q).stopped ≠ [] → exec (.qcfg f) s = .next (stall s)) ∧
    (ok → queueDrained (preCore s) s.cur.stream q = true → (getQueue (preStream s) q).stopped = [] →
      qcwOverlaps (preCore s) s.cur.stream q base (32 * depth) = true → exec (.qcfg f) s = .next (faultAt .queueCfg 0 s)) ∧
    (ok → queueDrained (preCore s) s.cur.stream q = true → (getQueue (preStream s) q).stopped = [] →
      qcwOverlaps (preCore s) s.cur.stream q base (32 * depth) = false → foreignRegion s.dev s.cur.core base (32 * depth) = true →
      exec (.qcfg f) s = .next (faultAt .permission 0 s)) ∧
    (ok → queueDrained (preCore s) s.cur.stream q = true → (getQueue (preStream s) q).stopped = [] →
      qcwOverlaps (preCore s) s.cur.stream q base (32 * depth) = false → foreignRegion s.dev s.cur.core base (32 * depth) = false →
      ∃ t, exec (.qcfg f) s = .next t ∧ OnlyStream s t fun x => setQueue x q { bound := some { base := base, depth := depth } })) ∧
  (∀ (f : Fields) (s : State), Ready (.ftset f) s →
    ∃ t, exec (.ftset f) s = .next t ∧
      OnlyStream s t fun x => { x with ftable := Sparse.set x.ftable 0 (f.imm.extractLsb' 0 4).toNat ((srcS s f.s1).setWidth 32) })

/-- R25, R117: GENF counts GEN up and puts one fence at the tail of each queue, behind the commands that wait there. That a fence whose older commands have
all completed leaves at once is the model's choice (log entry 34). It stalls while a queue is full, raises QUEUE_CFG where
one is unbound, and PERMISSION where one lies in another slot's persistent region (R327, log entry 146). -/
def Claims.GenerationFences : Prop :=
  ∀ (f : Fields) (s : State), Ready (.genf f) s →
    ((∃ q, (getQueue (preStream s) q).bound = none) → exec (.genf f) s = .next (faultAt .queueCfg 0 s)) ∧
    ((∀ q, (getQueue (preStream s) q).bound ≠ none) →
      (∃ q b, (getQueue (preStream s) q).bound = some b ∧ foreignRegion s.dev s.cur.core b.base (32 * b.depth) = true) →
      exec (.genf f) s = .next (faultAt .permission 0 s)) ∧
    ((∀ q, ∃ b, (getQueue (preStream s) q).bound = some b ∧ foreignRegion s.dev s.cur.core b.base (32 * b.depth) = false) →
      (∃ q, queueFull (getQueue (preStream s) q) = true) → exec (.genf f) s = .next (stall s)) ∧
    ((∀ q, ∃ b, (getQueue (preStream s) q).bound = some b ∧ foreignRegion s.dev s.cur.core b.base (32 * b.depth) = false ∧
      queueFull (getQueue (preStream s) q) = false) → ∃ t, exec (.genf f) s = .next t ∧
      (curStream t).sys = { (curStream s).sys with gen := (curStream s).sys.gen + 1 } ∧
      (∀ q, (getQueue (curStream t) q).bound = (getQueue (curStream s) q).bound ∧
        (queueRunning (curCore s) s.cur.stream q = true ∨ (curStream s).halted = true →
          ∃ g, (getQueue (curStream t) q).entries = (getQueue (curStream s) q).entries ++ [.fence (curCore s).nextAge g]) ∧
        (queueRunning (curCore s) s.cur.stream q = false → (curStream s).halted = false →
          (∀ a x b, (getQueue (curStream s) q).entries = a ++ .cmd x :: b → (∀ e ∈ a, ∃ m g, e = .fence m g) →
            ∃ g, (getQueue (curStream t) q).entries = .cmd x :: b ++ [.fence (curCore s).nextAge g]) ∧
          ((∀ x, QEntry.cmd x ∉ (getQueue (curStream s) q).entries) → (getQueue (curStream t) q).entries = []))) ∧
      (∀ c u x, scalarIn t.dev c u x = scalarIn s.dev c u x ∧ addressIn t.dev c u x = addressIn s.dev c u x) ∧
      (∀ pa, homeByte t.dev pa = homeByte s.dev pa) ∧ (curStream t).conds = (curStream s).conds ∧ (curStream t).cmdIndex = (curStream s).cmdIndex)

/-- R17, R25, R52, R117, R118: QCFG, FTSET and GENF. -/
def Obligations.QueueFormatAndGeneration : Prop :=
  Claims.QueueAndFormatConfig ∧ Claims.GenerationFences

/-- The core after a lease of stream i has ended: no lease, the round goes on after i, and a pending LREL of i goes with it (R219). -/
def Claims.leaseEnds (i : Nat) (k : Core) : Core := modCoreStream { k with lease := none, leaseLast := i } i fun x => { x with lrel := none }

/-- R114, R219: LEASE and LREL do nothing in joined mode. In split mode LEASE gives the stream's current lease, or its next, its length, and faults while an
earlier one has not ended; the length of the next is settled at its grant, LEASE_LEN for 0 (LEASE_GRANT). LREL ends the current one, at once where no matrix command waits. A lease that ends takes an LREL with it. That LEASE of a length
already used up ends the current lease at once is the model's choice (log entry 64). -/
def Obligations.LeaseResults : Prop :=
  (∀ (f : Fields) (s : State) (n : Nat), Ready (.lease f) s → n = (if f.imm = 0 then (curStream s).sys.leaseLen.toNat else f.imm.toNat) →
    (isSplit s = false → exec (.lease f) s = .next s) ∧
    (isSplit s = true → leasePending (preCore s) s.cur.stream = true → exec (.lease f) s = .next (faultAt .lease 0 s)) ∧
    (isSplit s = true → leasePending (preCore s) s.cur.stream = false →
      ((∀ l, (curCore s).lease = some l → l.holder ≠ s.cur.stream) →
        ∃ t, exec (.lease f) s = .next t ∧ OnlyStream s t fun x => { x with leaseReq := some f.imm.toNat }) ∧
      ∀ l, (curCore s).lease = some l → l.holder = s.cur.stream →
        ∃ t, exec (.lease f) s = .next t ∧ OnlyCore s t fun k =>
          if n ≤ l.used then Claims.leaseEnds s.cur.stream k else { k with lease := some { l with len := n, explicit := true } })) ∧
  (∀ (f : Fields) (s : State), Ready (.lrel f) s →
    (isSplit s = false ∨ (∀ l, (preCore s).lease = some l → l.holder ≠ s.cur.stream) → exec (.lrel f) s = .next s) ∧
    ∀ l, isSplit s = true → (preCore s).lease = some l → l.holder = s.cur.stream → (curCore s).lease = some l →
      ((queuedCmds (preStream s).qmtx).isEmpty = true → ∃ t, exec (.lrel f) s = .next t ∧
        OnlyCore s t (Claims.leaseEnds s.cur.stream)) ∧
      ((queuedCmds (preStream s).qmtx).isEmpty = false → ∃ t, exec (.lrel f) s = .next t ∧
        OnlyStream s t fun x => { x with lrel := some (preCore s).nextAge }))

/-! ### Faults (R33, R60, R75 to R79) -/

/-- R75, R78: a precise fault undoes its bundle and writes the fault registers; delegated, with a handler and INH = 0, it sets INH and goes to TRAP_VEC; otherwise it suspends the stream, and of memory only the record at FAULTBUF and an event change. -/
def Claims.FaultEntry : Prop :=
  ∀ (cause : Cause) (eaddr epc : Word) (isw : Nat) (s t : State) (y z : SysRegs), isw < 2 ^ 16 → t = takeFault cause eaddr isw epc s →
    y = (preStream s).sys →
    z = { y with cause := BitVec.ofNat 9 (causeCode cause), epc := epc, ecmd := 0, eeng := BitVec.ofNat 64 (256 * s.cur.stream),
                 estat := BitVec.ofNat 64 (2 ^ 32 * isw), eaddr := eaddr } →
    (y.deleg.getLsbD (causeCode cause) = true ∧ cause ∉ [.fetchFault, .translation, .frontier, .residency] ∧ y.trapVec ≠ 0 ∧ y.inh = false →
      OnlyStream { s with dev := s.pre, status := .faulted } t fun x =>
        { x with sys := { z with inh := true }, pc := y.trapVec, delay := none, link := none, waitAxis := [], wait := none }) ∧
    (¬ (y.deleg.getLsbD (causeCode cause) = true ∧ cause ∉ [.fetchFault, .translation, .frontier, .residency] ∧ y.trapVec ≠ 0 ∧ y.inh = false) →
      curStream t = { preStream s with sys := z, pc := epc, delay := none, suspended := true, slink := none, wait := none } ∧
      (∀ c i, (c, i) ≠ (s.cur.core, s.cur.stream) → getStream t.dev c i = getStream s.pre c i) ∧
      (∀ c u x, scalarIn t.dev c u x = scalarIn s.pre c u x ∧ addressIn t.dev c u x = addressIn s.pre c u x) ∧
      (∀ c off, spmByte t.dev c off = spmByte s.pre c off) ∧
      ∀ pa r e, r = s.pre.ctl.faultBuf.toNat + 256 * (4 * s.cur.core + s.cur.stream) →
        e = s.pre.ctl.evtBase.toNat + 32 * (s.pre.ctl.evtHead.toNat % 2 ^ s.pre.ctl.evtLog2n) →
        (pa < r ∨ r + 256 ≤ pa) → (s.pre.ctl.evtLog2n = 0 ∨ pa < e ∨ e + 32 ≤ pa) → homeByte t.dev pa = homeByte s.pre pa)

/-- Table 4.7: the codes of the causes. -/
def Claims.CauseCodes : Prop :=
  ∀ c : Cause, (c, causeCode c) ∈
    [(.illegalEncoding, 1), (.illegalInstruction, 2), (.fetchFault, 3), (.fetchEcc, 4), (.stackFault, 5), (.align, 6), (.translation, 7), (.permission, 8),
     (.scope, 9), (.tokenCeiling, 10), (.address, 11), (.queueCfg, 12), (.lease, 13), (.boundTrap, 14), (.formatTable, 15), (.poison, 16), (.kvRange, 17),
     (.ruleFault, 18), (.splitJoin, 19), (.divide, 20), (.trap, 21), (.watchFull, 22), (.syncWord, 23), (.frontier, 24), (.residency, 25)]

/-- R75, R76, R78, Table 4.7: taking a fault, and the code of each cause. -/
def Obligations.TakingAFault : Prop :=
  Claims.FaultEntry ∧ Claims.CauseCodes

/-- R79: the return from the handler clears INH and goes to EPC. A faulted command of an engine resumes at
its step, after BOUND_TRAP at the next, and no longer holds its queue stopped (R76, R281); discarded, it leaves the core. -/
def Obligations.FaultReturn : Prop :=
  ∀ (d e : Dev) (c i : Nat) (discard : Bool) (x : Stream), e = returnFromFault d c i discard → x = getStream d c i →
    (x.sys.cause.getLsbD 8 = false ∨ x.link = none → ∀ s, s = { State.reset with dev := d, cur := { core := c, stream := i } } →
      OnlyStream s { s with dev := e } fun x =>
        { x with sys := { x.sys with inh := false }, pc := x.sys.epc, delay := none, link := none }) ∧
    (∀ age r g, x.sys.cause.getLsbD 8 = true → x.link = some age → findRun (getCore d c) age = some r → r.stopped = some g →
      (getStream e c i).pc = x.sys.epc ∧ (getStream e c i).sys = { x.sys with inh := false } ∧
      (∀ q, (getQueue (getStream e c i) q).stopped = (getQueue x q).stopped.erase age) ∧
      (discard = true → findRun (getCore e c) age = none) ∧
      (discard = false → findRun (getCore e c) age =
        some { r with stopped := none, held := false, resumed := true, step := if g.cause = .boundTrap then g.step + 1 else g.step }))

/-! ### Standing rules (14_standing_rules.md) -/

/-- R287, R295: OAXDEF unbinds x(D) for an address of 0; otherwise it binds x(D) to the descriptor, a local axis with N = 0, a global one with N and CLOSED
from its commit word and a commit watch on it. A register that a live rule names is not changed. That the commit word is translated with read
permission here is the model's choice (log entry 58), and so is the entry of the watch, the lowest free one before the earlier is released (log entry 100).
A local retire word in another slot's persistent region raises PERMISSION (R327, log entry 147). -/
def Obligations.AxisDefinition : Prop :=
  ∀ (f : Fields) (s : State) (x : Nat) (ea : Word), Ready (.oaxdef f) s → x = f.d.toNat → ea = srcA s f.s1 →
    (ea = 0 → (∃ p ∈ (curCore s).rules, p.2.axis = x) → exec (.oaxdef f) s = .next (takeFault .ruleFault 0 3 s.cur.pc s)) ∧
    (ea = 0 → (∀ p ∈ (curCore s).rules, p.2.axis ≠ x) → ∃ t, exec (.oaxdef f) s = .next t ∧ findAxis (curCore t) x = none ∧
      (∀ y, y ≠ x → findAxis (curCore t) y = findAxis (curCore s) y) ∧
      (∀ a h, findAxis (curCore s) x = some a → a.watch = some h → Sparse.find? t.dev.watches h = none) ∧
      (∀ c u r, scalarIn t.dev c u r = scalarIn s.dev c u r ∧ addressIn t.dev c u r = addressIn s.dev c u r) ∧
      ∀ pa, homeByte t.dev pa = homeByte s.dev pa) ∧
    ∀ (c off v : Nat) (own : Bool), ea ≠ 0 → checkDescriptor s ea = .go (.spm c off own) → v = spmNat s.dev c off 64 →
      ((∃ p ∈ (curCore s).rules, p.2.axis = x) → exec (.oaxdef f) s = .next (takeFault .ruleFault 0 3 s.cur.pc s)) ∧
      ((∀ p ∈ (curCore s).rules, p.2.axis ≠ x) → ∀ a, a = readDescriptor v →
        (descriptorOk v a = false → exec (.oaxdef f) s = .next (takeFault .ruleFault 0 5 s.cur.pc s)) ∧
        (∀ w, descriptorOk v a = true → descriptorSpace a = some w → exec (.oaxdef f) s = .next (faultAt .address w s)) ∧
        (descriptorOk v a = true → descriptorSpace a = none → a.scope = 6 → (preCore s).scopeSys = false →
          exec (.oaxdef f) s = .next (faultAt .scope 0 s)) ∧
        (∀ b, descriptorOk v a = true → descriptorSpace a = none → a.scope ≠ 6 ∨ (preCore s).scopeSys = true →
          b = decide (tagOf a.retire = 8 ∧ foreignRegion s.dev s.cur.core (a.retire.toNat % 2 ^ 22) 8 = true) →
          (b = true → exec (.oaxdef f) s = .next (faultAt .permission a.retire s)) ∧ (b = false →
          (a.isLocal = true → ∃ t, exec (.oaxdef f) s = .next t ∧
            findAxis (curCore t) x = some { a with n := 0, closed := false, retired := 0, watch := none }) ∧
          (∀ e h, a.isLocal = false → translateFor s.dev s.cur.core (a.commit.toNat % 2 ^ 60) .read = .ok e →
            region (physical e (a.commit.toNat % 2 ^ 60)) ≠ 3 → freeWatch s.dev (homeSlice s.dev (physical e (a.commit.toNat % 2 ^ 60))) = some h →
            ∃ t w n, exec (.oaxdef f) s = .next t ∧ n = memNat s.dev (physical e (a.commit.toNat % 2 ^ 60)) 8 ∧
              findAxis (curCore t) x = some { a with n := n % 2 ^ 63, closed := n.testBit 63, retired := n % 2 ^ 63, watch := some h } ∧
              Sparse.find? t.dev.watches h = some w ∧ w.owner = .axis s.cur.core x ∧ w.pa = physical e (a.commit.toNat % 2 ^ 60)))))

/-- R293, R296 to R298: INSTALL sets up rule k, ACTIVE from slice N of its bound axis on, with the registers of its body as they stand; an unbound axis or
a rule that is not FREE raises RULE_FAULT. -/
def Obligations.RuleInstallation : Prop :=
  ∀ (f : Fields) (s : State) (body : Instr) (o : EngineOp) (g : Fields) (n : Nat), Ready (.install f) s → s.cur.body = some body →
    legalBody (isSplit s) f.s1.toNat body = true → engineOf body = some (o, g) → n = (f.imm.extractLsb' 0 6).toNat →
    (findAxis (curCore s) f.s1.toNat = none → exec (.install f) s = .next (takeFault .ruleFault 0 2 s.cur.pc s)) ∧
    ∀ a, findAxis (curCore s) f.s1.toNat = some a →
      (findRule (curCore s) n ≠ none → exec (.install f) s = .next (takeFault .ruleFault 0 1 s.cur.pc s)) ∧
      (findRule (curCore s) n = none → ∃ t, exec (.install f) s = .next t ∧ (curCore t).installSeq = (curCore s).installSeq + 1 ∧
        (∀ c u r, scalarIn t.dev c u r = scalarIn s.dev c u r ∧ addressIn t.dev c u r = addressIn s.dev c u r) ∧
        ∀ h, h = (if a.closed then a.n else 2 ^ 64 - 1) → a.n < h → ∃ r, findRule (curCore t) n = some r ∧
          r.op = o ∧ r.f = g ∧ r.regD = (captureRegs s o g).regD ∧ r.regS1 = (captureRegs s o g).regS1 ∧ r.regS2 = (captureRegs s o g).regS2 ∧
          r.regS3 = (captureRegs s o g).regS3 ∧ r.axis = f.s1.toNat ∧ r.owner = s.cur.stream ∧
          r.rank = (if f.fn = 1 then (f.imm.extractLsb' 8 8).toNat else 255) ∧ r.seq = (curCore s).installSeq ∧ r.first = a.n ∧ r.next = a.n ∧
          r.horizon = h ∧ r.state = .active)

/-- R303 to R306: REVOKE, RSUSP, RRESUME and RSTAT of rule k. Each does nothing to a FREE rule, which RSTAT reads as 0. -/
def Obligations.RuleControl : Prop :=
  ∀ (f : Fields) (s : State) (n : Nat), n = (f.imm.extractLsb' 0 6).toNat →
    (findRule (curCore s) n = none → (Ready (.revoke f) s → exec (.revoke f) s = .next s) ∧ (Ready (.rresume f) s → exec (.rresume f) s = .next s) ∧
      (Ready (.rsusp f) s → ∃ t, exec (.rsusp f) s = .next t ∧ OnlyCore s t id)) ∧
    (findRule (preCore s) n = none → Ready (.rstat f) s → ∃ t, exec (.rstat f) s = .next t ∧ OnlyScalar s t f.d 0) ∧
    (∀ r, findRule (preCore s) n = some r → Ready (.rstat f) s → ∃ t, exec (.rstat f) s = .next t ∧ OnlyScalar s t f.d (BitVec.ofNat 64
      (if f.fn = 0 then r.cause * 2 ^ 56 + r.rank * 2 ^ 24 + r.axis * 2 ^ 8 + r.owner * 2 ^ 6 + (if r.held then 8 else 0) + (if r.state = .active then 1 else 2)
       else if f.fn = 1 then r.next else if f.fn = 2 then r.horizon else if f.fn = 3 then r.eaddr.toNat else r.estat.toNat))) ∧
    ∀ r, findRule (curCore s) n = some r →
      (Ready (.rsusp f) s → ∃ t, exec (.rsusp f) s = .next t ∧
        OnlyCore s t fun k => if r.state = .active then setRule k n { r with state := .suspended, held := false } else k) ∧
      (∀ h, Ready (.revoke f) s → h = min r.horizon (if f.fn = 1 then (f.imm.extractLsb' 8 24).toNat else (srcS s f.s1).toNat) →
        ∃ t, exec (.revoke f) s = .next t ∧
          (r.held = false ∨ r.state = .active ∨ r.next < h → findRule (curCore t) n =
            if r.next < h ∨ hasFirings (curCore s) n = true then some { r with horizon := h } else none) ∧
          (r.held = true → r.state = .suspended → h ≤ r.next →
            ∀ v ∈ (curCore t).running, ¬ (v.held = true ∧ v.cmd.firing = some (n, r.next)))) ∧
      (r.state = .active → Ready (.rresume f) s → exec (.rresume f) s = .next s) ∧
      (∀ y, r.state = .suspended → Ready (.rresume f) s →
        y = { r with state := .active, enqFail := false, held := false,
                     next := if r.held = true ∨ (f.fn = 1 ∧ r.enqFail = true) then r.next + 1 else r.next } →
        ∃ t, exec (.rresume f) s = .next t ∧ (y.next < y.horizon → findRule (curCore t) n = some y) ∧
          (r.held = true → f.fn = 1 → ∀ v ∈ (curCore t).running, ¬ (v.held = true ∧ v.cmd.firing = some (n, r.next))) ∧
          (r.held = true → f.fn = 0 → ∀ v ∈ (curCore s).running, v.held = true → v.cmd.firing = some (n, r.next) → resumeRun v ∈ (curCore t).running))

/-- R290, R299, R302: SLCOMMIT raises N of a local axis, or adds to the commit word of a global one after its publish, which a poisoned commit word leaves
made (log entry 99); that SLCOMMIT answers at once, and the stream's next bundle waits for the firings, is log entry 59's; SLWAIT goes on once the retire count
has reached its operand. -/
def Obligations.SliceCommits : Prop :=
  ∀ (f : Fields) (s : State) (x : Nat), x = f.s1.toNat →
    (Ready (.slcommit f) s → ∀ n, n = (if f.fn.getLsbD 0 then (srcS s f.s2).toNat else f.imm.toNat) →
      (findAxis (curCore s) x = none → exec (.slcommit f) s = .next (takeFault .ruleFault 0 2 s.cur.pc s)) ∧
      ∀ a, findAxis (curCore s) x = some a →
        (a.closed = true ∨ 2 ^ 63 ≤ a.n + n → exec (.slcommit f) s = .next (takeFault .ruleFault 0 4 s.cur.pc s)) ∧
        (a.closed = false → a.n + n < 2 ^ 63 →
          (a.isLocal = true → ∃ t b, exec (.slcommit f) s = .next t ∧ findAxis (curCore t) x = some b ∧
            b = { a with n := a.n + n, closed := f.fn.getLsbD 1, retired := b.retired } ∧
            (curStream t).waitAxis = (curStream s).waitAxis ++ [(x, a.n + n)] ∧
            (∀ c u r, scalarIn t.dev c u r = scalarIn s.dev c u r ∧ addressIn t.dev c u r = addressIn s.dev c u r) ∧ (curCore t).l1dirty = []) ∧
          (∀ va, a.isLocal = false → va = a.commit.toNat % 2 ^ 60 →
            (∀ e pa, translateFor s.dev s.cur.core va .write = .ok e → pa = physical e va → region pa ≠ 3 →
              (homePoisoned (commitPrepare s.dev s.cur.core a pa) pa 8 = true → ∀ m, m = publish s.pre s.cur.core a.scope →
                exec (.slcommit f) s = .next (faultAt .poison a.commit { s with pre := m })) ∧
              (homePoisoned (commitPrepare s.dev s.cur.core a pa) pa 8 = false → ∃ t, exec (.slcommit f) s = .next t ∧
                memNat t.dev pa 8 =
                  (memNat (publish s.dev s.cur.core a.scope) pa 8 + n + (if f.fn.getLsbD 1 then 2 ^ 63 else 0)) % 2 ^ 64 ∧
                (∀ c u r, scalarIn t.dev c u r = scalarIn s.dev c u r ∧ addressIn t.dev c u r = addressIn s.dev c u r) ∧ (curCore t).l1dirty = [])) ∧
            (∀ e, translateFor s.dev s.cur.core va .write = .error e → exec (.slcommit f) s = .next (faultAt e a.commit s))))) ∧
    (Ready (.slwait f) s → ∀ n, n = (if f.fn = 1 then (srcS s f.s2).toNat else f.imm.toNat) →
      (findAxis (preCore s) x = none → exec (.slwait f) s = .next (takeFault .ruleFault 0 2 s.cur.pc s)) ∧
      ∀ a, findAxis (preCore s) x = some a →
        (n ≤ a.retired → exec (.slwait f) s = .next s) ∧ (a.retired < n → exec (.slwait f) s = .next (stall s)))

/-! ### Launches (15_frontier_dispatch.md) -/

/-- R314, R315, R336: LAUNCH publishes and admits its record under the lowest free number of the home die, and returns the handle; with no entry or no
quota left it returns 0. A refused record raises its fault with nothing admitted. R315 names the table of the home die; that the entry is its lowest
free one is the model's choice (log entry 91). -/
def Obligations.LaunchSubmission : Prop :=
  ∀ (f : Fields) (s : State) (ea dep : Word) (c off : Nat) (own : Bool) (r : BitVec 1024) (k : Core), Ready (.launch f) s → ea = srcA s f.s1 →
    dep = srcS s f.s2 → k = preCore s → checkRecord s ea = .go (.spm c off own) → r = BitVec.ofNat 1024 (spmNat s.dev c off 128) →
    (∀ cause isw, recordFault s.dev k.tenant k.scopeSys r = some (cause, isw) → exec (.launch f) s = .next (takeFault cause ea isw s.cur.pc s)) ∧
    (recordFault s.dev k.tenant k.scopeSys r = none →
      (∀ l, dep ≠ 0 → liveSerial s.dev dep = some l → l.tenant ≠ k.tenant → exec (.launch f) s = .next (faultAt .permission ea s)) ∧
      ((dep = 0 ∨ ∀ l, liveSerial s.dev dep = some l → l.tenant = k.tenant) → ∀ m, m = publish s.dev s.cur.core (effectiveScope r) →
        (canAdmit s.dev k.tenant r = false → ∃ t, exec (.launch f) s = .next t ∧ OnlyScalar { s with dev := m } t f.d 0) ∧
        (canAdmit s.dev k.tenant r = true → ∃ t l n, exec (.launch f) s = .next t ∧
          OnlyScalar { s with dev := { m with launches := Sparse.insert m.launches n l, serial := (s.dev.serial + 1) % 2 ^ 56 } } t f.d
            (BitVec.ofNat 64 (s.dev.serial * 256 + n)) ∧
          n / 64 = homeDie (recBays r) ∧ getLaunch s.dev n = none ∧ (∀ j, 64 * (n / 64) ≤ j → j < n → getLaunch s.dev j ≠ none) ∧
          l.serial = s.dev.serial ∧ l.tenant = k.tenant ∧ l.nrec = r ∧ l.prio = max (recPrio r) (issuerPrio s) ∧ l.scope = effectiveScope r ∧
          l.deps = (if dep = 0 then [] else [dep]) ∧ l.released = decide (recRlen r = false ∨ recRelease r ≤ s.dev.tick.toNat) ∧
          l.slipped = decide (recDlen r = true ∧ recDeadline r ≤ s.dev.tick.toNat) ∧ l.since = s.dev.tick.toNat ∧ l.w0 = 0 ∧ l.w1 = 0 ∧ l.rows = [] ∧ l.held = [])))

/-- R337, R338: FRREAD returns what its selector names of a live launch of the tenant, 0 for a handle that is not live, and PERMISSION for another
tenant's; PTINFO returns a value of the issuing point's launch. Table 15.10 gives its states no precedence: that saved comes before pre-empting, running,
locked and waiting is the model's choice (log entry 58). -/
def Obligations.LaunchReads : Prop :=
  ∀ (f : Fields) (s : State) (sel row : Nat), sel = (f.fn.extractLsb' 0 3).toNat → row = (srcS s f.s2).toNat →
    (∀ h, Ready (.frread f) s → h = (srcS s f.s1).toNat →
      ((∀ l, getLaunch s.dev (h % 256) = some l → l.serial ≠ h / 256) → ∃ t, exec (.frread f) s = .next t ∧ OnlyScalar s t f.d 0) ∧
      ∀ l, getLaunch s.dev (h % 256) = some l → l.serial = h / 256 →
        (l.tenant ≠ (preCore s).tenant → exec (.frread f) s = .next (faultAt .permission 0 s)) ∧
        (l.tenant = (preCore s).tenant → ∃ t v, exec (.frread f) s = .next t ∧ OnlyScalar s t f.d (BitVec.ofNat 64 v) ∧
          (sel = 0 → v = min (inFlight l) 0xFFFF * 2 ^ 16 + l.prio * 2 ^ 6 + launchClass s.dev l * 2 ^ 4 + (if l.slipped then 8 else 0) +
            (if l.saved then 5 else if l.preempt.isSome then 4 else if inFlight l ≠ 0 then 2 else if launchLocked s.dev l then 3 else 1)) ∧
          (sel = 1 → v = l.w0) ∧ (sel = 2 → v = l.w1) ∧
          (sel = 3 → v = if row < l.w0 then recEn l.nrec else if row < l.w1 then (rowOf l row).c else 0) ∧
          (sel = 4 → v = if l.w0 ≤ row ∧ row < l.w1 then (rowOf l row).a.toNat else 0) ∧
          (sel = 5 → v = donePoints l) ∧ (sel = 6 → v = l.held.length))) ∧
    (Ready (.ptinfo f) s →
      (∃ t v, exec (.ptinfo f) s = .next t ∧ OnlyScalar s t f.d v) ∧
      ∀ p l, (preStream s).point = some p → getLaunch s.dev p.launch = some l → l.serial = p.serial → ∀ v : Word, (sel, v) ∈
          ([(0, BitVec.ofNat 64 (recEn l.nrec)), (1, BitVec.ofNat 64 (recEm l.nrec)), (2, BitVec.ofNat 64 (recEo l.nrec)),
           (3, BitVec.ofNat 64 (p.serial * 256 + p.launch)), (4, if recRlen l.nrec then BitVec.ofNat 64 (recRelease l.nrec) else 0),
           (5, if recDlen l.nrec then BitVec.ofNat 64 (recDeadline l.nrec) else BitVec.allOnes 64), (6, p.tick),
           (7, BitVec.ofNat 64 l.scope)] : List (Nat × Word)) →
        ∃ t, exec (.ptinfo f) s = .next t ∧ OnlyScalar s t f.d v)

/-! ### Engine commands at issue (01_engines.md, 08 to 11) -/

/-- R185, R250, R252: VSETL sets VL and s(D); NSET writes one level of the copy nest, NCLR all six. -/
def Obligations.VectorLengthAndNest : Prop :=
  (∀ (f : Fields) (s : State) (n : Nat), Ready (.vsetl f) s →
    n = min (if f.fn.getLsbD 5 then f.imm.toNat else (srcS s f.s1).toNat)
          (if f.fn.getLsbD 4 then 65536 / tyWidth (tyOfCode (f.fn.extractLsb' 0 4).toNat) else 16384) →
    ∃ m t, exec (.vsetl f) s = .next t ∧ OnlyStream s m (fun x => { x with sys := { x.sys with vl := BitVec.ofNat 32 n } }) ∧
      OnlyScalar m t f.d (BitVec.ofNat 64 n)) ∧
  (∀ (f : Fields) (s : State), Ready (.nset f) s →
    ∃ t, exec (.nset f) s = .next t ∧ OnlyStream s t fun x =>
      { x with nest := x.nest.set (f.imm.extractLsb' 0 3).toNat { count := (srcS s f.s1).setWidth 32, ss := srcS s f.s2, ds := srcS s f.s3 } }) ∧
  (∀ (f : Fields) (s : State), Ready (.nclr f) s →
    ∃ t, exec (.nclr f) s = .next t ∧ OnlyStream s t fun x => { x with nest := List.replicate 6 { count := 1, ss := 0, ds := 0 } })

/-- R15, R19, R25, R53, R72, R182, R251: every engine command, that is every instruction to which engineOf gives an operation (the vector commands VADD to
BWR, the matrix commands MMA to ABOUND, the copy and KV commands CPY to KVRANK), passes its enqueue checks and enters the tail of its own queue, with its
age, command index and what it captures. Of the scratchpad only the 32 bytes of its queue entry change; no register, no engine state, no byte of memory does. -/
def Claims.EngineCommandsEnqueue : Prop :=
  ∀ (i : Instr) (o : EngineOp) (f : Fields) (s : State) (x : Cmd) (r : Ranges) (q : QueueId), engineOf i = some (o, f) → Ready i s → q = queueOf o →
    x = captureCmd s o f → commandRanges s.dev s.cur.core x = .ok r → queueFull (getQueue (curStream s) q) = false → checkerFull (curCore s) = false →
    ∃ t y, exec i s = .next t ∧ OnlyCores { s with dev := { s.dev with fresh := t.dev.fresh } } t ∧
      (∀ c, c ≠ s.cur.core → getCore t.dev c = getCore s.dev c) ∧
      curCore t = { curCore s with streams := (curCore t).streams, nextAge := (curCore s).nextAge + 1, spm := (curCore t).spm,
                                   poisonSpm := (curCore t).poisonSpm } ∧
      (∀ j, j ≠ s.cur.stream → coreStream (curCore t) j = coreStream (curCore s) j) ∧
      curStream t = { setQueue (curStream s) q { getQueue (curStream s) q with
        tail := (getQueue (curStream s) q).tail + 1, entries := (getQueue (curStream s) q).entries ++ [.cmd y] } with
        cmdIndex := (curStream s).cmdIndex + 1 } ∧
      y = { x with age := (curCore s).nextAge, index := (curStream s).cmdIndex, gen := (curStream s).sys.gen, stream := s.cur.stream,
                   split := (curCore s).split, reads := r.reads, writes := r.writes } ∧
      x.vl = (preStream s).sys.vl.toNat ∧ x.vcnt = (preStream s).sys.vcnt.toNat ∧ x.frm = (preStream s).sys.frm ∧ x.nest = (preStream s).nest ∧
      ∀ b, (getQueue (curStream s) q).bound = some b → ∀ a, a < b.base + 32 * ((getQueue (curStream s) q).tail % b.depth) ∨
          b.base + 32 * ((getQueue (curStream s) q).tail % b.depth) + 32 ≤ a → spmByte t.dev s.cur.core a = spmByte s.dev s.cur.core a

/-- R15, R17, R20, R75: a command that fails an enqueue check raises its fault and enqueues nothing; a full queue or a full range checker stalls it. An
unbound queue refuses every command (log entry 60). -/
def Claims.EngineCommandsRefused : Prop :=
  ∀ (i : Instr) (o : EngineOp) (f : Fields) (s : State) (x : Cmd), engineOf i = some (o, f) → Ready i s → x = captureCmd s o f →
    (∀ c a, commandRanges s.dev s.cur.core x = .error (c, a) → exec i s = .next (faultAt c a s)) ∧
    ((getQueue (curStream s) (queueOf o)).bound = none →
      ∃ c a, commandRanges s.dev s.cur.core x = .error (c, a)) ∧
    (∀ r, commandRanges s.dev s.cur.core x = .ok r →
      queueFull (getQueue (curStream s) (queueOf o)) = true ∨ checkerFull (curCore s) = true → exec i s = .next (stall s))

/-- R189, R222, R256, R327, R344, Table 8.7: the enqueue checks of a VLD, of an MMA (in I32, dense and without planes) and of a CPY (without a plane)
whose operands lie in their own scratchpad, one after the other, and what the range checker then records; a VLD from a peer's bound queue region is refused too (R18, log
entry 115). All checks of A come before those of B (log entry 119), the sync word's side before the extents (log entry 61), a queue that is not bound
(log entry 60) or lies in another slot's persistent region (R327, log entry 146) last; the region of a copy's sync word is tested before them (log
entry 147). A type field that names no type counts as 32 bits wide (log entry 12). -/
def Claims.EnqueueChecks : Prop :=
  (∀ (f : Fields) (s : State) (x : Cmd) (off w n b : Nat), Ready (.vld f) s → x = captureCmd s (.vec .vld) f → f.fn.getLsbD 5 = false →
    LocalAddress (srcA s f.s1) off → w = tyWidth (typeOfField (f.fn.extractLsb' 0 4) (x.ftval.extractLsb' 0 4)) → n = min x.vl (65536 / w) →
    b = (n * w + 7) / 8 →
    commandRanges s.dev s.cur.core x =
      if ∃ t ∈ tokenNames f, (curCore s).tquota ≤ t then .error (.permission, 0)
      else if 2 ^ 22 < off + b then .error (.address, srcA s f.s1)
      else if off % 4 ≠ 0 then .error (.align, srcA s f.s1)
      else if b ≠ 0 ∧ touchesQueue (curCore s) off b then .error (.queueCfg, srcA s f.s1)
      else if b ≠ 0 ∧ foreignRegion s.dev s.cur.core off b then .error (.permission, srcA s f.s1)
      else if (curStream s).qvec.bound = none then .error (.queueCfg, 0)
      else if ∃ b, (curStream s).qvec.bound = some b ∧ foreignRegion s.dev s.cur.core b.base (32 * b.depth) = true then .error (.permission, 0)
      else .ok { reads := if b = 0 then [] else [(off, off + b - 1)] }) ∧
  (∀ (f : Fields) (s : State) (x : Cmd) (c off w n b : Nat), Ready (.vld f) s → x = captureCmd s (.vec .vld) f → f.fn.getLsbD 5 = false →
    cmdPlace s.dev s.cur.core x (srcA s f.s1) = some (.spm c off false) →
    w = tyWidth (typeOfField (f.fn.extractLsb' 0 4) (x.ftval.extractLsb' 0 4)) → n = min x.vl (65536 / w) → b = (n * w + 7) / 8 → 0 < b →
    off + b ≤ 2 ^ 22 → off % 4 = 0 → (∀ t ∈ tokenNames f, t < (curCore s).tquota) → touchesQueue (getCore s.dev c) off b = true →
    commandRanges s.dev s.cur.core x = .error (.queueCfg, srcA s f.s1)) ∧
  (∀ (f : Fields) (s : State) (x : Cmd) (a b k na nb : Nat), Ready (.mma f) s → x = captureCmd s (.mat .mma) f → matPrecOf (f.fn.extractLsb' 4 2).toNat = .i32 →
    f.fn.getLsbD 3 = false → (srcS s f.s3).getLsbD 63 = false → (srcS s f.s3).getLsbD 62 = false →
    LocalAddress (srcA s f.s1) a → LocalAddress (srcA s f.s2) b → k = (srcS s f.s3).toNat % 2 ^ 32 →
    na = (k + 31) / 32 * (1024 * tyWidth (typeOfField (f.imm.extractLsb' 28 4) (x.ftval.extractLsb' 0 4))) →
    nb = (k + 31) / 32 * (512 * tyWidth (typeOfField (f.imm.extractLsb' 24 4) (x.ftval.extractLsb' 4 4))) →
    commandRanges s.dev s.cur.core x =
      if ∃ t ∈ tokenNames f, (curCore s).tquota ≤ t then .error (.permission, 0)
      else if (srcS s f.s3).extractLsb' 32 30 ≠ 0 ∨ 0x1000000 < k then .error (.illegalInstruction, 0)
      else if 2 ^ 22 < a + na then .error (.address, srcA s f.s1)
      else if a % 64 ≠ 0 then .error (.align, srcA s f.s1)
      else if k ≠ 0 ∧ touchesQueue (curCore s) a na then .error (.queueCfg, srcA s f.s1)
      else if k ≠ 0 ∧ foreignRegion s.dev s.cur.core a na then .error (.permission, srcA s f.s1)
      else if 2 ^ 22 < b + nb then .error (.address, srcA s f.s2)
      else if b % 64 ≠ 0 then .error (.align, srcA s f.s2)
      else if k ≠ 0 ∧ touchesQueue (curCore s) b nb then .error (.queueCfg, srcA s f.s2)
      else if k ≠ 0 ∧ foreignRegion s.dev s.cur.core b nb then .error (.permission, srcA s f.s2)
      else if (curStream s).qmtx.bound = none then .error (.queueCfg, 0)
      else if ∃ b, (curStream s).qmtx.bound = some b ∧ foreignRegion s.dev s.cur.core b.base (32 * b.depth) = true then .error (.permission, 0)
      else .ok { reads := if k = 0 then [] else [(a, a + na - 1), (b, b + nb - 1)] }) ∧
  (∀ (f : Fields) (s : State) (x : Cmd) (n src dst : Nat) (zero syncOwn : Bool) (l : List NestLevel) (slo shi dlo dhi : Int),
    Ready (.cpy f) s → x = captureCmd s (.cpy .cpy) f → f.imm.getLsbD 31 = false → LocalAddress (srcA s f.s1) src → LocalAddress (srcA s f.d) dst →
    n = (srcS s f.s2).toNat % 2 ^ 23 → l = (preStream s).nest → zero = decide (n = 0 ∨ ∃ v ∈ l, v.count = 0) →
    (syncOwn = true ↔ ∃ off own, cmdPlace s.dev s.cur.core x (srcA s f.s3) = some (.spm s.cur.core off own)) →
    slo = src + nestLow l (·.ss) → shi = src + nestHigh l (·.ss) + n → dlo = dst + nestLow l (·.ds) → dhi = dst + nestHigh l (·.ds) + n →
    commandRanges s.dev s.cur.core x =
      if ∃ t ∈ tokenNames f, (curCore s).tquota ≤ t then .error (.permission, 0)
      else if 2 ^ 22 < n ∨ 2 ^ 23 ≤ (srcS s f.s2).toNat ∨ 2 ^ 32 < (l.map fun v => v.count.toNat).prod then .error (.illegalInstruction, 0)
      else if f.fn.getLsbD 0 ∧ ¬ syncOwn then .error (.address, srcA s f.s3)
      else if ¬ zero ∧ (slo < 0 ∨ 2 ^ 22 < shi) then .error (.address, srcA s f.s1)
      else if ¬ zero ∧ (dlo < 0 ∨ 2 ^ 22 < dhi) then .error (.address, srcA s f.d)
      else if f.fn.getLsbD 0 ∧ (srcA s f.s3).toNat % 32 ≠ 0 then .error (.align, srcA s f.s3)
      else if f.imm.extractLsb' 27 3 = 6 ∧ ¬ (curCore s).scopeSys then .error (.scope, 0)
      else if ¬ zero ∧ touchesQueue (curCore s) slo.toNat (shi - slo).toNat then .error (.queueCfg, srcA s f.s1)
      else if ¬ zero ∧ foreignRegion s.dev s.cur.core slo.toNat (shi - slo).toNat then .error (.permission, srcA s f.s1)
      else if ¬ zero ∧ touchesQueue (curCore s) dlo.toNat (dhi - dlo).toNat then .error (.queueCfg, srcA s f.d)
      else if ¬ zero ∧ foreignRegion s.dev s.cur.core dlo.toNat (dhi - dlo).toNat then .error (.permission, srcA s f.d)
      else if f.fn.getLsbD 0 ∧ foreignRegion s.dev s.cur.core ((srcA s f.s3).toNat % 2 ^ 22) 32 then .error (.permission, srcA s f.s3)
      else if (curStream s).qcpy.bound = none then .error (.queueCfg, 0)
      else if ∃ b, (curStream s).qcpy.bound = some b ∧ foreignRegion s.dev s.cur.core b.base (32 * b.depth) = true then .error (.permission, 0)
      else .ok (if zero then {} else { reads := [(slo.toNat, shi.toNat - 1)], writes := [(dlo.toNat, dhi.toNat - 1)] }))

/-- R15, R17, R19, R20, R25, R53, R72, R75, R182, R189, R222, R251, R256: an engine command passes its checks and enters its queue, faults or stalls. -/
def Obligations.EngineCommands : Prop :=
  Claims.EngineCommandsEnqueue ∧ Claims.EngineCommandsRefused ∧ Claims.EnqueueChecks

/-! ### Events of a core's engines (01, 09, 11) -/

/-- R13, R17, R23, R24: COMMAND_START takes the startable head of a queue out of it, takes all its waits at once, and the engine runs it, unless an older
command or TWAIT waits for one of the same counters. -/
def Claims.CommandStarts : Prop :=
  ∀ (s : State) (c i : Nat) (q : QueueId) (k : Core) (x : Cmd), k = popFences (getCore s.dev c) i q → startable k i q = some x →
    turnAllows k i q = true → (∀ n ∈ waitFields x, ¬ Claims.olderWaiter (setCore s.dev c k) c x.age (x.age + 1) n) →
    ∃ t, exec (.commandStart c i q) s = .next t ∧ t = { s with dev := t.dev } ∧ (∀ e, e ≠ c → getCore t.dev e = getCore s.dev e) ∧
      (∀ n, (getToken (getCore t.dev c) n).count = (getToken (getCore s.dev c) n).count - BitVec.ofNat 16 (tokenNeed x n)) ∧
      (x.firing = none → (∀ pa, homeByte t.dev pa = homeByte s.dev pa) ∧
        (getQueue (getStream t.dev c i) q).entries = (getQueue (coreStream k i) q).entries.drop 1) ∧
      ∃ r ∈ (getCore t.dev c).running, r.cmd = x

/-- R23, R177: COMMAND_COMPLETION of a vector command, or of a matrix command without blocks left, leaves what the engine computes in the register files
and the accumulators, and the core holds the command no longer; of one that no rule or axis looks on, scratchpads and memory are as the engine leaves them
too. -/
def Claims.CommandCompletions : Prop :=
  ∀ (s : State) (c age : Nat) (r : Run) (out : EngOut), liveRun s.dev c age = some r → r.done = false → blocksLeft r = false → r.picked = true →
    ((∃ o, r.cmd.op = .vec o ∧ out = runVector s.dev c o r) ∨ ∃ o, r.cmd.op = .mat o ∧ out = runMatrix s.dev c o r) → out.fault = none →
    ∃ t, exec (.commandCompletion c age) s = .next t ∧ findRun (getCore t.dev c) age = none ∧
      (getCore t.dev c).vreg = (getCore out.dev c).vreg ∧ (getCore t.dev c).mask = (getCore out.dev c).mask ∧
      (getCore t.dev c).acc = (getCore out.dev c).acc ∧ (getCore t.dev c).bnd = (getCore out.dev c).bnd ∧
      (Working s.dev c age r → (∀ e a, spmByte t.dev e a = spmByte out.dev e a) ∧ ∀ pa, homeByte t.dev pa = homeByte out.dev pa)

/-- R136, R258: COPY_VISIBILITY of a completed copy whose bytes are all written ends it and makes its visibility post; no register changes, and of a command that
is no firing no byte at a home. -/
def Claims.CopyVisibility : Prop :=
  ∀ (s : State) (c age : Nat) (r : Run), findRun (getCore s.dev c) age = some r → r.done = true → r.stopped = none → copyWritten s.dev c r = true →
    ∃ t, exec (.copyVisibility c age) s = .next t ∧ findRun (getCore t.dev c) age = none ∧
      (r.cmd.firing = none → ∀ pa, homeByte t.dev pa = homeByte s.dev pa) ∧
      (∀ e u x, scalarIn t.dev e u x = scalarIn s.dev e u x ∧ addressIn t.dev e u x = addressIn s.dev e u x) ∧
      ∀ n, visibilityPost r.cmd = some n → (getToken (getCore s.dev c) n).count.toNat < (getToken (getCore s.dev c) n).ceiling.toNat →
        (getToken (getCore t.dev c) n).count = (getToken (getCore s.dev c) n).count + 1

/-- R221: K_BLOCK applies the next block of a product, COPY_PIECE moves the next piece of a copy. R257, R267: COPY_PIECE of a fill writes byte j of
the pattern at each offset j mod 8 of its piece, and nothing else of any scratchpad. -/
def Claims.BlocksAndPieces : Prop :=
  (∀ (s : State) (c age : Nat) (r : Run), liveRun s.dev c age = some r → blocksLeft r = true → arrayTurn (getCore s.dev c) r = true → r.picked = true →
    exec (.kBlock c age) s = .next { s with dev := productBlock s.dev c r }) ∧
  (∀ (s : State) (c age : Nat) (r : Run) (o : CpyOp), liveRun s.dev c age = some r → r.cmd.op = .cpy o → isKv o = false → r.done = false →
    piecesLeft r = true → exec (.copyPiece c age) s = .next { s with dev := movePiece s.dev c o r }) ∧
  (∀ (s : State) (c age off n p : Nat) (r : Run) (at_ : Int), liveRun s.dev c age = some r → r.cmd.op = .cpy .cpyf → r.done = false → piecesLeft r = true →
    sideOf s.dev c r.cmd r.cmd.regD = some (.spm c off true) → cpyW r.cmd = false → n = (pieceSpan r.cmd r.piece).2 →
    (p : Int) = (pieceSpan r.cmd r.piece).1 → at_ = (off : Int) + (nestOffset (dstLevels r.cmd) r.step none + p) → 0 ≤ at_ →
    ∃ t, exec (.copyPiece c age) s = .next t ∧ (∀ pa, homeByte t.dev pa = homeByte s.dev pa) ∧
      ∀ e (a : Nat), spmByte t.dev e a =
        if e = c ∧ at_ ≤ a ∧ (a : Int) < at_ + n then r.cmd.regS1.extractLsb' (8 * ((p + (a - at_.toNat)) % 8)) 8 else spmByte s.dev e a)

/-- R170, R171, R221: what a K_BLOCK adds, of dense operands in scratchpad without scales. In I32, to every word the exact sum of its 32 products, or of
those below K or VCNT, clamped; a bound cell becomes +inf where a word of it was. In A32, the exact sum of products of bf16, rounded once. Nothing else of accumulators and scratchpad changes. -/
def Claims.ProductBlocks : Prop :=
  ∀ (s : State) (c age a q kv ca cb offA offB : Nat) (r : Run) (k : Core) (ownA ownB : Bool), liveRun s.dev c age = some r → blocksLeft r = true →
    arrayTurn (getCore s.dev c) r = true → r.picked = true → k = getCore s.dev c → matNames r.cmd = some a → q = r.step → nibble k.bmode a % 4 = 0 →
    matSparse r.cmd = false → matPa r.cmd = false → matPb r.cmd = false →
    kv = (if r.cmd.f.fn.getLsbD 2 then min (matK r.cmd) r.cmd.vcnt else matK r.cmd) →
    cmdPlace s.dev c r.cmd r.cmd.regS1 = some (.spm ca offA ownA) → cmdPlace s.dev c r.cmd r.cmd.regS2 = some (.spm cb offB ownB) →
    Unpoisoned k → Unpoisoned (getCore s.dev ca) → Unpoisoned (getCore s.dev cb) →
    (matPrec r.cmd = .i32 → precOf k a = .i32 → r.tyA = .i8 → r.tyB = .i8 → ∀ sum : Nat → Nat → Int,
      (∀ i j, sum i j = (accWord k a i j).toInt + ∑ m ∈ Finset.range 32, if 32 * q + m < kv then
        (spmByte s.dev ca (offA + 8192 * q + 32 * i + m)).toInt * (spmByte s.dev cb (offB + 4096 * q + 32 * j + m)).toInt else 0) →
      ∃ t, exec (.kBlock c age) s = .next t ∧ (∀ e x, spmByte t.dev e x = spmByte s.dev e x) ∧
        (∀ i < 256, ∀ j < 128, accWord (getCore t.dev c) a i j = BitVec.ofInt 32 (max (-2 ^ 31) (min (2 ^ 31 - 1) (sum i j)))) ∧
        (∀ b ≠ a, ∀ i < 256, ∀ j < 128, accWord (getCore t.dev c) b i j = accWord k b i j) ∧
        (∀ n < 128, ((∃ i j, InCell n i j ∧ (sum i j < -2 ^ 31 ∨ 2 ^ 31 ≤ sum i j)) → bndCell (getCore t.dev c) a n = 0xFF00) ∧
          ((∀ i j, InCell n i j → -2 ^ 31 ≤ sum i j ∧ sum i j < 2 ^ 31) → bndCell (getCore t.dev c) a n = bndCell k a n)) ∧
        ∀ v, findRun (getCore t.dev c) age = some v → v.step = q + 1) ∧
    (matPrec r.cmd = .a32 → precOf k a = .a32 → r.tyA = .bf16 → r.tyB = .bf16 → ∀ (el : Nat → Nat → FVal) (val : FVal → ℚ) (sum : Nat → Nat → ℚ),
      (∀ o x, el o x = elemValue .bf16 (spmNumber s.dev o x 2)) → (∀ n m, val (.fin n m) = if n then -m else m) →
      (∀ i < 256, ∀ m < 32, fvalFinite (el ca (offA + 16384 * q + 64 * i + 2 * m)) = true) →
      (∀ j < 128, ∀ m < 32, fvalFinite (el cb (offB + 8192 * q + 64 * j + 2 * m)) = true) →
      (∀ i j, sum i j = ∑ m ∈ Finset.range 32, if 32 * q + m < kv then
        val (el ca (offA + 16384 * q + 64 * i + 2 * m)) * val (el cb (offB + 8192 * q + 64 * j + 2 * m)) else 0) →
      ∃ t, exec (.kBlock c age) s = .next t ∧ (∀ e x, spmByte t.dev e x = spmByte s.dev e x) ∧
        (∀ i < 256, ∀ j < 128, (accWord (getCore t.dev c) a i j).toNat =
          (finish .f32 r.cmd.frm (addExact r.cmd.frm (elemValue .f32 (accWord k a i j).toNat) (fvalOfRat (sum i j)))).bits) ∧
        (∀ b ≠ a, ∀ i < 256, ∀ j < 128, accWord (getCore t.dev c) b i j = accWord k b i j) ∧
        ∀ v, findRun (getCore t.dev c) age = some v → v.step = q + 1)

/-- R168, R170, R171, R211, R212, R224: further k-blocks, B in a scratchpad or, as for MMAS, in global memory: i8 in I32, dense and 2:4 sparse (both values
count where they share a position); i8 in A32, with scales; bf16 in A2x32, with lo: a remainder of zero is +0 (log entry 129). B is read in the
step that applies its block (log entry 139). -/
def Claims.ProductForms : Prop :=
  ∀ (s : State) (c age a q kv nb ca offA w : Nat) (r : Run) (k : Core) (own : Bool) (e : TlbEntry) (p : Place) (va vb : Nat → Nat → Int),
    liveRun s.dev c age = some r → blocksLeft r = true →
    arrayTurn (getCore s.dev c) r = true → r.picked = true → k = getCore s.dev c → matNames r.cmd = some a → q = r.step → nibble k.bmode a % 4 = 0 →
    matPa r.cmd = false → matPb r.cmd = false → nb = (matK r.cmd + 31) / 32 →
    kv = (if r.cmd.f.fn.getLsbD 2 then min (matK r.cmd) r.cmd.vcnt else matK r.cmd) →
    cmdPlace s.dev c r.cmd r.cmd.regS1 = some (.spm ca offA own) → cmdPlace s.dev c r.cmd r.cmd.regS2 = some p →
    Unpoisoned k → Unpoisoned (getCore s.dev ca) → PlaceReadable s.dev c e (nb * (4096 * w + if matPrec r.cmd = .a32 then 256 else 0)) p →
    (∀ i m, va i m = (spmByte s.dev ca (offA + 8192 * q + 32 * i + m)).toInt) →
    (∀ j m, vb j m = (BitVec.ofNat 8 (bitsAt (placeBit s.dev e p) (8 * (4096 * q + 32 * j + m)) 8)).toInt) →
    (w = 1 → matPrec r.cmd = .i32 → precOf k a = .i32 → r.tyA = .i8 → r.tyB = .i8 → ∀ sum : Nat → Nat → Int,
      (matSparse r.cmd = false → ∀ i j, sum i j = ∑ m ∈ Finset.range 32, if 32 * q + m < kv then va i m * vb j m else 0) →
      (matSparse r.cmd = true → ∀ i j, sum i j = ∑ g ∈ Finset.range 8, ∑ h ∈ Finset.range 2,
        let pos := 4 * g + spmNumber s.dev ca (offA + 4096 * nb + 1024 * q + 4 * i) 4 / 2 ^ (4 * g + 2 * h) % 4
        if 32 * q + pos < kv then (spmByte s.dev ca (offA + 4096 * q + 16 * i + 2 * g + h)).toInt * vb j pos else 0) →
      ∃ t, exec (.kBlock c age) s = .next t ∧ (∀ v, findRun (getCore t.dev c) age = some v → v.step = q + 1) ∧
        ∀ i < 256, ∀ j < 128, accWord (getCore t.dev c) a i j =
          BitVec.ofInt 32 (max (-2 ^ 31) (min (2 ^ 31 - 1) ((accWord k a i j).toInt + sum i j)))) ∧
    (w = 1 → matPrec r.cmd = .a32 → precOf k a = .a32 → r.tyA = .i8 → r.tyB = .i8 → matSparse r.cmd = false → ∀ ra rb : Nat → FVal,
      (∀ i, ra i = elemValue .bf16 (spmNumber s.dev ca (offA + 8192 * nb + 512 * q + 2 * i) 2)) →
      (∀ j, rb j = elemValue .bf16 (bitsAt (placeBit s.dev e p) (8 * (4096 * nb + 256 * q + 2 * j)) 16)) →
      (32 * q < kv → ∀ i, fvalFinite (ra i) = true ∧ fvalFinite (rb i) = true) →
      ∃ t, exec (.kBlock c age) s = .next t ∧ (∀ v, findRun (getCore t.dev c) age = some v → v.step = q + 1) ∧
        ∀ i < 256, ∀ j < 128, (accWord (getCore t.dev c) a i j).toNat = (finish .f32 r.cmd.frm (addExact r.cmd.frm (elemValue .f32 (accWord k a i j).toNat)
          (fvalOfRat (((∑ m ∈ Finset.range 32, if 32 * q + m < kv then va i m * vb j m else 0 : Int) : ℚ) * (fvalRat (ra i) * fvalRat (rb j)))))).bits) ∧
    (w = 2 → matPrec r.cmd = .a2x32 → precOf k a = .a2x32 → r.tyA = .bf16 → r.tyB = .bf16 → matSparse r.cmd = false →
      ∀ (ea eb : Nat → Nat → FVal) (sum : Nat → Nat → ℚ),
      (∀ i m, ea i m = elemValue .bf16 (spmNumber s.dev ca (offA + 16384 * q + 64 * i + 2 * m) 2)) →
      (∀ j m, eb j m = elemValue .bf16 (bitsAt (placeBit s.dev e p) (8 * (8192 * q + 64 * j + 2 * m)) 16)) →
      (∀ i < 256, ∀ m < 32, fvalFinite (ea i m) = true) → (∀ j < 128, ∀ m < 32, fvalFinite (eb j m) = true) →
      (∀ i j, sum i j = ∑ m ∈ Finset.range 32, if 32 * q + m < kv then fvalRat (ea i m) * fvalRat (eb j m) else 0) →
      ∃ t, exec (.kBlock c age) s = .next t ∧ (∀ v, findRun (getCore t.dev c) age = some v → v.step = q + 1) ∧
        ∀ i < 256, ∀ j < 128, ∀ (x y h : FVal), x = elemValue .f32 (accWord k a i j).toNat → y = elemValue .f32 (accWord k (partner a) i j).toNat →
          h = elemValue .f32 (accWord (getCore t.dev c) a i j).toNat →
          (accWord (getCore t.dev c) a i j).toNat = (finish .f32 r.cmd.frm (addExact r.cmd.frm x (fvalOfRat (sum i j)))).bits ∧
          (accWord (getCore t.dev c) (partner a) i j).toNat = (finish .f32 r.cmd.frm (addExact r.cmd.frm y
            (if fvalFinite h then fvalOfRat (fvalRat x + sum i j - fvalRat h) else fvalOfRat 0))).bits)

/-- R226, R227: ASTORE, without plane, writes every element, converted, at its place and no other byte; ALOAD reads every element, bf16 and f16 widened
as a conversion does (log entry 110). -/
def Claims.AccumulatorTiles : Prop :=
  ∀ (d : Dev) (c a w pitch : Nat) (r : Run) (k m : Core) (x : Cmd) (out : EngOut) (e : TlbEntry) (p : Place), r.step = 0 → x = r.cmd → k = getCore d c →
    Unpoisoned k → m = getCore out.dev c → matNames x = some a → x.f.imm.getLsbD 31 = false →
    pitch = (if x.regS2.toNat % 2 ^ 32 = 0 then 16 * w else x.regS2.toNat % 2 ^ 32) → 16 * w ≤ pitch →
    (out = runMatrix d c .astore r → w = tyWidth r.tyD → r.tyD ∈ [Ty.f32, .bf16, .f16, .e4m3, .e5m2, .pt8, .i8, .i16, .i32] → cmdPlace d c x x.regD = some p →
      (∀ v, p = .global v → Reaches d c e .write v (255 * pitch + 16 * w)) → out.fault = none ∧ m.acc = k.acc ∧ m.bnd = k.bnd ∧
      (∀ i < 256, ∀ j < 128, ∀ hi lo, hi = accWord k a i j → lo = accWord k (partner a) i j →
        bitsAt (placeBit out.dev e p) (8 * (i * pitch) + j * w) w = (convert r.tyD x.frm
          (if precOf k a = .i32 then elemValue .i32 hi.toNat
           else if precOf k a = .a2x32 then (addExact x.frm (elemValue .f32 hi.toNat) (elemValue .f32 lo.toNat)).val else elemValue .f32 hi.toNat)).bits) ∧
      (∀ t off own, p = .spm t off own → (∀ pa, homeByte out.dev pa = homeByte d pa) ∧
        ∀ o y, (o ≠ t ∨ ∀ i < 256, y < off + i * pitch ∨ off + i * pitch + 16 * w ≤ y) → spmByte out.dev o y = spmByte d o y) ∧
      ∀ v, p = .global v → (∀ o y, spmByte out.dev o y = spmByte d o y) ∧
        ∀ pa, (∀ i < 256, pa < physical e v + i * pitch ∨ physical e v + i * pitch + 16 * w ≤ pa) → homeByte out.dev pa = homeByte d pa) ∧
    (out = runMatrix d c .aload r → w = tyWidth r.tyA → r.tyA ∈ [Ty.f32, .bf16, .f16, .i32] → cmdPlace d c x x.regS1 = some p →
      PlaceReadable d c e (255 * pitch + 16 * w) p → out.fault = none ∧ m = { k with acc := m.acc, utlb := m.utlb } ∧
      (∀ i < 256, ∀ j < 128, ∀ y, y = bitsAt (placeBit d e p) (8 * (i * pitch) + j * w) w → accWord m a i j = BitVec.ofNat 32
        (if r.tyA = .bf16 ∨ r.tyA = .f16 then (roundFloat .f32 .rne (elemValue r.tyA y)).bits else y)) ∧
      ∀ b ≠ a, ∀ i < 256, ∀ j < 128, accWord m b i j = accWord k b i j)

/-- R253, R257, R262, R263, R266: the bytes that a COPY_PIECE of CPY, CPYM, CPYG or CPYS moves, without sync words: from the source's address over its nest to the
destination's, on the indexed side with the list's entry u for the index of level 0; each member of a multicast
receives them, all in one step (log entry 143). A global side's piece lies in one sector. -/
def Claims.CopyPieces : Prop :=
  ∀ (s : State) (c age src dst n u pa : Nat) (r : Run) (o : CpyOp) (S D : Side) (g : SourceRead) (out : Dev × PieceOut) (es ed : TlbEntry) (p : Int),
    liveRun s.dev c age = some r → r.cmd.op = .cpy o → o ∈ [CpyOp.cpy, .cpym, .cpyg, .cpys] → r.done = false → piecesLeft r = true →
    cpyW r.cmd = false → sideOf s.dev c r.cmd r.cmd.regS1 = some S → sideOf s.dev c r.cmd r.cmd.regD = some D →
    pieceSource s.dev c o r = .ok g → g.zeroed = 0 → pieceDest g.dev c o r g.bytes = .ok out →
    p = (pieceSpan r.cmd r.piece).1 → n = (pieceSpan r.cmd r.piece).2 → 0 < n →
    u = r.index.getD (spmNumber s.dev c (r.cmd.regS3.toNat % 2 ^ 22 + 4 * (r.step % ((r.cmd.nest.map fun l => l.count.toNat).headD 0))) 4) →
    (src : Int) = sideBase S + nestSum (srcLevels r.cmd) r.step (if o = .cpyg then some u else none) + p →
    (dst : Int) = sideBase D + nestSum (dstLevels r.cmd) r.step (if o = .cpys then some u else none) + p →
    (S.isGlobal = true → src / 64 = (src + n - 1) / 64 ∧ translateFor s.dev c src .read = .ok es ∧ region (physical es src) ≠ 3) →
    (D.isGlobal = true → dst / 64 = (dst + n - 1) / 64 ∧ translateFor g.dev c dst .write = .ok ed ∧ pa = physical ed dst ∧ region pa ≠ 3 ∧
      linkCut s.dev pa = false) →
    ∃ t, exec (.copyPiece c age) s = .next t ∧
      (∀ e x, spmByte t.dev e x =
        if e ∈ sideCores (getCore s.dev c) c D ∧ dst ≤ x ∧ x < dst + n then sideByte s.dev es S (src + (x - dst)) else spmByte s.dev e x) ∧
      ∀ x, homeByte t.dev x = if D.isGlobal = true ∧ pa ≤ x ∧ x < pa + n then sideByte s.dev es S (src + (x - pa)) else homeByte s.dev x

/-- R269 to R274: KVMAP binds its table; KVAPP and KVCOMP, here of one row, write it at its slot and set its bit of S and LENGTH; KVEVICT packs the survivors'
rows and writes the new S. No other byte changes (log entry 65). -/
def Claims.KvEffects : Prop :=
  ∀ (s : State) (c age : Nat) (r : Run) (x : Cmd), Working s.dev c age r → x = r.cmd →
    (x.op = .cpy .kvmap → ∃ t, exec (.commandCompletion c age) s = .next t ∧
      (getStream t.dev c x.stream).kv = some (x.regS1, x.regS2.toNat)) ∧
    ∀ (e : TlbEntry) (v at_ : Nat),
      (∀ (seq : Word) (b o row w : Nat) (src : Nat → Byte), r.step = 0 → x.regS3 = 1 →
        ((x.op = .cpy .kvapp ∧ seq = x.regS2 ∧ (getCore s.dev c).poisonSpm = [] ∧ ∀ j, src j = spmByte s.dev c (x.regS1.toNat % 2 ^ 22 + j)) ∨
         (x.op = .cpy .kvcomp ∧ seq = x.regS1 ∧ (getCore s.dev c).poisonSpm = [] ∧ ∃ d, d = (spmByte s.dev c (x.regS2.toNat % 2 ^ 22)).toNat ∧ d < 64 ∧
          Readable s.dev c e (seqDraft v + d * seqRow v) (seqRow v) ∧
          ∀ j, src j = homeByte s.dev (physical e (seqDraft v + d * seqRow v + j)))) →
        Sequence s.dev c r seq e v at_ → SoundSequence s.dev e v at_ → b = seqLength v / 64 → o = seqLength v % 64 → b < seqBlocks v →
        blockPage s.dev e v b ≠ 0 → row = rowAt s.dev e v (seqLength v) → w = seqTable v + 16 * b + 8 →
        Reaches s.dev c e .write row (seqRow v) → Reaches s.dev c e .write w 8 → Reaches s.dev c e .write at_ 4 →
        row + seqRow v ≤ w ∨ w + 8 ≤ row → row + seqRow v ≤ at_ ∨ at_ + 32 ≤ row → w + 8 ≤ at_ ∨ at_ + 32 ≤ w →
        ∃ t, exec (.commandCompletion c age) s = .next t ∧ (∀ f a, spmByte t.dev f a = spmByte s.dev f a) ∧
          (∀ j < seqRow v, homeByte t.dev (physical e row + j) = src j) ∧
          homeNumber t.dev (physical e w) 8 = blockBits s.dev e v b ||| 2 ^ o ∧
          homeNumber t.dev (physical e at_) 4 = (seqLength v + 1) % 2 ^ 32 ∧
          ∀ pa, (pa < physical e row ∨ physical e row + seqRow v ≤ pa) → (pa < physical e w ∨ physical e w + 8 ≤ pa) →
            (pa < physical e at_ ∨ physical e at_ + 4 ≤ pa) → homeByte t.dev pa = homeByte s.dev pa) ∧
      (∀ (b w old new page : Nat), x.op = .cpy .kvevict → Sequence s.dev c r x.regS1 e v at_ → b = x.regS2.toNat → b < seqBlocks v →
        page = blockPage s.dev e v b → page ≠ 0 → w = seqTable v + 16 * b + 8 → old = blockBits s.dev e v b →
        (∀ o, new.testBit o = (old.testBit o && !(x.regS3.getLsbD o))) →
        Reaches s.dev c e .read page (64 * seqRow v) → Reaches s.dev c e .write page (64 * seqRow v) → Reaches s.dev c e .write (w - 8) 16 →
        page + 64 * seqRow v ≤ w ∨ w + 8 ≤ page → ∃ t, exec (.commandCompletion c age) s = .next t ∧
          (∀ f a, spmByte t.dev f a = spmByte s.dev f a) ∧ homeNumber t.dev (physical e w) 8 = new ∧
          (∀ o < 64, new.testBit o = true → ∀ j < seqRow v, homeByte t.dev (physical e (page + slotUnder new o * seqRow v + j)) =
            homeByte s.dev (physical e (page + slotUnder old o * seqRow v + j))) ∧
          ∀ pa, (pa < physical e page ∨ physical e page + slotUnder new 64 * seqRow v ≤ pa) → (pa < physical e w ∨ physical e w + 8 ≤ pa) →
            homeByte t.dev pa = homeByte s.dev pa)

/-- R275 to R277: KVRANK and KVGATH take their positions block by block, under the block entry that the block's first step reads and a resumption within it
keeps (only a PAGE of 0 is read again): slots, 0xFFFF_FFFF where absent; the present rows, mask and count. The steps are log entry 135's, the needed pages 123's, a poisoned record read as
it stands 134's. -/
def Claims.KvWalks : Prop :=
  ∀ (s : State) (c age : Nat) (r : Run) (x : Cmd) (e : TlbEntry) (v at_ p0 p1 lo hi : Nat), Working s.dev c age r → x = r.cmd →
    Sequence s.dev c r x.regS1 e v at_ → SoundSequence s.dev e v at_ → p0 = x.regS2.toNat % 2 ^ 32 → p1 = x.regS2.toNat / 2 ^ 32 →
    p0 ≤ p1 → p1 - p0 ≤ 131072 → lo = (if r.piece = 0 then p0 else r.step) → p0 ≤ lo →
    (∀ b : KvKept, lo < p1 → hi = min p1 (64 * (lo / 64) + 64) →
      (match r.block with
       | none => if lo < seqLength v then lo / 64 < seqBlocks v ∧ b = { page := blockPage s.dev e v (lo / 64), s := blockBits s.dev e v (lo / 64), length := seqLength v }
                 else b = { page := 0, s := 0, length := seqLength v }
       | some k => if k.page = 0 then lo / 64 < seqBlocks v ∧ b = { k with page := blockPage s.dev e v (lo / 64) } else b = k) →
      ∀ present : Nat → Bool, (∀ p, present p = (decide (p < b.length) && b.s.testBit (p % 64))) →
      (x.op = .cpy .kvrank → ∀ off, off = x.regD.toNat % 2 ^ 22 → ∃ t, exec (.copyPiece c age) s = .next t ∧
        findRun (getCore t.dev c) age = some { r with piece := 1, step := hi, block := none } ∧ (∀ pa, homeByte t.dev pa = homeByte s.dev pa) ∧
        (∀ p, lo ≤ p → p < hi → spmNumber t.dev c (off + 4 * (p - p0)) 4 = if present p then slotUnder b.s (p % 64) else 0xFFFFFFFF) ∧
        ∀ o a, o ≠ c ∨ a < off + 4 * (lo - p0) ∨ off + 4 * (hi - p0) ≤ a → spmByte t.dev o a = spmByte s.dev o a) ∧
      (∀ (off rec_ n : Nat) (l : List Nat) (row : Nat → Nat), x.op = .cpy .kvgath → off = x.regD.toNat % 2 ^ 22 → rec_ = x.regS3.toNat % 2 ^ 22 →
        l = ((List.range (hi - lo)).map (lo + ·)).filter present → n = (if r.piece = 0 then 0 else spmNumber s.dev c rec_ 8) → n + l.length ≤ p1 - p0 →
        off + (p1 - p0) * seqRow v ≤ 2 ^ 22 → (∀ p, row p = b.page + slotUnder b.s (p % 64) * seqRow v) →
        (rec_ + 8 + (p1 - p0 + 7) / 8 ≤ off ∨ off + (p1 - p0) * seqRow v ≤ rec_) →
        (b.page ≠ 0 ∨ l = [] → (∀ p ∈ l, Readable s.dev c e (row p) (seqRow v)) → ∃ t, exec (.copyPiece c age) s = .next t ∧
          findRun (getCore t.dev c) age = some { r with piece := 1, step := hi, block := none } ∧ (∀ pa, homeByte t.dev pa = homeByte s.dev pa) ∧
          spmNumber t.dev c rec_ 8 = n + l.length ∧
          (∀ i < p1 - p0, (spmByte t.dev c (rec_ + 8 + i / 8)).getLsbD (i % 8) =
            ((decide (p0 + i ∈ l)) || (decide (r.piece ≠ 0) && (spmByte s.dev c (rec_ + 8 + i / 8)).getLsbD (i % 8)))) ∧
          (∀ m p, l[m]? = some p → ∀ j < seqRow v, spmByte t.dev c (off + (n + m) * seqRow v + j) = homeByte s.dev (physical e (row p + j))) ∧
          ∀ o a, o ≠ c ∨ ((a < rec_ ∨ rec_ + 8 + (p1 - p0 + 7) / 8 ≤ a) ∧ (a < off + n * seqRow v ∨ off + (n + l.length) * seqRow v ≤ a)) →
            spmByte t.dev o a = spmByte s.dev o a) ∧
        (∀ p, b.page = 0 → l.head? = some p → ∃ t z, exec (.copyPiece c age) s = .next t ∧ findRun (getCore t.dev c) age = some z ∧
          z = { r with piece := 1, step := p, block := some b, stopped := some { cause := .kvRange, step := p, isw := 5 } } ∧
          (∀ pa, homeByte t.dev pa = homeByte s.dev pa) ∧
          ∀ o a, o ≠ c ∨ a < rec_ ∨ rec_ + 8 + (p1 - p0 + 7) / 8 ≤ a → spmByte t.dev o a = spmByte s.dev o a))) ∧
    (∀ rec_, (x.op = .cpy .kvrank ∨ x.op = .cpy .kvgath) → rec_ = x.regS3.toNat % 2 ^ 22 → p1 ≤ lo → ∃ t, exec (.commandCompletion c age) s = .next t ∧
      findRun (getCore t.dev c) age = none ∧ (∀ pa, homeByte t.dev pa = homeByte s.dev pa) ∧
      (x.op = .cpy .kvgath → r.piece = 0 → spmNumber t.dev c rec_ 8 = 0) ∧
      ∀ o a, o ≠ c ∨ x.op = .cpy .kvrank ∨ r.piece ≠ 0 ∨ a < rec_ ∨ rec_ + 8 ≤ a → spmByte t.dev o a = spmByte s.dev o a)

/-- R264, R265: the contribution that completes a piece writes, word by word, the f32 sum of all ranks in ascending order from the destination's word where A
is set, rounded to nearest at each addition, every NaN as the canonical one; the switch holds them no longer. The A of any contribution stands for all (log entry 46),
and a poisoned destination is read as it stands (log entry 131). -/
def Claims.Combinations : Prop :=
  ∀ (s : State) (n i z : Nat) (x : Contribution) (l m : List Contribution) (word : Contribution → Nat) (add : Nat → Contribution → Nat),
    s.dev.combining[n]? = some x → x.done = false → x.zero = false → (∀ y ∈ s.dev.combining.take n, ¬ (samePiece y x = true ∧ y.rank = x.rank) ∧ ¬ (y.src = x.src ∧ y.age = x.age ∧ y.done = false)) →
    m = s.dev.combining.set n { x with done := true } → gathered { s.dev with combining := m } x = some l → l ≠ [] →
    (∀ c ∈ l, c.word = none ∧ c.data.length = x.data.length) → x.data.length % 4 = 0 → 4 * i < x.data.length →
    (∀ c, word c = ((List.range 4).map fun j => (c.data.getD (4 * i + j) 0).toNat * 256 ^ j).sum) →
    (∀ y c, add y c = (finish .f32 .rne (addExact .rne (elemValue .f32 y) (elemValue .f32 (word c)))).bits) →
    ((∃ c ∈ l, c.add = true) → z = l.foldl add (spmNumber s.dev x.core (x.off + 4 * i) 4)) →
    ((∀ c ∈ l, c.add = false) → ∀ c r, l = c :: r → z = r.foldl add (word c)) →
    l.map (·.rank) = (List.range 8).filter (fun r => x.mask.toNat.testBit r) ∧ ∃ t, exec (.cpyrContribution n) s = .next t ∧
      spmNumber t.dev x.core (x.off + 4 * i) 4 = (if fvalIsNan (elemValue .f32 z) then 0x7FC00000 else z) ∧
      (∀ c a, (c ≠ x.core ∨ a < x.off ∨ x.off + x.data.length ≤ a) → spmByte t.dev c a = spmByte s.dev c a) ∧
      (∀ pa, homeByte t.dev pa = homeByte s.dev pa) ∧ t.dev.combining = m.filter fun c => c ∉ l

/-- R257, R265: CPYR_CONTRIBUTION: a contribution waits for an earlier one of its rank to its piece, and for the earlier pieces of its command; one that leaves its
piece incomplete reaches the switch. R219: LEASE_GRANT gives the lease to the first stream after its last holder whose head is clear of tokens, ranges and
accumulators; LEASE_IDLE_END ends one not taken by LEASE whose holder has no such head (without its 16 clocks, log entry 7). -/
def Claims.ContributionsAndLeases : Prop :=
  (∀ (s : State) (n : Nat) (x : Contribution), s.dev.combining[n]? = some x → x.done = false →
    ((∃ y ∈ s.dev.combining.take n, (samePiece y x = true ∧ y.rank = x.rank) ∨ (y.src = x.src ∧ y.age = x.age ∧ y.done = false)) →
      exec (.cpyrContribution n) s = .next s) ∧
    ((∀ y ∈ s.dev.combining.take n, ¬ (samePiece y x = true ∧ y.rank = x.rank) ∧ ¬ (y.src = x.src ∧ y.age = x.age ∧ y.done = false)) →
      gathered { s.dev with combining := s.dev.combining.set n { x with done := true } } x = none →
      exec (.cpyrContribution n) s = .next { s with dev := { s.dev with combining := s.dev.combining.set n { x with done := true } } })) ∧
  (∀ (s : State) (c i : Nat) (k : Core), k = getCore s.dev c → k.split = true → k.lease = none →
    (turnsAfter k.leaseLast).find? (fun j => (clearHead k j .mtx).isSome) = some i →
    ∃ t, exec (.leaseGrant c) s = .next t ∧ (∀ e, e ≠ c → getCore t.dev e = getCore s.dev e) ∧
      (getCore t.dev c).lease = some { holder := i, len := (match (coreStream k i).leaseReq with
                                         | none | some 0 => (coreStream k i).sys.leaseLen.toNat
                                         | some n => n), used := 0,
                                       explicit := (coreStream k i).leaseReq.isSome } ∧
      (getStream t.dev c i).leaseReq = none) ∧
  (∀ (s : State) (c : Nat) (l : Lease), (getCore s.dev c).lease = some l → l.explicit = false → clearHead (getCore s.dev c) l.holder .mtx = none →
    ∃ t, exec (.leaseIdleEnd c) s = .next t ∧ (getCore t.dev c).lease = none ∧ (getCore t.dev c).leaseLast = l.holder ∧
      (getStream t.dev c l.holder).lrel = none)

/-! ### Other events of a core (04, 06, 14) -/

/-- R76 to R78: FAULT_DELIVERY takes the oldest pending fault of a stream at its issue boundary, to the handler or to a suspension; a fault of a stream that
has completed EXIT goes to system software (R309). A stream parked in JOIN is to execute its JOIN again (log entry 103), and one that waits in a SLCOMMIT for its firings takes the fault once they are
enqueued (R299, log entry 114). R79: STATUS_RESUME and STATUS_DISCARD make the return that SYSWR of STATUS asked for. -/
def Claims.FaultEvents : Prop :=
  (∀ (s : State) (c i : Nat) (f : PendingFault) (x : Stream) (z : SysRegs) (g : RunState), x = getStream s.dev c i → oldestFault x.faults = some f →
    x.suspended = false → x.delay = none → x.ret = none → axisBlocks (getCore s.dev c) x = false → (∀ a, x.run = .parked a → g = .running) → ((∀ a, x.run ≠ .parked a) → g = x.run) →
    z = { x.sys with cause := BitVec.ofNat 9 (256 + causeCode f.cause), epc := x.pc, ecmd := f.ecmd, eeng := f.eeng, estat := f.estat, eaddr := f.eaddr } →
    ∃ t, exec (.faultDelivery c i) s = .next t ∧ getStream t.dev c i =
      if x.sys.deleg.getLsbD (causeCode f.cause) = true ∧ f.cause ∉ [.fetchFault, .translation, .frontier, .residency] ∧ x.sys.trapVec ≠ 0 ∧ x.sys.inh = false ∧
          f.nodel = false ∧ x.run ≠ .exited then
        { x with run := g, faults := x.faults.erase f, sys := { z with inh := true }, pc := x.sys.trapVec, delay := none, link := f.link,
                 waitAxis := [], wait := none }
      else { x with run := g, faults := x.faults.erase f, sys := z, delay := none, suspended := true, slink := f.link, wait := none }) ∧
  (∀ (s : State) (c i : Nat), axisBlocks (getCore s.dev c) (getStream s.dev c i) = true → exec (.faultDelivery c i) s = .next s) ∧
  (∀ (s : State) (c i : Nat) (b : Bool) (x : Stream), x = getStream s.dev c i → x.ret = some b →
    ∃ t, exec (if b then .statusDiscard c i else .statusResume c i) s = .next t ∧ (getStream t.dev c i).pc = x.sys.epc ∧
      (getStream t.dev c i).sys = { x.sys with inh := false } ∧ (getStream t.dev c i).ret = none)

/-- R27: ARRIVAL updates its sync word. R21: PEER_ACCESS writes a core's scratchpad. R130, R131, R354: L1_EVICTION writes a sector's dirty bytes to its home,
unless the link to it is down, and holds nothing of it. R38: ICACHE_FILL holds a sector as it stands at its home. -/
def Claims.CoreAccessEvents : Prop :=
  (∀ (s : State) (n : Nat) (a : Arrival), s.dev.arrivals[n]? = some a → ∃ t l, exec (.arrival n) s = .next t ∧ l.length = 32 ∧
    OnlySpm { s with dev := { s.dev with arrivals := s.dev.arrivals.eraseIdx n } } t a.core a.off l ∧
    readSync t.dev a.core a.off = syncStep (readSync s.dev a.core a.off) a.n) ∧
  (∀ (s : State) (c off : Nat) (l : List Byte), l ≠ [] → c < 160 → off + l.length ≤ 2 ^ 22 →
    ∃ t, exec (.peerAccess c off l) s = .next t ∧ OnlySpm s t c off l) ∧
  (∀ (s : State) (c x : Nat), (∃ p ∈ (getCore s.dev c).l1dirty ++ (getCore s.dev c).l1clean, p.1 / 64 = x) →
    ∃ t, exec (.l1Eviction c x) s = .next t ∧ (∀ p ∈ (getCore t.dev c).l1dirty ++ (getCore t.dev c).l1clean, p.1 / 64 ≠ x) ∧
      ∀ a, region a ≠ 3 → linkCut s.dev a = false →
        homeByte t.dev a = if a / 64 = x then (Sparse.find? (getCore s.dev c).l1dirty a).getD (homeByte s.dev a) else homeByte s.dev a) ∧
  (∀ (s : State) (c x : Nat) (va : Word), va.extractLsb' 60 4 = 0 → c < 160 → x = va.toNat / 64 → Sparse.find? (getCore s.dev c).icache x = none →
    ∃ t, exec (.icacheFill c va) s = .next t ∧
      (∀ e, translateFor s.dev c (64 * x) .fetch = .error e → Sparse.find? (getCore t.dev c).icache x = some .fault) ∧
      ∀ e pa, translateFor s.dev c (64 * x) .fetch = .ok e → pa = physical e (64 * x) → region pa ≠ 3 →
        Sparse.find? (getCore t.dev c).icache x =
          some (if homePoisoned s.dev pa 64 = true then .ecc else .bytes ((List.range 64).map fun j => homeByte s.dev (pa + j))))

/-- R152, R289: WATCH_MATCH leaves a notification owed; NOTIFICATION writes the word's latest value to the note (not to one in
another slot's persistent region, log entry 147) and posts the token; COMMIT_WATCH raises N of the axis, and closes it. -/
def Claims.WatchEvents : Prop :=
  (∀ (s : State) (pa n h : Nat) (w : Watch), Sparse.find? s.dev.watches h = some w → 0 < n → pa < w.pa + 8 * (w.len + 1) → w.pa < pa + n →
    watchHolds s.dev w = true → w.act = false → w.owed = false → (∀ r, w.owner ≠ .ring r) →
    ∃ t x, exec (.watchMatch pa n) s = .next t ∧ Sparse.find? t.dev.watches h = some x ∧ x.owed = true) ∧
  (∀ (s : State) (h c l z o m n : Nat) (w : Watch), Sparse.find? s.dev.watches h = some w → w.owed = true → w.owner = .point c l z o m n →
    (∃ q ∈ pointPlaces s.dev l z o m n, q.1 = c) →
    ∃ t, exec (.notification h) s = .next t ∧ Sparse.find? t.dev.watches h = some { w with owed := false } ∧
      (∀ j < 8, spmByte t.dev c (w.arg + j) = if foreignRegion s.dev c w.arg 8 then spmByte s.dev c (w.arg + j) else homeByte s.dev (w.pa + j)) ∧
      (w.ten = true → (getToken (getCore s.dev c) w.tok).count.toNat < (getToken (getCore s.dev c) w.tok).ceiling.toNat →
        (getToken (getCore t.dev c) w.tok).count = (getToken (getCore s.dev c) w.tok).count + 1)) ∧
  (∀ (s : State) (c x h v : Nat) (a : Axis) (w : Watch), findAxis (getCore s.dev c) x = some a → a.note = true → a.watch = some h →
    Sparse.find? s.dev.watches h = some w → v = memNat s.dev w.pa 8 →
    ∃ t b, exec (.commitWatch c x) s = .next t ∧ findAxis (getCore t.dev c) x = some b ∧ b.n = max a.n (v % 2 ^ 63) ∧
      b.closed = (a.closed || v.testBit 63) ∧ b.note = false)

/-- R300: FIRING enqueues the body of the axis's next rule for its next slice, at the tail of the owner's queue, and the rule goes on to the following
slice. -/
def Claims.Firings : Prop :=
  ∀ (s : State) (c x n : Nat) (k : Core) (r : Rule) (g : Ranges), k = getCore s.dev c → nextRule k x = some (n, r) → dispatcherStopped s.dev c = false →
    findRule k n = some r → commandRanges s.dev c (firingCmd k n r) = .ok g → queueFull (getQueue (coreStream k r.owner) (queueOf r.op)) = false →
    checkerFull k = false →
    ∃ t y, exec (.firing c x) s = .next t ∧
      (getQueue (getStream t.dev c r.owner) (queueOf r.op)).entries = (getQueue (coreStream k r.owner) (queueOf r.op)).entries ++ [.cmd y] ∧
      y.firing = some (n, r.next) ∧ y.op = r.op ∧ y.f = r.f ∧ y.age = k.nextAge ∧ y.index = (coreStream k r.owner).cmdIndex ∧
      (getStream t.dev c r.owner).cmdIndex = (coreStream k r.owner).cmdIndex + 1 ∧
      (r.owner < 4 ∨ r.next + 1 < r.horizon → findRule (getCore t.dev c) n = some { r with next := r.next + 1 })

/-! ### Events of the dispatchers (15) -/

/-- R324, R325, R360: RELEASE, SLIPPED and FRAME_TICK, which counts, makes the timetable's marks of every launch at the new tick, and notes the steps
that ring-group members have reached and their successors have not, with their tick (the model's account of R355, log entry 35). That release and slip are
marked at the tick and at admission, besides their events, is the model's choice (log entry 81). -/
def Claims.TimetableEvents : Prop :=
  (∀ (s : State) (n : Nat) (l : Launch), getLaunch s.dev n = some l → l.released = false → (recRlen l.nrec = true → recRelease l.nrec ≤ s.dev.tick.toNat) →
    exec (.release n) s =
      .next { s with dev := { s.dev with launches := Sparse.insert s.dev.launches n { l with released := true, since := s.dev.tick.toNat } } }) ∧
  (∀ (s : State) (n : Nat) (l : Launch), getLaunch s.dev n = some l → l.slipped = false → recDlen l.nrec = true → recDeadline l.nrec ≤ s.dev.tick.toNat →
    launchComplete s.dev n l = false →
    exec (.slipped n) s = .next { s with dev := { s.dev with launches := Sparse.insert s.dev.launches n { l with slipped := true } } }) ∧
  (∀ (s : State) (d : Dev), s.dev.boot.phase = .noon → d = { s.dev with tick := s.dev.tick + 1 } →
    ∃ t, exec .frameTick s = .next t ∧ t = { s with dev := { d with launches := t.dev.launches, groups := t.dev.groups } } ∧
      (∀ n, getLaunch t.dev n = (getLaunch s.dev n).map fun l =>
        let m := if l.released = false ∧ recRelease l.nrec ≤ d.tick.toNat then { l with released := true, since := d.tick.toNat } else l
        if recDlen l.nrec = true ∧ recDeadline l.nrec ≤ d.tick.toNat ∧ launchComplete s.dev n l = false then { m with slipped := true } else m) ∧
      (∀ n, Sparse.find? s.dev.groups n = none → Sparse.find? t.dev.groups n = none) ∧
      ∀ n g, Sparse.find? s.dev.groups n = some g → ∃ l h, Sparse.find? t.dev.groups n = some { g with reached := l, raised := h } ∧
        ∀ (awaited : Nat → Nat → Prop), (∀ m k, awaited m k ↔
          ((g.members[(m + 1) % g.members.length]?).map fun b => memNat s.dev b.1 8).getD 0 < k ∧
            ((m, k) ∈ g.raised → k ≤ ((g.members[m]?).map fun b => memNat s.dev b.1 8).getD 0)) →
        (∀ m k, (m, k) ∈ h ↔ (m, k) ∈ g.raised ∧ awaited m k) ∧ ∀ m k τ, (m, (k, τ)) ∈ l ↔ awaited m k ∧
          ((m, (k, τ)) ∈ g.reached ∨
            ∃ a, g.members[m]? = some a ∧ k = memNat s.dev a.1 8 ∧ τ = s.dev.tick.toNat ∧ ∀ σ, (m, (k, σ)) ∉ g.reached))

/-- R74, R321 to R323, R334, Tables 4.5, 4.6, 15.7 and 15.8: POINT_DISPATCH places a fresh point of a launch not declared SPLIT: on every core of its gang the stream stands at
the entry point with its reset state, and each cluster holds the point's index, rank, launch, slot, buffers and stack limit, and zeros. It places a held
point from its records as memory now has them, PPEND and FPEND cleared; a queued command comes back as it was saved (the record's number and the order inside
its parts are the model's choice, log entry 9). -/
def Claims.PointDispatches : Prop :=
  (∀ (s : State) (die n c o m p : Nat) (l : Launch), s.dev.boot.phase = .noon → die < 4 → choose s.dev die = some (n, l, .fresh (o, m, p) (c, 0)) →
    recSplit l.nrec = false →
    ∃ t, exec (.pointDispatch die) s = .next t ∧ ∀ j < recGang l.nrec,
      getStream t.dev (c + j) 0 =
        { run := .running, pc := l.entryPc,
          point := some { launch := n, serial := l.serial, o := o, m := m, n := p, rank := j, base := c, size := recGang l.nrec, tick := s.dev.tick },
          sys := { stkBase := BitVec.ofNat 22 (recStkBase l.nrec), stkLimit := BitVec.ofNat 22 (recStkLimit l.nrec) } } ∧
      ∀ u < 4,
        (∀ r, scalarIn t.dev (c + j) u r = BitVec.ofNat 64
          (if r = 1 then o else if r = 2 then m else if r = 3 then p else if r = 4 then j else if r = 5 then n
           else if r = 6 then (if recSlot l.nrec = 255 then 0xFFFFFFFF else recSlot l.nrec) else 0)) ∧
        (∀ r, addressIn t.dev (c + j) u r =
          if 8 ≤ r ∧ r ≤ 14 then recBuf l.nrec (r - 7) else if r = 15 then addrBits 8 (BitVec.ofNat 64 (recStkLimit l.nrec)) else 0)) ∧
  (∀ (d : Dev) (a : Nat) (x : Context), memWf d.mem = true → (contextAt d a = some x ↔ a ≠ 0 ∧ linkCut d a = false ∧ Sparse.find? d.contexts (homeNumber d (a + 0x68) 8) = some x)) ∧
  (∀ (s : State) (die n b : Nat) (l : Launch) (h : HeldPoint), MemoryCanonical s → s.dev.boot.phase = .noon → die < 4 →
    choose s.dev die = some (n, l, .held h b) → h.ctxs.Nodup →
    (∀ a ∈ h.ctxs, readAxes s.dev a = [] ∧ ∀ i < 4, (homeNumber s.dev (a + 0x2438 + 0x1000 * i) 8).testBit 0 = false) →
    ∃ t, exec (.pointDispatch die) s = .next t ∧
      getLaunch t.dev n = some { l with held := l.held.filter (fun g => g.ctxs ≠ h.ctxs), since := s.dev.tick.toNat,
                                        restores := if l.held.filter (fun g => g.ctxs ≠ h.ctxs) = [] then [] else l.restores } ∧
      ∀ j a, h.ctxs[j]? = some a → ∃ x, contextAt s.dev a = some x ∧ ∀ k w e, k = getCore t.dev (b + j) →
        w = (fun i => homeNumber s.dev (a + 8 * i) 8) → e = readEntries s.dev a →
        k.split = (w 6).testBit 0 ∧ k.slaunch = (w 6).testBit 1 ∧ k.gangSize = w 5 ∧ k.arrived = BitVec.ofNat 32 (w 9) ∧
        (∀ n < 64, findRule k n = ruleOfWords (fun i => homeNumber s.dev (a + 0xC00 + 64 * n + 8 * i) 8)
          fun i => homeNumber s.dev (a + 0x2800 + 0x1000 * (n / 16) + 32 * (n % 16) + 8 * i) 8) ∧
        (∀ n r y, x.core.running[n]? = some r → n < 46 → y = runOfWords (fun i => homeNumber s.dev (a + 0xA200 + 512 * n + 8 * i) 8) r →
          k.running[n]? = some { y with cmd := withEntry e y.cmd }) ∧
        (∀ u < 4, (∀ r < 32, r ≠ 0 → scalarIn t.dev (b + j) u r = BitVec.ofNat 64 (homeNumber s.dev (a + 0x2000 + 0x1000 * u + 8 * r) 8)) ∧
          ∀ r < 16, addressIn t.dev (b + j) u r = BitVec.ofNat 64 (homeNumber s.dev (a + 0x2100 + 0x1000 * u + 8 * r) 8)) ∧
        (∀ i p q, Sparse.find? x.core.streams i = some p → q = streamOfWords b (fun w => homeNumber s.dev (a + 0x2000 + 0x1000 * i + 8 * w) 8) p →
          coreStream k i =
            { q with sys := { q.sys with ppend := false, fpend := false }, halted := false
                     qcpy := queueEntries e q.qcpy, qvec := queueEntries e q.qvec, qmtx := queueEntries e q.qmtx
                     point := if (w 6).testBit 1 then q.point else q.point.map (headedPoint w) } ∧
          q = { q with link := p.link, waitAxis := p.waitAxis } ∧
          (∀ z, (getQueue q z).entries = (getQueue p z).entries) ∧ q.pc = BitVec.ofNat 64 (homeNumber s.dev (a + 0x21A0 + 0x1000 * i) 8)) ∧
        (∀ i < 163840, Sparse.get k.vreg 0 i = BitVec.ofNat 32 (homeNumber s.dev (a + 0xB0000 + 4 * i) 4)) ∧
        (∀ i < 131072, Sparse.get k.acc 0 i = BitVec.ofNat 32 (homeNumber s.dev (a + 0x30000 + 4 * i) 4)) ∧
        (∀ i < 512, Sparse.get k.bnd 0 i = BitVec.ofNat 16 (homeNumber s.dev (a + 0x20000 + 2 * i) 2)) ∧
        (∀ i < 524288, Sparse.get k.mask false i = (homeByte s.dev (a + 0x10000 + i / 8)).getLsbD (i % 8)) ∧
        (∀ i < 32, (getToken k i).count = BitVec.ofNat 16 (homeNumber s.dev (a + 0x102 + 4 * i) 2) ∧
          (getToken k i).ceiling = BitVec.ofNat 16 (homeNumber s.dev (a + 0x100 + 4 * i) 2)) ∧
        ∀ off < 2 ^ 22, persistentAt s.dev (b + j) off (fun q => x.core.slot ≠ some q) = false →
          spmByte t.dev (b + j) off = homeByte s.dev (a + 0x150000 + off))

/-- R31, R317, R318: POINT_DONE frees the streams of a point whose every stream has completed EXIT and owns no rule, and marks it done in the frontier;
LAUNCH_COMPLETION ends a launch whose every point is done. -/
def Claims.PointsAndLaunchesDone : Prop :=
  (∀ (s : State) (n o m p : Nat) (l : Launch) (places : List (Nat × Nat)), getLaunch s.dev n = some l → places = pointPlaces s.dev n l.serial o m p →
    places ≠ [] → (∀ q ∈ places, ∀ x, x = getStream s.dev q.1 q.2 → x.run = .exited ∧ x.suspended = false ∧ x.faults = [] ∧
      ownsRule (getCore s.dev q.1) q.2 = false ∧ exitReady (getCore s.dev q.1) q.2 = true) →
    ∃ t k, exec (.pointDone n o m p) s = .next t ∧ (∀ q ∈ places, getStream t.dev q.1 q.2 = {}) ∧ getLaunch t.dev n = some k ∧
      k = markDone l (o * recEm l.nrec + m) p ∧
      (∀ ρ w, ρ = o * recEm l.nrec + m → w = rowOf l ρ → l.w0 ≤ ρ → ρ < l.w1 → w.c ≤ p → p < w.c + 64 → pointDone? k ρ p = true)) ∧
  (∀ (s : State) (n : Nat) (l : Launch), s.dev.boot.phase = .noon → getLaunch s.dev n = some l → launchComplete s.dev n l = true →
    ∃ t, exec (.launchCompletion n) s = .next t ∧ getLaunch t.dev n = none)

/-- R330 to R333: CONTEXT_SAVE asks the streams of a gang to stop, with PPEND set, and once they are quiet saves every core of the gang, with EPC at the
next bundle of each stream (R154), and frees it (two events: log entry 68). The record holds the files and the pc at their places (log entry 9). A gang with
a point that has ended is not saved: that point is done first (R317, R330, R339). LAUNCH_SAVE marks the launch saved once nothing of it runs. -/
def Claims.Saves : Prop :=
  (∀ (s : State) (c : Nat) (places : List (Nat × Nat)), gangToSave s.dev c = true →
    places = (gangCores s.dev c).flatMap (fun e => (corePoints (getCore s.dev e)).map fun q => (e, q.1)) →
    ((∃ q ∈ places, (getStream s.dev q.1 q.2).halted = false) → ∃ t, exec (.contextSave c) s = .next t ∧ (∀ pa, homeByte t.dev pa = homeByte s.dev pa) ∧
      ∀ e i x, x = getStream s.dev e i →
        getStream t.dev e i = if (e, i) ∈ places then { x with sys := { x.sys with ppend := true }, halted := true } else x) ∧
    ((∀ q ∈ places, (getStream s.dev q.1 q.2).halted = true) → (∀ e ∈ gangCores s.dev c, coreQuiet s.dev e = true ∧ linksDrained s.dev e = true) →
      ∀ i p l q, (corePoints (getCore s.dev c)).head? = some (i, p) → getLaunch s.dev p.launch = some l → l.preempt = some q →
        ∃ t, exec (.contextSave c) s = .next t ∧ ∀ e ∈ gangCores s.dev c, (getCore t.dev e).streams = [] ∧
          ∃ a x, Sparse.find? t.dev.contexts a = some x ∧ x.number = e ∧
            ∀ j y, y = getStream s.dev e j → y.run = .running → y.suspended = false →
              (coreStream x.core j).pc = y.pc ∧ (coreStream x.core j).sys.epc = y.pc) ∧
    (∀ i p l q a, gangToSave s.dev c = true → gangCores s.dev c = [c] → MemoryCanonical s →
      (∀ q ∈ places, (getStream s.dev q.1 q.2).halted = true) → coreQuiet s.dev c = true → linksDrained s.dev c = true →
      (corePoints (getCore s.dev c)).head? = some (i, p) → getLaunch s.dev p.launch = some l → l.preempt = some q →
      a = q.ctx + 0x550000 * q.used → a + 0x550000 ≤ 2 ^ 52 →
      ∃ t x, exec (.contextSave c) s = .next t ∧ (a ≠ 0 → s.dev.records < 2 ^ 64 → contextAt t.dev a = some x) ∧
        ∀ u < 4, (∀ r < 32, r ≠ 0 → homeNumber t.dev (a + 0x2000 + 0x1000 * u + 8 * r) 8 = (scalarIn s.dev c u r).toNat) ∧
          (∀ r < 16, homeNumber t.dev (a + 0x2100 + 0x1000 * u + 8 * r) 8 = (addressIn s.dev c u r).toNat) ∧
          homeNumber t.dev (a + 0x21A0 + 0x1000 * u) 8 = (getStream s.dev c u).pc.toNat)) ∧
  (∀ (s : State) (c e i : Nat) (p : Point), e ∈ gangCores s.dev c → (i, p) ∈ corePoints (getCore s.dev e) →
    (∀ q ∈ placesOf s.dev p, streamEnded s.dev q = true) → exec (.contextSave c) s = .next s) ∧
  (∀ (s : State) (n : Nat) (l : Launch) (q : Preempt), getLaunch s.dev n = some l → l.preempt = some q → launchOnCores s.dev n = [] → inFlight l = 0 →
    launchComplete s.dev n l = false →
    ∃ t, exec (.launchSave n) s = .next t ∧ getLaunch t.dev n = some { l with saved := true, preempt := none })

/-- R361, R362: REGISTERED_LAUNCH_PUSH admits a launch of the entry's record, with the interrupt that the entry asks for now, or reports why not; that it
takes the lowest free number of its home die is the model's choice (log entry 91). -/
def Claims.RegisteredPushes : Prop :=
  ∀ (s : State) (entry c : Nat) (p : Nat × Nat), s.dev.pushes.find? (fun x => x.2 = entry) = some p → s.dev.boot.phase = .noon → c = regControl s.dev entry →
    (∀ e, registeredFault s.dev entry = some e → exec (.registeredLaunchPush entry) s =
      .next { s with dev := writeEvent { s.dev with pushes := s.dev.pushes.erase p } 10 entry (BitVec.ofNat 64 (causeCode e)) }) ∧
    (registeredFault s.dev entry = none → canAdmit s.dev (c / 2 % 32) (regRecord s.dev entry) = true →
      ∃ t l n, exec (.registeredLaunchPush entry) s = .next t ∧ t.dev.launches = Sparse.insert s.dev.launches n l ∧
        n / 64 = homeDie (recBays (regRecord s.dev entry)) ∧ getLaunch s.dev n = none ∧
        (∀ j, 64 * (n / 64) ≤ j → j < n → getLaunch s.dev j ≠ none) ∧ l.nrec = regRecord s.dev entry ∧ l.tenant = c / 2 % 32 ∧
        l.serial = s.dev.serial ∧ l.source = .registered entry (if c.testBit 14 then some (c / 2 ^ 15 % 256) else none))

/-! ### Packets of launch rings (15, 17) -/

/-- R347: the completion of a packet writes its handle and FRAME_TICK, then its completion word with SEQ, DONE and STATUS, and no other byte of memory; an
interrupt follows where the packet asks for one. R346: HEAD goes on by one, and R348: a LAUNCH or INVOKE refused leaves no packet for ORD to wait for. -/
def Claims.PacketCompletions : Prop :=
  (∀ (d e : Dev) (n index status pa h : Nat) (handle : Word) (r : Ring), r = getRing d n →
    translateRoot d (ringRoot d r) (slotVa r index) .write = .ok pa → region (pa + 192) ≤ 1 → region (pa + 200) ≤ 1 → h = homeNumber d pa 8 → status < 256 →
    e = finishPacket d n index status handle →
      homeNumber e (pa + 192) 8 = h / 2 ^ 32 * 2 ^ 32 + 256 + status ∧ homeNumber e (pa + 200) 8 = handle.toNat ∧
      homeNumber e (pa + 208) 8 = d.tick.toNat ∧ (∀ a, a < pa + 192 ∨ pa + 216 ≤ a → homeByte e a = homeByte d a) ∧
      e.irqs = (if h.testBit 19 then d.irqs ++ [ringMsix r] else d.irqs) ∧ e.rings = d.rings ∧ e.cores = d.cores) ∧
  (∀ (d : Dev) (n : Nat), getRing (advanceHead d n) n = { getRing d n with head := (getRing d n).head + 1 } ∧
    ∀ a, a < d.ctl.ringTab.toNat + 128 * n ∨ d.ctl.ringTab.toNat + 128 * n + 64 ≤ a → homeByte (advanceHead d n) a = homeByte d a) ∧
  (∀ (d : Dev) (n ty : Nat) (c : Cause), (getRing (refusePacket d n ty c) n).head = (getRing d n).head + 1 ∧
    (ty = 1 ∨ ty = 2 → (getRing (refusePacket d n ty c) n).prev = 0))

/-- R346, R348: a packet whose header is refused completes with the cause's code and the ring goes on, whatever its event. The model's choice (log entry
72): a packet of a reserved type completes at NOP_PACKET. -/
def Claims.PacketRefusals : Prop :=
  ∀ (s : State) (n x : Nat) (c : Cause) (e : Instr) (types : List Nat) (f : Dev), readHead s.dev n = .packet x → headerFault s.dev (getRing s.dev n) x = some c →
    (e, types) ∈ [(Instr.nopPacket n, [0, 10, 11, 12, 13, 14, 15]), (.launchPacket n, [1]), (.invoke n, [2]), (.fencePacket n, [3]), (.inval n, [4]),
      (.preempt n, [5]), (.restore n, [6]), (.resume n, [7]), (.slotload n, [8]), (.slotunload n, [9])] →
    pkType x ∈ types → f = advanceHead (finishPacket s.dev n (getRing s.dev n).head.toNat (causeCode c) 0) n →
    exec e s = .next { s with dev := if pkType x = 1 ∨ pkType x = 2 then setRing f n { getRing f n with prev := 0 } else f }

/-- R128, R348: NOP completes, FENCE completes once its dependences are met and stays at HEAD until then (log entry 83), INVAL drops the translations that it
names, and no others, from every TLB and completes: STATUS 0 in its completion word, and HEAD + 1. -/
def Claims.PlainPackets : Prop :=
  ∀ (s : State) (n x : Nat) (r : Ring), r = getRing s.dev n → readHead s.dev n = .packet x → headerFault s.dev r x = none →
    (pkType x = 0 → exec (.nopPacket n) s = .next { s with dev := finishHead s.dev n 0 0 }) ∧
    (pkType x = 3 → (∀ h ∈ packetDeps r x, depMet s.dev h = true) → exec (.fencePacket n) s = .next { s with dev := finishHead s.dev n 0 0 }) ∧
    (pkType x = 3 → (∃ h ∈ packetDeps r x, depMet s.dev h = false) → exec (.fencePacket n) s = .next s) ∧
    (pkType x = 4 → ∃ m, exec (.inval n) s = .next { s with dev := finishHead m n 0 0 } ∧ m = { s.dev with cores := m.cores, bayTlb := m.bayTlb } ∧
      (∀ c, getCore m c = { getCore s.dev c with utlb := (getCore m c).utlb }) ∧
      ∀ (e : TlbEntry) (va count : Nat) (named : Prop), va = pkWord x 64 → count = pkWord x 72 % 2 ^ 32 →
        (named ↔ e.vf = pkWord x 80 % 32 ∧ (count = 0 ∨ (e.va < va + 65536 * count ∧ va < e.va + e.size))) →
        (∀ c, e ∈ (getCore m c).utlb ↔ e ∈ (getCore s.dev c).utlb ∧ ¬ named) ∧
          ∀ b, e ∈ Sparse.get m.bayTlb [] b ↔ e ∈ Sparse.get s.dev.bayTlb [] b ∧ ¬ named)

/-- R328, R348: LAUNCH and INVOKE admit their record, with the dependences of the packet, and the ring goes on with the handle as its previous one; a record
that is refused completes the packet with its cause's code and leaves ORD nothing to wait for, and without room the packet waits. An INVOKE of a slot that
its function does not own completes with RESIDENCY. -/
def Claims.LaunchingPackets : Prop :=
  ∀ (s : State) (n x v : Nat) (r : Ring) (e : Instr) (rec : BitVec 1024) (fault : Option (Cause × Nat)), r = getRing s.dev n → v = ringTenant r →
    readHead s.dev n = .packet x → headerFault s.dev r x = none →
    (((e = .launchPacket n ∧ pkType x = 1 ∧ rec = pkRecord x ∧ fault = recordFault s.dev v (getVf s.dev v).sys rec) ∨
      ∃ p, e = .invoke n ∧ pkType x = 2 ∧ Sparse.find? s.dev.slots (pkWord x 64) = some p ∧ p.owner = v ∧ rec = invokeRecord p.nrec x ∧
        fault = recordFaultBy s.dev v (getVf s.dev v).sys true rec) →
      (∀ c, fault = some c → exec e s = .next { s with dev := refusePacket s.dev n 1 c.1 }) ∧
      (fault = none → canAdmit s.dev v rec = false → exec e s = .next s) ∧
      (fault = none → canAdmit s.dev v rec = true → ∃ t l m, exec e s = .next t ∧ t.dev.launches = Sparse.insert s.dev.launches m l ∧
        getLaunch s.dev m = none ∧ l.nrec = rec ∧ l.tenant = v ∧ l.serial = s.dev.serial ∧ l.deps = packetDeps r x ∧ l.source = .packet n r.head.toNat ∧
        (getRing t.dev n).head = r.head + 1 ∧ (getRing t.dev n).prev = BitVec.ofNat 64 (s.dev.serial * 256 + m))) ∧
    (pkType x = 2 → (∀ p, Sparse.find? s.dev.slots (pkWord x 64) = some p → p.owner ≠ v) →
      exec (.invoke n) s = .next { s with dev := refusePacket s.dev n 2 .residency })

/-- R329, R334, R341, R364, R365, R367: PREEMPT asks a live launch to stop; RESTORE brings a saved one back, to age from this tick where it has no held
point; RESUME lets a suspended stream issue again at EPC (the packet's own completion is that of log entry 84). -/
def Claims.ControlPackets : Prop :=
  ∀ (s : State) (n x : Nat) (r : Ring), r = getRing s.dev n → readHead s.dev n = .packet x → headerFault s.dev r x = none →
    (∀ h l, pkType x = 5 → h = pkWord x 64 → getLaunch s.dev (h % 256) = some l → l.serial = h / 256 → l.saved = false → pkWord x 80 % 64 = 0 →
      pkWord x 88 % 65536 = 0 → coresOf s.dev (h % 256) ≤ pkWord x 96 →
      ∃ t k q, exec (.preempt n) s = .next t ∧ (getRing t.dev n).head = r.head + 1 ∧ getLaunch t.dev (h % 256) = some k ∧ k.preempt = some q ∧
        (n, r.head.toNat) ∈ q.packets ∧ (l.preempt = none → q.forced = x.testBit 576 ∧ q.frontier = pkWord x 80 ∧ q.ctx = pkWord x 88 ∧ q.nctx = pkWord x 96)) ∧
    (∀ m l, pkType x = 6 → pkWord x 64 % 64 = 0 → reloadFrontier s.dev (pkWord x 64) = some (m, l) →
      ∃ t k, exec (.restore n) s = .next t ∧ getLaunch t.dev m = some k ∧ k.saved = false ∧ k.held = l.held ∧ k.rows = l.rows ∧
        (l.held = [] → k.since = s.dev.tick.toNat) ∧ (l.held ≠ [] → k.restores = l.restores ++ [(n, r.head.toNat)]) ∧
        (∀ o, o ≠ m → getLaunch t.dev o = getLaunch s.dev o) ∧ (getRing t.dev n).head = r.head + 1) ∧
    (∀ c i y, pkType x = 7 → c = pkWord x 64 → i = pkWord x 72 % 4 → y = getStream s.dev c i → y.suspended = true → pkWord x 80 % 8 ≤ 1 →
      ∃ t, exec (.resume n) s = .next t ∧ (getStream t.dev c i).suspended = false ∧
        (getStream t.dev c i).pc = (if (pkWord x 104).testBit 0 then BitVec.ofNat 64 (pkWord x 96) else y.sys.epc) ∧ (getRing t.dev n).head = r.head + 1)

/-- R350, R368: SLOTLOAD fills a free slot from its descriptor and clears its persistent region, SLOTUNLOAD frees it once no launch of it remains;
RING_RESUME makes a blocked ring active again and is ignored by any other that owes no completion. -/
def Claims.SlotAndRingEvents : Prop :=
  (∀ (s : State) (n x slot : Nat) (p : Slot), readHead s.dev n = .packet x → headerFault s.dev (getRing s.dev n) x = none → slot = pkWord x 64 % 64 →
    (pkType x = 8 → Sparse.find? s.dev.slots slot = none → pkWord x 80 % 64 = 0 → p = readSlot (pkWord x 72 % 32) (memNat s.dev (pkWord x 80) 256) →
      slotOk s.dev slot (memNat s.dev (pkWord x 80) 256) p = true →
      ∃ t, exec (.slotload n) s = .next t ∧ Sparse.find? t.dev.slots slot = some p ∧
        ∀ c off, c < 160 → (recBays p.nrec).testBit (c / 8) = true → p.poff ≤ off → off < p.poff + p.psize → spmByte t.dev c off = 0) ∧
    (pkType x = 9 → Sparse.find? s.dev.slots slot ≠ none → (∀ l ∈ s.dev.launches, recSlot l.2.nrec ≠ slot) →
      ∃ t, exec (.slotunload n) s = .next t ∧ Sparse.find? t.dev.slots slot = none)) ∧
  (∀ (s : State) (n : Nat), s.dev.boot.phase = .dawn ∨ s.dev.boot.phase = .noon → (getRing s.dev n).state = .blocked → (getRing s.dev n).owed = [] →
    ∃ t, exec (.ringResume n) s = .next t ∧ getRing t.dev n = { getRing s.dev n with state := .active }) ∧
  (∀ (s : State) (n : Nat), (getRing s.dev n).state ≠ .blocked → (getRing s.dev n).owed = [] → exec (.ringResume n) s = .next s)

/-! ### The Onyx die and what lies outside the package (17_host_die_and_links.md) -/

/-- R342, Table 17.1: a write of the control window changes its register; an illegal value is ignored (among them a misaligned base and a size out of its
range: log entry 76), and a write of RING_RESUME is that event. -/
def Claims.ControlWindowWrites : Prop :=
  ∀ (s : State) (off : Nat) (v : Word), s.dev.boot.phase = .dawn ∨ s.dev.boot.phase = .noon →
    (∀ (ok : Bool) (g : Control → Control), (off, ok, g) ∈
        [(0x000, decide (1 ≤ v.toNat ∧ v.toNat < 2 ^ 32), fun c : Control => { c with ageLimit := v.setWidth 32 }),
         (0x008, decide (v.toNat % 65536 = 0), fun c => { c with ringTab := v }), (0x010, decide (v.toNat % 1024 = 0), fun c => { c with vfTab := v }),
         (0x018, decide (v.toNat % 32 = 0), fun c => { c with slipBase := v }), (0x020, decide (v.toNat ≤ 16), fun c => { c with slipLog2n := v.toNat }),
         (0x038, decide (v.toNat % 32 = 0), fun c => { c with evtBase := v }), (0x040, decide (v.toNat ≤ 16), fun c => { c with evtLog2n := v.toNat }),
         (0x060, decide (v.toNat % 4096 = 0), fun c => { c with regTab := v }), (0x068, decide (v.toNat ≤ 65536), fun c => { c with regN := v.toNat }),
         (0x070, decide (v.toNat % 4096 = 0), fun c => { c with faultBuf := v }),
         (0x078, true, fun c => { c with dbgEn := c.dbgEn.extractLsb' 64 96 ++ v }),
         (0x080, true, fun c => { c with dbgEn := c.dbgEn.extractLsb' 128 32 ++ v ++ c.dbgEn.extractLsb' 0 64 }),
         (0x088, true, fun c => { c with dbgEn := v.extractLsb' 0 32 ++ c.dbgEn.extractLsb' 0 128 })] →
      exec (.controlWindowWrite off v) s = .next (if ok then { s with dev := { s.dev with ctl := g s.dev.ctl } } else s)) ∧
    exec (.controlWindowWrite 0x050 v) s = exec (.ringResume v.toNat) s ∧
    (off ∉ [0x000, 0x008, 0x010, 0x018, 0x020, 0x038, 0x040, 0x050, 0x060, 0x068, 0x070, 0x078, 0x080, 0x088] → exec (.controlWindowWrite off v) s = .next s)

/-- R343, R345: a VF record write takes the record, with EN 0 where it is refused (also for a value out of range: log entry 75); a ring that is
enabled becomes active with its new descriptor, reserved bits kept (log entry 113), one that is disabled idle (log entry 157); a
LOG2N of 13 to 15 is ignored with an event. -/
def Claims.FunctionAndRingWrites : Prop :=
  (∀ (s : State) (vf : Nat) (x : BitVec 256), s.dev.boot.phase = .dawn ∨ s.dev.boot.phase = .noon → vf < 32 → ∃ t, exec (.vfRecordWrite vf x) s = .next t ∧
    getVf t.dev vf = { root := (x.extractLsb' 0 64).toNat, sys := x.getLsbD 64, en := x.getLsbD 65 && !vfRefused s.dev vf x.toNat,
                       lquota := (x.extractLsb' 69 9).toNat, tquota := (x.extractLsb' 78 6).toNat, bays := x.extractLsb' 84 20, l2lim := x.extractLsb' 128 32 } ∧
    ∀ o, o ≠ vf → getVf t.dev o = getVf s.dev o) ∧
  (∀ (s : State) (n : Nat) (x : BitVec 1024), s.dev.boot.phase = .dawn ∨ s.dev.boot.phase = .noon → n < 256 → x.getLsbD 24 = false ∨ (x.extractLsb' 12 4).toNat < 13 →
    ∃ t, exec (.ringEnable n x) s = .next t ∧
      getRing t.dev n = { getRing s.dev n with desc := x, state := if x.getLsbD 24 then .active else .idle }) ∧
  (∀ (s : State) (n : Nat) (x : BitVec 1024), s.dev.boot.phase = .dawn ∨ s.dev.boot.phase = .noon → n < 256 → x.getLsbD 24 = true → 13 ≤ (x.extractLsb' 12 4).toNat →
    exec (.ringEnable n x) s = .next { s with dev := writeEvent s.dev 1 n 0 })

/-- R356, R357: DAWN and NEW_BOOT_IMAGE verify an image, NOON a configuration record, and applies it; the signatures' outcome and the fused count are inputs (log
entry 6). A part at power-on or held at Dawn takes no write of system software. -/
def Claims.BootEvents : Prop :=
  ∀ (s : State),
    (∀ e, s.dev.boot.phase = .powerOn ∨ (∃ n, s.dev.boot.phase = .heldAtDawn n) →
      ((∃ off v, e = .controlWindowWrite off v) ∨ (∃ n, e = .ringResume n) ∨ (∃ vf x, e = .vfRecordWrite vf x) ∨ (∃ n x, e = .ringEnable n x) ∨
        (∃ r, e = .noon r) ∨ (∃ i, e = .dawn i ∧ s.dev.boot.phase ≠ .powerOn) ∨ ∃ i, e = .newBootImage i ∧ s.dev.boot.phase = .powerOn) →
      exec e s = .next s) ∧
    (∀ (i : BootImage) (e : Instr) (p : Phase), (e = .dawn i ∧ s.dev.boot.phase = .powerOn) ∨ (e = .newBootImage i ∧ ∃ n, s.dev.boot.phase = .heldAtDawn n) →
      p = (if i.edOk = false then .heldAtDawn 1 else if i.mlOk = false then .heldAtDawn 2 else if i.version < s.dev.boot.fused then .heldAtDawn 3 else .dawn) →
      exec e s = .next { s with dev := { s.dev with boot := { s.dev.boot with phase := p } } }) ∧
    (∀ r : ConfigRecord, s.dev.boot.phase = .dawn →
      (r.edOk = false ∨ r.mlOk = false → exec (.noon r) s = .next s) ∧
      (r.edOk = true → r.mlOk = true → ∃ t, exec (.noon r) s = .next t ∧ t.dev.boot.phase = .noon ∧ t.dev.tick = 0 ∧ t.dev.serial = 1 ∧
        t.dev.boot.bays = r.bays ∧ t.dev.boot.pkgId = r.pkgId ∧ t.dev.boot.roles = r.roles ∧ t.dev.boot.hbm = r.hbm ∧ t.dev.boot.power = r.power ∧
        (∀ i < 16, (getLink t.dev i).up = r.links.getLsbD i) ∧ t.dev.mem = s.dev.mem))

/-- R353, R354, R360: the clock steps by 100 MHz between 1.2 GHz and 1.9 GHz; a thermal reset goes back to Dawn, with memory kept;
links count retries and go down. What a thermal reset empties and keeps is log entry 78's; the writes that a link loses are an input (log entry 38). -/
def Claims.ThermalAndLinkEvents : Prop :=
  ∀ (s : State),
    (∀ temp, s.dev.boot.phase = .noon → s.dev.boot.clockMhz < 1900 →
      ∃ t, exec (.thermalStep true temp) s = .next t ∧ t.dev.boot.clockMhz = s.dev.boot.clockMhz + 100) ∧
    (∀ temp, s.dev.boot.phase = .noon → 1200 < s.dev.boot.clockMhz →
      ∃ t, exec (.thermalStep false temp) s = .next t ∧ t.dev.boot.clockMhz = s.dev.boot.clockMhz - 100) ∧
    (s.dev.boot.phase = .noon → ∃ t, exec .thermalReset s = .next t ∧ t.dev.boot.phase = .dawn ∧ t.dev.cores = [] ∧ t.dev.launches = [] ∧
      t.dev.slots = [] ∧ t.dev.watches = [] ∧ t.dev.mem = s.dev.mem ∧ t.dev.rings = s.dev.rings ∧ t.dev.vfs = s.dev.vfs) ∧
    (∀ i < 16, (getLink s.dev i).up = true →
      (∃ t, exec (.flitRetry i) s = .next t ∧ getLink t.dev i = { getLink s.dev i with retries := (getLink s.dev i).retries + 1 }) ∧
      ∀ lost, (∀ a, s.dev.ctl.evtBase.toNat ≤ a → a < s.dev.ctl.evtBase.toNat + 32 * 2 ^ s.dev.ctl.evtLog2n → region a ≤ 1) →
        ∃ t, exec (.linkDown i lost) s = .next t ∧ getLink t.dev i = { getLink s.dev i with up := false, dropped := (getLink s.dev i).dropped + lost })

/-- R355, R359: a member whose successor has not reached a step within TIMEOUT ticks of its own reaching it raises a ring timeout, which writes its status
word with that step, the least that has raised none; a ring abort writes the status word of every reachable member (groups are defined from outside: log entry
35). An uncorrectable error poisons its site, a corrected one is counted. -/
def Claims.RingAndErrorEvents : Prop :=
  ∀ (s : State),
    (∀ g m r a b k τ, Sparse.find? s.dev.groups g = some r → r.members[m]? = some a → r.members[(m + 1) % r.members.length]? = some b →
      (m, (k, τ)) ∈ r.reached → (m, k) ∉ r.raised → τ + r.timeout ≤ s.dev.tick.toNat → memNat s.dev b.1 8 < k →
      (∀ j σ, (m, (j, σ)) ∈ r.reached → (m, j) ∉ r.raised → σ + r.timeout ≤ s.dev.tick.toNat → memNat s.dev b.1 8 < j → k ≤ j) →
      ∃ d e, exec (.ringTimeout g m) s = .next { s with dev := d } ∧
        e = { s.dev with groups := Sparse.insert s.dev.groups g { r with raised := r.raised ++ [(m, k)] } } ∧
        d = writeEvent (homeStore e a.2 (Bits.toBytes 8 (2 ^ 62 + k))) 4 g (BitVec.ofNat 64 k)) ∧
    (∀ g m r, Sparse.find? s.dev.groups g = some r → (∀ k τ, (m, (k, τ)) ∈ r.reached → (m, k) ∈ r.raised) → exec (.ringTimeout g m) s = .next s) ∧
    (∀ g m r a, Sparse.find? s.dev.groups g = some r → r.members[m]? = some a → ∃ d k, exec (.ringAbort g m) s = .next { s with dev := d } ∧
      (∀ b ∈ r.members, k ≤ stepWord s.dev b) ∧ (∃ b ∈ r.members, k = stepWord s.dev b) ∧
      d = writeEvent ((r.members.filter fun b => !linkCut s.dev b.2).foldl (fun d b => homeStore d b.2 (Bits.toBytes 8 (2 ^ 63 + k))) s.dev) 5 g (BitVec.ofNat 64 k)) ∧
    (∀ x, ∃ t, exec (.uncorrectableError (.sector x)) s = .next t ∧ x ∈ t.dev.poison) ∧
    (∀ c g, c < 160 → g < 65536 → ∃ t, exec (.uncorrectableError (.spm c g)) s = .next t ∧ g ∈ (getCore t.dev c).poisonSpm) ∧
    (∀ c x, c < 160 → x < 163840 → ∃ t, exec (.uncorrectableError (.vreg c x)) s = .next t ∧ x ∈ (getCore t.dev c).poisonV) ∧
    (∀ c x, c < 160 → (∃ j < 64, l1Has (getCore s.dev c) (64 * x + j) = true) →
      ∃ t, exec (.uncorrectableError (.l1 c x)) s = .next t ∧ x ∈ (getCore t.dev c).poisonL1) ∧
    (∀ c site, c < 160 → (∃ x, site ∈ [ErrSite.spm c x, .vreg c x, .mask c x, .acc c x, .bnd c x, .icache c x, .l1 c x]) →
      ∃ t, exec (.correctedError site) s = .next t ∧ (getCore t.dev c).ceCount =
        if (getCore s.dev c).ceCount = BitVec.allOnes 32 then BitVec.allOnes 32 else (getCore s.dev c).ceCount + 1)

/-- R351, R353: DMA of system software (32 in a request: log entry 79) and writes from another package are performed at the homes; a
remote ATOM leaves its new word, a remote read the state as it was (log entry 80). R132, R344: what another package publishes at TENANT of a function, or at
SYSTEM, is posted to that board of this package (log entry 158). -/
def Claims.OutsideWrites : Prop :=
  (∀ (s : State) (va : Word) (l : List Byte) (e : Instr), s.dev.boot.phase = .noon → l ≠ [] →
    (e = .inboundDmaWrite 32 va l ∧ hasIo s.dev = true ∧ region va.toNat ≠ 3 ∧ linkCut s.dev va.toNat = false) ∨
      (e = .remoteLinkRequest (.write va.toNat l) ∧ (∃ i < 16, (getLink s.dev i).up = true) ∧ region va.toNat ≤ 1) →
    ∃ t, exec e s = .next t ∧ (∀ a, homeByte t.dev a =
      if va.toNat ≤ a ∧ a < va.toNat + l.length then l.getD (a - va.toNat) 0 else homeByte s.dev a) ∧ t.dev.cores = s.dev.cores) ∧
  (∀ (s : State) (pa n : Nat), s.dev.boot.phase = .noon → (∃ i < 16, (getLink s.dev i).up = true) → region pa ≤ 1 →
    exec (.remoteLinkRequest (.read pa n)) s = .next s) ∧
  (∀ (s : State) (vf : Option Nat) (g : BitVec 512) (b : Nat), s.dev.boot.phase = .noon → (∃ i < 16, (getLink s.dev i).up = true) →
    b = (match vf with | some n => 8 + n | none => 5) → (∀ n, vf = some n → n < 32) →
    ∃ t, exec (.remoteLinkRequest (.post vf g)) s = .next t ∧ t.dev = { s.dev with boards := t.dev.boards } ∧
      (getBoard t.dev b).head = (getBoard s.dev b).head + 1 ∧ (getBoard t.dev b).sigs = (g :: (getBoard s.dev b).sigs).take 64 ∧
      ∀ o, o ≠ b → getBoard t.dev o = getBoard s.dev o) ∧
  (∀ (s : State) (op pa : Nat) (wide uns : Bool) (x e : Word) (w : Nat), s.dev.boot.phase = .noon → (∃ i < 16, (getLink s.dev i).up = true) →
    region pa ≤ 1 → w = (if wide then 64 else 32) → pa % (w / 8) = 0 → homePoisoned s.dev pa (w / 8) = false → op < 8 →
    ∃ t, exec (.remoteLinkRequest (.atom op wide uns pa x e)) s = .next t ∧
      BitVec.ofNat w (memNat t.dev pa (w / 8)) =
        atomBits (BitVec.ofNat 3 op) uns (BitVec.ofNat w (memNat s.dev pa (w / 8))) (x.setWidth w) (e.setWidth w) ∧ t.dev.cores = s.dev.cores)

/-- R13 to R30, R136, R219, R221, R257 to R265: what engines do when a command starts, works and completes. -/
def Obligations.EngineEvents : Prop :=
  Claims.CommandStarts ∧ Claims.CommandCompletions ∧ Claims.CopyVisibility ∧ Claims.BlocksAndPieces ∧ Claims.Combinations ∧ Claims.ContributionsAndLeases

/-- R168 to R171, R211 to R277: what k-blocks, tiles, copy pieces and KV commands leave. -/
def Obligations.EngineData : Prop :=
  Claims.ProductBlocks ∧ Claims.ProductForms ∧ Claims.AccumulatorTiles ∧ Claims.CopyPieces ∧ Claims.KvEffects ∧ Claims.KvWalks

/-- R21, R27, R38, R76 to R79, R130, R131, R152, R289, R300: the other events of a core. -/
def Obligations.CoreEvents : Prop :=
  Claims.FaultEvents ∧ Claims.CoreAccessEvents ∧ Claims.WatchEvents ∧ Claims.Firings

/-- R31, R74, R317, R318, R321 to R325, R330 to R333, R360, R362: the events of the dispatchers. -/
def Obligations.DispatcherEvents : Prop :=
  Claims.TimetableEvents ∧ Claims.PointDispatches ∧ Claims.PointsAndLaunchesDone ∧ Claims.Saves ∧ Claims.RegisteredPushes

/-- R128, R328, R329, R334, R341, R346, R347, R348, R350, R364, R365, R367, R368: the packets of launch rings. -/
def Obligations.PacketEvents : Prop :=
  Claims.PacketCompletions ∧ Claims.PacketRefusals ∧ Claims.PlainPackets ∧ Claims.LaunchingPackets ∧ Claims.ControlPackets ∧ Claims.SlotAndRingEvents

/-- R342, R343, R345, R351, R353 to R357, R359, R360: the Onyx die and what lies outside the package. -/
def Obligations.PartEvents : Prop :=
  Claims.ControlWindowWrites ∧ Claims.FunctionAndRingWrites ∧ Claims.BootEvents ∧ Claims.ThermalAndLinkEvents ∧ Claims.RingAndErrorEvents ∧ Claims.OutsideWrites

/-! ### What vector commands leave (08) -/

/-- R194 to R196: VLD takes the bits that lie at its address, VLDS one element at each stride, VGATH one at each offset of its index register, VMLD one bit for
each lane of a mask: active lanes take them, the others are zero under MZ and are otherwise kept. Nothing else of the core changes but the TLB. -/
def Claims.VectorLoads : Prop :=
  ∀ (d : Dev) (c : Nat) (o : VecOp) (r : Run) (v : VecCtx) (k : Core) (x : Cmd) (e : TlbEntry) (p : Place) (out : EngOut), v = vecCtx c o r → r.step = 0 →
    x = r.cmd → x.f.fn.getLsbD 5 = false → k = getCore d c → Unpoisoned k → cmdPlace d c x x.regS1 = some p → out = runVector d c o r →
    (o = .vld → PlaceReadable d c e ((v.n * v.wd + 7) / 8) p → out.fault = none ∧
      RegWritten k (getCore out.dev c) v (physVec x.split x.stream x.f.d.toNat) fun i => bitsAt (placeBit d e p) (i * v.wd) v.wd) ∧
    (o = .vlds → 8 ≤ v.wd →
      (∀ i, activeLane k v i = true → PlaceReadable d c e (v.wd / 8) (movePlace p (i * x.regS2.toInt))) → out.fault = none ∧
      RegWritten k (getCore out.dev c) v (physVec x.split x.stream x.f.d.toNat) fun i => bitsAt (placeBit d e (movePlace p (i * x.regS2.toInt))) 0 v.wd) ∧
    (o = .vgath → 8 ≤ v.wd → ∀ u : Nat → Int, (∀ i, u i = (regElem k (physVec x.split x.stream x.f.s2.toNat) 32 i : Nat)) →
      (∀ i, activeLane k v i = true → PlaceReadable d c e (v.wd / 8) (movePlace p (u i)) ∧ PlaceAligned d (v.wd / 8) (movePlace p (u i))) →
      out.fault = none ∧
      RegWritten k (getCore out.dev c) v (physVec x.split x.stream x.f.d.toNat) fun i => bitsAt (placeBit d e (movePlace p (u i))) 0 v.wd) ∧
    (o = .vmld → PlaceReadable d c e ((v.n + 7) / 8) p → ∀ m, m = physMask x.split x.stream x.f.d.toNat → out.fault = none ∧
      MaskWritten k (getCore out.dev c) v.n m fun i =>
        if activeLane k v i then placeBit d e p i else if engMz x.f then false else maskLane k m i)

/-- R194, R195: VST writes the bits of its active elements from its address on in a scratchpad, and no other bit; VSCAT writes each active element at its
offset, a later one over an earlier one. -/
def Claims.VectorStores : Prop :=
  ∀ (d : Dev) (c t off : Nat) (own : Bool) (o : VecOp) (r : Run) (v : VecCtx) (k : Core) (x : Cmd) (out : EngOut) (src : Nat → Nat), v = vecCtx c o r →
    r.step = 0 → x = r.cmd → x.f.fn.getLsbD 5 = false → k = getCore d c → Unpoisoned k → cmdPlace d c x x.regD = some (.spm t off own) →
    out = runVector d c o r → (∀ i, src i = regElem k (physVec x.split x.stream x.f.s1.toNat) v.wd i) →
    (o = .vst → out.fault = none ∧ (∀ pa, homeByte out.dev pa = homeByte d pa) ∧ ∀ q a, ∀ j < 8, ∀ b, b = 8 * (a - off) + j →
      (spmByte out.dev q a).getLsbD j =
        if q = t ∧ off ≤ a ∧ activeLane k v (b / v.wd) = true then (src (b / v.wd)).testBit (b % v.wd) else (spmByte d q a).getLsbD j) ∧
    (o = .vscat → ∀ (n : Nat) (u : Nat → Nat), n = v.wd / 8 → 8 ≤ v.wd → (∀ i, u i = regElem k (physVec x.split x.stream x.f.s2.toNat) 32 i) →
      (∀ i, activeLane k v i = true → PlaceAligned d n (.spm t (off + u i) own)) → out.fault = none ∧
      (∀ pa, homeByte out.dev pa = homeByte d pa) ∧
      (∀ i, activeLane k v i = true → (∀ j, i < j → activeLane k v j = true → u j + n ≤ u i ∨ u i + n ≤ u j) →
        ∀ b < n, (spmByte out.dev t (off + u i + b)).toNat = src i / 256 ^ b % 256) ∧
      ∀ q a, (q ≠ t ∨ ∀ i, activeLane k v i = true → a < off + u i ∨ off + u i + n ≤ a) → spmByte out.dev q a = spmByte d q a)

/-- R194, R195, Table 8.7: VST and VSCAT to global memory, whose bytes lie under one translation: the same bits and bytes, at the homes, and no others. -/
def Claims.GlobalVectorStores : Prop :=
  ∀ (d : Dev) (c va : Nat) (o : VecOp) (r : Run) (v : VecCtx) (k : Core) (x : Cmd) (e : TlbEntry) (out : EngOut) (src : Nat → Nat), v = vecCtx c o r →
    r.step = 0 → x = r.cmd → x.f.fn.getLsbD 5 = false → k = getCore d c → Unpoisoned k → cmdPlace d c x x.regD = some (.global va) →
    out = runVector d c o r → (∀ i, src i = regElem k (physVec x.split x.stream x.f.s1.toNat) v.wd i) →
    (o = .vst → Reaches d c e .write va ((v.n * v.wd + 7) / 8) → out.fault = none ∧ (∀ q a, spmByte out.dev q a = spmByte d q a) ∧
      ∀ a, ∀ j < 8, ∀ b, b = 8 * (a - physical e va) + j → (homeByte out.dev a).getLsbD j =
        if physical e va ≤ a ∧ activeLane k v (b / v.wd) = true then (src (b / v.wd)).testBit (b % v.wd) else (homeByte d a).getLsbD j) ∧
    (o = .vscat → ∀ (n : Nat) (u : Nat → Nat), n = v.wd / 8 → 8 ≤ v.wd → (∀ i, u i = regElem k (physVec x.split x.stream x.f.s2.toNat) 32 i) →
      (∀ i, activeLane k v i = true → (va + u i) % n = 0 ∧ Reaches d c e .write (va + u i) n) → out.fault = none ∧
      (∀ q a, spmByte out.dev q a = spmByte d q a) ∧
      (∀ i, activeLane k v i = true → (∀ j, i < j → activeLane k v j = true → u j + n ≤ u i ∨ u i + n ≤ u j) →
        ∀ b < n, (homeByte out.dev (physical e (va + u i) + b)).toNat = src i / 256 ^ b % 256) ∧
      ∀ a, (∀ i, activeLane k v i = true → a < physical e (va + u i) ∨ physical e (va + u i) + n ≤ a) → homeByte out.dev a = homeByte d a)

/-- R201, R203, R204: VCVT, without a bound vector, converts each active element; VDQNT multiplies each by the bf16 scale of its block of 32; VQNT, without
bounds, writes a scale for each block, the largest magnitude over QMAX rounded up (1 for a block of zeros, and for one of no active element: log entry 130),
and the quotients converted; a block that holds an infinity or a NaN has the scale and the values that R203 names. Where D = S2 the scales are written last. -/
def Claims.VectorConversions : Prop :=
  ∀ (d : Dev) (c : Nat) (o : VecOp) (r : Run) (v : VecCtx) (k m : Core) (x : Cmd) (out : EngOut) (rd r1 r2 : Nat), v = vecCtx c o r → r.step = 0 →
    x = r.cmd → x.f.fn.getLsbD 5 = false → x.f.modS1 = 0 → x.f.modD = 0 → engBv x.f = false → k = getCore d c → Unpoisoned k →
    out = runVector d c o r → m = getCore out.dev c → rd = physVec x.split x.stream x.f.d.toNat → r1 = physVec x.split x.stream x.f.s1.toNat →
    r2 = physVec x.split x.stream x.f.s2.toNat →
    (o = .vcvt → out.fault = none ∧ RegWritten k m v rd fun i =>
      (convert v.tyD (rmodeOfField (x.f.s3.toNat / 16 % 8) x.frm) (elemValue v.tyS (regElem k r1 v.w1 i))).bits) ∧
    (o = .vdqnt → out.fault = none ∧ RegWritten k m v rd fun i =>
      (finish .f32 x.frm (mulExact (elemValue v.tyS (regElem k r1 v.w1 i)) (elemValue .bf16 (regElem k r2 16 (i / 32))))).bits) ∧
    (o = .vqnt → ∀ (el : Nat → FVal) (mag : FVal → ℚ) (clear : Nat → Prop), (∀ i, el i = elemValue .f32 (regElem k r1 32 i)) → (∀ n q, mag (.fin n q) = q) →
      (∀ i, clear i ↔ (rd = r2 → 16 * ((v.n + 31) / 32) ≤ i * v.wd)) → out.fault = none ∧
      (∀ i < v.n, clear i → activeLane k v i = false → regElem m rd v.wd i = if engMz x.f then 0 else regElem k rd v.wd i) ∧
      (∀ p i, p ≠ rd → p ≠ r2 → i < 2048 → regElem m p 32 i = regElem k p 32 i) ∧
      ∀ j, 32 * j < v.n → ∀ act : Nat → Prop, (∀ i, act i ↔ i / 32 = j ∧ activeLane k v i = true) →
        ((∃ i, act i ∧ fvalFinite (el i) = false) → regElem m r2 16 j = 0x7FC0 ∧
          ∀ i, act i → clear i → regElem m rd v.wd i = if v.tyD = .e4m3 then 0x7F else if v.tyD = .pt8 then 0x77 else 0) ∧
        ∀ a : ℚ, (∀ i, act i → fvalFinite (el i) = true ∧ mag (el i) ≤ a) → (a = 0 ∨ ∃ i, act i ∧ mag (el i) = a) →
          regElem m r2 16 j = (if a = 0 then 0x3F80 else (roundFloat .bf16 .rup (.fin false (a / qmax v.tyD))).bits) ∧
          ∀ i n q sv, act i → clear i → el i = .fin n q → elemValue .bf16 (regElem m r2 16 j) = .fin false sv →
            regElem m rd v.wd i = (convert v.tyD x.frm (.fin n (q / sv))).bits)

/-- R199, R200, R205, R206: MLOGIC writes the eight functions of two masks; VTRN transposes; AREAD reads accumulator words, converted to its type, into a
register; AWRITE writes its active elements as words, bf16 and f16 widened to f32 as a conversion does (log entry 110), the lo words of a pair as 0, and
clears the bound cells that it overwrites whole. -/
def Claims.VectorMoves : Prop :=
  ∀ (d : Dev) (c : Nat) (o : VecOp) (r : Run) (v : VecCtx) (k m : Core) (x : Cmd) (out : EngOut) (rd r1 : Nat), v = vecCtx c o r → r.step = 0 →
    x = r.cmd → x.f.fn.getLsbD 5 = false → k = getCore d c → Unpoisoned k → out = runVector d c o r → m = getCore out.dev c →
    rd = physVec x.split x.stream x.f.d.toNat → r1 = physVec x.split x.stream x.f.s1.toNat →
    (o = .mlogic → ∀ (op : Nat) (g : Bool → Bool → Bool), op = x.f.s3.toNat % 8 →
      (op, g) ∈ [(0, fun a b : Bool => a && b), (1, fun a b => a || b), (2, fun a b => a ^^ b), (3, fun a b => a && !b), (4, fun a _ => !a),
        (5, fun a _ => a), (6, fun _ _ => true), (7, fun _ _ => false)] → out.fault = none ∧
      MaskWritten k m v.n (physMask x.split x.stream x.f.d.toNat) fun i =>
        g (maskLane k (physMask x.split x.stream x.f.s1.toNat) i) (maskLane k (physMask x.split x.stream x.f.s2.toNat) i)) ∧
    (o = .vtrn → ∀ cols rows, cols = x.regS2.toNat % 65536 → rows = v.n / cols → 0 < cols → out.fault = none ∧
      (∀ i < rows * cols, regElem m rd v.wd i = regElem k r1 v.wd (i % rows * cols + i / rows)) ∧
      ∀ p i, p ≠ rd ∨ rows * cols ≤ i → i < 65536 / v.wd → regElem m p v.wd i = regElem k p v.wd i) ∧
    (∀ (a w : Nat), w = 128 * (x.regS2.toNat % 256) →
      (o = .aread → a = physAcc x.split x.stream x.f.s1.toNat → out.fault = none ∧ RegWritten k m v rd fun i =>
        let hi := Sparse.get k.acc 0 (32768 * a + w + i)
        let lo := Sparse.get k.acc 0 (32768 * partner a + w + i)
        let mode := rmodeOfField (x.f.s3.toNat % 8) x.frm
        if v.tyD = .i32 then hi.toNat
        else (finish v.tyD mode (if precOf k a = .i32 then { val := elemValue .i32 hi.toNat }
          else if precOf k a = .a2x32 then addExact mode (elemValue .f32 hi.toNat) (elemValue .f32 lo.toNat)
          else { val := elemValue .f32 hi.toNat })).bits) ∧
      (o = .awrite → a = physAcc x.split x.stream x.f.d.toNat → w + v.n ≤ 32768 → out.fault = none ∧ m.vreg = k.vreg ∧
        (∀ i < v.n, Sparse.get m.acc 0 (32768 * a + w + i) =
          if activeLane k v i then BitVec.ofNat 32 (if v.tyD = .bf16 ∨ v.tyD = .f16 then
            (roundFloat .f32 .rne (elemValue v.tyD (regElem k r1 v.wd i))).bits else regElem k r1 v.wd i)
          else Sparse.get k.acc 0 (32768 * a + w + i)) ∧
        (precOf k a = .a2x32 → ∀ i < v.n, Sparse.get m.acc 0 (32768 * partner a + w + i) =
          if activeLane k v i then 0 else Sparse.get k.acc 0 (32768 * partner a + w + i)) ∧
        (∀ q, (q < 32768 * a + w ∨ 32768 * a + w + v.n ≤ q) →
          (precOf k a ≠ .a2x32 ∨ q < 32768 * partner a + w ∨ 32768 * partner a + w + v.n ≤ q) → Sparse.get m.acc 0 q = Sparse.get k.acc 0 q) ∧
        ∀ n < 128, ((∀ i j, InCell n i j → w ≤ 128 * i ∧ activeLane k v (128 * i + j - w) = true) → bndCell m a n = 0) ∧
          (¬ (∀ i j, InCell n i j → w ≤ 128 * i ∧ activeLane k v (128 * i + j - w) = true) → bndCell m a n = bndCell k a n)))

/-- R194 to R196, R199 to R206: the effect of the vector engine's loads and stores, masks, conversions and moves, run from their first step on registers and
scratchpads without poison. -/
def Obligations.VectorDataMoves : Prop :=
  Claims.VectorLoads ∧ Claims.VectorStores ∧ Claims.GlobalVectorStores ∧ Claims.VectorConversions ∧ Claims.VectorMoves

/-! ### Bound files (10) -/

/-- R171, R232, R234: how a bound cell grows at a k-block: to +inf where an element holds an infinity or a NaN, or was clamped; by the input term; and by 2^(E-24),
or 2^(E-23) in a directed mode, E being the largest exponent among the new words that were rounded inexactly; each sum is the least ub16 value at or above
it. A cell is not changed by a block without planes in which nothing is rounded inexactly. -/
def Claims.CellGrowth : Prop :=
  (∀ (p : Precision) (mode : RMode) (t : Option (BitVec 16)) (els : List AccEl) (b u g : BitVec 16) (special : Prop), g = growCell p mode t els b →
    (special ↔ ∃ e ∈ els, wordSpecial e.hi = true ∨ wordSpecial e.lo = true) →
    (p ≠ .i32 → (special → g = 0xFF00) ∧
      (¬ special → (t = none → u = b) → (∀ x, t = some x → LeastUb16 u (boundAdd (ub16Value b) (ub16Value x))) →
        ((∀ e ∈ els, e.ex = none) → g = u) ∧
        ∀ E : Int, (∃ e ∈ els, e.ex = some E) → (∀ e ∈ els, ∀ F, e.ex = some F → F ≤ E) →
          LeastUb16 g (boundAdd (ub16Value u) (.fin ((2 : ℚ) ^ (E - 24 + if mode = .rne then 0 else 1)))))) ∧
    (p = .i32 → ((∃ e ∈ els, e.clamped = true) → u = 0xFF00) → ((∀ e ∈ els, e.clamped = false) → u = b) →
      (t = none → g = u) ∧ ∀ x, t = some x → LeastUb16 g (boundAdd (ub16Value u) (ub16Value x)))) ∧
  (∀ (mode : RMode) (w : BitVec 32) (x : Exact) (r : Rounded), r = finish .f32 mode (addExact mode (elemValue .f32 w.toNat) x.val) →
    (accA32 mode w x).hi = BitVec.ofNat 32 r.bits ∧ (r.flags.nx = false → (accA32 mode w x).ex = none) ∧
    ∀ n m, r.flags.nx = true → elemValue .f32 r.bits = .fin n m → ∃ E : Int, (accA32 mode w x).ex = some E ∧
      (m < (2 : ℚ) ^ (-126 : Int) → E = -126) ∧ ((2 : ℚ) ^ (-126 : Int) ≤ m → (2 : ℚ) ^ E ≤ m ∧ m < (2 : ℚ) ^ (E + 1))) ∧
  ∀ (ba bb ma mb x y z u w : BitVec 16), LeastUb16 x (boundMul (ub16Value ba) (ub16Value mb)) → LeastUb16 y (boundMul (ub16Value ma) (ub16Value bb)) →
    LeastUb16 z (boundMul (ub16Value ba) (ub16Value bb)) → LeastUb16 u (boundAdd (ub16Value x) (ub16Value y)) →
    LeastUb16 w (boundAdd (ub16Value u) (ub16Value z)) → LeastUb16 (inputTerm ba bb ma mb) (boundMul (.fin 32) (ub16Value w))

/-- The value of an element at a bit of a dense operand region, times its block scale at another; none where one of them is not finite (R168, R169, R211). -/
def Claims.scaledElement (bit : Nat → Bool) (t : Ty) (scaled : Bool) (data scale : Nat) : Option ℚ :=
  let x := elemValue t (bitsAt bit data (tyWidth t))
  let s := if scaled then elemValue .bf16 (bitsAt bit scale 16) else .fin false 1
  if fvalFinite x && fvalFinite s then some (fvalRat x * fvalRat s) else none

/-- μ of R234: the least ub16 value at or above the largest magnitude of lines 16g to 16g + 15 over the live terms of a k-block, +inf where one is not finite. -/
def Claims.IsMagnitude (val : Nat → Nat → Option ℚ) (g live : Nat) (u : BitVec 16) : Prop :=
  ((∃ i m, 16 * g ≤ i ∧ i < 16 * g + 16 ∧ m < live ∧ val i m = none) → u = 0xFF00) ∧
  ∀ M : ℚ, (∀ i m, 16 * g ≤ i → i < 16 * g + 16 → m < live → ∃ x, val i m = some x ∧ |x| ≤ M) →
    (M = 0 ∨ ∃ i m x, 16 * g ≤ i ∧ i < 16 * g + 16 ∧ m < live ∧ val i m = some x ∧ |x| = M) → LeastUb16 u (.fin M)

/-- R234, Table 9.1: the input term of cell n at k-block q of a product of dense operands with a plane: from the entries of the planes, 0 where there is none, and
the magnitudes of the cell's rows of A and columns of B. -/
def Claims.IsInputTerm (d : Dev) (c q n : Nat) (r : Run) (t : BitVec 16) : Prop :=
  ∀ (e : TlbEntry) (pa pb : Place) (nb kv live da db : Nat) (ba bb ma mb : BitVec 16) (sa sb : Bool), matSparse r.cmd = false →
    cmdPlace d c r.cmd r.cmd.regS1 = some pa → cmdPlace d c r.cmd r.cmd.regS2 = some pb → nb = (matK r.cmd + 31) / 32 →
    kv = (if r.cmd.f.fn.getLsbD 2 then min (matK r.cmd) r.cmd.vcnt else matK r.cmd) → live = min 32 (kv - 32 * q) →
    sa = (matPrec r.cmd ≠ .i32 && decide (r.tyA ∈ [Ty.pt8, .i8, .i4, .e4m3])) → sb = (matPrec r.cmd ≠ .i32 && decide (r.tyB ∈ [Ty.pt8, .i8, .i4, .e4m3])) →
    da = 1024 * tyWidth r.tyA → db = 512 * tyWidth r.tyB →
    PlaceReadable d c e (nb * (da + (if sa then 512 else 0) + if matPa r.cmd then 32 else 0)) pa →
    PlaceReadable d c e (nb * (db + (if sb then 256 else 0) + if matPb r.cmd then 16 else 0)) pb →
    ba = (if matPa r.cmd then BitVec.ofNat 16 (bitsAt (placeBit d e pa) (8 * (nb * (da + if sa then 512 else 0) + 32 * q + 2 * (n / 8))) 16) else 0) →
    bb = (if matPb r.cmd then BitVec.ofNat 16 (bitsAt (placeBit d e pb) (8 * (nb * (db + if sb then 256 else 0) + 16 * q + 2 * (n % 8))) 16) else 0) →
    Claims.IsMagnitude (fun i m => Claims.scaledElement (placeBit d e pa) r.tyA sa (8 * da * q + (32 * i + m) * tyWidth r.tyA)
      (8 * (nb * da + 512 * q + 2 * i))) (n / 8) live ma →
    Claims.IsMagnitude (fun j m => Claims.scaledElement (placeBit d e pb) r.tyB sb (8 * db * q + (32 * j + m) * tyWidth r.tyB)
      (8 * (nb * db + 256 * q + 2 * j))) (n % 8) live mb →
    t = inputTerm ba bb ma mb

/-- R230, R232, R234, R240, R242, R245: after a k-block every cell has grown from the elements that it covers, and the lowest cell that exceeds its threshold decides:
with none the product goes on; in the first run of a REISSUE accumulator and bound file go back to their checkpoint, in A2X32, and the product starts again;
otherwise BOUND_TRAP is pending, with STEP and ISW as Table 10.3 has them, and accumulator and bound file as the k-block left them. Which run is
a first one was settled at the pickup, by the mode as it then stood: log entry 121. -/
def Claims.ThresholdActions : Prop :=
  ∀ (s : State) (c age a q : Nat) (r : Run) (k m : Core) (o : BlockOut), liveRun s.dev c age = some r → blocksLeft r = true →
    arrayTurn (getCore s.dev c) r = true → r.picked = true → k = getCore s.dev c → matNames r.cmd = some a → q = r.step →
    applyBlock s.dev c a q r = .ok o → m = getCore o.dev c →
    (∃ els : Nat → Nat → AccEl, (∀ i < 256, ∀ j < 128, accWord m a i j = (els i j).hi ∧ ∃ x,
        els i j = accStep (precOf k a) r.cmd.frm (accWord k a i j) (if precOf k a = .a2x32 then accWord k (partner a) i j else 0) x) ∧
      ∀ n < 128, ∃ l t, (∀ e, e ∈ l ↔ ∃ i j, InCell n i j ∧ e = els i j) ∧ (matPa r.cmd = false → matPb r.cmd = false → t = none) ∧
        (matPa r.cmd = true ∨ matPb r.cmd = true → ∃ x, t = some x ∧ Claims.IsInputTerm s.dev c q n r x) ∧
        bndCell m a n = growCell (precOf k a) r.cmd.frm t l (bndCell k a n)) ∧
    ((∀ n < 128, ¬ CellExceeds m a n) → ∃ t v, exec (.kBlock c age) s = .next t ∧ (getCore t.dev c).acc = m.acc ∧ (getCore t.dev c).bnd = m.bnd ∧
      findRun (getCore t.dev c) age = some v ∧ v.step = q + 1) ∧
    ∀ n < 128, CellExceeds m a n → (∀ j < n, ¬ CellExceeds m a j) →
      (r.phase = .first → ∃ t v, exec (.kBlock c age) s = .next t ∧ findRun (getCore t.dev c) age = some v ∧ v.step = 0 ∧ v.phase = .rerun ∧
        (∀ i < 256, ∀ j < 128, accWord (getCore t.dev c) a i j = accWord m (partner a) i j ∧ accWord (getCore t.dev c) (partner a) i j = 0) ∧
        (∀ j < 128, bndCell (getCore t.dev c) a j = bndCell m (partner a) j ∧ bndCell (getCore t.dev c) (partner a) j = bndCell m (partner a) j) ∧
        precOf (getCore t.dev c) a = .a2x32 ∧ precOf (getCore t.dev c) (partner a) = .clear) ∧
      (r.phase ≠ .first → r.cmd.firing = none → ∃ t f, exec (.kBlock c age) s = .next t ∧ (getCore t.dev c).acc = m.acc ∧
        (getCore t.dev c).bnd = m.bnd ∧ f ∈ (getStream t.dev c r.cmd.stream).faults ∧ f.cause = .boundTrap ∧ f.link = some r.cmd.age ∧ f.eaddr = 0 ∧
        f.estat.toNat = ((if r.phase = .rerun then 2 ^ 15 else 0) + a * 2 ^ 11 + nibble k.bmode a % 4 * 2 ^ 9 + n) % 2 ^ 16 * 2 ^ 32 + q % 2 ^ 32)

/-- R207, R228: BRD reads the 128 cells into a register and BWR writes them from one; ABOUND get stores them, set replaces them, max takes the larger and add the
least ub16 value at or above the sum, each +inf written as 0xFF00; that a cell that BWR left above 0xFF00 is stored so too is log entry 124's. -/
def Claims.BoundMoves : Prop :=
  ∀ (d : Dev) (c a : Nat) (r : Run) (k m : Core) (x : Cmd) (out : EngOut), x = r.cmd → k = getCore d c → Unpoisoned k →
    m = getCore out.dev c →
    (x.f.fn.getLsbD 5 = false → a = physAcc x.split x.stream x.f.s1.toNat → out = runVector d c .brd r → ∀ p, p = physVec x.split x.stream x.f.d.toNat → out.fault = none ∧
      (∀ i < 128, regElem m p 16 i = (bndCell k a i).toNat) ∧
      (∀ q i, q ≠ p ∨ 128 ≤ i → i < 4096 → regElem m q 16 i = regElem k q 16 i) ∧ m = { k with vreg := m.vreg, poisonV := m.poisonV }) ∧
    (x.f.fn.getLsbD 5 = false → a = physAcc x.split x.stream x.f.d.toNat → out = runVector d c .bwr r → out.fault = none ∧
      (∀ i < 128, (bndCell m a i).toNat = regElem k (physVec x.split x.stream x.f.s1.toNat) 16 i) ∧
      (∀ b ≠ a, ∀ i < 128, bndCell m b i = bndCell k b i) ∧ m = { k with bnd := m.bnd, poisonB := m.poisonB }) ∧
    (matNames x = some a → out = runMatrix d c .abound r → ∀ off op, off = x.regS1.toNat % 2 ^ 22 → op = x.f.imm.extractLsb' 24 2 → out.fault = none ∧
      (op = 3 → ∀ i < 128, spmNumber out.dev c (off + 2 * i) 2 = min 0xFF00 (bndCell k a i).toNat) ∧
      ∀ i < 128, ∀ e : BitVec 16, e.toNat = spmNumber d c (off + 2 * i) 2 →
        (op = 0 → bndCell m a i = if e.toNat < 0xFF00 then e else 0xFF00) ∧
        (op = 1 → (bndCell m a i).toNat = min 0xFF00 (max (bndCell k a i).toNat e.toNat)) ∧
        (op = 2 → LeastUb16 (bndCell m a i) (boundAdd (ub16Value (bndCell k a i)) (ub16Value e))))

/-- R207, R228, R230 to R234, R240, R242, R245: bound files: growth, test, the actions of BMODE, and the commands that move them. -/
def Obligations.BoundFiles : Prop :=
  Claims.CellGrowth ∧ Claims.ThresholdActions ∧ Claims.BoundMoves

/-! ### Bytes, bundles and the whole machine (03_encoding.md, 04_sequencer.md) -/

/-- R46, R62, R63, R102: the bytes at the pc, as the instruction cache holds them, are the instruction that issues. -/
def Claims.BytesAreFetched : Prop :=
  (∀ (d e : Dev) (core pc n : Nat) (l : List Byte) (i : Instr), e = withSector d core (pc / 64) →
    Sparse.find? (getCore e core).icache (pc / 64) = some (.bytes l) → decode ((l.drop (pc % 64)).take n) = .ok (i, n) →
    fetchAt d core pc = (e, .word i n)) ∧
  (∀ (d e g : Dev) (core pc n : Nat) (l r : List Byte) (i : Instr), e = withSector d core (pc / 64) → g = withSector e core (pc / 64 + 1) →
    Sparse.find? (getCore e core).icache (pc / 64) = some (.bytes l) → Sparse.find? (getCore g core).icache (pc / 64 + 1) = some (.bytes r) →
    pc % 64 < l.length → l.length < pc % 64 + n → decode ((l.drop (pc % 64) ++ r).take n) = .ok (i, n) →
    fetchAt d core pc = (g, .word i n))

/-- R46, R63, R75: when the instruction at the pc of the stream whose turn it is passes its checks and stands alone in its bundle, a step is exec of it, on
the device with the pc after it, with its registers read from the device before it (but for the delay slots of a transfer, which WholeBundle states). -/
def Claims.OneInstruction : Prop :=
  ∀ (s : State) (c i n : Nat) (r : List Turn) (d : Dev) (pc : Word) (x : Instr), s.agenda = .issue c i :: r → canIssue s.dev c i = true →
    pc = (getStream s.dev c i).pc → pc.extractLsb' 60 4 = 0 → pc.getLsbD 0 = false → fetchAt s.dev c pc.toNat = (d, .word x n) →
    legal (getCore s.dev c).split x = true → isTransfer x = false → (∀ f, x ≠ .install f) → (getStream s.dev c i).delay.bind (·.group.head?) = none →
    ((getCore s.dev c).split = true ∨ ((fieldsOf x).fin = true ∧ compositionOk [(0, x)] = true)) →
    step s = mapNext (exec x { s with
      agenda := r, pre := d, status := .going,
      dev := modStream d c i fun t => { t with pc := BitVec.ofNat 64 (pc.toNat + n), waitAxis := [], wait := none },
      cur := { core := c, stream := i, slot := 0, pc := pc, bundle := pc, next := BitVec.ofNat 64 (pc.toNat + n),
               after := BitVec.ofNat 64 (pc.toNat + n), body := none } }) fun u => noteWait [(0, pc, x)] (afterBundle u)

/-- R46, R47, R60, R63, R64, R103: a bundle of several instructions runs them one after another, each on what the ones before it left; a bundle that fails
a check takes its fault and nothing of it runs; the delay slots of a transfer run as they were decoded with it. The order of the slots (TWAITs after the
others where a TPOST stands) is log entry 17's, that tokens and sync words are seen slot after slot log entry 1's, and that the first slot that faults or
stalls decides log entry 105's. A bundle with TWAITs that stalls, at whichever slot, notes
its slots and since when its stream waits; one that begins to wait takes an age (R24, log entry 125). -/
def Claims.WholeBundle : Prop :=
  (∀ (s : State) (c i : Nat) (r : List Turn) (pc : Word) (g : Gathered), s.agenda = .issue c i :: r → canIssue s.dev c i = true →
    (getStream s.dev c i).delay.bind (·.group.head?) = none → pc = (getStream s.dev c i).pc → pc.extractLsb' 60 4 = 0 → pc.getLsbD 0 = false → g = gatherAt s.dev c (getCore s.dev c).split pc →
    (g.fault = none → ∀ t, t = { s with
        agenda := r, pre := g.dev, status := .going, dev := modStream g.dev c i fun t => { t with pc := g.next, waitAxis := [], wait := none },
        cur := { core := c, stream := i, pc := pc, bundle := pc, next := g.next, after := g.after, body := (splitBody g.items).2 } } →
      step s = mapNext (runSlots (slotOrder t (splitBody g.items).1) t) fun u => noteWait (splitBody g.items).1 (keepGroup g.group (afterBundle u))) ∧
    (∀ f, g.fault = some f → f.poison = none →
      step s = .next (takeFault f.cause f.eaddr 0 f.epc
        { s with agenda := r, pre := g.dev, dev := g.dev, cur := { core := c, stream := i, pc := pc, bundle := pc } }))) ∧
  (∀ (s : State) (c i : Nat) (r : List Turn) (b : GroupBundle) (t : State), s.agenda = .issue c i :: r → canIssue s.dev c i = true →
    (getStream s.dev c i).delay.bind (·.group.head?) = some b →
    t = { s with agenda := r, pre := s.dev, status := .going, dev := modStream s.dev c i fun t => { t with pc := b.next, wait := none },
                 cur := { core := c, stream := i, pc := b.pc, bundle := b.pc, next := b.next, after := b.next } } →
    step s = mapNext (runSlots (slotOrder t b.slots) t) fun u => noteWait b.slots (afterBundle u)) ∧
  (∀ (l : List (Nat × Word × Instr)) (slot : Nat) (a : Word) (x : Instr) (u v : State),
    (u.status = .going → exec x { u with cur := { u.cur with slot := slot, pc := a } } = .next v → runSlots ((slot, a, x) :: l) u = runSlots l v) ∧
    (u.status ≠ .going → runSlots l u = .next u)) ∧
  (∀ (g : List GroupBundle) (s : State) (x : Delay), s.status = .going → (preStream s).delay = some x → g ≠ [] →
    OnlyStream s (keepGroup g s) fun t => { t with delay := some { x with group := g } }) ∧
  (∀ (l : List (Nat × Word × Instr)) (s : State),
    (s.status ≠ .stalled → noteWait l s = s) ∧
    (∀ ts, s.status = .stalled →
      ts = l.flatMap (fun x => match x.2.2 with
        | .twait f => if gateOpen f s then [f.d.toNat] else []
        | .twaitB2 _ m _ => [m.toNat]
        | _ => []) →
      (ts = [] → OnlyStream s (noteWait l s) fun t => { t with wait := none }) ∧
      (ts ≠ [] → OnlyCore s (noteWait l s) fun c =>
        modCoreStream { c with nextAge := if (preStream s).wait = none then c.nextAge + 1 else c.nextAge } s.cur.stream fun t =>
          { t with wait := some (waitAge s, l) })))

/-- R102, R104: what follows a bundle that went on: the second bundle after a transfer is followed by the transfer, the others by the next address. Where another
stream of the point has stopped at a DBGBRK within the group, the stop is taken at the group's end, with EPC there (R278). -/
def Claims.DelaySlots : Prop :=
  ∀ (s : State), s.status = .going →
    ((preStream s).delay = none → afterBundle s = s) ∧
    (∀ x, (preStream s).delay = some x → 1 < x.left → OnlyStream s (afterBundle s) fun t => { t with delay := some { x with left := x.left - 1, group := x.group.drop 1 } }) ∧
    (∀ x, (preStream s).delay = some x → x.left ≤ 1 → x.target = none →
      ∃ m, afterBundle s = groupEnd m ∧ OnlyStream s m fun t => { t with delay := none }) ∧
    (∀ x w, (preStream s).delay = some x → x.left ≤ 1 → x.target = some w → w.extractLsb' 60 4 = 0 → w.getLsbD 0 = false →
      ∃ m, afterBundle s = groupEnd m ∧ OnlyStream s m fun t => { t with delay := none, pc := w }) ∧
    ((∀ p q, (curStream s).point = some p → q ∈ placesOf s.dev p → (getStream s.dev q.1 q.2).debugStop = false) → groupEnd s = s) ∧
    (∀ p q, (curStream s).point = some p → q ∈ placesOf s.dev p → (getStream s.dev q.1 q.2).debugStop = true → OnlyStream s (groupEnd s) fun t =>
      if t.run = .running ∧ t.suspended = false then { t with sys := { t.sys with epc := t.pc } } else t)

/-- The model's own account of time (log entry 2): turns of the agenda, and of a machine without one, where a turn of the stream in focus and a turn of the
device's own events come one after the other; a turn of system software sets a legal TICK_PERIOD (R71) or a ring group 0 to 15 (R355; log entries 7, 35). The focus goes round the streams that can issue, and an event of a core that can happen comes to be the one that does. -/
def Claims.Turns : Prop :=
  (∀ (s : State) (e : Instr) (r : List Turn), s.agenda = .event e :: r → isEncoded e = false → step s = exec e { s with agenda := r }) ∧
  (∀ (s : State) (v : Word) (r : List Turn), s.agenda = .system (.tickPeriod v) :: r →
    s.dev.boot.phase = .dawn ∨ s.dev.boot.phase = .noon →
    step s = .next { s with agenda := r, dev := { s.dev with
      tickPeriod := if 190 ≤ v.toNat ∧ v.toNat ≤ 0xFFFFFFFF then BitVec.ofNat 32 v.toNat else s.dev.tickPeriod } }) ∧
  (∀ (s : State) (w : SystemWrite) (r : List Turn), s.agenda = .system w :: r → s.dev.boot.phase = .powerOn ∨ (∃ n, s.dev.boot.phase = .heldAtDawn n) →
    step s = .next { s with agenda := r }) ∧
  (∀ (s : State) (g n : Nat) (l : List (Nat × Nat)) (r : List Turn), s.agenda = .system (.ringGroup g l n) :: r →
    s.dev.boot.phase = .dawn ∨ s.dev.boot.phase = .noon →
    ∃ m, step s = .next { s with agenda := r, dev := { s.dev with groups := m } } ∧ (16 ≤ g → m = s.dev.groups) ∧
      (g < 16 → Sparse.find? m g = if l = [] then none else some { members := l, timeout := n, reached := [], raised := [] }) ∧
      ∀ h, h ≠ g → Sparse.find? m h = Sparse.find? s.dev.groups h) ∧
  (∀ (s : State), s.agenda = [] → s.turn % 2 = 1 → step s = .next (idleTurn { s with turn := s.turn + 1 })) ∧
  (∀ (s t : State), s.agenda = [] → s.turn % 2 = 0 → step { s with agenda := [.issue s.focus.1 s.focus.2], turn := s.turn + 1 } = .next t →
    step s = .next (moveFocus (if t.status = .stalled then idleTurn t else t))) ∧
  (∀ (s : State) (f : Nat) (p : Nat × Nat), Sparse.sorted s.dev.cores = true → issuers s.dev ≠ [] → f = 4 * s.focus.1 + s.focus.2 →
    p = (moveFocus s).focus → canIssue s.dev p.1 p.2 = true ∧
      (∀ q : Nat × Nat, (∃ k, (q.1, k) ∈ s.dev.cores) → q.2 < 4 → canIssue s.dev q.1 q.2 = true →
        (f < 4 * p.1 + p.2 → 4 * q.1 + q.2 ≤ f ∨ 4 * p.1 + p.2 ≤ 4 * q.1 + q.2) ∧
        (4 * p.1 + p.2 ≤ f → 4 * q.1 + q.2 ≤ f ∧ 4 * p.1 + p.2 ≤ 4 * q.1 + q.2))) ∧
  (∀ (d : Dev) (n : Nat), (∃ e ∈ (agentEvents d (n / 5)).flatten, (e d).isSome = true) →
    ∃ e ∈ (agentEvents d (n / 5)).flatten, ownEvent d n = e d ∧ (e d).isSome = true) ∧
  (∀ (d x : Dev) (n c : Nat) (e : Dev → Option Dev), Sparse.sorted d.cores = true → c < 160 → (∃ k, (c, k) ∈ d.cores) → e ∈ coreEvents c → e d = some x →
    ∃ m, n ≤ m ∧ ownEvent d m = some x)

/-- R46, R47, R60, R62, R63, R64, R75, R102, R104: a step runs the instruction that the bytes at the pc decode to; bundles, delay slots and turns. -/
def Obligations.StepRunsTheBundle : Prop :=
  Claims.BytesAreFetched ∧ Claims.OneInstruction ∧ Claims.WholeBundle ∧ Claims.DelaySlots ∧ Claims.Turns

/-- Words that the manual writes out decode to the instructions that they stand for (03, 05 to 18; the KV word is put together from Table 3.3). -/
def Obligations.WordsOfTheManual : Prop :=
  decode [0x84, 0x82, 0x18, 0x00] = .ok (.ld { fin := false, d := 2, s1 := 3 }, 4) ∧
  decode [0x18, 0x4F] = .ok (.addiB2 false 4 15, 2) ∧
  decode [0xA8, 0xE0, 0x00, 0x02] = .ok (.publish { imm := 2 }, 4) ∧
  decode [0xAB, 0x60, 0x38, 0x02] = .ok (.ftset { s1 := 7, imm := 2 }, 4) ∧
  decode [0xD7, 0x00, 0x03, 0x04, 0x20, 0x00] = .ok (.vadd { d := 3, s1 := 1, s2 := 2 }, 6) ∧
  decode [0xB6, 0x60, 0x00, 0x00] = .ok (.aclr {}, 4) ∧
  decode [0xF6, 0xC0, 0x00, 0x00, 0x03, 0x04, 0x05, 0x00, 0x11, 0x00, 0x00, 0x00] =
    .ok (.mma { s1 := 3, s2 := 4, s3 := 5, imm := 0x11000000 }, 12) ∧
  decode [0xDC, 0x00, 0x04, 0x0C, 0x90, 0x00] = .ok (.cpy { d := 4, s1 := 3, s2 := 9 }, 6) ∧
  decode [0xAC, 0x60, 0x00, 0x01] = .ok (.slcommit { imm := 1 }, 4) ∧
  decode [0xBC, 0x09, 0x22, 0x80] = .ok (.launch { d := 9, s1 := 4, s2 := 10 }, 4) ∧
  decode [0xE9, 0x20, 0x02, 0x28, 0x0A, 0x01, 0xFF, 0xFC] =
    .ok (.ld { pred := 1, d := 20, s1 := 5, imm := 0xFFFFFFFC }, 8) ∧
  decode [0xBA, 0x01, 0x10, 0xC0] = .ok (.kvmap { d := 1, s1 := 2, s2 := 3 }, 4)

/-- R35, R36, R40, R42, R58: every encoded instruction comes back from its bytes whole, whatever bytes follow. -/
def Obligations.EncodedInstructionsDecode : Prop :=
  ∀ (i : Instr) (rest : List Byte), isEncoded i = true → shortLimits i = true → decode (encode i ++ rest) = .ok (i, (encode i).length)

/-- R39, R41, R42: a short form acts as the wide form of its internal word does and passes the same checks; no form shorter than the encoder's carries an
internal word. -/
def Obligations.InternalWords : Prop :=
  (∀ (i w : Instr) (opc : Nat) (f : Fields) (s : State) (split : Bool), internalOf i = some (opc, f) → shortLimits i = true → ofOpcode opc f = some w →
    exec i s = exec w s ∧ legal split i = legal split w) ∧
  (∀ (bytes : List Byte) (i : Instr) (n : Nat), decode bytes = .ok (i, n) → shortOf i = none → (encode i).length ≤ n)

/-- R35, R41, R58: what is no instruction, and why. -/
def Obligations.RefusedWords : Prop :=
  (∀ (b : Byte) (r : List Byte), 248 ≤ b.toNat → decode (b :: r) = .error .reservedPrefix) ∧
  (∀ (b c : Byte) (r : List Byte), b.toNat < 128 → 16 ≤ b.toNat / 2 % 32 → decode (b :: c :: r) = .error .badShort) ∧
  (∀ (form : Form) (opc : Nat) (f : Fields) (rest : List Byte), form ≠ .b2 → formFits form opc f = true → ofOpcode opc f = none →
    decode (Bits.toBytesBE (formLen form) (wideWord form opc f) ++ rest) = .error (.reservedOpcode opc (formLen form) f.fin)) ∧
  (∀ (opc : Nat) (f : Fields), opc < 256 → (ofOpcode opc f = none ↔
    opc ∈ [0x1F, 0x3F, 0x4F, 0x5F, 0x9E, 0x9F, 0xD6, 0xD7, 0xD8, 0xD9, 0xDA, 0xDB, 0xDC, 0xDD, 0xDE, 0xDF] ∨ (0x2C ≤ opc ∧ opc ≤ 0x2F) ∨
    (0x68 ≤ opc ∧ opc ≤ 0x6F) ∨ (0xA5 ≤ opc ∧ opc ≤ 0xAF) ∨ (0xB7 ≤ opc ∧ opc ≤ 0xBF) ∨ (0xC8 ≤ opc ∧ opc ≤ 0xCF) ∨ 0xE3 ≤ opc))

/-- R33, R45, R47, R60: an instruction that fails a decode check raises ILLEGAL_INSTRUCTION; one whose gate is 0 changes nothing, but that the delay slots of
a transfer follow. -/
def Obligations.FailedChecksAndClosedGates : Prop :=
  ∀ (i : Instr) (s : State), isEncoded i = true →
    (legal (isSplit s) i = false → exec i s = .next (faultAt .illegalInstruction 0 s)) ∧
    (legal (isSplit s) i = true → gateOpen (fieldsOf i) s = false →
      (isTransfer i = false → exec i s = .next s) ∧
      (isTransfer i = true → ∃ t, exec i s = .next t ∧ OnlyStream s t (setDelay s.cur.pc none))) ∧
    (gateOpen (fieldsOf i) s = false ↔ (fieldsOf i).pred ≠ 0 ∧ (preStream s).gates.getLsbD ((fieldsOf i).pred.toNat - 1) = false)

/-- R71, R356, Tables 4.5, 4.6 and 17.1: the machine at power-on: no stream runs, no launch is admitted. The model's choice (log entries 4, 5): the
registers hold at power-on what a point's dispatch gives them, a register with no such value holds 0, and a byte that nothing has written reads 0. -/
def Obligations.ResetState : Prop :=
  MemoryCanonical State.reset ∧ State.reset.dev.boot.phase = .powerOn ∧ State.reset.dev.tick = 0 ∧ State.reset.dev.tickPeriod = 1900 ∧
  State.reset.dev.ctl.ageLimit = 1000 ∧ State.reset.dev.launches = [] ∧ (∀ c i, canIssue State.reset.dev c i = false) ∧
  (∀ c i x, x = (getStream State.reset.dev c i).sys → x.inh = false ∧ x.fpend = false ∧ x.ppend = false ∧ x.cause = 0 ∧ x.epc = 0 ∧ x.ecmd = 0 ∧
    x.eeng = 0 ∧ x.estat = 0 ∧ x.eaddr = 0 ∧ x.frm = .rne ∧ x.fflags = 0 ∧ x.vl = 0 ∧ x.vcnt = 0xFFFFFFFF ∧ x.leaseLen = 16 ∧ x.gen = 0 ∧
    x.trapVec = 0 ∧ x.deleg = 0) ∧
  (∀ c n, getToken (getCore State.reset.dev c) n = { count := 0, ceiling := 0xFFFF }) ∧
  (∀ c a, bthOf (getCore State.reset.dev c) a = 0xFF00 ∧ precOf (getCore State.reset.dev c) a = .clear) ∧
  (∀ c u r, scalarIn State.reset.dev c u r = 0 ∧ addressIn State.reset.dev c u r = 0) ∧ ∀ pa, homeByte State.reset.dev pa = 0

/-- Every step, whatever its turn, keeps memory in canonical form. -/
def Obligations.StepKeepsMemoryCanonical : Prop :=
  ∀ (s t : State), MemoryCanonical s → step s = .next t → MemoryCanonical t

/-! ### Engines at work (07, 08, 09) -/

/-- Table 9.4: the product columns, where none is a conflict. -/
def Claims.productColumn (x : Precision) (p : MatPrec) : Option Precision :=
  match x, p with
  | .clear, .a32 | .a32, .a32 => some .a32
  | .clear, .i32 | .i32, .i32 => some .i32
  | .clear, .a2x32 | .a32, .a2x32 | .a2x32, .a32 | .a2x32, .a2x32 => some .a2x32
  | .a32, .i32 | .a2x32, .i32 | .i32, .a32 | .i32, .a2x32 => none

/-- R216, R226, R227, R231: what the pickup of a matrix command makes of its accumulator's state and of its bound cells, and the faults of a claim and of a
conflict. -/
def Obligations.PrecisionTransitions : Prop :=
  ∀ (k : Core) (o : MatOp) (r : Run) (a : Nat), matNames r.cmd = some a →
    (claimed k a = true → matPickup k o r = (k, r, some { cause := .illegalInstruction, step := 0, isw := 2, eaddr := 0 })) ∧
    (claimed k a = false →
      (o = .mma ∨ o = .mmas → Claims.productColumn (precOf k a) (matPrec r.cmd) = none →
        matPickup k o r = (k, r, some { cause := .illegalInstruction, step := 0, isw := 1, eaddr := 0 })) ∧
      (∀ p, o = .mma ∨ o = .mmas → Claims.productColumn (precOf k a) (matPrec r.cmd) = some p → ∃ l q, matPickup k o r = (l, q, none) ∧
        precOf l a = p ∧ (∀ w, 32768 * a ≤ w → w < 32768 * a + 32768 → Sparse.get l.acc 0 w = Sparse.get k.acc 0 w) ∧
        (∀ w, 128 * a ≤ w → w < 128 * a + 128 → Sparse.get l.bnd 0 w = Sparse.get k.bnd 0 w) ∧
        (p = .a2x32 → precOf k a ≠ .a2x32 → claimed l (partner a) = true ∧
          ∀ w, 32768 * partner a ≤ w → w < 32768 * partner a + 32768 → Sparse.get l.acc 0 w = 0)) ∧
      (o = .mmaz → ∃ l q, matPickup k o r = (l, q, none) ∧ Claims.productColumn .clear (matPrec r.cmd) = some (precOf l a) ∧
        (∀ w, 32768 * a ≤ w → w < 32768 * a + 32768 → Sparse.get l.acc 0 w = 0) ∧ ∀ w, 128 * a ≤ w → w < 128 * a + 128 → Sparse.get l.bnd 0 w = 0) ∧
      (o = .aclr → ∃ l q, matPickup k o r = (l, q, none) ∧ precOf l a = .clear ∧
        (∀ w, 32768 * a ≤ w → w < 32768 * a + 32768 → Sparse.get l.acc 0 w = 0) ∧ ∀ w, 128 * a ≤ w → w < 128 * a + 128 → Sparse.get l.bnd 0 w = 0) ∧
      (o = .aload → ∃ l q, matPickup k o r = (l, q, none) ∧ precOf l a = (if r.tyA = .i32 then .i32 else .a32) ∧
        (∀ w, 128 * a ≤ w → w < 128 * a + 128 → Sparse.get l.bnd 0 w = 0) ∧
        (∀ w, 32768 * a ≤ w → w < 32768 * a + 32768 → Sparse.get l.acc 0 w = Sparse.get k.acc 0 w) ∧
        (precOf k a = .a2x32 → armed k a = false → precOf l (partner a) = .clear ∧
          (∀ w, 32768 * partner a ≤ w → w < 32768 * partner a + 32768 → Sparse.get l.acc 0 w = 0) ∧
          ∀ w, 128 * partner a ≤ w → w < 128 * partner a + 128 → Sparse.get l.bnd 0 w = 0)) ∧
      (o = .astore ∨ o = .abound → matPickup k o r = (k, { r with picked := true }, none)))

/-- R191 to R193, R197, Tables 8.5 and 8.6: what the vector engine makes of integer elements. -/
def Claims.IntegerElements : Prop :=
  (∀ (v : VecCtx) (x y d : Nat) (sel : Bool) (w : Nat), tyInt v.tyD = true → w = tyWidth v.tyD → v.wd = w → x < 2 ^ w → y < 2 ^ w →
    (∀ (o : VecOp) (op : AluOp), (o, op) ∈ [(VecOp.viadd, if (ctxX v).testBit 0 then AluOp.sadd else .add), (.visub, if (ctxX v).testBit 0 then .ssub else .sub),
        (.vand, .and), (.vor, .or), (.vxor, .xor), (.vimul, if (ctxX v).testBit 1 then .mulh else .mul)] → v.o = o →
      (o = .vimul → (ctxX v).testBit 1 = true ∨ (ctxX v).testBit 0 = false) →
      (vecElem v x y d sel).bits = (aluBits op (tySigned v.tyD) (BitVec.ofNat w x) (BitVec.ofNat w y)).toNat) ∧
    (∀ n, n = (if (ctxX v).testBit 7 then ctxX v % 64 else y) →
      (v.o = .vshl → (vecElem v x y d sel).bits = (BitVec.ofNat w x <<< n).toNat) ∧
      (v.o = .vshr → (vecElem v x y d sel).bits =
        if tySigned v.tyD then ((BitVec.ofNat w x).sshiftRight n).toNat else (BitVec.ofNat w x >>> n).toNat)) ∧
    (v.o = .vpopc → (vecElem v x y d sel).bits = (List.range w).countP fun j => x.testBit j) ∧
    (v.o = .vsel → (vecElem v x y d sel).bits = if sel then x else y) ∧ (v.o = .vmov → (vecElem v x y d sel).bits = x)) ∧
  (∀ (t : Ty) (x y w : Nat) (a b : BitVec w), tyInt t = true → w = tyWidth t → x < 2 ^ w → y < 2 ^ w → a = BitVec.ofNat w x → b = BitVec.ofNat w y →
    icmp 0 t x y = (a == b) ∧ icmp 1 t x y = (a != b) ∧
    icmp 2 t x y = (if tySigned t then a.slt b else a.ult b) ∧ icmp 3 t x y = (if tySigned t then a.sle b else a.ule b) ∧
    icmp 4 t x y = (if tySigned t then b.slt a else b.ult a) ∧ icmp 5 t x y = (if tySigned t then b.sle a else b.ule a) ∧
    icmp 6 t x y = (a &&& b != 0) ∧ icmp 7 t x y = (a &&& b == 0)) ∧
  (∀ (t : Ty) (l : List (Bool × Nat)) (i : Nat), tyInt t = true → i < l.length → ∀ s : Nat → Nat,
    s = (fun n => ((l.take n).map fun p => if p.1 then p.2 else 0).sum % 2 ^ tyWidth t) →
    (scanFrom t false false 0 l)[i]? = some (s (i + 1)) ∧ (scanFrom t false true 0 l)[i]? = some (s i)) ∧
  (∀ (t : Ty) (mode : RMode) (l : List (Option Nat)), tyInt t = true → l.length ≤ 16384 → (∀ b, some b ∈ l → b < 2 ^ tyWidth t) →
    (reduce 0 t mode l).bits = (l.map fun x => x.getD 0).sum % 2 ^ tyWidth t)

/-- R158, R166, R173, R174, R190, R191, Tables 7.7 and 8.5: what the vector engine makes of floating-point elements: the exact result rounded once, with the
flags of round; NaN operands and the special ones. -/
def Claims.FloatElements : Prop :=
  (∀ (v : VecCtx) (x y d : Nat) (sel : Bool) (a b c : FVal) (X Y Z : ℚ) (gives : FVal → Flags → Prop), tyFloat v.tyD = true →
    a = elemValue v.tyD x → b = elemValue v.tyD y → c = elemValue v.tyD d → X = fvalRat a → Y = fvalRat b → Z = fvalRat c →
    (∀ z g, gives z g ↔ vecElem v x y d sel = { bits := (roundFloat v.tyD v.x.frm z).bits, flags := g.or (roundFloat v.tyD v.x.frm z).flags }) →
    (fvalFinite a = true → fvalFinite b = true → (v.o = .vfma → fvalFinite c = true) →
      (∀ o z, (o, z) ∈ [(VecOp.vadd, X + Y), (.vsub, X - Y), (.vmul, X * Y), (.vfma, X * Y + Z), (.vmax, max X Y), (.vmin, min X Y)] → v.o = o → z ≠ 0 →
        gives (fvalOfRat z) {}) ∧
      (v.o = .vmax → X = 0 → Y = 0 → gives (.fin (fvalNeg a && fvalNeg b) 0) {}) ∧ (v.o = .vmin → X = 0 → Y = 0 → gives (.fin (fvalNeg a || fvalNeg b) 0) {}) ∧
      (v.o = .vdiv → X ≠ 0 → Y ≠ 0 → gives (fvalOfRat (X / Y)) {}) ∧
      (v.o = .vdiv → X ≠ 0 → Y = 0 → gives (.inf (fvalNeg a != fvalNeg b)) { dz := true }) ∧ (v.o = .vdiv → X = 0 → Y = 0 → gives (.nan false) { nv := true })) ∧
    (fvalFinite a = true →
      (v.o = .vabs → gives (.fin false |X|) {}) ∧ (v.o = .vneg → gives (.fin (!fvalNeg a) |X|) {}) ∧
      (v.o = .vscale → ∀ k : Int, k = (BitVec.ofNat (tyWidth v.tyD) y).toInt → X ≠ 0 → |k| ≤ 1024 → gives (fvalOfRat (X * 2 ^ k)) {}) ∧
      (v.o = .vrcp → X ≠ 0 → gives (fvalOfRat (1 / X)) {}) ∧ (v.o = .vrcp ∨ v.o = .vrsq → X = 0 → gives (.inf (fvalNeg a)) { dz := true }) ∧
      (v.o = .vlog2 → X = 0 → gives (.inf true) { dz := true }) ∧ (v.o = .vsqrt → X = 0 → gives a {}) ∧
      (v.o = .vsqrt ∨ v.o = .vrsq ∨ v.o = .vlog2 → X < 0 → gives (.nan false) { nv := true }) ∧
      (v.o = .vexp2 → ∀ k : Int, X = k → |k| ≤ 1000 → gives (.fin false (2 ^ k)) {}) ∧ (v.o = .vlog2 → ∀ k : Int, X = 2 ^ k → gives (fvalOfRat k) {})) ∧
    (∀ p : Bool, a = .inf p →
      (v.o = .vadd → fvalFinite b = true → gives (.inf p) {}) ∧ (v.o = .vadd → b = .inf (!p) → gives (.nan false) { nv := true }) ∧
      (v.o = .vmul ∨ v.o = .vfma → fvalFinite b = true → Y = 0 → gives (.nan false) { nv := true }) ∧
      (v.o = .vmul → fvalFinite b = true → Y ≠ 0 → gives (.inf (p != fvalNeg b)) {}) ∧ (v.o = .vdiv → fvalFinite b = true → gives (.inf (p != fvalNeg b)) {}) ∧
      (v.o = .vdiv → ∀ q, b = .inf q → gives (.nan false) { nv := true }) ∧ (v.o = .vexp2 → gives (if p then .fin false 0 else .inf false) {}) ∧
      (v.o = .vrcp → gives (.fin p 0) {}) ∧ (v.o = .vsqrt ∨ v.o = .vrsq ∨ v.o = .vlog2 → p = true → gives (.nan false) { nv := true })) ∧
    (∀ (o : VecOp) (l : List FVal), (o, l) ∈ [(VecOp.vadd, [a, b]), (.vsub, [a, b]), (.vmul, [a, b]), (.vdiv, [a, b]), (.vmax, [a, b]), (.vmin, [a, b]),
        (.vsqrt, [a]), (.vexp2, [a]), (.vlog2, [a]), (.vrcp, [a]), (.vrsq, [a]), (.vabs, [a]), (.vneg, [a]), (.vscale, [a]), (.vfma, [a, b, c])] → v.o = o →
      l.any fvalIsNan = true → (o = .vfma → fvalIsNan a = true ∨ fvalIsNan b = true ∨ (fvalFinite a = true ∧ fvalFinite b = true)) →
      vecElem v x y d sel = { bits := cnan v.tyD, flags := { nv := l.any fvalIsSNan } })) ∧
  (∀ (n : Nat) (a b : FVal), n < 8 → (fvalIsNan a = true ∨ fvalIsNan b = true →
      fcmp n a b = (decide (n = 1 ∨ n = 6), decide (2 ≤ n ∧ n ≤ 5) || fvalIsSNan a || fvalIsSNan b)) ∧
    ∀ X Y : ℚ, fvalFinite a = true → fvalFinite b = true → X = fvalRat a → Y = fvalRat b → fcmp n a b =
      (if n = 0 then decide (X = Y) else if n = 1 then decide (X ≠ Y) else if n = 2 then decide (X < Y) else if n = 3 then decide (X ≤ Y)
       else if n = 4 then decide (Y < X) else if n = 5 then decide (Y ≤ X) else decide (n = 7), false)) ∧
  (∀ (t : Ty) (mode : RMode) (l m : List (Option Nat)) (j : Nat) (p q : FVal), tyFloat t = true → l.length = 2 ^ j → m.length = 2 ^ j → j ≤ 13 →
    p = elemValue t (reduce 0 t mode l).bits → q = elemValue t (reduce 0 t mode m).bits →
    (reduce 0 t mode (l ++ m)).bits = (finish t mode (addExact mode p q)).bits)

/-- R180, R181, R189 to R193, R197 to R199: the destination receives these results where the command is active: registers, the scratchpad range of an S-form, a
mask; VRED and VSEGRED write the roots of their lanes and segments, MPOPC its count. -/
def Claims.VectorResults : Prop :=
  ∀ (d : Dev) (c : Nat) (o : VecOp) (r : Run) (v : VecCtx) (k m : Core) (x : Cmd) (out : EngOut) (rd r1 r2 : Nat) (vc : Nat → Bool), v = vecCtx c o r →
    r.step = 0 → 0 < v.n → x = r.cmd → x.f.modS1 = 0 → x.f.modS2 = 0 → x.f.modD = 0 → k = getCore d c → Unpoisoned k → out = runVector d c o r →
    m = getCore out.dev c → rd = physVec x.split x.stream x.f.d.toNat → r1 = physVec x.split x.stream x.f.s1.toNat → r2 = physVec x.split x.stream x.f.s2.toNat →
    (∀ i, vc i = (decide (i < v.n) && (!engVc x.f || decide (i < x.vcnt)))) →
    (o ∈ [VecOp.vadd, .vsub, .vmul, .vfma, .vmax, .vmin, .vdiv, .vsqrt, .vexp2, .vlog2, .vrcp, .vrsq, .vabs, .vneg, .vscale, .viadd, .visub, .vimul, .vand,
        .vor, .vxor, .vshl, .vshr, .vpopc, .vmov] →
      (x.f.fn.getLsbD 5 = false → ∀ res : Nat → Rounded, (∀ i, res i = vecElem v (regElem k r1 v.wd i) (regElem k r2 v.wd i) (regElem k rd v.wd i) false) →
        out.fault = none ∧ RegWritten k m v rd (fun i => (res i).bits % 2 ^ v.wd) ∧
        ∀ g ∈ [Flags.nv, Flags.dz, Flags.of, Flags.uf, Flags.nx], g out.flags = true ↔ ∃ i, activeLane k v i = true ∧ g (res i).flags = true) ∧
      (x.f.fn.getLsbD 5 = true → ∀ (off : Nat) (el : Word → Nat → Nat) (e : TlbEntry), off = x.regD.toNat % 2 ^ 22 →
        (∀ a i, el a i = bitsAt (placeBit d e (.spm c (a.toNat % 2 ^ 22) true)) (i * v.wd) v.wd) → out.fault = none ∧ m.vreg = k.vreg ∧
        (∀ pa, homeByte out.dev pa = homeByte d pa) ∧ ∀ q a, ∀ j < 8, ∀ b i, b = 8 * (a - off) + j → i = b / v.wd → (spmByte out.dev q a).getLsbD j =
          if q = c ∧ off ≤ a ∧ activeLane k v i = true then (vecElem v (el x.regS1 i) (el x.regS2 i) (el x.regD i) false).bits.testBit (b % v.wd)
          else if q = c ∧ off ≤ a ∧ i < v.n ∧ engMz x.f = true then false else (spmByte d q a).getLsbD j)) ∧
    (x.f.fn.getLsbD 5 = false →
      (o = .vsel → out.fault = none ∧ (∀ i < v.n, regElem m rd v.wd i = if vc i then (if maskLane k (ctxMask v) i then regElem k r1 v.wd i else regElem k r2 v.wd i)
          else if engMz x.f then 0 else regElem k rd v.wd i) ∧
        ∀ p i, p ≠ rd ∨ v.n ≤ i → i < 65536 / v.wd → regElem m p v.wd i = regElem k p v.wd i) ∧
      (o = .vperm → out.fault = none ∧
        RegWritten k m v rd fun i => if regElem k r2 v.wd i < v.n then regElem k r1 v.wd (regElem k r2 v.wd i) else 0) ∧
      (o = .vbcast → out.fault = none ∧ RegWritten k m v rd fun _ => x.regS1.toNat % 2 ^ v.wd) ∧
      (o = .viota → out.fault = none ∧ RegWritten k m v rd fun i => (x.regS1.toNat + i) % 2 ^ v.wd) ∧
      (o = .vscan → ∀ l : List Nat, l = scanFrom v.tyD ((ctxX v).testBit 0) ((ctxX v).testBit 1) 0
          ((List.range v.n).map fun i => (activeLane k v i, regElem k r1 v.wd i)) → out.fault = none ∧ RegWritten k m v rd fun i => l.getD i 0) ∧
      (o = .vred → out.fault = none ∧ (∀ p i, p ≠ rd ∨ i ≠ 0 → i < 65536 / v.wd → regElem m p v.wd i = regElem k p v.wd i) ∧
        regElem m rd v.wd 0 = (reduce (ctxX v % 8) v.tyD x.frm
          ((List.range v.n).map fun i => if activeLane k v i then some (regElem k r1 v.wd i) else none)).bits % 2 ^ v.wd) ∧
      (o = .vsegred → ∀ (start : Nat → Prop) (num : Nat → Nat), (∀ i, start i ↔ i < v.n ∧ (i = 0 ∨ maskLane k (ctxMask v) i = true)) →
        (∀ i, num i = ((List.range v.n).filter fun j => decide (j < i) && (decide (j = 0) || maskLane k (ctxMask v) j)).length) → out.fault = none ∧
        (∀ i n, start i → 0 < n → (∀ j, i < j → j < i + n → ¬ start j) → i + n = v.n ∨ start (i + n) →
          regElem m rd v.wd (num i) = (reduce (ctxX v % 8) v.tyD x.frm
            ((List.range n).map fun j => if vc (i + j) then some (regElem k r1 v.wd (i + j)) else none)).bits % 2 ^ v.wd) ∧
        ∀ p i, p ≠ rd ∨ num v.n ≤ i → i < 65536 / v.wd → regElem m p v.wd i = regElem k p v.wd i) ∧
      (o = .mpopc → out.fault = none ∧ regElem m rd 32 0 =
          ((List.range v.n).filter fun i => vc i && maskLane k (physMask x.split x.stream x.f.s1.toNat) i).length ∧
        ∀ p i, p ≠ rd ∨ i ≠ 0 → i < 2048 → regElem m p 32 i = regElem k p 32 i) ∧
      (o = .vcmp ∨ o = .vicmp → out.fault = none ∧ MaskWritten k m v.n (physMask x.split x.stream x.f.d.toNat) fun i =>
        if activeLane k v i then
          (if o = .vcmp then (fcmp (ctxX v % 8) (elemValue v.tyD (regElem k r1 v.wd i)) (elemValue v.tyD (regElem k r2 v.wd i))).1
           else icmp (ctxX v % 8) v.tyD (regElem k r1 v.wd i) (regElem k r2 v.wd i))
        else if engMz x.f then false else maskLane k (physMask x.split x.stream x.f.d.toNat) i))

/-- R158, R166, R173, R174, R190 to R193, R197 to R199: the results of the vector engine's elementwise commands, compares, scans and reductions, and where they
go. -/
def Obligations.VectorElementResults : Prop :=
  Claims.IntegerElements ∧ Claims.FloatElements ∧ Claims.VectorResults

/-- R157, R158, R165, R167: a value that a format represents rounds to itself in every mode and raises no flag. Every other is rounded as R165 has it: RNE
gives a nearest value, of two the one with an even M, and RDN, RUP and RTZ the nearest on their side; at T under RNE, and where what another mode rounds to
passes MAX, the result is MAX or an infinity, with OF and NX; NX where the result is not the operand, UF as well where the operand lies below the smallest
normal value; the sign stays; NaNs become the canonical one, and an infinity in e4m3 its MAX. -/
def Obligations.RoundingKeepsRepresentableValues : Prop :=
  (∀ (t : Ty) (mode : RMode) (neg : Bool) (m x y L least : ℚ) (r : Rounded) (passes inward : Bool), tyFloat t = true → 0 ≤ m →
    r = roundFloat t mode (.fin neg m) → x = (if neg then -m else m) → y = fvalRat (elemValue t r.bits) →
    (t, L, least) ∈ [(Ty.f32, (2 : ℚ) ^ (128 : Int), (2 : ℚ) ^ (-126 : Int)), (.bf16, (2 : ℚ) ^ (128 : Int), (2 : ℚ) ^ (-126 : Int)),
      (.f16, 65536, (2 : ℚ) ^ (-14 : Int)), (.e5m2, 65536, (2 : ℚ) ^ (-14 : Int)), (.e4m3, 480, (2 : ℚ) ^ (-6 : Int))] →
    inward = (mode = .rtz || mode = .rdn && !neg || mode = .rup && neg) →
    passes = (if mode = .rne then decide (overflowAt t ≤ m) else if inward then decide (L ≤ m) else decide (maxFinite t < m)) →
    (passes = true → elemValue t r.bits = (if t = .e4m3 ∨ inward = true then .fin neg (maxFinite t) else .inf neg) ∧ r.flags = { of := true, nx := true }) ∧
    (passes = false → elemValue t r.bits = .fin neg |y| ∧ r.flags = { nx := decide (y ≠ x), uf := decide (y ≠ x ∧ m < least) } ∧
      ∀ b z, b < 2 ^ tyWidth t → fvalFinite (elemValue t b) = true → z = fvalRat (elemValue t b) →
        (mode = .rne → |y - x| ≤ |z - x| ∧ (|z - x| = |y - x| → z ≠ y → r.bits % 2 = 0)) ∧ (mode = .rdn → y ≤ x ∧ (z ≤ x → z ≤ y)) ∧
        (mode = .rup → x ≤ y ∧ (x ≤ z → y ≤ z)) ∧ (mode = .rtz → |y| ≤ m ∧ (|z| ≤ m → |z| ≤ |y|)))) ∧
  (∀ (t : Ty) (mode : RMode) (s neg : Bool) (n : Nat), (t, n) ∈ [(Ty.f32, 0x7FC00000), (.f16, 0x7E00), (.bf16, 0x7FC0), (.e4m3, 0x7F), (.e5m2, 0x7E)] →
    roundFloat t mode (.nan s) = { bits := n, flags := { nv := s } } ∧
    elemValue t (roundFloat t mode (.inf neg)).bits = (if t = .e4m3 then .fin neg 448 else .inf neg) ∧
    (roundFloat t mode (.inf neg)).flags = (if t = .e4m3 then { of := true, nx := true } else {})) ∧
  (∀ (t : Ty) (mode : RMode) (b : Nat), tyFloat t = true ∨ tyInt t = true → b < 2 ^ tyWidth t → fvalIsNan (elemValue t b) = false →
    convert t mode (elemValue t b) = { bits := b }) ∧
  (∀ (t : Ty) (neg : Bool) (m : ℚ) (lo hi z : ℚ), tyFloat t = true → 0 ≤ m → m ≤ maxFinite t →
    lo = fvalRat (elemValue t (roundFloat t .rdn (.fin neg m)).bits) → hi = fvalRat (elemValue t (roundFloat t .rup (.fin neg m)).bits) →
    z = fvalRat (elemValue t (roundFloat t .rtz (.fin neg m)).bits) →
    lo ≤ (if neg then -m else m) ∧ (if neg then -m else m) ≤ hi ∧ |z| ≤ m)
end

