-- ==== Sys2Proof/Laws/Sparse.lean ====
section
/-!
SUPPORT. Sparse maps: reading after writing, and the canonical form.
-/

namespace Sys2Proof.Sparse

variable {α : Type}

/-! ### Reading after writing -/

@[simp] theorem find?_nil (k : Nat) : find? ([] : List (Nat × α)) k = none := rfl

theorem find?_cons (p : Nat × α) (r : List (Nat × α)) (k : Nat) : find? (p :: r) k = if p.1 = k then some p.2 else find? r k := rfl

theorem erase_cons (p : Nat × α) (r : List (Nat × α)) (k : Nat) : erase (p :: r) k = if p.1 = k then erase r k else p :: erase r k := by
  by_cases h : p.1 = k <;> simp [erase, h]

theorem find?_erase_self (m : List (Nat × α)) (k : Nat) : find? (erase m k) k = none := by
  induction m with
  | nil => rfl
  | cons p r ih =>
    rw [erase_cons]
    split
    · exact ih
    · rw [find?_cons, if_neg ‹_›, ih]

theorem find?_erase_other (m : List (Nat × α)) {j k : Nat} (h : j ≠ k) : find? (erase m k) j = find? m j := by
  induction m with
  | nil => rfl
  | cons p r ih =>
    rw [erase_cons, find?_cons]
    split
    · rename_i hp
      rw [if_neg (show ¬ p.1 = j from fun e => h (e.symm.trans hp)), ih]
    · rw [find?_cons, ih]

theorem find?_place_self (m : List (Nat × α)) (k : Nat) (v : α) (h : find? m k = none) : find? (place m k v) k = some v := by
  induction m with
  | nil => simp [place, find?]
  | cons p r ih =>
    have hp : ¬ p.1 = k := by
      intro e; simp [find?, e] at h
    have hr : find? r k = none := by simpa [find?, hp] using h
    by_cases hk : k < p.1
    · simp [place, hk, find?]
    · simp [place, hk, find?, hp, ih hr]

theorem find?_place_other (m : List (Nat × α)) {j k : Nat} (v : α) (h : j ≠ k) : find? (place m k v) j = find? m j := by
  induction m with
  | nil => simp [place, find?, Ne.symm h]
  | cons p r ih =>
    by_cases hk : k < p.1
    · simp [place, hk, find?, Ne.symm h]
    · simp [place, hk, find?, ih]

@[simp] theorem find?_insert_self (m : List (Nat × α)) (k : Nat) (v : α) : find? (insert m k v) k = some v :=
  find?_place_self _ k v (find?_erase_self m k)

theorem find?_insert_other (m : List (Nat × α)) {j k : Nat} (v : α) (h : j ≠ k) : find? (insert m k v) j = find? m j :=
  (find?_place_other _ v h).trans (find?_erase_other m h)

@[simp] theorem get_insert_self (m : List (Nat × α)) (d : α) (k : Nat) (v : α) : get (insert m k v) d k = v := by
  simp [get]

theorem get_insert_other (m : List (Nat × α)) (d : α) {j k : Nat} (v : α) (h : j ≠ k) : get (insert m k v) d j = get m d j := by
  simp [get, find?_insert_other m v h]

section Words

variable [DecidableEq α]

@[simp] theorem get_set_self (m : List (Nat × α)) (d : α) (k : Nat) (v : α) : get (set m d k v) d k = v := by
  by_cases h : v = d
  · simp [set, h, get, find?_erase_self]
  · simp [set, h]

theorem get_set_other (m : List (Nat × α)) (d : α) {j k : Nat} (v : α) (h : j ≠ k) : get (set m d k v) d j = get m d j := by
  by_cases hv : v = d
  · simp [set, hv, get, find?_erase_other m h]
  · simp [set, hv, get_insert_other m d v h]

end Words

/-! ### The canonical form -/

/-- Strictly rising keys, as a proposition. -/
theorem sorted_iff (m : List (Nat × α)) : sorted m = true ↔ m.Pairwise fun p q => p.1 < q.1 := by
  induction m with
  | nil => simp [sorted]
  | cons p r ih =>
    cases r with
    | nil => simp [sorted]
    | cons q r =>
      simp only [sorted, Bool.and_eq_true, decide_eq_true_eq, ih, List.pairwise_cons]
      constructor
      · rintro ⟨h, hq, hr⟩
        refine ⟨?_, hq, hr⟩
        intro x hx
        rcases List.mem_cons.1 hx with rfl | hx
        · exact h
        · exact h.trans (hq x hx)
      · rintro ⟨hp, hq, hr⟩
        exact ⟨hp q (by simp), hq, hr⟩

variable [DecidableEq α]

theorem wf_iff (d : α) (m : List (Nat × α)) : wf d m = true ↔ (m.Pairwise fun p q => p.1 < q.1) ∧ ∀ p ∈ m, p.2 ≠ d := by
  simp [wf, sorted_iff]

/-- Any filter of a map keeps the form. -/
theorem wf_filter (d : α) (m : List (Nat × α)) (f : Nat × α → Bool) (h : wf d m = true) : wf d (m.filter f) = true := by
  rw [wf_iff] at *
  exact ⟨h.1.filter f, fun p hp => h.2 p (List.mem_filter.1 hp).1⟩

theorem entries_bounds (d : α) (lo : Nat) (vs : List α) : ∀ p ∈ entries d lo vs, lo ≤ p.1 ∧ p.1 < lo + vs.length ∧ p.2 ≠ d := by
  induction vs generalizing lo with
  | nil => simp [entries]
  | cons v r ih =>
    intro p hp
    unfold entries at hp
    split at hp
    · obtain ⟨h1, h2, h3⟩ := ih (lo + 1) p hp
      exact ⟨by omega, by simp; omega, h3⟩
    · rcases List.mem_cons.1 hp with rfl | hp
      · exact ⟨le_refl _, by simp, by assumption⟩
      · obtain ⟨h1, h2, h3⟩ := ih (lo + 1) p hp
        exact ⟨by omega, by simp; omega, h3⟩

theorem entries_pairwise (d : α) (lo : Nat) (vs : List α) : (entries d lo vs).Pairwise fun p q => p.1 < q.1 := by
  induction vs generalizing lo with
  | nil => simp [entries]
  | cons v r ih =>
    unfold entries
    split
    · exact ih (lo + 1)
    · refine List.pairwise_cons.2 ⟨fun p hp => ?_, ih (lo + 1)⟩
      have := (entries_bounds d (lo + 1) r p hp).1
      show lo < p.1
      omega

/-- Overwriting a range keeps the form. -/
theorem wf_setRange (d : α) (m : List (Nat × α)) (lo : Nat) (vs : List α) (h : wf d m = true) : wf d (setRange m d lo vs) = true := by
  rw [wf_iff] at *
  constructor
  · unfold setRange
    refine List.pairwise_append.2 ⟨List.pairwise_append.2 ⟨h.1.filter _, entries_pairwise d lo vs, ?_⟩, h.1.filter _, ?_⟩
    · intro p hp q hq
      have h1 := (List.mem_filter.1 hp).2
      have h2 := (entries_bounds d lo vs q hq).1
      simp at h1
      omega
    · intro p hp q hq
      have hq' := (List.mem_filter.1 hq).2
      simp at hq'
      rcases List.mem_append.1 hp with hp | hp
      · have h1 := (List.mem_filter.1 hp).2
        simp at h1
        omega
      · have h2 := (entries_bounds d lo vs p hp).2.1
        omega
  · intro p hp
    unfold setRange at hp
    rcases List.mem_append.1 hp with hp | hp
    · rcases List.mem_append.1 hp with hp | hp
      · exact h.2 p (List.mem_filter.1 hp).1
      · exact (entries_bounds d lo vs p hp).2.2
    · exact h.2 p (List.mem_filter.1 hp).1

/-- Removing a key keeps the form. -/
theorem wf_erase (d : α) (m : List (Nat × α)) (k : Nat) (h : wf d m = true) : wf d (erase m k) = true := wf_filter d m _ h

theorem mem_place (m : List (Nat × α)) (k : Nat) (v : α) (p : Nat × α) : p ∈ place m k v ↔ p = (k, v) ∨ p ∈ m := by
  induction m with
  | nil => simp [place]
  | cons q r ih =>
    unfold place
    split
    · simp
    · simp [ih]; tauto

theorem pairwise_place (m : List (Nat × α)) (k : Nat) (v : α) (h : m.Pairwise fun p q => p.1 < q.1) (hk : ∀ p ∈ m, p.1 ≠ k) :
    (place m k v).Pairwise fun p q => p.1 < q.1 := by
  induction m with
  | nil => simp [place]
  | cons q r ih =>
    obtain ⟨h1, h2⟩ := List.pairwise_cons.1 h
    unfold place
    split
    · rename_i hlt
      refine List.pairwise_cons.2 ⟨fun p hp => ?_, h⟩
      rcases List.mem_cons.1 hp with rfl | hp
      · exact hlt
      · exact lt_trans hlt (h1 p hp)
    · rename_i hge
      refine List.pairwise_cons.2 ⟨fun p hp => ?_, ih h2 fun p hp => hk p (List.mem_cons_of_mem _ hp)⟩
      rcases (mem_place r k v p).1 hp with rfl | hp
      · have := hk q (List.mem_cons_self ..)
        show q.1 < k
        omega
      · exact h1 p hp

/-- Storing one value keeps the form. -/
theorem wf_set (d : α) (m : List (Nat × α)) (k : Nat) (v : α) (h : wf d m = true) : wf d (set m d k v) = true := by
  unfold set
  split
  · exact wf_erase d m k h
  · rename_i hv
    have he := (wf_iff d _).1 (wf_erase d m k h)
    refine (wf_iff d _).2 ⟨pairwise_place _ _ _ he.1 fun p hp => ?_, fun p hp => ?_⟩
    · simpa [erase] using (List.mem_filter.1 hp).2
    · rcases (mem_place _ _ _ p).1 hp with rfl | hp
      · exact hv
      · exact he.2 p hp

/-- A list of entries in any order becomes a map in canonical form. -/
theorem wf_ofList (d : α) (l : List (Nat × α)) : wf d (ofList d l) = true := by
  have key : ∀ m : List (Nat × α), wf d m = true → wf d (l.foldl (fun m p => set m d p.1 p.2) m) = true := by
    induction l with
    | nil => exact fun m h => h
    | cons p r ih => exact fun m h => ih _ (wf_set d m p.1 p.2 h)
  exact key [] rfl

/-! ### Ranges -/

omit [DecidableEq α] in
theorem find?_append (l r : List (Nat × α)) (k : Nat) : find? (l ++ r) k = (find? l k).or (find? r k) := by
  induction l with
  | nil => simp
  | cons p t ih =>
    rw [List.cons_append, find?_cons, find?_cons]
    split
    · rfl
    · exact ih

omit [DecidableEq α] in
theorem find?_filter (m : List (Nat × α)) (f : Nat → Bool) (k : Nat) : find? (m.filter fun p => f p.1) k = if f k then find? m k else none := by
  induction m with
  | nil => simp
  | cons p t ih =>
    rw [List.filter_cons]
    split
    · next h =>
      rw [find?_cons, find?_cons, ih]
      split
      · next e => subst e; simp [h]
      · rfl
    · next h =>
      rw [ih, find?_cons]
      split
      · next hk =>
        split
        · next e => subst e; exact absurd hk h
        · rfl
      · rfl

omit [DecidableEq α] in
theorem find?_slice (m : List (Nat × α)) (lo n i : Nat) (h : i < n) : find? (slice m lo n) i = find? m (lo + i) := by
  unfold slice
  induction m with
  | nil => simp
  | cons p t ih =>
    rw [List.filter_cons]
    split
    · next hp =>
      simp only [decide_eq_true_eq] at hp
      rw [List.map_cons, find?_cons, find?_cons, ih]
      by_cases e : p.1 = lo + i
      · rw [if_pos e, if_pos (show p.1 - lo = i by omega)]
      · rw [if_neg e, if_neg (show ¬ p.1 - lo = i by omega)]
    · next hp =>
      simp only [decide_eq_true_eq] at hp
      rw [ih, find?_cons, if_neg (by omega)]

omit [DecidableEq α] in
theorem getRange_eq (m : List (Nat × α)) (d : α) (lo n : Nat) : getRange m d lo n = (List.range n).map fun i => get m d (lo + i) := by
  unfold getRange
  refine List.map_congr_left fun i hi => ?_
  unfold get
  rw [find?_slice _ _ _ _ (List.mem_range.1 hi)]

omit [DecidableEq α] in
theorem denseFrom_eq (d : α) (n i : Nat) (m : List (Nat × α)) (h : m.Pairwise fun p q => p.1 < q.1) (hi : ∀ p ∈ m, i ≤ p.1) :
    denseFrom d n i m = (List.range n).map fun j => get m d (i + j) := by
  induction n generalizing i m with
  | zero => rfl
  | succ n ih =>
    rw [List.range_succ_eq_map, List.map_cons, List.map_map]
    match m, h, hi with
    | [], _, _ =>
      rw [denseFrom, ih (i + 1) [] List.Pairwise.nil (by simp)]
      rfl
    | (k, v) :: r, h, hi =>
      have hr := List.pairwise_cons.1 h
      rw [denseFrom]
      split
      · next e =>
        subst e
        rw [ih (k + 1) r hr.2 fun p hp => hr.1 p hp]
        congr 1
        · simp [get, find?_cons]
        · refine List.map_congr_left fun j _ => ?_
          simp only [Function.comp, get, find?_cons]
          rw [if_neg (by omega), show k + 1 + j = k + (j + 1) by omega]
      · next e =>
        have hk : i < k := by have := hi (k, v) (by simp); simp only at this; omega
        rw [ih (i + 1) ((k, v) :: r) h fun p hp => by
          rcases List.mem_cons.1 hp with rfl | hp
          · exact hk
          · exact le_of_lt (lt_of_le_of_lt hk (hr.1 p hp))]
        congr 1
        · have : find? ((k, v) :: r) i = none := by
            rw [find?_cons, if_neg e]
            clear ih
            induction r with
            | nil => rfl
            | cons q t iht =>
              have hq := hr.1 q (by simp)
              rw [find?_cons, if_neg (by simp only at hq; omega)]
              exact iht ((List.pairwise_cons.1 h).2 |> fun h2 => List.pairwise_cons.2 ⟨fun p hp => hr.1 p (by simp [hp]), (List.pairwise_cons.1 h2).2⟩)
                (fun p hp => by
                  rcases List.mem_cons.1 hp with rfl | hp
                  · exact hi _ (by simp)
                  · exact hi p (by simp [hp]))
                ⟨fun p hp => hr.1 p (by simp [hp]), (List.pairwise_cons.1 hr.2).2⟩
          simp [get, this]
        · refine List.map_congr_left fun j _ => ?_
          simp only [Function.comp]
          rw [show i + 1 + j = i + (j + 1) by omega]

omit [DecidableEq α] in
/-- `dense` reads what `get` reads, of every map. -/
theorem dense_eq (m : List (Nat × α)) (d : α) (lo n : Nat) : dense m d lo n = (List.range n).map fun i => get m d (lo + i) := by
  have hs : ∀ i ∈ List.range n, get (slice m lo n) d i = get m d (lo + i) := fun i hi => by
    unfold get
    rw [find?_slice _ _ _ _ (List.mem_range.1 hi)]
  unfold dense
  simp only
  split
  · next h =>
    rw [denseFrom_eq d n 0 _ ((sorted_iff _).1 h) (fun _ _ => Nat.zero_le _)]
    exact List.map_congr_left fun i hi => by rw [Nat.zero_add, hs i hi]
  · exact List.map_congr_left hs

theorem find?_entries (d : α) (lo : Nat) (vs : List α) (k : Nat) :
    find? (entries d lo vs) k = if lo ≤ k ∧ k < lo + vs.length ∧ vs.getD (k - lo) d ≠ d then some (vs.getD (k - lo) d) else none := by
  induction vs generalizing lo with
  | nil => simp [entries]
  | cons v r ih =>
    have step : ∀ h : k ≠ lo, (if lo + 1 ≤ k ∧ k < lo + 1 + r.length ∧ r.getD (k - (lo + 1)) d ≠ d then some (r.getD (k - (lo + 1)) d) else none)
        = if lo ≤ k ∧ k < lo + (v :: r).length ∧ (v :: r).getD (k - lo) d ≠ d then some ((v :: r).getD (k - lo) d) else none := by
      intro h
      by_cases hk : lo ≤ k
      · obtain ⟨j, rfl⟩ : ∃ j, k = lo + 1 + j := ⟨k - lo - 1, by omega⟩
        have e1 : lo + 1 + j - (lo + 1) = j := by omega
        have e2 : lo + 1 + j - lo = j + 1 := by omega
        rw [e1, e2]
        simp only [List.getD_cons_succ, List.length_cons]
        congr 1
        apply propext
        constructor <;> rintro ⟨a, b, c⟩ <;> exact ⟨by omega, by omega, c⟩
      · rw [if_neg (by omega), if_neg (by omega)]
    unfold entries
    by_cases hv : v = d
    · rw [if_pos hv, ih]
      by_cases h : k = lo
      · subst h
        rw [if_neg (by omega), if_neg]
        simp [hv]
      · exact step h
    · rw [if_neg hv, find?_cons]
      by_cases h : k = lo
      · subst h
        rw [if_pos rfl, if_pos]
        · simp
        · simp [hv]
      · rw [if_neg (fun e => h e.symm), ih]
        exact step h

theorem get_setRange (m : List (Nat × α)) (d : α) (lo : Nat) (vs : List α) (k : Nat) :
    get (setRange m d lo vs) d k = if lo ≤ k ∧ k < lo + vs.length then vs.getD (k - lo) d else get m d k := by
  unfold get setRange
  rw [find?_append, find?_append, find?_filter m (fun a => decide (a < lo)), find?_filter m (fun a => decide (lo + vs.length ≤ a)), find?_entries]
  by_cases h1 : k < lo
  · rw [if_pos (by simpa using h1), if_neg (by omega), if_neg (by simp; omega), if_neg (by omega)]
    cases find? m k <;> rfl
  · by_cases h2 : k < lo + vs.length
    · rw [if_neg (by simpa using h1), if_neg (show ¬ decide (lo + vs.length ≤ k) = true by simp; omega), if_pos (show lo ≤ k ∧ k < lo + vs.length by omega)]
      by_cases h3 : vs.getD (k - lo) d = d
      · rw [if_neg (fun e => e.2.2 h3), h3]; rfl
      · rw [if_pos ⟨by omega, h2, h3⟩]; rfl
    · rw [if_neg (by simpa using h1), if_neg (by omega), if_pos (by simp; omega), if_neg (by omega)]
      simp

end Sys2Proof.Sparse
end

