-- ==== Sys2Proof/Laws/State.lean ====
section
/-!
SUPPORT. One lemma per field and update of the state: no later proof unfolds a record update.
-/

namespace Sys2Proof.Machine

/-! ### A core of the device -/

@[simp] theorem setCore_boot (d : Dev) (c : Nat) (k : Core) : (setCore d c k).boot = d.boot := rfl
@[simp] theorem modCore_boot (d : Dev) (c : Nat) (g : Core → Core) : (modCore d c g).boot = d.boot := rfl
@[simp] theorem setStream_boot (d : Dev) (c i : Nat) (t : Stream) : (setStream d c i t).boot = d.boot := rfl
@[simp] theorem modStream_boot (d : Dev) (c i : Nat) (g : Stream → Stream) : (modStream d c i g).boot = d.boot := rfl
@[simp] theorem setCore_ctl (d : Dev) (c : Nat) (k : Core) : (setCore d c k).ctl = d.ctl := rfl
@[simp] theorem modCore_ctl (d : Dev) (c : Nat) (g : Core → Core) : (modCore d c g).ctl = d.ctl := rfl
@[simp] theorem setStream_ctl (d : Dev) (c i : Nat) (t : Stream) : (setStream d c i t).ctl = d.ctl := rfl
@[simp] theorem modStream_ctl (d : Dev) (c i : Nat) (g : Stream → Stream) : (modStream d c i g).ctl = d.ctl := rfl
@[simp] theorem setCore_tick (d : Dev) (c : Nat) (k : Core) : (setCore d c k).tick = d.tick := rfl
@[simp] theorem modCore_tick (d : Dev) (c : Nat) (g : Core → Core) : (modCore d c g).tick = d.tick := rfl
@[simp] theorem setStream_tick (d : Dev) (c i : Nat) (t : Stream) : (setStream d c i t).tick = d.tick := rfl
@[simp] theorem modStream_tick (d : Dev) (c i : Nat) (g : Stream → Stream) : (modStream d c i g).tick = d.tick := rfl
@[simp] theorem setCore_tickPeriod (d : Dev) (c : Nat) (k : Core) : (setCore d c k).tickPeriod = d.tickPeriod := rfl
@[simp] theorem modCore_tickPeriod (d : Dev) (c : Nat) (g : Core → Core) : (modCore d c g).tickPeriod = d.tickPeriod := rfl
@[simp] theorem setStream_tickPeriod (d : Dev) (c i : Nat) (t : Stream) : (setStream d c i t).tickPeriod = d.tickPeriod := rfl
@[simp] theorem modStream_tickPeriod (d : Dev) (c i : Nat) (g : Stream → Stream) : (modStream d c i g).tickPeriod = d.tickPeriod := rfl
@[simp] theorem setCore_mem (d : Dev) (c : Nat) (k : Core) : (setCore d c k).mem = d.mem := rfl
@[simp] theorem modCore_mem (d : Dev) (c : Nat) (g : Core → Core) : (modCore d c g).mem = d.mem := rfl
@[simp] theorem setStream_mem (d : Dev) (c i : Nat) (t : Stream) : (setStream d c i t).mem = d.mem := rfl
@[simp] theorem modStream_mem (d : Dev) (c i : Nat) (g : Stream → Stream) : (modStream d c i g).mem = d.mem := rfl
@[simp] theorem setCore_poison (d : Dev) (c : Nat) (k : Core) : (setCore d c k).poison = d.poison := rfl
@[simp] theorem modCore_poison (d : Dev) (c : Nat) (g : Core → Core) : (modCore d c g).poison = d.poison := rfl
@[simp] theorem setStream_poison (d : Dev) (c i : Nat) (t : Stream) : (setStream d c i t).poison = d.poison := rfl
@[simp] theorem modStream_poison (d : Dev) (c i : Nat) (g : Stream → Stream) : (modStream d c i g).poison = d.poison := rfl
@[simp] theorem setCore_ioOut (d : Dev) (c : Nat) (k : Core) : (setCore d c k).ioOut = d.ioOut := rfl
@[simp] theorem modCore_ioOut (d : Dev) (c : Nat) (g : Core → Core) : (modCore d c g).ioOut = d.ioOut := rfl
@[simp] theorem setStream_ioOut (d : Dev) (c i : Nat) (t : Stream) : (setStream d c i t).ioOut = d.ioOut := rfl
@[simp] theorem modStream_ioOut (d : Dev) (c i : Nat) (g : Stream → Stream) : (modStream d c i g).ioOut = d.ioOut := rfl
@[simp] theorem setCore_gangs (d : Dev) (c : Nat) (k : Core) : (setCore d c k).gangs = d.gangs := rfl
@[simp] theorem modCore_gangs (d : Dev) (c : Nat) (g : Core → Core) : (modCore d c g).gangs = d.gangs := rfl
@[simp] theorem setStream_gangs (d : Dev) (c i : Nat) (t : Stream) : (setStream d c i t).gangs = d.gangs := rfl
@[simp] theorem modStream_gangs (d : Dev) (c i : Nat) (g : Stream → Stream) : (modStream d c i g).gangs = d.gangs := rfl
@[simp] theorem setCore_boards (d : Dev) (c : Nat) (k : Core) : (setCore d c k).boards = d.boards := rfl
@[simp] theorem modCore_boards (d : Dev) (c : Nat) (g : Core → Core) : (modCore d c g).boards = d.boards := rfl
@[simp] theorem setStream_boards (d : Dev) (c i : Nat) (t : Stream) : (setStream d c i t).boards = d.boards := rfl
@[simp] theorem modStream_boards (d : Dev) (c i : Nat) (g : Stream → Stream) : (modStream d c i g).boards = d.boards := rfl
@[simp] theorem setCore_watches (d : Dev) (c : Nat) (k : Core) : (setCore d c k).watches = d.watches := rfl
@[simp] theorem modCore_watches (d : Dev) (c : Nat) (g : Core → Core) : (modCore d c g).watches = d.watches := rfl
@[simp] theorem setStream_watches (d : Dev) (c i : Nat) (t : Stream) : (setStream d c i t).watches = d.watches := rfl
@[simp] theorem modStream_watches (d : Dev) (c i : Nat) (g : Stream → Stream) : (modStream d c i g).watches = d.watches := rfl
@[simp] theorem setCore_pushes (d : Dev) (c : Nat) (k : Core) : (setCore d c k).pushes = d.pushes := rfl
@[simp] theorem modCore_pushes (d : Dev) (c : Nat) (g : Core → Core) : (modCore d c g).pushes = d.pushes := rfl
@[simp] theorem setStream_pushes (d : Dev) (c i : Nat) (t : Stream) : (setStream d c i t).pushes = d.pushes := rfl
@[simp] theorem modStream_pushes (d : Dev) (c i : Nat) (g : Stream → Stream) : (modStream d c i g).pushes = d.pushes := rfl
@[simp] theorem setCore_launches (d : Dev) (c : Nat) (k : Core) : (setCore d c k).launches = d.launches := rfl
@[simp] theorem modCore_launches (d : Dev) (c : Nat) (g : Core → Core) : (modCore d c g).launches = d.launches := rfl
@[simp] theorem setStream_launches (d : Dev) (c i : Nat) (t : Stream) : (setStream d c i t).launches = d.launches := rfl
@[simp] theorem modStream_launches (d : Dev) (c i : Nat) (g : Stream → Stream) : (modStream d c i g).launches = d.launches := rfl
@[simp] theorem setCore_serial (d : Dev) (c : Nat) (k : Core) : (setCore d c k).serial = d.serial := rfl
@[simp] theorem modCore_serial (d : Dev) (c : Nat) (g : Core → Core) : (modCore d c g).serial = d.serial := rfl
@[simp] theorem setStream_serial (d : Dev) (c i : Nat) (t : Stream) : (setStream d c i t).serial = d.serial := rfl
@[simp] theorem modStream_serial (d : Dev) (c i : Nat) (g : Stream → Stream) : (modStream d c i g).serial = d.serial := rfl
@[simp] theorem setCore_slots (d : Dev) (c : Nat) (k : Core) : (setCore d c k).slots = d.slots := rfl
@[simp] theorem modCore_slots (d : Dev) (c : Nat) (g : Core → Core) : (modCore d c g).slots = d.slots := rfl
@[simp] theorem setStream_slots (d : Dev) (c i : Nat) (t : Stream) : (setStream d c i t).slots = d.slots := rfl
@[simp] theorem modStream_slots (d : Dev) (c i : Nat) (g : Stream → Stream) : (modStream d c i g).slots = d.slots := rfl
@[simp] theorem setCore_vfs (d : Dev) (c : Nat) (k : Core) : (setCore d c k).vfs = d.vfs := rfl
@[simp] theorem modCore_vfs (d : Dev) (c : Nat) (g : Core → Core) : (modCore d c g).vfs = d.vfs := rfl
@[simp] theorem setStream_vfs (d : Dev) (c i : Nat) (t : Stream) : (setStream d c i t).vfs = d.vfs := rfl
@[simp] theorem modStream_vfs (d : Dev) (c i : Nat) (g : Stream → Stream) : (modStream d c i g).vfs = d.vfs := rfl
@[simp] theorem setCore_rings (d : Dev) (c : Nat) (k : Core) : (setCore d c k).rings = d.rings := rfl
@[simp] theorem modCore_rings (d : Dev) (c : Nat) (g : Core → Core) : (modCore d c g).rings = d.rings := rfl
@[simp] theorem setStream_rings (d : Dev) (c i : Nat) (t : Stream) : (setStream d c i t).rings = d.rings := rfl
@[simp] theorem modStream_rings (d : Dev) (c i : Nat) (g : Stream → Stream) : (modStream d c i g).rings = d.rings := rfl
@[simp] theorem setCore_bayTlb (d : Dev) (c : Nat) (k : Core) : (setCore d c k).bayTlb = d.bayTlb := rfl
@[simp] theorem modCore_bayTlb (d : Dev) (c : Nat) (g : Core → Core) : (modCore d c g).bayTlb = d.bayTlb := rfl
@[simp] theorem setStream_bayTlb (d : Dev) (c i : Nat) (t : Stream) : (setStream d c i t).bayTlb = d.bayTlb := rfl
@[simp] theorem modStream_bayTlb (d : Dev) (c i : Nat) (g : Stream → Stream) : (modStream d c i g).bayTlb = d.bayTlb := rfl
@[simp] theorem setCore_combining (d : Dev) (c : Nat) (k : Core) : (setCore d c k).combining = d.combining := rfl
@[simp] theorem modCore_combining (d : Dev) (c : Nat) (g : Core → Core) : (modCore d c g).combining = d.combining := rfl
@[simp] theorem setStream_combining (d : Dev) (c i : Nat) (t : Stream) : (setStream d c i t).combining = d.combining := rfl
@[simp] theorem modStream_combining (d : Dev) (c i : Nat) (g : Stream → Stream) : (modStream d c i g).combining = d.combining := rfl
@[simp] theorem setCore_arrivals (d : Dev) (c : Nat) (k : Core) : (setCore d c k).arrivals = d.arrivals := rfl
@[simp] theorem modCore_arrivals (d : Dev) (c : Nat) (g : Core → Core) : (modCore d c g).arrivals = d.arrivals := rfl
@[simp] theorem setStream_arrivals (d : Dev) (c i : Nat) (t : Stream) : (setStream d c i t).arrivals = d.arrivals := rfl
@[simp] theorem modStream_arrivals (d : Dev) (c i : Nat) (g : Stream → Stream) : (modStream d c i g).arrivals = d.arrivals := rfl
@[simp] theorem setCore_links (d : Dev) (c : Nat) (k : Core) : (setCore d c k).links = d.links := rfl
@[simp] theorem modCore_links (d : Dev) (c : Nat) (g : Core → Core) : (modCore d c g).links = d.links := rfl
@[simp] theorem setStream_links (d : Dev) (c i : Nat) (t : Stream) : (setStream d c i t).links = d.links := rfl
@[simp] theorem modStream_links (d : Dev) (c i : Nat) (g : Stream → Stream) : (modStream d c i g).links = d.links := rfl
@[simp] theorem setCore_groups (d : Dev) (c : Nat) (k : Core) : (setCore d c k).groups = d.groups := rfl
@[simp] theorem modCore_groups (d : Dev) (c : Nat) (g : Core → Core) : (modCore d c g).groups = d.groups := rfl
@[simp] theorem setStream_groups (d : Dev) (c i : Nat) (t : Stream) : (setStream d c i t).groups = d.groups := rfl
@[simp] theorem modStream_groups (d : Dev) (c i : Nat) (g : Stream → Stream) : (modStream d c i g).groups = d.groups := rfl
@[simp] theorem setCore_ceCounts (d : Dev) (c : Nat) (k : Core) : (setCore d c k).ceCounts = d.ceCounts := rfl
@[simp] theorem modCore_ceCounts (d : Dev) (c : Nat) (g : Core → Core) : (modCore d c g).ceCounts = d.ceCounts := rfl
@[simp] theorem setStream_ceCounts (d : Dev) (c i : Nat) (t : Stream) : (setStream d c i t).ceCounts = d.ceCounts := rfl
@[simp] theorem modStream_ceCounts (d : Dev) (c i : Nat) (g : Stream → Stream) : (modStream d c i g).ceCounts = d.ceCounts := rfl
@[simp] theorem setCore_irqs (d : Dev) (c : Nat) (k : Core) : (setCore d c k).irqs = d.irqs := rfl
@[simp] theorem modCore_irqs (d : Dev) (c : Nat) (g : Core → Core) : (modCore d c g).irqs = d.irqs := rfl
@[simp] theorem setStream_irqs (d : Dev) (c i : Nat) (t : Stream) : (setStream d c i t).irqs = d.irqs := rfl
@[simp] theorem modStream_irqs (d : Dev) (c i : Nat) (g : Stream → Stream) : (modStream d c i g).irqs = d.irqs := rfl
@[simp] theorem setCore_contexts (d : Dev) (c : Nat) (k : Core) : (setCore d c k).contexts = d.contexts := rfl
@[simp] theorem modCore_contexts (d : Dev) (c : Nat) (g : Core → Core) : (modCore d c g).contexts = d.contexts := rfl
@[simp] theorem setStream_contexts (d : Dev) (c i : Nat) (t : Stream) : (setStream d c i t).contexts = d.contexts := rfl
@[simp] theorem modStream_contexts (d : Dev) (c i : Nat) (g : Stream → Stream) : (modStream d c i g).contexts = d.contexts := rfl
@[simp] theorem setCore_records (d : Dev) (c : Nat) (k : Core) : (setCore d c k).records = d.records := rfl
@[simp] theorem modCore_records (d : Dev) (c : Nat) (g : Core → Core) : (modCore d c g).records = d.records := rfl
@[simp] theorem setStream_records (d : Dev) (c i : Nat) (t : Stream) : (setStream d c i t).records = d.records := rfl
@[simp] theorem modStream_records (d : Dev) (c i : Nat) (g : Stream → Stream) : (modStream d c i g).records = d.records := rfl
@[simp] theorem setCore_fresh (d : Dev) (c : Nat) (k : Core) : (setCore d c k).fresh = d.fresh := rfl
@[simp] theorem modCore_fresh (d : Dev) (c : Nat) (g : Core → Core) : (modCore d c g).fresh = d.fresh := rfl
@[simp] theorem setStream_fresh (d : Dev) (c i : Nat) (t : Stream) : (setStream d c i t).fresh = d.fresh := rfl
@[simp] theorem modStream_fresh (d : Dev) (c i : Nat) (g : Stream → Stream) : (modStream d c i g).fresh = d.fresh := rfl

/-! ### A stream or a cluster of a core -/

@[simp] theorem setCoreStream_split (k : Core) (i : Nat) (t : Stream) : (setCoreStream k i t).split = k.split := rfl
@[simp] theorem modCoreStream_split (k : Core) (i : Nat) (g : Stream → Stream) : (modCoreStream k i g).split = k.split := rfl
@[simp] theorem modCoreCluster_split (k : Core) (i : Nat) (g : Cluster → Cluster) : (modCoreCluster k i g).split = k.split := rfl
@[simp] theorem setCoreStream_slaunch (k : Core) (i : Nat) (t : Stream) : (setCoreStream k i t).slaunch = k.slaunch := rfl
@[simp] theorem modCoreStream_slaunch (k : Core) (i : Nat) (g : Stream → Stream) : (modCoreStream k i g).slaunch = k.slaunch := rfl
@[simp] theorem modCoreCluster_slaunch (k : Core) (i : Nat) (g : Cluster → Cluster) : (modCoreCluster k i g).slaunch = k.slaunch := rfl
@[simp] theorem setCoreStream_clusters (k : Core) (i : Nat) (t : Stream) : (setCoreStream k i t).clusters = k.clusters := rfl
@[simp] theorem modCoreStream_clusters (k : Core) (i : Nat) (g : Stream → Stream) : (modCoreStream k i g).clusters = k.clusters := rfl
@[simp] theorem modCoreCluster_streams (k : Core) (i : Nat) (g : Cluster → Cluster) : (modCoreCluster k i g).streams = k.streams := rfl
@[simp] theorem setCoreStream_tokens (k : Core) (i : Nat) (t : Stream) : (setCoreStream k i t).tokens = k.tokens := rfl
@[simp] theorem modCoreStream_tokens (k : Core) (i : Nat) (g : Stream → Stream) : (modCoreStream k i g).tokens = k.tokens := rfl
@[simp] theorem modCoreCluster_tokens (k : Core) (i : Nat) (g : Cluster → Cluster) : (modCoreCluster k i g).tokens = k.tokens := rfl
@[simp] theorem setCoreStream_spm (k : Core) (i : Nat) (t : Stream) : (setCoreStream k i t).spm = k.spm := rfl
@[simp] theorem modCoreStream_spm (k : Core) (i : Nat) (g : Stream → Stream) : (modCoreStream k i g).spm = k.spm := rfl
@[simp] theorem modCoreCluster_spm (k : Core) (i : Nat) (g : Cluster → Cluster) : (modCoreCluster k i g).spm = k.spm := rfl
@[simp] theorem setCoreStream_vreg (k : Core) (i : Nat) (t : Stream) : (setCoreStream k i t).vreg = k.vreg := rfl
@[simp] theorem modCoreStream_vreg (k : Core) (i : Nat) (g : Stream → Stream) : (modCoreStream k i g).vreg = k.vreg := rfl
@[simp] theorem modCoreCluster_vreg (k : Core) (i : Nat) (g : Cluster → Cluster) : (modCoreCluster k i g).vreg = k.vreg := rfl
@[simp] theorem setCoreStream_mask (k : Core) (i : Nat) (t : Stream) : (setCoreStream k i t).mask = k.mask := rfl
@[simp] theorem modCoreStream_mask (k : Core) (i : Nat) (g : Stream → Stream) : (modCoreStream k i g).mask = k.mask := rfl
@[simp] theorem modCoreCluster_mask (k : Core) (i : Nat) (g : Cluster → Cluster) : (modCoreCluster k i g).mask = k.mask := rfl
@[simp] theorem setCoreStream_acc (k : Core) (i : Nat) (t : Stream) : (setCoreStream k i t).acc = k.acc := rfl
@[simp] theorem modCoreStream_acc (k : Core) (i : Nat) (g : Stream → Stream) : (modCoreStream k i g).acc = k.acc := rfl
@[simp] theorem modCoreCluster_acc (k : Core) (i : Nat) (g : Cluster → Cluster) : (modCoreCluster k i g).acc = k.acc := rfl
@[simp] theorem setCoreStream_bnd (k : Core) (i : Nat) (t : Stream) : (setCoreStream k i t).bnd = k.bnd := rfl
@[simp] theorem modCoreStream_bnd (k : Core) (i : Nat) (g : Stream → Stream) : (modCoreStream k i g).bnd = k.bnd := rfl
@[simp] theorem modCoreCluster_bnd (k : Core) (i : Nat) (g : Cluster → Cluster) : (modCoreCluster k i g).bnd = k.bnd := rfl
@[simp] theorem setCoreStream_accPrec (k : Core) (i : Nat) (t : Stream) : (setCoreStream k i t).accPrec = k.accPrec := rfl
@[simp] theorem modCoreStream_accPrec (k : Core) (i : Nat) (g : Stream → Stream) : (modCoreStream k i g).accPrec = k.accPrec := rfl
@[simp] theorem modCoreCluster_accPrec (k : Core) (i : Nat) (g : Cluster → Cluster) : (modCoreCluster k i g).accPrec = k.accPrec := rfl
@[simp] theorem setCoreStream_bth (k : Core) (i : Nat) (t : Stream) : (setCoreStream k i t).bth = k.bth := rfl
@[simp] theorem modCoreStream_bth (k : Core) (i : Nat) (g : Stream → Stream) : (modCoreStream k i g).bth = k.bth := rfl
@[simp] theorem modCoreCluster_bth (k : Core) (i : Nat) (g : Cluster → Cluster) : (modCoreCluster k i g).bth = k.bth := rfl
@[simp] theorem setCoreStream_bmode (k : Core) (i : Nat) (t : Stream) : (setCoreStream k i t).bmode = k.bmode := rfl
@[simp] theorem modCoreStream_bmode (k : Core) (i : Nat) (g : Stream → Stream) : (modCoreStream k i g).bmode = k.bmode := rfl
@[simp] theorem modCoreCluster_bmode (k : Core) (i : Nat) (g : Cluster → Cluster) : (modCoreCluster k i g).bmode = k.bmode := rfl
@[simp] theorem setCoreStream_poisonSpm (k : Core) (i : Nat) (t : Stream) : (setCoreStream k i t).poisonSpm = k.poisonSpm := rfl
@[simp] theorem modCoreStream_poisonSpm (k : Core) (i : Nat) (g : Stream → Stream) : (modCoreStream k i g).poisonSpm = k.poisonSpm := rfl
@[simp] theorem modCoreCluster_poisonSpm (k : Core) (i : Nat) (g : Cluster → Cluster) : (modCoreCluster k i g).poisonSpm = k.poisonSpm := rfl
@[simp] theorem setCoreStream_poisonV (k : Core) (i : Nat) (t : Stream) : (setCoreStream k i t).poisonV = k.poisonV := rfl
@[simp] theorem modCoreStream_poisonV (k : Core) (i : Nat) (g : Stream → Stream) : (modCoreStream k i g).poisonV = k.poisonV := rfl
@[simp] theorem modCoreCluster_poisonV (k : Core) (i : Nat) (g : Cluster → Cluster) : (modCoreCluster k i g).poisonV = k.poisonV := rfl
@[simp] theorem setCoreStream_poisonM (k : Core) (i : Nat) (t : Stream) : (setCoreStream k i t).poisonM = k.poisonM := rfl
@[simp] theorem modCoreStream_poisonM (k : Core) (i : Nat) (g : Stream → Stream) : (modCoreStream k i g).poisonM = k.poisonM := rfl
@[simp] theorem modCoreCluster_poisonM (k : Core) (i : Nat) (g : Cluster → Cluster) : (modCoreCluster k i g).poisonM = k.poisonM := rfl
@[simp] theorem setCoreStream_poisonA (k : Core) (i : Nat) (t : Stream) : (setCoreStream k i t).poisonA = k.poisonA := rfl
@[simp] theorem modCoreStream_poisonA (k : Core) (i : Nat) (g : Stream → Stream) : (modCoreStream k i g).poisonA = k.poisonA := rfl
@[simp] theorem modCoreCluster_poisonA (k : Core) (i : Nat) (g : Cluster → Cluster) : (modCoreCluster k i g).poisonA = k.poisonA := rfl
@[simp] theorem setCoreStream_poisonB (k : Core) (i : Nat) (t : Stream) : (setCoreStream k i t).poisonB = k.poisonB := rfl
@[simp] theorem modCoreStream_poisonB (k : Core) (i : Nat) (g : Stream → Stream) : (modCoreStream k i g).poisonB = k.poisonB := rfl
@[simp] theorem modCoreCluster_poisonB (k : Core) (i : Nat) (g : Cluster → Cluster) : (modCoreCluster k i g).poisonB = k.poisonB := rfl
@[simp] theorem setCoreStream_poisonCount (k : Core) (i : Nat) (t : Stream) : (setCoreStream k i t).poisonCount = k.poisonCount := rfl
@[simp] theorem modCoreStream_poisonCount (k : Core) (i : Nat) (g : Stream → Stream) : (modCoreStream k i g).poisonCount = k.poisonCount := rfl
@[simp] theorem modCoreCluster_poisonCount (k : Core) (i : Nat) (g : Cluster → Cluster) : (modCoreCluster k i g).poisonCount = k.poisonCount := rfl
@[simp] theorem setCoreStream_ceCount (k : Core) (i : Nat) (t : Stream) : (setCoreStream k i t).ceCount = k.ceCount := rfl
@[simp] theorem modCoreStream_ceCount (k : Core) (i : Nat) (g : Stream → Stream) : (modCoreStream k i g).ceCount = k.ceCount := rfl
@[simp] theorem modCoreCluster_ceCount (k : Core) (i : Nat) (g : Cluster → Cluster) : (modCoreCluster k i g).ceCount = k.ceCount := rfl
@[simp] theorem setCoreStream_gangSize (k : Core) (i : Nat) (t : Stream) : (setCoreStream k i t).gangSize = k.gangSize := rfl
@[simp] theorem modCoreStream_gangSize (k : Core) (i : Nat) (g : Stream → Stream) : (modCoreStream k i g).gangSize = k.gangSize := rfl
@[simp] theorem modCoreCluster_gangSize (k : Core) (i : Nat) (g : Cluster → Cluster) : (modCoreCluster k i g).gangSize = k.gangSize := rfl
@[simp] theorem setCoreStream_tenant (k : Core) (i : Nat) (t : Stream) : (setCoreStream k i t).tenant = k.tenant := rfl
@[simp] theorem modCoreStream_tenant (k : Core) (i : Nat) (g : Stream → Stream) : (modCoreStream k i g).tenant = k.tenant := rfl
@[simp] theorem modCoreCluster_tenant (k : Core) (i : Nat) (g : Cluster → Cluster) : (modCoreCluster k i g).tenant = k.tenant := rfl
@[simp] theorem setCoreStream_scopeSys (k : Core) (i : Nat) (t : Stream) : (setCoreStream k i t).scopeSys = k.scopeSys := rfl
@[simp] theorem modCoreStream_scopeSys (k : Core) (i : Nat) (g : Stream → Stream) : (modCoreStream k i g).scopeSys = k.scopeSys := rfl
@[simp] theorem modCoreCluster_scopeSys (k : Core) (i : Nat) (g : Cluster → Cluster) : (modCoreCluster k i g).scopeSys = k.scopeSys := rfl
@[simp] theorem setCoreStream_tquota (k : Core) (i : Nat) (t : Stream) : (setCoreStream k i t).tquota = k.tquota := rfl
@[simp] theorem modCoreStream_tquota (k : Core) (i : Nat) (g : Stream → Stream) : (modCoreStream k i g).tquota = k.tquota := rfl
@[simp] theorem modCoreCluster_tquota (k : Core) (i : Nat) (g : Cluster → Cluster) : (modCoreCluster k i g).tquota = k.tquota := rfl
@[simp] theorem setCoreStream_root (k : Core) (i : Nat) (t : Stream) : (setCoreStream k i t).root = k.root := rfl
@[simp] theorem modCoreStream_root (k : Core) (i : Nat) (g : Stream → Stream) : (modCoreStream k i g).root = k.root := rfl
@[simp] theorem modCoreCluster_root (k : Core) (i : Nat) (g : Cluster → Cluster) : (modCoreCluster k i g).root = k.root := rfl
@[simp] theorem setCoreStream_l1dirty (k : Core) (i : Nat) (t : Stream) : (setCoreStream k i t).l1dirty = k.l1dirty := rfl
@[simp] theorem modCoreStream_l1dirty (k : Core) (i : Nat) (g : Stream → Stream) : (modCoreStream k i g).l1dirty = k.l1dirty := rfl
@[simp] theorem modCoreCluster_l1dirty (k : Core) (i : Nat) (g : Cluster → Cluster) : (modCoreCluster k i g).l1dirty = k.l1dirty := rfl
@[simp] theorem setCoreStream_l1clean (k : Core) (i : Nat) (t : Stream) : (setCoreStream k i t).l1clean = k.l1clean := rfl
@[simp] theorem modCoreStream_l1clean (k : Core) (i : Nat) (g : Stream → Stream) : (modCoreStream k i g).l1clean = k.l1clean := rfl
@[simp] theorem modCoreCluster_l1clean (k : Core) (i : Nat) (g : Cluster → Cluster) : (modCoreCluster k i g).l1clean = k.l1clean := rfl
@[simp] theorem setCoreStream_pending (k : Core) (i : Nat) (t : Stream) : (setCoreStream k i t).pending = k.pending := rfl
@[simp] theorem modCoreStream_pending (k : Core) (i : Nat) (g : Stream → Stream) : (modCoreStream k i g).pending = k.pending := rfl
@[simp] theorem modCoreCluster_pending (k : Core) (i : Nat) (g : Cluster → Cluster) : (modCoreCluster k i g).pending = k.pending := rfl
@[simp] theorem setCoreStream_applied (k : Core) (i : Nat) (t : Stream) : (setCoreStream k i t).applied = k.applied := rfl
@[simp] theorem modCoreStream_applied (k : Core) (i : Nat) (g : Stream → Stream) : (modCoreStream k i g).applied = k.applied := rfl
@[simp] theorem modCoreCluster_applied (k : Core) (i : Nat) (g : Cluster → Cluster) : (modCoreCluster k i g).applied = k.applied := rfl
@[simp] theorem setCoreStream_icache (k : Core) (i : Nat) (t : Stream) : (setCoreStream k i t).icache = k.icache := rfl
@[simp] theorem modCoreStream_icache (k : Core) (i : Nat) (g : Stream → Stream) : (modCoreStream k i g).icache = k.icache := rfl
@[simp] theorem modCoreCluster_icache (k : Core) (i : Nat) (g : Cluster → Cluster) : (modCoreCluster k i g).icache = k.icache := rfl
@[simp] theorem setCoreStream_utlb (k : Core) (i : Nat) (t : Stream) : (setCoreStream k i t).utlb = k.utlb := rfl
@[simp] theorem modCoreStream_utlb (k : Core) (i : Nat) (g : Stream → Stream) : (modCoreStream k i g).utlb = k.utlb := rfl
@[simp] theorem modCoreCluster_utlb (k : Core) (i : Nat) (g : Cluster → Cluster) : (modCoreCluster k i g).utlb = k.utlb := rfl
@[simp] theorem setCoreStream_running (k : Core) (i : Nat) (t : Stream) : (setCoreStream k i t).running = k.running := rfl
@[simp] theorem modCoreStream_running (k : Core) (i : Nat) (g : Stream → Stream) : (modCoreStream k i g).running = k.running := rfl
@[simp] theorem modCoreCluster_running (k : Core) (i : Nat) (g : Cluster → Cluster) : (modCoreCluster k i g).running = k.running := rfl
@[simp] theorem setCoreStream_nextAge (k : Core) (i : Nat) (t : Stream) : (setCoreStream k i t).nextAge = k.nextAge := rfl
@[simp] theorem modCoreStream_nextAge (k : Core) (i : Nat) (g : Stream → Stream) : (modCoreStream k i g).nextAge = k.nextAge := rfl
@[simp] theorem modCoreCluster_nextAge (k : Core) (i : Nat) (g : Cluster → Cluster) : (modCoreCluster k i g).nextAge = k.nextAge := rfl
@[simp] theorem setCoreStream_axes (k : Core) (i : Nat) (t : Stream) : (setCoreStream k i t).axes = k.axes := rfl
@[simp] theorem modCoreStream_axes (k : Core) (i : Nat) (g : Stream → Stream) : (modCoreStream k i g).axes = k.axes := rfl
@[simp] theorem modCoreCluster_axes (k : Core) (i : Nat) (g : Cluster → Cluster) : (modCoreCluster k i g).axes = k.axes := rfl
@[simp] theorem setCoreStream_rules (k : Core) (i : Nat) (t : Stream) : (setCoreStream k i t).rules = k.rules := rfl
@[simp] theorem modCoreStream_rules (k : Core) (i : Nat) (g : Stream → Stream) : (modCoreStream k i g).rules = k.rules := rfl
@[simp] theorem modCoreCluster_rules (k : Core) (i : Nat) (g : Cluster → Cluster) : (modCoreCluster k i g).rules = k.rules := rfl
@[simp] theorem setCoreStream_installSeq (k : Core) (i : Nat) (t : Stream) : (setCoreStream k i t).installSeq = k.installSeq := rfl
@[simp] theorem modCoreStream_installSeq (k : Core) (i : Nat) (g : Stream → Stream) : (modCoreStream k i g).installSeq = k.installSeq := rfl
@[simp] theorem modCoreCluster_installSeq (k : Core) (i : Nat) (g : Cluster → Cluster) : (modCoreCluster k i g).installSeq = k.installSeq := rfl
@[simp] theorem setCoreStream_arrived (k : Core) (i : Nat) (t : Stream) : (setCoreStream k i t).arrived = k.arrived := rfl
@[simp] theorem modCoreStream_arrived (k : Core) (i : Nat) (g : Stream → Stream) : (modCoreStream k i g).arrived = k.arrived := rfl
@[simp] theorem modCoreCluster_arrived (k : Core) (i : Nat) (g : Cluster → Cluster) : (modCoreCluster k i g).arrived = k.arrived := rfl
@[simp] theorem setCoreStream_cpyTurn (k : Core) (i : Nat) (t : Stream) : (setCoreStream k i t).cpyTurn = k.cpyTurn := rfl
@[simp] theorem modCoreStream_cpyTurn (k : Core) (i : Nat) (g : Stream → Stream) : (modCoreStream k i g).cpyTurn = k.cpyTurn := rfl
@[simp] theorem modCoreCluster_cpyTurn (k : Core) (i : Nat) (g : Cluster → Cluster) : (modCoreCluster k i g).cpyTurn = k.cpyTurn := rfl
@[simp] theorem setCoreStream_lease (k : Core) (i : Nat) (t : Stream) : (setCoreStream k i t).lease = k.lease := rfl
@[simp] theorem modCoreStream_lease (k : Core) (i : Nat) (g : Stream → Stream) : (modCoreStream k i g).lease = k.lease := rfl
@[simp] theorem modCoreCluster_lease (k : Core) (i : Nat) (g : Cluster → Cluster) : (modCoreCluster k i g).lease = k.lease := rfl
@[simp] theorem setCoreStream_leaseLast (k : Core) (i : Nat) (t : Stream) : (setCoreStream k i t).leaseLast = k.leaseLast := rfl
@[simp] theorem modCoreStream_leaseLast (k : Core) (i : Nat) (g : Stream → Stream) : (modCoreStream k i g).leaseLast = k.leaseLast := rfl
@[simp] theorem modCoreCluster_leaseLast (k : Core) (i : Nat) (g : Cluster → Cluster) : (modCoreCluster k i g).leaseLast = k.leaseLast := rfl
@[simp] theorem setCoreStream_slot (k : Core) (i : Nat) (t : Stream) : (setCoreStream k i t).slot = k.slot := rfl
@[simp] theorem modCoreStream_slot (k : Core) (i : Nat) (g : Stream → Stream) : (modCoreStream k i g).slot = k.slot := rfl
@[simp] theorem modCoreCluster_slot (k : Core) (i : Nat) (g : Cluster → Cluster) : (modCoreCluster k i g).slot = k.slot := rfl
@[simp] theorem setCoreStream_poisonL1 (k : Core) (i : Nat) (t : Stream) : (setCoreStream k i t).poisonL1 = k.poisonL1 := rfl
@[simp] theorem modCoreStream_poisonL1 (k : Core) (i : Nat) (g : Stream → Stream) : (modCoreStream k i g).poisonL1 = k.poisonL1 := rfl
@[simp] theorem modCoreCluster_poisonL1 (k : Core) (i : Nat) (g : Cluster → Cluster) : (modCoreCluster k i g).poisonL1 = k.poisonL1 := rfl

/-! ### A queue of a stream -/

@[simp] theorem setQueue_run (t : Stream) (q : QueueId) (x : Queue) : (setQueue t q x).run = t.run := by cases q <;> rfl
@[simp] theorem setQueue_suspended (t : Stream) (q : QueueId) (x : Queue) : (setQueue t q x).suspended = t.suspended := by cases q <;> rfl
@[simp] theorem setQueue_debugStop (t : Stream) (q : QueueId) (x : Queue) : (setQueue t q x).debugStop = t.debugStop := by cases q <;> rfl
@[simp] theorem setQueue_pc (t : Stream) (q : QueueId) (x : Queue) : (setQueue t q x).pc = t.pc := by cases q <;> rfl
@[simp] theorem setQueue_conds (t : Stream) (q : QueueId) (x : Queue) : (setQueue t q x).conds = t.conds := by cases q <;> rfl
@[simp] theorem setQueue_targets (t : Stream) (q : QueueId) (x : Queue) : (setQueue t q x).targets = t.targets := by cases q <;> rfl
@[simp] theorem setQueue_loops (t : Stream) (q : QueueId) (x : Queue) : (setQueue t q x).loops = t.loops := by cases q <;> rfl
@[simp] theorem setQueue_gates (t : Stream) (q : QueueId) (x : Queue) : (setQueue t q x).gates = t.gates := by cases q <;> rfl
@[simp] theorem setQueue_sys (t : Stream) (q : QueueId) (x : Queue) : (setQueue t q x).sys = t.sys := by cases q <;> rfl
@[simp] theorem setQueue_nest (t : Stream) (q : QueueId) (x : Queue) : (setQueue t q x).nest = t.nest := by cases q <;> rfl
@[simp] theorem setQueue_ftable (t : Stream) (q : QueueId) (x : Queue) : (setQueue t q x).ftable = t.ftable := by cases q <;> rfl
@[simp] theorem setQueue_kv (t : Stream) (q : QueueId) (x : Queue) : (setQueue t q x).kv = t.kv := by cases q <;> rfl
@[simp] theorem setQueue_cmdIndex (t : Stream) (q : QueueId) (x : Queue) : (setQueue t q x).cmdIndex = t.cmdIndex := by cases q <;> rfl
@[simp] theorem setQueue_delay (t : Stream) (q : QueueId) (x : Queue) : (setQueue t q x).delay = t.delay := by cases q <;> rfl
@[simp] theorem setQueue_leaseReq (t : Stream) (q : QueueId) (x : Queue) : (setQueue t q x).leaseReq = t.leaseReq := by cases q <;> rfl
@[simp] theorem setQueue_lrel (t : Stream) (q : QueueId) (x : Queue) : (setQueue t q x).lrel = t.lrel := by cases q <;> rfl
@[simp] theorem setQueue_faults (t : Stream) (q : QueueId) (x : Queue) : (setQueue t q x).faults = t.faults := by cases q <;> rfl
@[simp] theorem setQueue_link (t : Stream) (q : QueueId) (x : Queue) : (setQueue t q x).link = t.link := by cases q <;> rfl
@[simp] theorem setQueue_slink (t : Stream) (q : QueueId) (x : Queue) : (setQueue t q x).slink = t.slink := by cases q <;> rfl
@[simp] theorem setQueue_ret (t : Stream) (q : QueueId) (x : Queue) : (setQueue t q x).ret = t.ret := by cases q <;> rfl
@[simp] theorem setQueue_waitAxis (t : Stream) (q : QueueId) (x : Queue) : (setQueue t q x).waitAxis = t.waitAxis := by cases q <;> rfl
@[simp] theorem setQueue_resumes (t : Stream) (q : QueueId) (x : Queue) : (setQueue t q x).resumes = t.resumes := by cases q <;> rfl
@[simp] theorem setQueue_point (t : Stream) (q : QueueId) (x : Queue) : (setQueue t q x).point = t.point := by cases q <;> rfl
@[simp] theorem setQueue_wait (t : Stream) (q : QueueId) (x : Queue) : (setQueue t q x).wait = t.wait := by cases q <;> rfl
@[simp] theorem setQueue_halted (t : Stream) (q : QueueId) (x : Queue) : (setQueue t q x).halted = t.halted := by cases q <;> rfl
@[simp] theorem setQueue_stood (t : Stream) (q : QueueId) (x : Queue) : (setQueue t q x).stood = t.stood := by cases q <;> rfl

/-! ### The machine -/

@[simp] theorem onDev_pre (s : State) (g : Dev → Dev) : (onDev s g).pre = s.pre := rfl
@[simp] theorem onCore_pre (s : State) (g : Core → Core) : (onCore s g).pre = s.pre := rfl
@[simp] theorem onStream_pre (s : State) (g : Stream → Stream) : (onStream s g).pre = s.pre := rfl
@[simp] theorem stall_pre (s : State) : (stall s).pre = s.pre := rfl
@[simp] theorem takeFault_pre (c : Cause) (a : Word) (w : Nat) (e : Word) (s : State) : (takeFault c a w e s).pre = s.pre := rfl
@[simp] theorem onDev_cur (s : State) (g : Dev → Dev) : (onDev s g).cur = s.cur := rfl
@[simp] theorem onCore_cur (s : State) (g : Core → Core) : (onCore s g).cur = s.cur := rfl
@[simp] theorem onStream_cur (s : State) (g : Stream → Stream) : (onStream s g).cur = s.cur := rfl
@[simp] theorem stall_cur (s : State) : (stall s).cur = s.cur := rfl
@[simp] theorem takeFault_cur (c : Cause) (a : Word) (w : Nat) (e : Word) (s : State) : (takeFault c a w e s).cur = s.cur := rfl
@[simp] theorem onDev_status (s : State) (g : Dev → Dev) : (onDev s g).status = s.status := rfl
@[simp] theorem onCore_status (s : State) (g : Core → Core) : (onCore s g).status = s.status := rfl
@[simp] theorem onStream_status (s : State) (g : Stream → Stream) : (onStream s g).status = s.status := rfl
@[simp] theorem onDev_agenda (s : State) (g : Dev → Dev) : (onDev s g).agenda = s.agenda := rfl
@[simp] theorem onCore_agenda (s : State) (g : Core → Core) : (onCore s g).agenda = s.agenda := rfl
@[simp] theorem onStream_agenda (s : State) (g : Stream → Stream) : (onStream s g).agenda = s.agenda := rfl
@[simp] theorem stall_agenda (s : State) : (stall s).agenda = s.agenda := rfl
@[simp] theorem takeFault_agenda (c : Cause) (a : Word) (w : Nat) (e : Word) (s : State) : (takeFault c a w e s).agenda = s.agenda := rfl
@[simp] theorem onDev_focus (s : State) (g : Dev → Dev) : (onDev s g).focus = s.focus := rfl
@[simp] theorem onCore_focus (s : State) (g : Core → Core) : (onCore s g).focus = s.focus := rfl
@[simp] theorem onStream_focus (s : State) (g : Stream → Stream) : (onStream s g).focus = s.focus := rfl
@[simp] theorem stall_focus (s : State) : (stall s).focus = s.focus := rfl
@[simp] theorem takeFault_focus (c : Cause) (a : Word) (w : Nat) (e : Word) (s : State) : (takeFault c a w e s).focus = s.focus := rfl
@[simp] theorem onDev_turn (s : State) (g : Dev → Dev) : (onDev s g).turn = s.turn := rfl
@[simp] theorem onCore_turn (s : State) (g : Core → Core) : (onCore s g).turn = s.turn := rfl
@[simp] theorem onStream_turn (s : State) (g : Stream → Stream) : (onStream s g).turn = s.turn := rfl
@[simp] theorem stall_turn (s : State) : (stall s).turn = s.turn := rfl
@[simp] theorem takeFault_turn (c : Cause) (a : Word) (w : Nat) (e : Word) (s : State) : (takeFault c a w e s).turn = s.turn := rfl
@[simp] theorem onDev_dev (s : State) (g : Dev → Dev) : (onDev s g).dev = g s.dev := rfl
@[simp] theorem stall_dev (s : State) : (stall s).dev = s.pre := rfl
@[simp] theorem stall_status (s : State) : (stall s).status = .stalled := rfl
@[simp] theorem takeFault_status (c : Cause) (a : Word) (w : Nat) (e : Word) (s : State) : (takeFault c a w e s).status = .faulted := rfl

end Sys2Proof.Machine
end

