-- ==== Sys2Proof/Laws/Frames.lean ====
section
/-!
SUPPORT. Reading the device after one named operation, and what each register write leaves as it was.
-/

namespace Sys2Proof.Machine

/-! ### Reading after a write -/

theorem getCore_setCore (d : Dev) (c e : Nat) (k : Core) : getCore (setCore d c k) e = if e = c then k else getCore d e := by
  unfold getCore setCore
  by_cases h : e = c
  · subst h; simp
  · simp [h, Sparse.get_insert_other _ _ _ h]

theorem getCore_modCore (d : Dev) (c e : Nat) (f : Core → Core) :
    getCore (modCore d c f) e = if e = c then f (getCore d e) else getCore d e := by
  rw [modCore, getCore_setCore]; split
  · next h => rw [h]
  · rfl

@[simp] theorem getCore_modCore_self (d : Dev) (c : Nat) (f : Core → Core) : getCore (modCore d c f) c = f (getCore d c) := by
  simp [getCore_modCore]

@[simp] theorem getCore_setCore_self (d : Dev) (c : Nat) (k : Core) : getCore (setCore d c k) c = k := by simp [getCore_setCore]

theorem coreStream_set (k : Core) (i j : Nat) (t : Stream) : coreStream (setCoreStream k i t) j = if j = i then t else coreStream k j := by
  unfold coreStream setCoreStream
  by_cases h : j = i
  · subst h; simp
  · simp [h, Sparse.get_insert_other _ _ _ h]

@[simp] theorem coreStream_set_self (k : Core) (i : Nat) (t : Stream) : coreStream (setCoreStream k i t) i = t := by simp [coreStream_set]

theorem coreStream_mod (k : Core) (i j : Nat) (g : Stream → Stream) :
    coreStream (modCoreStream k i g) j = if j = i then g (coreStream k j) else coreStream k j := by
  rw [modCoreStream, coreStream_set]; split
  · next h => rw [h]
  · rfl

theorem getStream_setStream (d : Dev) (c i e j : Nat) (t : Stream) :
    getStream (setStream d c i t) e j = if e = c ∧ j = i then t else getStream d e j := by
  unfold getStream setStream
  rw [getCore_modCore]
  by_cases h : e = c
  · simp [h, coreStream_set]
  · simp [h]

theorem getStream_modStream (d : Dev) (c i e j : Nat) (g : Stream → Stream) :
    getStream (modStream d c i g) e j = if e = c ∧ j = i then g (getStream d e j) else getStream d e j := by
  unfold getStream modStream
  rw [getCore_modCore]
  by_cases h : e = c
  · subst h; simp [coreStream_mod]
  · simp [h]

theorem coreCluster_mod (k : Core) (i j : Nat) (g : Cluster → Cluster) :
    coreCluster (modCoreCluster k i g) j = if j = i then g (coreCluster k j) else coreCluster k j := by
  unfold coreCluster modCoreCluster setCoreCluster coreCluster
  by_cases h : j = i
  · subst h; simp
  · simp [h, Sparse.get_insert_other _ _ _ h]

@[simp] theorem coreCluster_setCoreStream (k : Core) (i j : Nat) (t : Stream) : coreCluster (setCoreStream k i t) j = coreCluster k j := rfl

/-! ### Registers -/

theorem readS_eq (s : State) (r : BitVec 8) : readS s r = srcS s r := by
  unfold readS srcS scalarIn preCore
  by_cases h : r = 0
  · simp [h]
  · have k : r.toNat ≠ 0 := fun e => h (BitVec.eq_of_toNat_eq e)
    rw [if_neg h, if_neg k]

theorem readA_eq (s : State) (r : BitVec 8) : readA s r = srcA s r := rfl

/-- An instruction that is ready has its own effect. -/
theorem instr_ready {legal : Bool} {f : Fields} {s : State} {body : State → State} (hl : legal = true) (hg : gateOpen f s = true) :
    instr legal f s body = .next (body s) := by
  unfold instr; rw [hl, hg]; rfl

theorem ready_gate {i : Instr} {s : State} {o : Nat} {f : Fields} (h : Ready i s) (e : internalOf i = some (o, f)) : gateOpen f s = true := by
  have := h.2; unfold fieldsOf at this; rw [e] at this; exact this

theorem transfer_ready {legal : Bool} {f : Fields} {s : State} {body : State → State} (hl : legal = true) (hg : gateOpen f s = true) :
    transfer legal f s body = .next (body s) := by
  unfold transfer; rw [hl, hg]; rfl

/-! ### What has changed -/

theorem onlyCores_refl (s : State) : OnlyCores s s := ⟨rfl, rfl⟩

theorem onlyCores_trans {s t u : State} (h : OnlyCores s t) (k : OnlyCores t u) : OnlyCores s u := by
  refine ⟨?_, ?_⟩
  · rw [k.turn, h.turn]
  · rw [k.outside, h.outside]

theorem onlyCores_onCore (s : State) (f : Core → Core) : OnlyCores s (onCore s f) := ⟨rfl, rfl⟩
theorem onlyCores_onStream (s : State) (f : Stream → Stream) : OnlyCores s (onStream s f) := ⟨rfl, rfl⟩

theorem onlyCore_onCore (s : State) (f : Core → Core) : OnlyCore s (onCore s f) f :=
  { onlyCores_onCore s f with cores := fun c => by rw [onCore, onDev_dev, getCore_modCore] }

theorem onlyStream_onStream (s : State) (g : Stream → Stream) : OnlyStream s (onStream s g) g :=
  { onlyCores_onStream s g with
    cores := fun c => by
      rw [onStream, onDev_dev, modStream, getCore_modCore]
      split <;> rfl
    streams := fun c i => by rw [onStream, onDev_dev, getStream_modStream] }

theorem onlyScalar_writeS (s : State) (r : BitVec 8) (v : Word) : OnlyScalar s (writeS s r v) r v := by
  by_cases h : r = 0
  · subst h
    exact { onlyCores_refl s with
            cores := fun _ => rfl, addresses := fun _ _ _ => rfl
            scalars := fun c u x => by
              show scalarIn s.dev c u x = _
              split
              · next h => exact absurd h.2.2.1 h.2.2.2
              · rfl }
  · unfold writeS
    rw [if_neg h]
    refine { onlyCores_onCore s _ with cores := fun c => ?_, addresses := fun c u x => ?_, scalars := fun c u x => ?_ }
    · rw [onCore, onDev_dev, getCore_modCore]
      split <;> rfl
    · unfold addressIn
      rw [onCore, onDev_dev, getCore_modCore]
      split
      · rw [coreCluster_mod]; split <;> rfl
      · rfl
    · unfold scalarIn
      rw [onCore, onDev_dev, getCore_modCore]
      by_cases hx : x = 0
      · simp [hx]
      · rw [if_neg hx, if_neg hx]
        by_cases hc : c = s.cur.core
        · rw [if_pos hc, coreCluster_mod]
          by_cases hu : u = clusterOf s
          · rw [if_pos hu]
            by_cases hr : x = r.toNat
            · rw [if_pos ⟨hc, hu, hr, hx⟩, hr]; exact Sparse.get_set_self ..
            · rw [if_neg fun e => hr e.2.2.1]; exact Sparse.get_set_other _ _ _ hr
          · rw [if_neg hu, if_neg fun e => hu e.2.1]
        · rw [if_neg hc, if_neg fun e => hc e.1]

theorem onlyAddress_writeA (s : State) (r : BitVec 8) (v : Word) : OnlyAddress s (writeA s r v) r v := by
  unfold writeA
  refine { onlyCores_onCore s _ with cores := fun c => ?_, addresses := fun c u x => ?_, scalars := fun c u x => ?_ }
  · rw [onCore, onDev_dev, getCore_modCore]
    split <;> rfl
  · unfold scalarIn
    split
    · rfl
    · rw [onCore, onDev_dev, getCore_modCore]
      split
      · rw [coreCluster_mod]; split <;> rfl
      · rfl
  · unfold addressIn
    rw [onCore, onDev_dev, getCore_modCore]
    by_cases hc : c = s.cur.core
    · rw [if_pos hc, coreCluster_mod]
      by_cases hu : u = clusterOf s
      · rw [if_pos hu]
        by_cases hr : x = r.toNat
        · rw [if_pos ⟨hc, hu, hr⟩, hr]; exact Sparse.get_set_self ..
        · rw [if_neg fun e => hr e.2.2]; exact Sparse.get_set_other _ _ _ hr
      · rw [if_neg hu, if_neg fun e => hu e.2.1]
    · rw [if_neg hc, if_neg fun e => hc e.1]

end Sys2Proof.Machine
end

