-- ==== Sys2Proof/Laws/Access.lean ====
section
/-!
SUPPORT. Scalar accesses: what a checked load returns and a checked store leaves, byte by byte.
-/

namespace Sys2Proof.Machine

/-! ### The cells of an L1 -/

theorem find?_foldl_insert (n : Nat) (f : Nat → Byte) (p : Nat → Bool) (m : List Host.Cell) (lo a : Nat) :
    Sparse.find? ((List.range n).foldl (fun m i => if p (lo + i) then m else Sparse.insert m (lo + i) (f i)) m) a =
      if lo ≤ a ∧ a < lo + n ∧ p a = false then some (f (a - lo)) else Sparse.find? m a := by
  induction n with
  | zero => simp; omega
  | succ n ih =>
    rw [List.range_succ, List.foldl_append, List.foldl_cons, List.foldl_nil]
    by_cases ha : a = lo + n
    · subst ha
      split
      · next hp => rw [ih, if_neg (by omega), if_neg (by simp [hp])]
      · next hp =>
        rw [Sparse.find?_insert_self, if_pos ⟨by omega, by omega, by simpa using hp⟩]
        congr 2; omega
    · have e : (lo ≤ a ∧ a < lo + (n + 1) ∧ p a = false) ↔ (lo ≤ a ∧ a < lo + n ∧ p a = false) := by
        constructor <;> rintro ⟨x, y, z⟩ <;> exact ⟨x, by omega, z⟩
      rw [if_congr e rfl rfl, ← ih]
      split
      · rfl
      · rw [Sparse.find?_insert_other _ _ ha]

theorem homeBytes_one (d : Dev) (pa : Nat) (h : region pa ≠ 3) : (homeBytes d pa 1).headD 0 = homeByte d pa := by
  unfold homeBytes homeByte memBytes
  rw [if_neg h, Sparse.getRange_eq]
  rfl

theorem l1Byte_eq (d : Dev) (k : Core) (pa : Nat) (h : region pa ≠ 3) :
    l1Byte d k pa = ((Sparse.find? k.l1dirty pa).or (Sparse.find? k.l1clean pa)).getD (homeByte d pa) := by
  unfold l1Byte
  cases Sparse.find? k.l1dirty pa with
  | some b => rfl
  | none =>
    cases Sparse.find? k.l1clean pa with
    | some b => rfl
    | none => exact homeBytes_one d pa h

/-! ### Loads -/

theorem onlyCaches_refl (s : State) : OnlyCaches s s where
  turn := rfl
  scalars _ _ _ := rfl
  addresses _ _ _ := rfl
  streams _ _ := rfl
  spm _ _ := rfl
  homes _ := rfl
  seen _ _ _ := rfl
  cores _ := rfl
  device := rfl

theorem onlyCaches_trans {s t u : State} (h : OnlyCaches s t) (k : OnlyCaches t u) : OnlyCaches s u where
  turn := by rw [k.turn, h.turn]
  scalars c x r := (k.scalars c x r).trans (h.scalars c x r)
  addresses c x r := (k.addresses c x r).trans (h.addresses c x r)
  streams c i := (k.streams c i).trans (h.streams c i)
  spm c o := (k.spm c o).trans (h.spm c o)
  homes a := (k.homes a).trans (h.homes a)
  seen c a r := (k.seen c a r).trans (h.seen c a r)
  cores c := by rw [k.cores c, h.cores c]
  device := by rw [k.device, h.device]

theorem getCore_fillTlb (d : Dev) (c c' : Nat) (e : TlbEntry) :
    getCore (fillTlb d c e) c' = if c' = c then { getCore d c' with utlb := keepTlb (getCore d c').utlb e 64 } else getCore d c' := by
  have : getCore (fillTlb d c e) c' = getCore (modCore d c fun k => { k with utlb := keepTlb k.utlb e 64 }) c' := rfl
  rw [this, getCore_modCore]

theorem onlyCaches_fillTlb (s : State) (c : Nat) (e : TlbEntry) : OnlyCaches s (onDev s fun d => fillTlb d c e) where
  turn := rfl
  scalars c' u x := by rw [onDev_dev]; unfold scalarIn; rw [getCore_fillTlb]; split <;> (try rfl); split <;> rfl
  addresses c' u x := by rw [onDev_dev]; unfold addressIn; rw [getCore_fillTlb]; split <;> rfl
  streams c' i := by rw [onDev_dev]; unfold getStream; rw [getCore_fillTlb]; split <;> rfl
  spm c' o := by rw [onDev_dev]; unfold spmByte; rw [getCore_fillTlb]; split <;> rfl
  homes _ := rfl
  seen c' a h := by
    rw [l1Byte_eq _ _ _ h, l1Byte_eq _ _ _ h, onDev_dev, getCore_fillTlb]
    have hh : homeByte (fillTlb s.dev c e) a = homeByte s.dev a := rfl
    rw [hh]
    split <;> rfl
  cores c' := by rw [onDev_dev, getCore_fillTlb]; split <;> rfl
  device := rfl

theorem onlyCaches_noteTlb (s : State) (va : Nat) : OnlyCaches s (noteTlb s va) := by
  unfold noteTlb; split
  · exact onlyCaches_fillTlb _ _ _
  · exact onlyCaches_refl _

theorem l1Bytes_getD (d : Dev) (c pa n i : Nat) (h : i < n) : (l1Bytes d c pa n).getD i 0 = l1Byte d (getCore d c) (pa + i) := by
  unfold l1Bytes
  simp [h]

theorem onlyCaches_l1Fill (s : State) (c pa n : Nat) : OnlyCaches s (onDev s fun d => l1Fill d c pa n) := by
  have hc : ∀ e, ∃ m, getCore (l1Fill s.dev c pa n) e = { getCore s.dev e with l1clean := m } ∧
      (m = if e = c then (List.range n).foldl (fun m i => if (Sparse.find? (getCore s.dev e).l1dirty (pa + i)).isSome then m
        else Sparse.insert m (pa + i) ((l1Bytes s.dev c pa n).getD i 0)) (getCore s.dev e).l1clean else (getCore s.dev e).l1clean) := by
    intro e
    refine ⟨_, ?_, rfl⟩
    have : getCore (l1Fill s.dev c pa n) e = getCore (modCore s.dev c fun k =>
        { k with l1clean := (List.range n).foldl (fun m i =>
          if (Sparse.find? k.l1dirty (pa + i)).isSome then m else Sparse.insert m (pa + i) ((l1Bytes s.dev c pa n).getD i 0)) k.l1clean }) e := by
      unfold l1Fill afterRead; dsimp only; split <;> rfl
    rw [this, getCore_modCore]
    split <;> rfl
  have hm : (l1Fill s.dev c pa n).mem = s.dev.mem := by unfold l1Fill afterRead; dsimp only; split <;> rfl
  refine { turn := rfl, scalars := fun e u x => ?_, addresses := fun e u x => ?_, streams := fun e i => ?_, spm := fun e o => ?_
           homes := fun a => ?_, seen := fun e a h => ?_, cores := fun e => ?_
           device := by rw [onDev_dev]; unfold l1Fill afterRead; dsimp only; split <;> rfl }
  · obtain ⟨m, h, -⟩ := hc e
    unfold scalarIn; rw [onDev_dev, h]; split <;> rfl
  · obtain ⟨m, h, -⟩ := hc e
    unfold addressIn; rw [onDev_dev, h]; rfl
  · obtain ⟨m, h, -⟩ := hc e
    unfold getStream; rw [onDev_dev, h]; rfl
  · obtain ⟨m, h, -⟩ := hc e
    unfold spmByte; rw [onDev_dev, h]
  · unfold homeByte; rw [onDev_dev, hm]
  · obtain ⟨m, hk, hmm⟩ := hc e
    rw [onDev_dev, hk, l1Byte_eq _ _ _ h, l1Byte_eq _ _ _ h]
    have hh : homeByte (l1Fill s.dev c pa n) a = homeByte s.dev a := by unfold homeByte; rw [hm]
    rw [hh]
    dsimp only
    rw [hmm]
    split
    · next he =>
      subst he
      rw [find?_foldl_insert n (fun i => (l1Bytes s.dev e pa n).getD i 0) (fun a => (Sparse.find? (getCore s.dev e).l1dirty a).isSome)]
      cases hd : Sparse.find? (getCore s.dev e).l1dirty a with
      | some b => simp
      | none =>
        simp only [Option.isSome_none, Option.none_or, and_true]
        split
        · next hr =>
          rw [l1Bytes_getD _ _ _ _ _ (by omega), show pa + (a - pa) = a by omega, l1Byte_eq _ _ _ h, hd]
          rfl
        · rfl
    · rfl
  · obtain ⟨m, h, -⟩ := hc e
    rw [onDev_dev, h]

theorem onlyCaches_afterLoad (s : State) (p : Place) (n : Nat) : OnlyCaches s (afterLoad s p n) := by
  unfold afterLoad; split
  · exact onlyCaches_refl _
  · refine onlyCaches_trans ?_ (onlyCaches_noteTlb _ _)
    split
    · exact onlyCaches_refl _
    · exact onlyCaches_l1Fill _ _ _ _

theorem loadBytes_eq (s : State) (p : Place) (n : Nat) : loadBytes s p n = (List.range n).map (placeByte s p) := by
  cases p with
  | global va => rfl
  | spm c off own => exact Sparse.getRange_eq _ _ _ _

/-! ### Stores -/

theorem spmByte_write (d : Dev) (c off : Nat) (l : List Byte) (e a : Nat) :
    spmByte (spmWrite d c off l) e a = if e = c ∧ off ≤ a ∧ a < off + l.length then l.getD (a - off) 0 else spmByte d e a := by
  unfold spmWrite spmByte
  split
  · next h =>
    have : l = [] := by simpa using h
    subst this
    rw [if_neg (by simp only [List.length_nil]; omega)]
  · rw [getCore_modCore]
    by_cases he : e = c
    · simp only [he, true_and, if_true]
      exact Sparse.get_setRange _ _ _ _ _
    · rw [if_neg he, if_neg fun h => he h.1]

theorem onlySpm_spmWrite (s : State) (c off : Nat) (l : List Byte) : OnlySpm s (onDev s fun d => spmWrite d c off l) c off l where
  turn := rfl
  outside := by rw [onDev_dev]; unfold spmWrite; split <;> rfl
  cores e := by
    rw [onDev_dev]; unfold spmWrite
    split
    · rfl
    · rw [getCore_modCore]; split <;> rfl
  spm e a := by rw [onDev_dev]; exact spmByte_write _ _ _ _ _ _

theorem toBytes_eq (n : Nat) (v : Word) : Bits.toBytes n v.toNat = lowBytes n v := by
  unfold Bits.toBytes lowBytes
  refine List.map_congr_left fun i _ => ?_
  apply BitVec.eq_of_toNat_eq
  rw [BitVec.extractLsb'_toNat, BitVec.toNat_ofNat, Nat.shiftRight_eq_div_pow, show (256 : Nat) = 2 ^ 8 from rfl, ← Nat.pow_mul]

theorem onlySeen_of_caches {s t u : State} {pa : Nat} {l : List Byte} (h : OnlySeen s t pa l) (k : OnlyCaches t u)
    (o : ∀ c, c ≠ s.cur.core → getCore u.dev c = getCore t.dev c) (f : u.dev.fresh = t.dev.fresh) : OnlySeen s u pa l where
  turn := by rw [k.turn, h.turn]
  scalars c x r := (k.scalars c x r).trans (h.scalars c x r)
  addresses c x r := (k.addresses c x r).trans (h.addresses c x r)
  streams c i := (k.streams c i).trans (h.streams c i)
  spm c i := (k.spm c i).trans (h.spm c i)
  homes a := (k.homes a).trans (h.homes a)
  seen a r := (k.seen _ a r).trans (h.seen a r)
  others c n := (o c n).trans (h.others c n)
  core u hu := by rw [hu, k.cores, h.core _ rfl]
  device := k.device.trans (by rw [f, h.device])

theorem onlySeen_l1Store (s : State) (pa : Nat) (l : List Byte) : OnlySeen s (onDev s fun d => l1Store d s.cur.core pa l) pa l := by
  have hc : ∀ e, e ≠ s.cur.core → getCore (l1Store s.dev s.cur.core pa l) e = getCore s.dev e := by
    intro e h; unfold l1Store; rw [getCore_modCore, if_neg h]
  refine { turn := rfl, scalars := fun e u x => ?_, addresses := fun e u x => ?_, streams := fun e i => ?_, spm := fun e o => ?_
           homes := fun a => rfl, seen := fun a h => ?_, others := hc
           core := fun k hk => by subst hk; rw [onDev_dev]; unfold l1Store; rw [getCore_modCore_self]
           device := rfl }
  · rw [onDev_dev]; unfold l1Store scalarIn; rw [getCore_modCore]; split <;> (try rfl); split <;> rfl
  · rw [onDev_dev]; unfold l1Store addressIn; rw [getCore_modCore]; split <;> rfl
  · rw [onDev_dev]; unfold l1Store getStream; rw [getCore_modCore]; split <;> rfl
  · rw [onDev_dev]; unfold l1Store spmByte; rw [getCore_modCore]; split <;> rfl
  · rw [onDev_dev, l1Byte_eq _ _ _ h, l1Byte_eq _ _ _ h]
    unfold l1Store
    rw [getCore_modCore_self]
    have e := find?_foldl_insert l.length (fun i => l.getD i 0) (fun _ => false) (getCore s.dev s.cur.core).l1dirty pa a
    simp only [Bool.false_eq_true, if_false, and_true] at e
    dsimp only
    rw [e, Sparse.find?_filter _ fun b => decide (b < pa ∨ pa + l.length ≤ b)]
    by_cases hr : pa ≤ a ∧ a < pa + l.length
    · rw [if_pos hr, if_pos hr]; rfl
    · rw [if_neg hr, if_neg hr, if_pos (by simp; omega)]
      rfl

theorem getCore_noteTlb (s : State) (va c : Nat) (h : c ≠ s.cur.core) : getCore (noteTlb s va).dev c = getCore s.dev c := by
  unfold noteTlb; split
  · rw [onDev_dev, getCore_fillTlb, if_neg h]
  · rfl

theorem fresh_noteTlb (s : State) (va : Nat) : (noteTlb s va).dev.fresh = s.dev.fresh := by
  unfold noteTlb; split <;> rfl

theorem storedAt_storeBytes (s : State) (p : Place) (l : List Byte) : StoredAt s (storeBytes s p l) p l := by
  cases p with
  | spm c off own => exact onlySpm_spmWrite _ _ _ _
  | global va => exact onlySeen_of_caches (onlySeen_l1Store s _ l) (onlyCaches_noteTlb _ _) (fun c h => getCore_noteTlb _ _ _ h) (fresh_noteTlb _ _)

end Sys2Proof.Machine
end

