-- ==== Sys2Proof/Laws/Engines.lean ====
section
/-!
SUPPORT. What the shared operations of the engines leave as it was: writes at the homes, the boards, retire counts and rules, posts, faults of engine
commands, and the completion of one.
-/

namespace Sys2Proof.Machine

/-! ### Homes and boards -/

/-- Of the cores, core c alone may differ. -/
structure OtherCores (d e : Dev) (c : Nat) : Prop where
  others : ∀ x, x ≠ c → getCore e x = getCore d x

theorem OtherCores.refl (d : Dev) (c : Nat) : OtherCores d d c := ⟨fun _ _ => rfl⟩
theorem OtherCores.trans {a b d : Dev} {c : Nat} (h : OtherCores a b c) (k : OtherCores b d c) : OtherCores a d c := ⟨fun x hx => (k.others x hx).trans (h.others x hx)⟩
theorem otherCores_setCore (d : Dev) (c : Nat) (k : Core) : OtherCores d (setCore d c k) c := ⟨fun x hx => by rw [getCore_setCore, if_neg hx]⟩
theorem otherCores_modCore (d : Dev) (c : Nat) (f : Core → Core) : OtherCores d (modCore d c f) c := ⟨fun x hx => by rw [getCore_modCore, if_neg hx]⟩
theorem otherCores_modStream (d : Dev) (c i : Nat) (f : Stream → Stream) : OtherCores d (modStream d c i f) c := otherCores_modCore _ _ _

theorem cores_storeRun (d : Dev) (pa : Nat) (l : List Byte) : (storeRun d pa l).cores = d.cores := by
  unfold storeRun; split
  · rfl
  · split <;> rfl
theorem cores_matchWatch (d : Dev) (h : Nat) (w : Watch) : (matchWatch d h w).cores = d.cores := by
  unfold matchWatch; split <;> try rfl
  split <;> rfl
theorem foldl_keeps {α β γ : Type} (f : α → β → α) (g : α → γ) (h : ∀ a b, g (f a b) = g a) (l : List β) (a : α) : g (l.foldl f a) = g a := by
  induction l generalizing a with
  | nil => rfl
  | cons b r ih => rw [List.foldl_cons, ih, h]
theorem cores_markWatches (d : Dev) (hit : Nat → Nat → Bool) : (markWatches d hit).cores = d.cores :=
  foldl_keeps _ (fun d : Dev => d.cores) (fun _ _ => cores_matchWatch _ _ _) _ _
theorem mem_matchWatch (d : Dev) (h : Nat) (w : Watch) : (matchWatch d h w).mem = d.mem := by
  unfold matchWatch; split <;> try rfl
  split <;> rfl
theorem mem_markWatches (d : Dev) (hit : Nat → Nat → Bool) : (markWatches d hit).mem = d.mem :=
  foldl_keeps _ (fun d : Dev => d.mem) (fun _ _ => mem_matchWatch _ _ _) _ _
theorem cores_homeRuns (d : Dev) (l : List (Nat × List Byte)) : (homeRuns d l).cores = d.cores := by
  unfold homeRuns
  rw [cores_markWatches]
  exact foldl_keeps _ (fun d : Dev => d.cores) (fun _ _ => cores_storeRun _ _ _) _ _
theorem cores_homeStore (d : Dev) (pa : Nat) (l : List Byte) : (homeStore d pa l).cores = d.cores := by
  unfold homeStore; split
  · rfl
  · exact cores_homeRuns _ _
theorem getCore_of_cores {d e : Dev} (h : e.cores = d.cores) (c : Nat) : getCore e c = getCore d c := by unfold getCore; rw [h]

theorem cores_postLevel (d : Dev) (c q : Nat) (g : BitVec 512) : (postLevel d c q g).cores = d.cores := by
  unfold postLevel; dsimp only; split <;> rfl
theorem mem_postLevel (d : Dev) (c q : Nat) (g : BitVec 512) : (postLevel d c q g).mem = d.mem := by
  unfold postLevel; dsimp only; split <;> rfl
theorem cores_postTo (d : Dev) (c q : Nat) (g : BitVec 512) : (postTo d c q g).cores = d.cores :=
  foldl_keeps _ (fun d : Dev => d.cores) (fun _ _ => cores_postLevel _ _ _ _) _ _
theorem mem_postTo (d : Dev) (c q : Nat) (g : BitVec 512) : (postTo d c q g).mem = d.mem :=
  foldl_keeps _ (fun d : Dev => d.mem) (fun _ _ => mem_postLevel _ _ _ _) _ _

/-! ### Rules and retire counts -/

/-- Of the cores, core c alone, and of it the axes, the rules and the scratchpad: what settling the rules may change (R292, R294). -/
structure RulesFrame (d e : Dev) (c : Nat) : Prop extends OtherCores d e c where
  core : ∃ ax ru sp po, getCore e c = { getCore d c with axes := ax, rules := ru, spm := sp, poisonSpm := po }

theorem RulesFrame.refl (d : Dev) (c : Nat) : RulesFrame d d c := { OtherCores.refl d c with core := ⟨_, _, _, _, rfl⟩ }
theorem RulesFrame.trans {a b d : Dev} {c : Nat} (h : RulesFrame a b c) (k : RulesFrame b d c) : RulesFrame a d c :=
  ⟨h.toOtherCores.trans k.toOtherCores, by
    obtain ⟨_, _, _, _, e⟩ := h.core
    obtain ⟨_, _, _, _, f⟩ := k.core
    exact ⟨_, _, _, _, by rw [f, e]⟩⟩
theorem RulesFrame.of_cores {d e : Dev} {c : Nat} (h : e.cores = d.cores) : RulesFrame d e c :=
  { others := fun x _ => getCore_of_cores h x, core := ⟨_, _, _, _, getCore_of_cores h c⟩ }

theorem rules_spmWrite (d : Dev) (c off : Nat) (l : List Byte) : RulesFrame d (spmWrite d c off l) c := by
  unfold spmWrite; split
  · exact .refl _ _
  · exact { otherCores_modCore _ _ _ with core := ⟨_, _, _, _, by rw [getCore_modCore_self]; rfl⟩ }

theorem rules_writeRetire (d : Dev) (c : Nat) (a : Axis) (v : Nat) : RulesFrame d (writeRetire d c a v) c := by
  unfold writeRetire; split
  · exact .refl _ _
  · split
    · split
      · exact .refl _ _
      · exact rules_spmWrite _ _ _ _
    · dsimp only; split
      · exact .of_cores (by rw [cores_postTo, cores_homeStore])
      · exact .refl _ _

theorem rules_settleAxis (d : Dev) (c x : Nat) (b : Bool) : RulesFrame d (settleAxis d c x b) c := by
  unfold settleAxis; dsimp only; split
  · exact .refl _ _
  · split
    · exact .refl _ _
    · refine .trans ?_ (rules_writeRetire _ _ _ _)
      exact { otherCores_setCore _ _ _ with core := ⟨_, _, _, _, by rw [getCore_setCore_self]; rfl⟩ }

theorem rules_foldl {β : Type} (f : Dev → β → Dev) (c : Nat) (h : ∀ d b, RulesFrame d (f d b) c) (l : List β) (d : Dev) : RulesFrame d (l.foldl f d) c := by
  induction l generalizing d with
  | nil => exact .refl _ _
  | cons b r ih => exact (h d b).trans (ih _)

theorem rules_settleRules (d : Dev) (c : Nat) : RulesFrame d (settleRules d c) c := by
  unfold settleRules
  refine .trans ?_ (rules_foldl _ _ (fun _ _ => rules_settleAxis _ _ _ _) _ _)
  exact { otherCores_modCore _ _ _ with core := ⟨_, _, _, _, by rw [getCore_modCore_self]; rfl⟩ }

/-! ### Posts, faults and completions -/

/-- Of the cores, core c alone, and of it the fields that posts, faults and completions may change. -/
structure EngFrame (d e : Dev) (c : Nat) : Prop extends OtherCores d e c where
  core : ∃ ax ru sp po st rn tk, getCore e c = { getCore d c with axes := ax, rules := ru, spm := sp, poisonSpm := po, streams := st, running := rn, tokens := tk }

theorem EngFrame.refl (d : Dev) (c : Nat) : EngFrame d d c := ⟨OtherCores.refl d c, ⟨_, _, _, _, _, _, _, rfl⟩⟩
theorem EngFrame.trans {a b d : Dev} {c : Nat} (h : EngFrame a b c) (k : EngFrame b d c) : EngFrame a d c :=
  ⟨h.toOtherCores.trans k.toOtherCores, by
    obtain ⟨_, _, _, _, _, _, _, e⟩ := h.core
    obtain ⟨_, _, _, _, _, _, _, f⟩ := k.core
    exact ⟨_, _, _, _, _, _, _, by rw [f, e]⟩⟩
theorem RulesFrame.eng {d e : Dev} {c : Nat} (h : RulesFrame d e c) : EngFrame d e c :=
  ⟨h.toOtherCores, by obtain ⟨_, _, _, _, e⟩ := h.core; exact ⟨_, _, _, _, _, _, _, by rw [e]⟩⟩
theorem eng_modStream (d : Dev) (c i : Nat) (f : Stream → Stream) : EngFrame d (modStream d c i f) c :=
  ⟨otherCores_modStream _ _ _ _, ⟨_, _, _, _, _, _, _, by rw [modStream, getCore_modCore_self]; rfl⟩⟩
theorem eng_modRun (d : Dev) (c age : Nat) (f : Run → Run) : EngFrame d (modCore d c fun k => modRun k age f) c :=
  ⟨otherCores_modCore _ _ _, ⟨_, _, _, _, _, _, _, by rw [getCore_modCore_self]; rfl⟩⟩
theorem eng_dropRun (d : Dev) (c age : Nat) : EngFrame d (modCore d c fun k => dropRun k age) c :=
  ⟨otherCores_modCore _ _ _, ⟨_, _, _, _, _, _, _, by rw [getCore_modCore_self]; rfl⟩⟩
theorem eng_pendFault (d : Dev) (c i : Nat) (f : PendingFault) : EngFrame d (pendFault d c i f) c := eng_modStream _ _ _ _
theorem eng_stopQueue (d : Dev) (c : Nat) (x : Cmd) : EngFrame d (stopQueue d c x) c := eng_modStream _ _ _ _
theorem eng_of_core {d : Dev} {c : Nat} {k : Core}
    (h : ∃ ax ru sp po st rn tk, k = { getCore d c with axes := ax, rules := ru, spm := sp, poisonSpm := po, streams := st, running := rn, tokens := tk }) :
    EngFrame d (setCore d c k) c := ⟨otherCores_setCore _ _ _, by rw [getCore_setCore_self]; exact h⟩

theorem eng_ceilingFault (d : Dev) (c : Nat) (x : Cmd) (n t : Nat) (v : Bool) : EngFrame d (ceilingFault d c x n t v) c := by
  unfold ceilingFault; dsimp only
  split
  · refine .trans ?_ (eng_pendFault _ _ _ _)
    refine .trans ?_ (rules_settleRules _ _).eng
    refine ⟨otherCores_modCore _ _ _, ?_⟩
    rw [getCore_modCore_self]
    dsimp only
    split
    · split <;> exact ⟨_, _, _, _, _, _, _, rfl⟩
    · exact ⟨_, _, _, _, _, _, _, rfl⟩
  · exact (eng_stopQueue _ _ _).trans (eng_pendFault _ _ _ _)

theorem eng_makePost (d : Dev) (c : Nat) (x : Cmd) (n : Nat) (v : Bool) (t : Option Nat) : EngFrame d (makePost d c x n v t) c := by
  unfold makePost
  split
  · exact .refl _ _
  · split
    · next h =>
      unfold postToken at h
      dsimp only at h
      split at h
      · cases h
      · cases h
        exact eng_of_core ⟨_, _, _, _, _, _, _, rfl⟩
    · exact eng_ceilingFault _ _ _ _ _ _

theorem eng_popFences (d : Dev) (c i : Nat) (q : QueueId) : EngFrame d (modCore d c fun k => popFences k i q) c := by
  refine ⟨otherCores_modCore _ _ _, ?_⟩
  rw [getCore_modCore_self]
  unfold popFences; split <;> exact ⟨_, _, _, _, _, _, _, rfl⟩

theorem eng_afterCompletion (d : Dev) (c : Nat) (x : Cmd) : EngFrame d (afterCompletion d c x) c :=
  (eng_popFences _ _ _ _).trans (rules_settleRules _ _).eng

theorem eng_engineFault (d : Dev) (c : Nat) (x : Cmd) (f : FaultRec) : EngFrame d (engineFault d c x f) c := by
  unfold engineFault
  split
  · unfold firingFault; dsimp only
    refine .trans ?_ (eng_pendFault _ _ _ _)
    refine .trans ?_ (rules_settleRules _ _).eng
    refine ⟨otherCores_modCore _ _ _, ?_⟩
    rw [getCore_modCore_self]
    split <;> exact ⟨_, _, _, _, _, _, _, rfl⟩
  · dsimp only
    exact ((eng_modRun _ _ _ _).trans (eng_stopQueue _ _ _)).trans (eng_pendFault _ _ _ _)

theorem eng_gatherFlags (d : Dev) (c : Nat) (x : Cmd) (fl : Flags) : EngFrame d (gatherFlags d c x fl) c := eng_modStream _ _ _ _

theorem eng_retireCommand (d : Dev) (c : Nat) (r : Run) (v : Bool) : EngFrame d (retireCommand d c r v) c := by
  unfold retireCommand; dsimp only
  refine .trans ?_ (eng_afterCompletion _ _ _)
  have h : EngFrame d (modCore (gatherFlags d c r.cmd r.flags) c fun k => dropRun k r.cmd.age) c := (eng_gatherFlags _ _ _ _).trans (eng_dropRun _ _ _)
  split
  · exact (h.trans (eng_makePost _ _ _ _ _ _)).trans (eng_makePost _ _ _ _ _ _)
  · exact h.trans (eng_makePost _ _ _ _ _ _)
theorem eng_of_cores {d e : Dev} {c : Nat} (h : e.cores = d.cores) : EngFrame d e c := (RulesFrame.of_cores h).eng
theorem eng_postWritten (d : Dev) (c : Nat) (r : Run) (n : Nat) : EngFrame d (postWritten d c r n) c := by
  unfold postWritten; split
  · exact .refl _ _
  · exact eng_of_cores (cores_postTo _ _ _ _)

/-! ### The runs of a core -/

theorem running_settleRules (d : Dev) (c : Nat) : (getCore (settleRules d c) c).running = (getCore d c).running := by
  obtain ⟨_, _, _, _, e⟩ := (rules_settleRules d c).core; rw [e]
theorem running_modStream (d : Dev) (c i : Nat) (f : Stream → Stream) : (getCore (modStream d c i f) c).running = (getCore d c).running := by
  rw [modStream, getCore_modCore_self]; rfl
theorem running_ceilingFault (d : Dev) (c : Nat) (x : Cmd) (n t : Nat) (v : Bool) : (getCore (ceilingFault d c x n t v) c).running = (getCore d c).running := by
  unfold ceilingFault; dsimp only
  split
  · refine (running_modStream _ _ _ _).trans ((running_settleRules _ _).trans ?_)
    rw [getCore_modCore_self]
    split
    · split <;> rfl
    · rfl
  · exact (running_modStream _ _ _ _).trans (running_modStream _ _ _ _)
theorem running_makePost (d : Dev) (c : Nat) (x : Cmd) (n : Nat) (v : Bool) (t : Option Nat) : (getCore (makePost d c x n v t) c).running = (getCore d c).running := by
  unfold makePost
  split
  · rfl
  · split
    · next h =>
      unfold postToken at h
      dsimp only at h
      split at h
      · cases h
      · cases h
        rw [getCore_setCore_self]; rfl
    · exact running_ceilingFault _ _ _ _ _ _
theorem running_afterCompletion (d : Dev) (c : Nat) (x : Cmd) : (getCore (afterCompletion d c x) c).running = (getCore d c).running := by
  unfold afterCompletion
  rw [running_settleRules, getCore_modCore_self]
  unfold popFences; split <;> rfl
theorem findRun_dropRun (k : Core) (age : Nat) : findRun (dropRun k age) age = none := by
  unfold findRun dropRun
  simp [List.find?_eq_none]
theorem running_retireCommand (d : Dev) (c : Nat) (r : Run) (v : Bool) :
    (getCore (retireCommand d c r v) c).running = (dropRun (getCore d c) r.cmd.age).running := by
  unfold retireCommand; dsimp only
  rw [running_afterCompletion]
  have h : (getCore (modCore (gatherFlags d c r.cmd r.flags) c fun k => dropRun k r.cmd.age) c).running = (dropRun (getCore d c) r.cmd.age).running := by
    rw [getCore_modCore_self, gatherFlags, modStream, getCore_modCore_self]; rfl
  split
  · rw [running_makePost, running_makePost, h]
  · rw [running_makePost, h]

end Sys2Proof.Machine
end

