-- ==== Sys2Proof/Laws/Memory.lean ====
section
/-!
SUPPORT. The canonical form of global memory through the named operations: one lemma per operation, saying that it keeps the form.
-/

namespace Sys2Proof.Machine

/-- Global memory is in canonical form. -/
def MemOk (d : Dev) : Prop := memWf d.mem = true

/-- Every device that an event answers keeps the form. -/
def KeepsMem (o : Option Dev) : Prop := ∀ d, o = some d → MemOk d

theorem memOk_of_mem {d d' : Dev} (e : d'.mem = d.mem) (h : MemOk d) : MemOk d' := by
  unfold MemOk; rw [e]; exact h

theorem memOk_foldl {α : Type} (f : Dev → α → Dev) (l : List α) (hf : ∀ d x, MemOk d → MemOk (f d x)) {d : Dev} (h : MemOk d) :
    MemOk (l.foldl f d) := by
  induction l generalizing d with
  | nil => exact h
  | cons x r ih => exact ih (hf d x h)

theorem keepsMem_some {d : Dev} (h : MemOk d) : KeepsMem (some d) := by
  rintro d' ⟨⟩; exact h

theorem memOk_getD {o : Option Dev} {d : Dev} (ho : KeepsMem o) (h : MemOk d) : MemOk (o.getD d) := by
  cases o with
  | none => exact h
  | some e => exact ho e rfl

theorem keepsMem_none : KeepsMem none := by rintro d ⟨⟩

theorem keepsMem_ite {p : Prop} [Decidable p] {a b : Option Dev} (ha : KeepsMem a) (hb : KeepsMem b) : KeepsMem (if p then a else b) := by
  split <;> assumption

theorem memOk_ite {p : Prop} [Decidable p] {a b : Dev} (ha : MemOk a) (hb : MemOk b) : MemOk (if p then a else b) := by
  split <;> assumption

/-! ### Fields other than memory -/

@[simp] theorem memOk_setCore (d : Dev) (c : Nat) (k : Core) : MemOk (setCore d c k) ↔ MemOk d := Iff.rfl
@[simp] theorem memOk_modCore (d : Dev) (c : Nat) (f : Core → Core) : MemOk (modCore d c f) ↔ MemOk d := Iff.rfl
@[simp] theorem memOk_setStream (d : Dev) (c i : Nat) (t : Stream) : MemOk (setStream d c i t) ↔ MemOk d := Iff.rfl
@[simp] theorem memOk_modStream (d : Dev) (c i : Nat) (f : Stream → Stream) : MemOk (modStream d c i f) ↔ MemOk d := Iff.rfl
@[simp] theorem memOk_setLaunch (d : Dev) (n : Nat) (l : Launch) : MemOk (setLaunch d n l) ↔ MemOk d := Iff.rfl
@[simp] theorem memOk_setRing (d : Dev) (n : Nat) (l : Ring) : MemOk (setRing d n l) ↔ MemOk d := Iff.rfl
@[simp] theorem memOk_setGang (d : Dev) (n : Nat) (l : Gang) : MemOk (setGang d n l) ↔ MemOk d := Iff.rfl
@[simp] theorem memOk_bumpFresh (d : Dev) : MemOk (bumpFresh d) ↔ MemOk d := Iff.rfl
@[simp] theorem memOk_modLaunch (d : Dev) (n : Nat) (f : Launch → Launch) : MemOk (modLaunch d n f) ↔ MemOk d := by
  unfold modLaunch; split <;> rfl

/-! ### Memory at the homes -/

theorem memOk_matchWatch (d : Dev) (h : Nat) (w : Watch) (hd : MemOk d) : MemOk (matchWatch d h w) := by
  unfold matchWatch; split
  · exact hd
  · exact hd
  · split <;> exact hd

theorem memOk_markWatches (d : Dev) (hit : Nat → Nat → Bool) (h : MemOk d) : MemOk (markWatches d hit) :=
  memOk_foldl _ _ (fun _ _ h => memOk_matchWatch _ _ _ h) h

theorem memOk_storeRun (d : Dev) (pa : Nat) (l : List Byte) (h : MemOk d) : MemOk (storeRun d pa l) := by
  unfold storeRun; split
  · exact h
  · split
    · exact h
    · exact Sparse.wf_setRange _ _ _ _ h

theorem memOk_homeRuns (d : Dev) (l : List (Nat × List Byte)) (h : MemOk d) : MemOk (homeRuns d l) :=
  memOk_markWatches _ _ (memOk_foldl _ _ (fun _ _ h => memOk_storeRun _ _ _ h) h)

theorem memOk_homeStore (d : Dev) (pa : Nat) (l : List Byte) (h : MemOk d) : MemOk (homeStore d pa l) := by
  unfold homeStore; split
  · exact h
  · exact memOk_homeRuns _ _ h

theorem memOk_afterRead (d : Dev) (pa : Nat) (h : MemOk d) : MemOk (afterRead d pa) := by
  unfold afterRead; split <;> exact h

theorem memOk_fillTlb (d : Dev) (c : Nat) (e : TlbEntry) (h : MemOk d) : MemOk (fillTlb d c e) := h

/-- Cells of an area, put behind what lies below it and before what lies above it, keep the form. -/
theorem memOk_storeArea (d : Dev) (pa n : Nat) (l : List Host.Cell) (h : MemOk d) : MemOk (storeArea d pa n l) := by
  unfold storeArea
  split
  · exact h
  refine memOk_markWatches _ _ ?_
  generalize hm : (if Sparse.sorted l = true then l else Sparse.ofList memDefault l) = m
  have hs : m.Pairwise fun p q => p.1 < q.1 := by
    subst hm
    split
    · exact (Sparse.sorted_iff l).1 ‹_›
    · exact ((Sparse.wf_iff _ _).1 (Sparse.wf_ofList memDefault l)).1
  obtain ⟨h1, h2⟩ := (Sparse.wf_iff _ _).1 h
  refine (Sparse.wf_iff _ _).2 ⟨?_, ?_⟩
  · refine List.pairwise_append.2 ⟨List.pairwise_append.2 ⟨h1.filter _, ?_, ?_⟩, h1.filter _, ?_⟩
    · refine List.pairwise_map.2 ((hs.filter _).imp ?_)
      intro a b hab
      show pa + a.1 < pa + b.1
      omega
    · intro p hp q hq
      obtain ⟨c, hc, rfl⟩ := List.mem_map.1 hq
      have := (List.mem_filter.1 hp).2
      simp only [decide_eq_true_eq] at this
      show p.1 < pa + c.1
      omega
    · intro p hp q hq
      have hq' := (List.mem_filter.1 hq).2
      simp only [decide_eq_true_eq] at hq'
      rcases List.mem_append.1 hp with hp | hp
      · have := (List.mem_filter.1 hp).2
        simp only [decide_eq_true_eq] at this
        omega
      · obtain ⟨c, hc, rfl⟩ := List.mem_map.1 hp
        have := (List.mem_filter.1 hc).2
        simp only [ne_eq, decide_not, Bool.and_eq_true, decide_eq_true_eq] at this
        show pa + c.1 < q.1
        omega
  · intro p hp
    rcases List.mem_append.1 hp with hp | hp
    · rcases List.mem_append.1 hp with hp | hp
      · exact h2 p (List.mem_filter.1 hp).1
      · obtain ⟨c, hc, rfl⟩ := List.mem_map.1 hp
        have := (List.mem_filter.1 hc).2
        simp at this
        exact this.2
    · exact h2 p (List.mem_filter.1 hp).1

/-! ### The L1, boards and scopes -/

theorem memOk_postLevel (d : Dev) (c level : Nat) (g : BitVec 512) (h : MemOk d) : MemOk (postLevel d c level g) := by
  unfold postLevel; split <;> exact h

theorem memOk_postTo (d : Dev) (c scope : Nat) (g : BitVec 512) (h : MemOk d) : MemOk (postTo d c scope g) :=
  memOk_foldl _ _ (fun _ _ h => memOk_postLevel _ _ _ _ h) h

theorem memOk_writeBack (d : Dev) (c s : Nat) (h : MemOk d) : MemOk (writeBack d c s) := by
  unfold writeBack
  dsimp only
  split
  · exact h
  · split <;> exact (memOk_homeRuns _ _ h :)

theorem memOk_evictSector (d : Dev) (c s : Nat) (h : MemOk d) : MemOk (evictSector d c s) := memOk_writeBack _ _ _ h

theorem memOk_writeBackAll (d : Dev) (c : Nat) (h : MemOk d) : MemOk (writeBackAll d c) :=
  memOk_foldl _ _ (fun _ _ h => memOk_writeBack _ _ _ h) h

theorem memOk_postPending (d : Dev) (c level : Nat) (h : MemOk d) : MemOk (postPending d c level) := memOk_postLevel _ _ _ _ h

theorem memOk_publish (d : Dev) (c scope : Nat) (h : MemOk d) : MemOk (publish d c scope) :=
  memOk_foldl _ _ (fun _ _ h => memOk_postPending _ _ _ h) (memOk_writeBackAll _ _ h)

theorem memOk_applyBoard (d : Dev) (c level : Nat) (h : MemOk d) : MemOk (applyBoard d c level) := h

theorem memOk_acquire (d : Dev) (c scope : Nat) (h : MemOk d) : MemOk (acquire d c scope) := by
  unfold acquire
  have := memOk_foldl (fun d q => applyBoard d c q) (levelsTo scope) (fun _ _ h => memOk_applyBoard _ _ _ h) h
  dsimp only
  split <;> exact this

theorem memOk_l1Fill (d : Dev) (c pa n : Nat) (h : MemOk d) : MemOk (l1Fill d c pa n) := memOk_afterRead _ _ h
theorem memOk_l1Store (d : Dev) (c pa : Nat) (l : List Byte) (h : MemOk d) : MemOk (l1Store d c pa l) := h
theorem memOk_engineStore (d : Dev) (c pa : Nat) (l : List Byte) (h : MemOk d) : MemOk (engineStore d c pa l) := memOk_homeStore _ _ _ h

theorem memOk_writeEvent (d : Dev) (ty src : Nat) (arg : Word) (h : MemOk d) : MemOk (writeEvent d ty src arg) := by
  unfold writeEvent; split
  · exact h
  · exact memOk_homeStore _ _ _ h

/-! ### Faults, scratchpads, queues -/

theorem memOk_reportSuspension (d : Dev) (c i : Nat) (dbg : Bool) (h : MemOk d) : MemOk (reportSuspension d c i dbg) :=
  memOk_writeEvent _ _ _ _ (memOk_homeStore _ _ _ h)

theorem memOk_deliverFault (d : Dev) (c i : Nat) (f : PendingFault) (engine : Bool) (epc : Word) (h : MemOk d) :
    MemOk (deliverFault d c i f engine epc) := by
  unfold deliverFault; dsimp only; split
  · exact h
  · exact memOk_reportSuspension _ _ _ _ h

theorem memOk_resumeCommand (d : Dev) (c i age : Nat) (discard : Bool) (h : MemOk d) : MemOk (resumeCommand d c i age discard) := h

theorem memOk_returnFromFault (d : Dev) (c i : Nat) (discard : Bool) (h : MemOk d) : MemOk (returnFromFault d c i discard) := by
  unfold returnFromFault; dsimp only; split <;> exact h

theorem memOk_spmWrite (d : Dev) (c off : Nat) (l : List Byte) (h : MemOk d) : MemOk (spmWrite d c off l) := by
  unfold spmWrite; split <;> exact h

theorem memOk_writeSync (d : Dev) (c off : Nat) (w : SyncWord) (h : MemOk d) : MemOk (writeSync d c off w) := memOk_spmWrite _ _ _ _ h
theorem memOk_syncArrive (d : Dev) (c off n : Nat) (h : MemOk d) : MemOk (syncArrive d c off n) := memOk_writeSync _ _ _ _ h

theorem memOk_writeQueueBytes (d : Dev) (c : Nat) (q : Queue) (h : MemOk d) : MemOk (writeQueueBytes d c q) := by
  unfold writeQueueBytes; split
  · exact memOk_spmWrite _ _ _ _ h
  · exact h

theorem memOk_pushEntry (d : Dev) (c i : Nat) (q : QueueId) (e : QEntry) (h : MemOk d) : MemOk (pushEntry d c i q e) :=
  memOk_writeQueueBytes _ _ _ h

theorem memOk_enqueueCmd (d : Dev) (c i : Nat) (x : Cmd) (h : MemOk d) : MemOk (enqueueCmd d c i x) := by
  unfold enqueueCmd
  simp only [memOk_modStream, memOk_modCore]
  exact memOk_pushEntry _ _ _ _ _ h

end Sys2Proof.Machine
end

