-- ==== Sys2Proof/Laws/MemoryEngines.lean ====
section
/-!
SUPPORT. The canonical form of global memory through what the engines do: axes and rules, faults of commands, and every command's execution.
-/

namespace Sys2Proof.Machine

/-! ### Axes and rules -/

theorem memOk_writeRetire (d : Dev) (c : Nat) (a : Axis) (v : Nat) (h : MemOk d) : MemOk (writeRetire d c a v) := by
  unfold writeRetire
  split
  · exact h
  · split
    · exact memOk_ite h (memOk_spmWrite _ _ _ _ h)
    · dsimp only
      split
      · exact memOk_postTo _ _ _ _ (memOk_homeStore _ _ _ h)
      · exact h

theorem memOk_settleAxis (d : Dev) (c x : Nat) (b : Bool) (h : MemOk d) : MemOk (settleAxis d c x b) := by
  unfold settleAxis
  dsimp only
  split
  · exact h
  · split
    · exact h
    · exact memOk_writeRetire _ _ _ _ h

theorem memOk_settleRules (d : Dev) (c : Nat) (h : MemOk d) : MemOk (settleRules d c) :=
  memOk_foldl _ _ (fun _ _ h => memOk_settleAxis _ _ _ _ h) h

theorem memOk_advanceAxis (d : Dev) (c x n : Nat) (close : Bool) (h : MemOk d) : MemOk (advanceAxis d c x n close) := by
  unfold advanceAxis
  split
  · exact h
  · rename_i a _
    refine memOk_settleRules _ _ ?_
    have h1 : MemOk (if a.n < n then acquire (modCore d c fun k => setAxis k x { a with n := n }) c a.scope else d) :=
      memOk_ite (memOk_acquire _ _ _ h) h
    dsimp only
    split <;> exact h1

/-! ### Faults and posts of commands -/

theorem memOk_pendFault (d : Dev) (c i : Nat) (f : PendingFault) (h : MemOk d) : MemOk (pendFault d c i f) := h
theorem memOk_stopQueue (d : Dev) (c : Nat) (x : Cmd) (h : MemOk d) : MemOk (stopQueue d c x) := h

theorem memOk_firingFault (d : Dev) (c n s : Nat) (x : Cmd) (f : FaultRec) (h : MemOk d) : MemOk (firingFault d c n s x f) :=
  memOk_pendFault _ _ _ _ (memOk_settleRules _ _ h)

theorem memOk_engineFault (d : Dev) (c : Nat) (x : Cmd) (f : FaultRec) (h : MemOk d) : MemOk (engineFault d c x f) := by
  unfold engineFault
  split
  · exact memOk_firingFault _ _ _ _ _ _ h
  · exact h

theorem memOk_ceilingFault (d : Dev) (c : Nat) (x : Cmd) (steps token : Nat) (vis : Bool) (h : MemOk d) :
    MemOk (ceilingFault d c x steps token vis) := by
  unfold ceilingFault
  dsimp only
  split
  · exact memOk_pendFault _ _ _ _ (memOk_settleRules _ _ h)
  · exact h

theorem memOk_makePost (d : Dev) (c : Nat) (x : Cmd) (steps : Nat) (vis : Bool) (t : Option Nat) (h : MemOk d) :
    MemOk (makePost d c x steps vis t) := by
  unfold makePost
  split
  · exact h
  · split
    · exact h
    · exact memOk_ceilingFault _ _ _ _ _ _ h

theorem memOk_gatherFlags (d : Dev) (c : Nat) (x : Cmd) (fl : Flags) (h : MemOk d) : MemOk (gatherFlags d c x fl) := h

theorem memOk_chain (a : EngOut) (g : Dev → EngOut) (h : MemOk a.dev) (hg : ∀ d, MemOk d → MemOk (g d).dev) : MemOk (chain a g).dev := by
  unfold chain
  split
  · exact h
  · exact hg _ h

theorem memOk_runSteps {α : Type} (d : Dev) (g : Dev → α → EngOut) (l : List α) (hg : ∀ d x, MemOk d → MemOk (g d x).dev) (h : MemOk d) :
    MemOk (runSteps d g l).dev := by
  have key : ∀ a : EngOut, MemOk a.dev → MemOk (l.foldl (fun a i => chain a fun d => g d i) a).dev := by
    induction l with
    | nil => exact fun _ h => h
    | cons x r ih => exact fun a h => ih _ (memOk_chain a _ h fun d => hg d x)
  exact key _ h

theorem memOk_globalRead {d : Dev} {c va n : Nat} {r : List Byte × Dev} (e : globalRead d c va n = .ok r) (h : MemOk d) : MemOk r.2 := by
  unfold globalRead at e
  split at e
  · cases e
  · dsimp only at e
    split at e
    · cases e
    · cases e
      exact memOk_afterRead _ _ (memOk_fillTlb _ _ _ h)

theorem memOk_globalWrite {d : Dev} {c va : Nat} {l : List Byte} {r : Dev × BitVec 512} (e : globalWrite d c va l = .ok r) (h : MemOk d) :
    MemOk r.1 := by
  unfold globalWrite at e
  split at e
  · cases e
  · cases e
    exact memOk_engineStore _ _ _ _ (memOk_fillTlb _ _ _ h)

/-! ### The vector engine -/

theorem memOk_storeConts (d : Dev) (c : Nat) (p : VOperand) (lo hi total : Nat) (w : Nat → Bool) (l : List (BitVec 32)) (h : MemOk d) :
    MemOk (storeConts d c p lo hi total w l) := by
  unfold storeConts
  split
  · exact h
  · dsimp only
    split <;> exact h

theorem memOk_writeDest (d : Dev) (c : Nat) (p : VOperand) (m : BitVec 2) (w n lo hi : Nat) (get : Nat → Option Nat) (h : MemOk d) :
    MemOk (writeDest d c p m w n lo hi get) := by
  unfold writeDest
  split
  · exact h
  · exact memOk_storeConts _ _ _ _ _ _ _ _ h

theorem memOk_writeMask (d : Dev) (c m n : Nat) (get : Nat → Option Bool) (h : MemOk d) : MemOk (writeMask d c m n get) := h

theorem memOk_elementwise (d : Dev) (v : VecCtx) (lo : Nat) (srcs : List VSource) (dst : VOperand) (mod : BitVec 2) (z : Bool)
    (f : List (Array Nat) → Nat → Rounded) (h : MemOk d) : MemOk (elementwise d v lo srcs dst mod z f).dev :=
  memOk_writeDest _ _ _ _ _ _ _ _ _ h

theorem memOk_writeBounds (d : Dev) (v : VecCtx) (p : VOperand) (get : Nat → Option Nat) (h : MemOk d) : MemOk (writeBounds d v p get) :=
  memOk_writeDest _ _ _ _ _ _ _ _ _ h

theorem memOk_runElementwise (d : Dev) (v : VecCtx) (lo : Nat) (h : MemOk d) : MemOk (runElementwise d v lo).dev :=
  memOk_elementwise _ _ _ _ _ _ _ _ h

theorem memOk_runVcvt (d : Dev) (v : VecCtx) (lo : Nat) (h : MemOk d) : MemOk (runVcvt d v lo).dev := by
  unfold runVcvt
  dsimp only
  split
  · exact memOk_runElementwise _ _ _ h
  · exact memOk_writeBounds _ _ _ _ (memOk_runElementwise _ _ _ h)

theorem memOk_quantBounds (d : Dev) (v : VecCtx) (j0 : Nat) (blocks : Array QBlock) (b : Array Nat) (h : MemOk d) :
    MemOk (quantBounds d v j0 blocks b) := memOk_writeBounds _ _ _ _ h

theorem memOk_runVqnt (d : Dev) (v : VecCtx) (lo : Nat) (h : MemOk d) : MemOk (runVqnt d v lo).dev := by
  unfold runVqnt
  dsimp only
  split
  · exact memOk_quantBounds _ _ _ _ _ (memOk_writeDest _ _ _ _ _ _ _ _ _ (memOk_writeDest _ _ _ _ _ _ _ _ _ h))
  · exact memOk_writeDest _ _ _ _ _ _ _ _ _ (memOk_writeDest _ _ _ _ _ _ _ _ _ h)

theorem memOk_guarded (d : Dev) (b : Bool) (o : EngOut) (h : MemOk d) (ho : MemOk o.dev) : MemOk (guarded d b o).dev := by
  unfold guarded
  split <;> assumption

theorem memOk_writeLanes (d : Dev) (v : VecCtx) (act : Array Bool) (f : Nat → Nat) (h : MemOk d) : MemOk (writeLanes d v act f) :=
  memOk_writeDest _ _ _ _ _ _ _ _ _ h

theorem memOk_runCompare (d : Dev) (v : VecCtx) (h : MemOk d) : MemOk (runCompare d v).dev := memOk_guarded _ _ _ h h
theorem memOk_runVperm (d : Dev) (v : VecCtx) (h : MemOk d) : MemOk (runVperm d v).dev := memOk_guarded _ _ _ h (memOk_writeLanes _ _ _ _ h)
theorem memOk_runFill (d : Dev) (v : VecCtx) (h : MemOk d) : MemOk (runFill d v).dev := memOk_guarded _ _ _ h (memOk_writeLanes _ _ _ _ h)
theorem memOk_runVscan (d : Dev) (v : VecCtx) (h : MemOk d) : MemOk (runVscan d v).dev := memOk_guarded _ _ _ h (memOk_writeLanes _ _ _ _ h)
theorem memOk_runVred (d : Dev) (v : VecCtx) (h : MemOk d) : MemOk (runVred d v).dev :=
  memOk_guarded _ _ _ h (memOk_writeDest _ _ _ _ _ _ _ _ _ h)
theorem memOk_runVsegred (d : Dev) (v : VecCtx) (h : MemOk d) : MemOk (runVsegred d v).dev :=
  memOk_guarded _ _ _ h (memOk_writeDest _ _ _ _ _ _ _ _ _ h)
theorem memOk_runMlogic (d : Dev) (v : VecCtx) (h : MemOk d) : MemOk (runMlogic d v).dev := memOk_guarded _ _ _ h h
theorem memOk_runMpopc (d : Dev) (v : VecCtx) (h : MemOk d) : MemOk (runMpopc d v).dev :=
  memOk_guarded _ _ _ h (memOk_writeDest _ _ _ _ _ _ _ _ _ h)

theorem memOk_runVtrn (d : Dev) (v : VecCtx) (h : MemOk d) : MemOk (runVtrn d v).dev := by
  unfold runVtrn
  dsimp only
  split
  · exact h
  · exact memOk_guarded _ _ _ h (memOk_writeDest _ _ _ _ _ _ _ _ _ h)

theorem memOk_runAread (d : Dev) (v : VecCtx) (h : MemOk d) : MemOk (runAread d v).dev := memOk_guarded _ _ _ h (memOk_writeLanes _ _ _ _ h)
theorem memOk_runAwrite (d : Dev) (v : VecCtx) (h : MemOk d) : MemOk (runAwrite d v).dev := memOk_guarded _ _ _ h h
theorem memOk_runBrd (d : Dev) (v : VecCtx) (h : MemOk d) : MemOk (runBrd d v).dev :=
  memOk_guarded _ _ _ h (memOk_writeDest _ _ _ _ _ _ _ _ _ h)
theorem memOk_runBwr (d : Dev) (v : VecCtx) (h : MemOk d) : MemOk (runBwr d v).dev := memOk_guarded _ _ _ h h

theorem memOk_memRead {d : Dev} {c : Nat} {p : Place} {a : Word} {n step : Nat} {r : List Byte × Dev} (e : memRead d c p a n step = .ok r)
    (h : MemOk d) : MemOk r.2 := by
  unfold memRead at e
  split at e
  · split at e
    · cases e
    · cases e; exact h
  · split at e
    · cases e
    · cases e; exact memOk_globalRead ‹_› h

theorem memOk_memWrite (d : Dev) (c : Nat) (p : Place) (a : Word) (l : List Byte) (step : Nat) (h : MemOk d) :
    MemOk (memWrite d c p a l step).dev := by
  unfold memWrite
  split
  · exact memOk_spmWrite _ _ _ _ h
  · split
    · exact h
    · exact memOk_globalWrite ‹_› h

theorem memOk_gatherSteps {α : Type} (g : Dev → Nat → Except FaultRec (α × Dev)) (hg : ∀ d i r, g d i = .ok r → MemOk d → MemOk r.2)
    (n : Nat) (d : Dev) (i : Nat) (h : MemOk d) : MemOk (gatherSteps g n d i).2.1 := by
  induction n generalizing d i with
  | zero => exact h
  | succ n ih =>
    unfold gatherSteps
    split
    · exact h
    · exact ih _ _ (hg _ _ _ ‹_› h)

theorem memOk_loadCont (v : VecCtx) (act : Array Bool) (p : Place) (a : Word) (w : Nat) (d : Dev) (c : Nat) (r : Nat × Dev)
    (e : loadCont v act p a w d c = .ok r) (h : MemOk d) : MemOk r.2 := by
  unfold loadCont at e
  split at e
  · cases e
  · split at e
    · cases e; exact h
    · split at e
      · cases e
      · cases e; exact memOk_memRead ‹_› h

theorem memOk_loadConts (d : Dev) (v : VecCtx) (act : Array Bool) (p : Place) (a : Word) (w lo : Nat) (h : MemOk d) :
    MemOk (loadConts d v act p a w lo).2.1 := memOk_gatherSteps _ (memOk_loadCont v act p a w) _ _ _ h

theorem memOk_runVld (d : Dev) (v : VecCtx) (lo : Nat) (h : MemOk d) : MemOk (runVld d v lo).dev := by
  unfold runVld
  split
  · exact h
  · exact memOk_writeDest _ _ _ _ _ _ _ _ _ (memOk_loadConts _ _ _ _ _ _ _ h)

theorem memOk_runVmld (d : Dev) (v : VecCtx) (lo : Nat) (h : MemOk d) : MemOk (runVmld d v lo).dev := by
  unfold runVmld
  split
  · exact h
  · exact memOk_writeMask _ _ _ _ _ (memOk_loadConts _ _ _ _ _ _ _ h)

theorem memOk_storeGlobalCont (v : VecCtx) (act : Array Bool) (va : Nat) (src : Array (BitVec 32)) (d : Dev) (c : Nat) (h : MemOk d) :
    MemOk (storeGlobalCont v act va src d c).dev := by
  unfold storeGlobalCont
  split
  · exact h
  · split
    · exact h
    · split
      · exact h
      · split
        · exact h
        · exact memOk_foldl _ _ (fun _ _ h => memOk_engineStore _ _ _ _ h) (memOk_fillTlb _ _ _ h)

theorem memOk_runVst (d : Dev) (v : VecCtx) (lo : Nat) (h : MemOk d) : MemOk (runVst d v lo).dev := by
  unfold runVst
  split
  · exact h
  · exact memOk_elementwise _ _ _ _ _ _ _ _ h
  · exact memOk_runSteps _ _ _ (fun _ _ h => memOk_storeGlobalCont _ _ _ _ _ _ h) h

theorem memOk_loadElem (v : VecCtx) (act : Array Bool) (p : Place) (offs : Nat → Int) (index : Option VOperand) (d : Dev) (i : Nat)
    (r : Option Nat × Dev) (e : loadElem v act p offs index d i = .ok r) (h : MemOk d) : MemOk r.2 := by
  unfold loadElem at e
  dsimp only at e
  split at e
  · cases e
  · split at e
    · cases e; exact h
    · split at e
      · cases e
      · split at e
        · cases e
        · split at e
          · cases e
          · cases e; exact memOk_memRead ‹_› h

theorem memOk_runElemLoad (d : Dev) (v : VecCtx) (lo : Nat) (offs : Nat → Int) (index : Option VOperand) (h : MemOk d) :
    MemOk (runElemLoad d v lo offs index).dev := by
  unfold runElemLoad
  split
  · exact h
  · exact memOk_writeDest _ _ _ _ _ _ _ _ _ (memOk_gatherSteps _ (memOk_loadElem v _ _ offs index) _ _ _ h)

theorem memOk_scatterElem (v : VecCtx) (act : Array Bool) (p : Place) (u : Array (BitVec 32)) (src : Array Nat) (d : Dev) (i : Nat)
    (h : MemOk d) : MemOk (scatterElem v act p u src d i).dev := by
  unfold scatterElem
  dsimp only
  split
  · exact h
  · split
    · exact h
    · split
      · exact h
      · split
        · exact h
        · exact memOk_memWrite _ _ _ _ _ _ h

theorem memOk_runVscat (d : Dev) (v : VecCtx) (lo : Nat) (h : MemOk d) : MemOk (runVscat d v lo).dev := by
  unfold runVscat
  split
  · exact h
  · exact memOk_runSteps _ _ _ (fun _ _ h => memOk_scatterElem _ _ _ _ _ _ _ h) h

theorem memOk_runVector (d : Dev) (c : Nat) (o : VecOp) (r : Run) (h : MemOk d) : MemOk (runVector d c o r).dev := by
  unfold runVector
  dsimp only
  split
  · exact h
  · split
    · exact memOk_runCompare _ _ h
    · exact memOk_runCompare _ _ h
    · exact memOk_runVperm _ _ h
    · exact memOk_runFill _ _ h
    · exact memOk_runFill _ _ h
    · exact memOk_runVscan _ _ h
    · exact memOk_runVld _ _ _ h
    · exact memOk_runVst _ _ _ h
    · exact memOk_runElemLoad _ _ _ _ _ h
    · exact memOk_runElemLoad _ _ _ _ _ h
    · exact memOk_runVscat _ _ _ h
    · exact memOk_runVred _ _ h
    · exact memOk_runVsegred _ _ h
    · exact memOk_runVmld _ _ _ h
    · exact memOk_runMlogic _ _ h
    · exact memOk_runMpopc _ _ h
    · exact memOk_runVtrn _ _ h
    · exact memOk_runAread _ _ h
    · exact memOk_runAwrite _ _ h
    · exact memOk_runVcvt _ _ _ h
    · exact memOk_runVqnt _ _ _ h
    · exact memOk_runBrd _ _ h
    · exact memOk_runBwr _ _ h
    · exact memOk_runElementwise _ _ _ h

/-! ### The matrix engine -/

theorem memOk_foldlM {α β ε : Type} (f : β × Dev → α → Except ε (β × Dev)) (hf : ∀ s x r, f s x = .ok r → MemOk s.2 → MemOk r.2)
    (l : List α) (s r : β × Dev) (e : l.foldlM f s = .ok r) (h : MemOk s.2) : MemOk r.2 := by
  induction l generalizing s with
  | nil => cases e; exact h
  | cons x t ih =>
    rw [List.foldlM_cons] at e
    cases hx : f s x with
    | error z => rw [hx] at e; cases e
    | ok y =>
      rw [hx] at e
      exact ih y e (hf s x y hx h)

theorem memOk_readRun {d : Dev} {c : Nat} {p : Place} {a : Word} {off n step : Nat} {r : List Byte × Dev}
    (e : readRun d c p a off n step = .ok r) (h : MemOk d) : MemOk r.2 := by
  unfold readRun at e
  split at e
  · split at e
    · cases e
    · cases e; exact h
  · refine memOk_foldlM _ (fun s x r e h => ?_) _ _ _ e h
    split at e
    · cases e
    · cases e
      rename_i e
      exact (memOk_globalRead e h :)

theorem memOk_readRuns {d : Dev} {c : Nat} {p : Place} {a : Word} {l : List (Nat × Nat)} {step : Nat} {r : List (List Byte) × Dev}
    (e : readRuns d c p a l step = .ok r) (h : MemOk d) : MemOk r.2 := by
  unfold readRuns at e
  refine memOk_foldlM _ (fun s x r e h => ?_) _ _ _ e h
  split at e
  · cases e
  · cases e
    rename_i e
    exact (memOk_readRun e h :)

theorem memOk_writeRun (d : Dev) (c : Nat) (p : Place) (a : Word) (off : Nat) (l : List Byte) (step : Nat) (h : MemOk d) :
    MemOk (writeRun d c p a off l step).dev := by
  unfold writeRun
  split
  · exact memOk_spmWrite _ _ _ _ h
  · split
    · exact h
    · exact memOk_runSteps _ _ _ (fun _ _ h => memOk_memWrite _ _ _ _ _ _ h) h

theorem memOk_astoreRow (c a : Nat) (p : Place) (r : Run) (d : Dev) (i : Nat) (h : MemOk d) : MemOk (astoreRow c a p r d i).dev := by
  unfold astoreRow
  dsimp only
  split
  · exact h
  · exact memOk_writeRun _ _ _ _ _ _ _ h

theorem memOk_runAstore (d : Dev) (c a : Nat) (r : Run) (h : MemOk d) : MemOk (runAstore d c a r).dev := by
  unfold runAstore
  split
  · exact h
  · have h1 : ∀ p, MemOk (runSteps d (astoreRow c a p r) ((List.range (256 - r.step)).map (· + r.step))).dev :=
      fun p => memOk_runSteps _ _ _ (fun _ _ h => memOk_astoreRow _ _ _ _ _ _ h) h
    dsimp only
    split
    · exact h1 _
    · refine memOk_chain _ _ (h1 _) fun d h => ?_
      split
      · exact h
      · exact memOk_writeRun _ _ _ _ _ _ _ h

theorem memOk_aloadRow (c a : Nat) (p : Place) (r : Run) (d : Dev) (i : Nat) (h : MemOk d) : MemOk (aloadRow c a p r d i).dev := by
  unfold aloadRow
  dsimp only
  split
  · exact h
  · rename_i e
    exact (memOk_readRun e h :)

theorem memOk_runAload (d : Dev) (c a : Nat) (r : Run) (h : MemOk d) : MemOk (runAload d c a r).dev := by
  unfold runAload
  split
  · exact h
  · have h1 : ∀ p, MemOk (runSteps d (aloadRow c a p r) ((List.range (256 - r.step)).map (· + r.step))).dev :=
      fun p => memOk_runSteps _ _ _ (fun _ _ h => memOk_aloadRow _ _ _ _ _ _ h) h
    dsimp only
    split
    · exact h1 _
    · refine memOk_chain _ _ (h1 _) fun d h => ?_
      split
      · exact h
      · rename_i e
        exact (memOk_readRun e h :)

theorem memOk_runAbound (d : Dev) (c a : Nat) (r : Run) (h : MemOk d) : MemOk (runAbound d c a r).dev := by
  unfold runAbound
  dsimp only
  split
  · exact h
  · split
    · exact memOk_spmWrite _ _ _ _ h
    · split
      · exact h
      · rename_i e
        exact (memOk_readRun e h :)

theorem memOk_runMatrix (d : Dev) (c : Nat) (o : MatOp) (r : Run) (h : MemOk d) : MemOk (runMatrix d c o r).dev := by
  unfold runMatrix
  split
  · exact memOk_runAstore _ _ _ _ h
  · exact memOk_runAload _ _ _ _ h
  · exact memOk_runAbound _ _ _ _ h
  · exact h

theorem memOk_applyBlock {d : Dev} {c a q : Nat} {r : Run} {o : BlockOut} (e : applyBlock d c a q r = .ok o) (h : MemOk d) : MemOk o.dev := by
  unfold applyBlock at e
  dsimp only at e
  cases h1 : readRuns d c (operandA d c r).place (operandA d c r).addr (sectionSpans (operandA d c r) q) q with
  | error f => rw [h1] at e; cases e
  | ok sa =>
    rw [h1] at e
    have k1 := memOk_readRuns h1 h
    cases h2 : readRuns sa.2 c (operandB d c r).place (operandB d c r).addr (sectionSpans (operandB d c r) q) q with
    | error f => simp only [bind, Except.bind, h2] at e; cases e
    | ok sb =>
      simp only [bind, Except.bind, h2] at e
      have k2 := memOk_readRuns h2 k1
      split at e
      · cases e
      · cases e; exact k2

theorem memOk_productBlock (d : Dev) (c : Nat) (r : Run) (h : MemOk d) : MemOk (productBlock d c r) := by
  unfold productBlock
  split
  · exact h
  · dsimp only
    split
    · exact memOk_engineFault _ _ _ _ h
    · have k := memOk_applyBlock ‹_› h
      split
      · exact k
      · split
        · exact k
        · exact memOk_engineFault _ _ _ _ k

end Sys2Proof.Machine
end

