-- ==== Sys2Proof/Laws/MemoryCopies.lean ====
section
/-!
SUPPORT. The canonical form of global memory through copies, KV commands, and the events of the engines.
-/

namespace Sys2Proof.Machine

/-! ### Copies -/

theorem memOk_countZeroed (d : Dev) (c n : Nat) (h : MemOk d) : MemOk (countZeroed d c n) := by
  unfold countZeroed
  split <;> exact h

theorem memOk_foldlM' {α β ε : Type} (g : β → Dev) (f : β → α → Except ε β) (hf : ∀ s x r, f s x = .ok r → MemOk (g s) → MemOk (g r))
    (l : List α) (s r : β) (e : l.foldlM f s = .ok r) (h : MemOk (g s)) : MemOk (g r) := by
  induction l generalizing s with
  | nil => cases e; exact h
  | cons x t ih =>
    rw [List.foldlM_cons] at e
    cases hx : f s x with
    | error z => rw [hx] at e; cases e
    | ok y =>
      rw [hx] at e
      exact ih y e (hf s x y hx h)

theorem memOk_readSource {d : Dev} {c : Nat} {z : Bool} {s : Side} {a : Word} {n : Nat} {fail : Cause → Word → FaultRec} {r : SourceRead}
    (e : readSource d c z s a n fail = .ok r) (h : MemOk d) : MemOk r.dev := by
  unfold readSource at e
  split at e
  · dsimp only at e
    split at e
    · cases e; exact h
    · split at e
      · cases e; exact h
      · cases e
  · refine memOk_foldlM' SourceRead.dev _ (fun s x r e h => ?_) _ _ _ e h
    split at e
    · cases e
      rename_i e
      exact (memOk_globalRead e h :)
    · split at e
      · cases e; exact h
      · cases e
    · cases e
  · cases e

theorem memOk_pieceSource {d : Dev} {c : Nat} {o : CpyOp} {r : Run} {s : SourceRead} (e : pieceSource d c o r = .ok s) (h : MemOk d) :
    MemOk s.dev := by
  unfold pieceSource at e
  dsimp only at e
  split at e
  · cases e; exact h
  · split at e
    · cases e
    · rename_i q _
      cases hb : blockOffset d c r q r.cmd.regS1 (srcLevels r.cmd) (decide (o = .cpyg)) with
      | error f => rw [hb] at e; cases e
      | ok b =>
        rw [hb] at e
        change (match sourceCheck d c (moveSide q (b + (pieceSpan r.cmd r.piece).1)) (pieceSpan r.cmd r.piece).2 with
          | some z => Except.error (pieceFault r z (moveAddr r.cmd.regS1 (b + (pieceSpan r.cmd r.piece).1)))
          | none => _) = _ at e
        split at e
        · cases e
        · exact memOk_readSource e h

theorem memOk_deliverArrivals (d : Dev) (x : Cmd) (l : List Nat) (n : Nat) (h : MemOk d) : MemOk (deliverArrivals d x l n) := by
  unfold deliverArrivals
  split
  · exact memOk_foldl _ _ (fun _ _ h => memOk_syncArrive _ _ _ _ h) h
  · exact h

theorem memOk_placeHomes {c va : Nat} {a : Word} {l : List Byte} {r : Run} {q : List (Nat × Nat)} {d : Dev} {o : Dev × List (Nat × List Byte)}
    (e : placeHomes c va a l r d q = .ok o) (h : MemOk d) : MemOk o.1 := by
  induction q generalizing d o with
  | nil => cases e; exact h
  | cons x t ih =>
    unfold placeHomes at e
    split at e
    · cases e
    · split at e
      · cases e
      · cases e
        rename_i e
        exact (ih e (memOk_fillTlb _ _ _ h) :)

theorem memOk_placePiece {d : Dev} {c : Nat} {r : Run} {s : Side} {a : Word} {l : List Byte} {o : Dev × PieceOut}
    (e : placePiece d c r s a l = .ok o) (h : MemOk d) : MemOk o.1 := by
  unfold placePiece at e
  split at e
  · split at e
    · cases e
    · rename_i va _ _
      cases hp : placeHomes c va a l r d (cutSectors va l.length) with
      | error f => rw [hp] at e; cases e
      | ok p => rw [hp] at e; cases e; exact memOk_placeHomes hp h
  · dsimp only at e
    split at e
    · cases e
    · split at e <;> cases e
      exact h

theorem memOk_pieceDest {d : Dev} {c : Nat} {o : CpyOp} {r : Run} {l : List Byte} {p : Dev × PieceOut} (e : pieceDest d c o r l = .ok p)
    (h : MemOk d) : MemOk p.1 := by
  unfold pieceDest at e
  dsimp only at e
  split at e
  · cases e
  · split at e
    · cases e
    · exact memOk_placePiece e h

theorem memOk_writePiece (d : Dev) (c : Nat) (x : Cmd) (p : PieceOut) (h : MemOk d) : MemOk (writePiece d c x p) := by
  unfold writePiece
  exact memOk_deliverArrivals _ _ _ _
    (memOk_foldl _ _ (fun _ _ h => memOk_spmWrite _ _ _ _ h) (memOk_foldl _ _ (fun _ _ h => memOk_engineStore _ _ _ _ h) h))

theorem memOk_contribute (d : Dev) (c : Nat) (r : Run) (l : List Byte) (z : Bool) (h : MemOk d) : MemOk (contribute d c r l z) := by
  unfold contribute
  dsimp only
  split <;> exact h

theorem memOk_finishCombination (d : Dev) (t : Contribution) (l : List Contribution) (h : MemOk d) : MemOk (finishCombination d t l) := by
  unfold finishCombination
  dsimp only
  have h1 : ∀ b : List Byte, MemOk (if t.zero = true then d else spmWrite d t.core t.off b) :=
    fun b => memOk_ite h (memOk_spmWrite _ _ _ _ h)
  have h2 : ∀ d', MemOk d' → MemOk (match l.findSome? (·.word) with | some w => syncArrive d' t.core w t.data.length | none => d') := by
    intro d' h'
    split
    · exact memOk_syncArrive _ _ _ _ h'
    · exact h'
  exact h2 _ (h1 _)

theorem memOk_contributionArrives (d : Dev) (n : Nat) (h : MemOk d) : MemOk (contributionArrives d n) := by
  unfold contributionArrives
  split
  · exact h
  · split
    · exact h
    · dsimp only
      split
      · exact memOk_finishCombination _ _ _ h
      · exact h

theorem memOk_pieceWritten (d : Dev) (c : Nat) (r : Run) (p : PieceOut) (g : Run → Run) (h : MemOk d) : MemOk (pieceWritten d c r p g) :=
  memOk_writePiece _ _ _ _ h

theorem memOk_sendContribution (d : Dev) (c : Nat) (r : Run) (s : SourceRead) (h : MemOk d) (k : MemOk s.dev) :
    MemOk (sendContribution d c r s) := by
  unfold sendContribution
  split
  · dsimp only
    split
    · exact memOk_engineFault _ _ _ _ h
    · exact memOk_ite (memOk_engineFault _ _ _ _ h) (memOk_contribute _ _ _ _ _ (memOk_countZeroed _ _ _ k))
  · exact memOk_engineFault _ _ _ _ h

theorem memOk_movePiece (d : Dev) (c : Nat) (o : CpyOp) (r : Run) (h : MemOk d) : MemOk (movePiece d c o r) := by
  unfold movePiece
  split
  · exact h
  · exact memOk_pieceWritten _ _ _ _ _ h
  · split
    · exact h
    · split
      · exact memOk_engineFault _ _ _ _ h
      · have k := memOk_pieceSource ‹_› h
        split
        · exact memOk_sendContribution _ _ _ _ h k
        · split
          · exact memOk_engineFault _ _ _ _ h
          · exact memOk_pieceWritten _ _ _ _ _ (memOk_countZeroed _ _ _ (memOk_pieceDest ‹_› k :))

theorem memOk_readAhead (c : Nat) (o : CpyOp) (n : Nat) (d : Dev) (r : Run) (l : List PieceOut) (q : Dev × List PieceOut)
    (e : readAhead c o n d r l = some q) (h : MemOk d) : MemOk q.1 := by
  induction n generalizing d r l with
  | zero => cases e; exact h
  | succ n ih =>
    unfold readAhead at e
    split at e
    · cases e; exact h
    · split at e
      · cases e
      · split at e
        · cases e
        · exact ih _ _ _ e (memOk_countZeroed _ _ _ (memOk_pieceDest ‹_› (memOk_pieceSource ‹_› h) :))

theorem memOk_contributeAll (c age n : Nat) (d : Dev) (h : MemOk d) : MemOk (contributeAll c age n d) := by
  induction n generalizing d with
  | zero => exact h
  | succ n ih =>
    unfold contributeAll
    split
    · split
      · exact h
      · exact ih _ (memOk_movePiece _ _ _ _ h)
    · exact h

theorem memOk_zeroArrival (d : Dev) (c : Nat) (o : CpyOp) (r : Run) (h : MemOk d) : MemOk (zeroArrival d c o r) := by
  unfold zeroArrival
  split
  · exact memOk_contribute _ _ _ _ _ h
  · split
    · exact h
    · split
      · exact memOk_deliverArrivals _ _ _ _ h
      · exact h

/-! ### KV commands -/

theorem memOk_kvRead {m : Bool} {d : Dev} {c va n step : Nat} {r : Nat × Dev} (e : kvRead m d c va n step = .ok r) (h : MemOk d) :
    MemOk r.2 := by
  unfold kvRead at e
  split at e
  · split at e
    · cases e
    · cases e
      rename_i e
      exact (memOk_readRun e h :)
  · split at e
    · cases e
    · cases e; exact h

theorem memOk_kvEntry {m : Bool} {d : Dev} {c : Nat} {r : Run} {seq : Word} {step : Nat} {q : KvEntry × Dev} (e : kvEntry m d c r seq step = .ok q)
    (h : MemOk d) : MemOk q.2 := by
  unfold kvEntry at e
  split at e
  · cases e
  · split at e
    · cases e
    · dsimp only at e
      split at e
      · cases e
      · split at e
        · cases e
        · cases e
          rename_i e _
          exact (memOk_kvRead e h :)

theorem memOk_kvBlock {m : Bool} {d : Dev} {c : Nat} {t : KvEntry} {b step : Nat} {q : KvBlock × Dev} (e : kvBlock m d c t b step = .ok q) (h : MemOk d) :
    MemOk q.2 := by
  unfold kvBlock at e
  split at e
  · cases e
  · dsimp only at e
    split at e
    · cases e
    · cases e
      rename_i e
      exact (memOk_kvRead e h :)

theorem memOk_kvPageBlock {m : Bool} {d : Dev} {c : Nat} {t : KvEntry} {b step : Nat} {q : KvBlock × Dev} (e : kvPageBlock m d c t b step = .ok q)
    (h : MemOk d) : MemOk q.2 := by
  unfold kvPageBlock at e
  split at e
  · cases e
  · split at e
    · cases e
    · cases e
      rename_i e _
      exact (memOk_kvBlock e h :)

theorem memOk_kvRow {d : Dev} {c : Nat} {r : Run} {s : Side} {a : Word} {n step : Nat} {q : List Byte × Dev} (e : kvRow d c r s a n step = .ok q)
    (h : MemOk d) : MemOk q.2 := by
  unfold kvRow at e
  split at e
  · cases e
  · cases e
    exact memOk_countZeroed _ _ _ (memOk_readSource ‹_› h)

theorem memOk_kvWrite (c va step : Nat) (l : List Byte) (d : Dev) (h : MemOk d) : MemOk (kvWrite c va step l d).dev :=
  memOk_writeRun _ _ _ _ _ _ _ h

theorem memOk_kvAppend (d : Dev) (c : Nat) (t : KvEntry) (l : List Byte) (j : Nat) (h : MemOk d) : MemOk (kvAppend d c t l j).dev := by
  unfold kvAppend
  dsimp only
  split
  · exact h
  · rename_i e
    have k := memOk_kvPageBlock e h
    split
    · exact k
    · exact memOk_chain _ _ (memOk_chain _ _ (memOk_kvWrite _ _ _ _ _ k) fun _ h => memOk_kvWrite _ _ _ _ _ h) fun _ h => memOk_kvWrite _ _ _ _ _ h

theorem memOk_kvAppends (c : Nat) (r : Run) (seq : Word) (source : Dev → KvEntry → Nat → Except FaultRec (List Byte × Dev))
    (hs : ∀ d t j q, source d t j = .ok q → MemOk d → MemOk q.2) (n : Nat) (d : Dev) (h : MemOk d) : MemOk (kvAppends c r seq source n d).dev := by
  refine memOk_runSteps _ _ _ (fun d j h => ?_) h
  split
  · exact h
  · rename_i e
    have k := memOk_kvEntry e h
    split
    · exact k
    · split
      · exact k
      · rename_i e
        exact memOk_kvAppend _ _ _ _ _ (hs _ _ _ _ e k)

theorem memOk_kvChecked (d : Dev) (c : Nat) (r : Run) (seq : Word) (body : Dev → EngOut) (hb : ∀ d, MemOk d → MemOk (body d).dev) (h : MemOk d) :
    MemOk (kvChecked d c r seq body).dev := by
  unfold kvChecked
  split
  · exact h
  · rename_i e
    exact hb _ (memOk_kvEntry e h :)

theorem memOk_runKvapp (d : Dev) (c : Nat) (r : Run) (h : MemOk d) : MemOk (runKvapp d c r).dev :=
  memOk_kvChecked _ _ _ _ _ (fun _ h => memOk_kvAppends _ _ _ _ (fun _ _ _ _ e h => memOk_kvRow e h) _ _ h) h

theorem memOk_runKvcomp (d : Dev) (c : Nat) (r : Run) (h : MemOk d) : MemOk (runKvcomp d c r).dev := by
  refine memOk_kvChecked _ _ _ _ _ (fun _ h => memOk_kvAppends _ _ _ _ (fun _ _ _ _ e h => ?_) _ _ h) h
  split at e
  · cases e
  · dsimp only at e
    split at e
    · cases e
    · exact memOk_kvRow e h

theorem memOk_kvMoveRow (c n : Nat) (d : Dev) (src dst : Nat) (h : MemOk d) : MemOk (kvMoveRow c n d src dst).dev := by
  unfold kvMoveRow
  split
  · exact h
  · exact (memOk_kvWrite _ _ _ _ _ h :)

theorem memOk_runKvevict (d : Dev) (c : Nat) (r : Run) (h : MemOk d) : MemOk (runKvevict d c r).dev := by
  unfold runKvevict
  dsimp only
  split
  · exact h
  · rename_i e
    have k := memOk_kvEntry e h
    split
    · exact k
    · rename_i e
      have k := memOk_kvPageBlock e k
      split
      · exact k
      · exact memOk_chain _ _ (memOk_runSteps _ _ _ (fun _ _ h => memOk_kvMoveRow _ _ _ _ _ h) k) fun _ h => memOk_kvWrite _ _ _ _ _ h

theorem memOk_gatherPosition (c : Nat) (r : Run) (n : Nat) (k : KvKept) (d : Dev) (p : Nat) (h : MemOk d) :
    MemOk (gatherPosition c r n k d p).dev := by
  unfold gatherPosition
  dsimp only
  split
  · exact h
  · split
    · exact h
    · split
      · exact h
      · rename_i e
        split
        · exact memOk_kvRow e h
        · exact memOk_spmWrite _ _ _ _ (memOk_spmWrite _ _ _ _ (memOk_spmWrite _ _ _ _ (memOk_kvRow e h)))

theorem memOk_rankPosition (c : Nat) (x : Cmd) (k : KvKept) (d : Dev) (p : Nat) (h : MemOk d) :
    MemOk (rankPosition c x k d p).dev := memOk_spmWrite _ _ _ _ h

theorem memOk_beginWalk (d : Dev) (c : Nat) (o : CpyOp) (r : Run) (h : MemOk d) : MemOk (beginWalk d c o r) := by
  unfold beginWalk
  exact (memOk_modCore _ _ _).2 (memOk_ite (memOk_spmWrite _ _ _ _ h) h)

theorem memOk_walkEntry {d d' : Dev} {c : Nat} {r : Run} {t : KvEntry} {b : KvKept} (e : walkEntry d c r t = .ok (b, d')) (h : MemOk d) : MemOk d' := by
  unfold walkEntry at e
  dsimp only at e
  split at e
  · split at e
    · cases e; exact h
    · split at e
      · cases e
      · rename_i k; cases e; exact memOk_kvBlock k h
  · split at e
    · cases e; exact h
    · split at e
      · cases e
      · rename_i k; cases e; exact memOk_kvBlock k h

theorem memOk_walkPositions (d : Dev) (c : Nat) (r : Run) (b : KvKept) (one : KvKept → Dev → Nat → EngOut)
    (ho : ∀ b d n, MemOk d → MemOk (one b d n).dev) (h : MemOk d) : MemOk (walkPositions d c r b one).dev := by
  unfold walkPositions
  dsimp only
  have k := memOk_runSteps (modCore d c fun k => modRun k r.cmd.age fun v => { v with block := some b }) (one b)
    ((List.range (walkEnd r - walkStart r)).map (walkStart r + ·)) (fun _ _ h => ho _ _ _ h) ((memOk_modCore _ _ _).2 h)
  split
  · exact k
  · exact (memOk_modCore _ _ _).2 k

theorem memOk_walkChecked (d : Dev) (c : Nat) (o : CpyOp) (r : Run) (body : KvEntry → Dev → EngOut) (hb : ∀ e d, MemOk d → MemOk (body e d).dev)
    (h : MemOk d) : MemOk (walkChecked d c o r body).dev := by
  unfold walkChecked
  split
  · exact h
  · rename_i e
    have k := memOk_kvEntry e h
    split
    · exact k
    · exact hb _ _ (memOk_beginWalk _ _ _ _ k)

theorem memOk_walkBlock (d : Dev) (c : Nat) (o : CpyOp) (r : Run) (h : MemOk d) : MemOk (walkBlock d c o r).dev := by
  refine memOk_walkChecked _ _ _ _ _ (fun e d h => ?_) h
  split
  · exact h
  · rename_i k
    refine memOk_walkPositions _ _ _ _ _ (fun b d n h => ?_) (memOk_walkEntry k h)
    split
    · exact memOk_gatherPosition _ _ _ _ _ _ h
    · exact memOk_rankPosition _ _ _ _ _ h

theorem memOk_finishWalk (d : Dev) (c : Nat) (o : CpyOp) (r : Run) (h : MemOk d) : MemOk (finishWalk d c o r).dev := by
  unfold finishWalk
  split
  · exact memOk_walkChecked _ _ _ _ _ (fun _ _ h => h) h
  · exact h

theorem memOk_runKv (d : Dev) (c : Nat) (o : CpyOp) (r : Run) (h : MemOk d) : MemOk (runKv d c o r).dev := by
  unfold runKv
  split
  · exact h
  · exact memOk_finishWalk _ _ _ _ h
  · exact memOk_finishWalk _ _ _ _ h
  · exact memOk_runKvapp _ _ _ h
  · exact memOk_runKvcomp _ _ _ h
  · exact memOk_runKvevict _ _ _ h
  · exact h

/-! ### The events of the engines -/

theorem keepsMem_startCommand (d : Dev) (c i : Nat) (q : QueueId) (h : MemOk d) : KeepsMem (startCommand d c i q) := by
  unfold startCommand
  dsimp only
  split
  · split
    · exact keepsMem_none
    · refine keepsMem_some ?_
      split
      · exact h
      · exact memOk_engineFault _ _ _ _ h
  · split
    · exact keepsMem_some h
    · exact keepsMem_none

theorem memOk_repick (d : Dev) (c : Nat) (r : Run) (h : MemOk d) : MemOk (repick d c r).1 := by
  unfold repick
  split
  · exact h
  · dsimp only
    split
    · exact h
    · exact memOk_engineFault _ _ _ _ h

theorem keepsMem_stepBlock (d : Dev) (c age : Nat) (h : MemOk d) : KeepsMem (stepBlock d c age) := by
  unfold stepBlock
  split
  · exact keepsMem_none
  · rename_i r _
    split
    · exact keepsMem_none
    · have k := memOk_repick d c r h
      split
      · rename_i e; rw [e] at k; exact keepsMem_some k
      · rename_i e; rw [e] at k; exact keepsMem_some (memOk_productBlock _ _ _ k)

theorem memOk_afterExec (o : EngOut) (c : Nat) (r : Run) (next : Dev → Run → Dev) (hn : ∀ d r, MemOk d → MemOk (next d r)) (h : MemOk o.dev) :
    MemOk (afterExec o c r next) := by
  unfold afterExec
  dsimp only
  split
  · exact memOk_engineFault _ _ _ _ h
  · exact hn _ _ h

theorem keepsMem_stepPiece (d : Dev) (c age : Nat) (h : MemOk d) : KeepsMem (stepPiece d c age) := by
  unfold stepPiece
  split
  · exact keepsMem_none
  · split
    · exact keepsMem_ite (keepsMem_some (memOk_afterExec _ _ _ _ (fun _ _ h => h) (memOk_walkBlock _ _ _ _ h)))
        (keepsMem_ite keepsMem_none (keepsMem_some (memOk_movePiece _ _ _ _ h)))
    · exact keepsMem_none

theorem memOk_afterCompletion (d : Dev) (c : Nat) (x : Cmd) (h : MemOk d) : MemOk (afterCompletion d c x) := memOk_settleRules _ _ h

theorem memOk_retireCommand (d : Dev) (c : Nat) (r : Run) (vis : Bool) (h : MemOk d) : MemOk (retireCommand d c r vis) := by
  unfold retireCommand
  refine memOk_afterCompletion _ _ _ ?_
  have k : MemOk (makePost (modCore (gatherFlags d c r.cmd r.flags) c fun k => dropRun k r.cmd.age) c r.cmd (commandSteps c r) false
    (completionPost r.cmd)) := memOk_makePost _ _ _ _ _ _ h
  exact memOk_ite (memOk_makePost _ _ _ _ _ _ k) k

theorem memOk_completeCopy (d : Dev) (c : Nat) (r : Run) (l : List PieceOut) (h : MemOk d) : MemOk (completeCopy d c r l) :=
  memOk_afterCompletion _ _ _ (memOk_makePost _ _ _ _ _ _ h)

theorem memOk_postWritten (d : Dev) (c : Nat) (r : Run) (scope : Nat) (h : MemOk d) : MemOk (postWritten d c r scope) :=
  memOk_ite h (memOk_postTo _ _ _ _ h)

theorem memOk_finishCopy (d : Dev) (c : Nat) (o : CpyOp) (r : Run) (h : MemOk d) : KeepsMem (finishCopy d c o r) := by
  unfold finishCopy
  split
  · exact keepsMem_some (memOk_retireCommand _ _ _ _ (memOk_zeroArrival _ _ _ _ h))
  · split
    · exact keepsMem_ite keepsMem_none (keepsMem_some (memOk_retireCommand _ _ _ _ h))
    · split
      · have k := memOk_contributeAll c r.cmd.age (remainingPieces r) d h
        dsimp only
        split
        · exact keepsMem_ite keepsMem_none (keepsMem_some (memOk_completeCopy _ _ _ _ k))
        · exact keepsMem_some k
      · split
        · exact keepsMem_none
        · rename_i e
          exact keepsMem_some (memOk_completeCopy _ _ _ _ (memOk_readAhead _ _ _ _ _ _ _ e h))

theorem keepsMem_completeCommand (d : Dev) (c age : Nat) (h : MemOk d) : KeepsMem (completeCommand d c age) := by
  unfold completeCommand
  split
  · exact keepsMem_none
  · rename_i r _
    split
    · exact keepsMem_none
    · have k := memOk_repick d c r h
      split
      · rename_i e; rw [e] at k; exact keepsMem_some k
      · rename_i e
        rw [e] at k
        split
        · exact keepsMem_some (memOk_afterExec _ _ _ _ (fun _ _ h => memOk_retireCommand _ _ _ _ (memOk_postWritten _ _ _ _ h)) (memOk_runVector _ _ _ _ k))
        · exact keepsMem_some (memOk_afterExec _ _ _ _ (fun _ _ h => memOk_retireCommand _ _ _ _ (memOk_postWritten _ _ _ _ h)) (memOk_runMatrix _ _ _ _ k))
        · split
          · refine keepsMem_some (memOk_afterExec _ _ _ _ (fun _ _ h => ?_) (memOk_runKv _ _ _ _ k))
            exact memOk_ite (memOk_completeCopy _ _ _ _ h) (memOk_retireCommand _ _ _ _ h)
          · exact memOk_finishCopy _ _ _ _ k

theorem keepsMem_copyVisible (d : Dev) (c age : Nat) (h : MemOk d) : KeepsMem (copyVisible d c age) := by
  unfold copyVisible
  split
  · exact keepsMem_none
  · exact keepsMem_ite keepsMem_none (keepsMem_some (memOk_makePost _ _ _ _ _ _ (memOk_postWritten _ _ _ _ h)))

theorem keepsMem_grantLease (d : Dev) (c : Nat) (h : MemOk d) : KeepsMem (grantLease d c) := by
  unfold grantLease
  dsimp only
  split
  · exact keepsMem_none
  · split
    · exact keepsMem_none
    · exact keepsMem_some h

theorem keepsMem_idleLease (d : Dev) (c : Nat) (h : MemOk d) : KeepsMem (idleLease d c) := by
  unfold idleLease
  dsimp only
  split
  · exact keepsMem_none
  · exact keepsMem_ite keepsMem_none (keepsMem_some h)

end Sys2Proof.Machine
end

