-- ==== Sys2Proof/Laws/MemoryCore.lean ====
section
/-!
SUPPORT. The canonical form of global memory through rules, a core's events, fetching, placement, pre-emption and restore: one lemma per
function.
-/

namespace Sys2Proof.Machine

/-! ### Rules -/

theorem memOk_unbindAxis (d : Dev) (c x : Nat) (h : MemOk d) : MemOk (unbindAxis d c x) := by
  unfold unbindAxis; split
  · exact h
  · dsimp only; split <;> exact h

theorem memOk_bindAxis (d : Dev) (c x : Nat) (a : Axis) (h : MemOk d) : MemOk (bindAxis d c x a) :=
  memOk_settleAxis _ _ _ _ ((memOk_modCore _ _ _).2 (memOk_unbindAxis _ _ _ h))

theorem memOk_revokeRule (d : Dev) (c n z : Nat) (h : MemOk d) : MemOk (revokeRule d c n z) := by
  unfold revokeRule; split
  · exact h
  · exact memOk_settleRules _ _ h

theorem memOk_resumeRule (d : Dev) (c n : Nat) (skip : Bool) (h : MemOk d) : MemOk (resumeRule d c n skip) := by
  unfold resumeRule; split
  · exact h
  · split
    · exact h
    · exact memOk_settleRules _ _ h

/-! ### Events of a core -/

theorem keepsMem_deliverPending (d : Dev) (c i : Nat) (h : MemOk d) : KeepsMem (deliverPending d c i) := by
  unfold deliverPending
  dsimp only
  split
  · exact keepsMem_none
  · split
    · exact keepsMem_none
    · exact keepsMem_some (memOk_deliverFault _ _ _ _ _ _ h)

theorem keepsMem_returnStatus (d : Dev) (c i : Nat) (discard : Bool) (h : MemOk d) : KeepsMem (returnStatus d c i discard) :=
  keepsMem_ite (keepsMem_some (memOk_returnFromFault _ _ _ _ h)) keepsMem_none

theorem keepsMem_arrive (d : Dev) (n : Nat) (h : MemOk d) : KeepsMem (arrive d n) := by
  unfold arrive; split
  · exact keepsMem_none
  · exact keepsMem_some (memOk_syncArrive _ _ _ _ h)

theorem keepsMem_peerAccess (d : Dev) (c off : Nat) (l : List Byte) (h : MemOk d) : KeepsMem (peerAccess d c off l) :=
  keepsMem_ite keepsMem_none (keepsMem_some (memOk_spmWrite _ _ _ _ h))

theorem keepsMem_evictL1 (d : Dev) (c s : Nat) (h : MemOk d) : KeepsMem (evictL1 d c s) :=
  keepsMem_ite keepsMem_none (keepsMem_some (memOk_evictSector _ _ _ h))

theorem keepsMem_writeMatches (d : Dev) (pa n : Nat) (h : MemOk d) : KeepsMem (writeMatches d pa n) :=
  keepsMem_ite keepsMem_none (keepsMem_some (memOk_markWatches _ _ h))

theorem memOk_notePoint (d : Dev) (c : Nat) (w : Watch) (h : MemOk d) : MemOk (notePoint d c w) :=
  have k := memOk_ite (p := foreignRegion d c w.arg 8) h (memOk_spmWrite d c w.arg (memBytes d w.pa 8) h)
  memOk_ite ((memOk_modCore _ _ _).2 k) k

theorem keepsMem_deliverNote (d : Dev) (n : Nat) (h : MemOk d) : KeepsMem (deliverNote d n) := by
  unfold deliverNote; split
  · exact keepsMem_none
  · split
    · exact keepsMem_none
    · dsimp only
      split
      · exact keepsMem_ite (keepsMem_some (memOk_notePoint _ _ _ h)) keepsMem_none
      · split
        · exact keepsMem_ite (keepsMem_some h) keepsMem_none
        · exact keepsMem_none
      · exact keepsMem_some h

theorem keepsMem_applyCommit (d : Dev) (c x : Nat) (h : MemOk d) : KeepsMem (applyCommit d c x) := by
  unfold applyCommit; split
  · exact keepsMem_none
  · split
    · exact keepsMem_none
    · split
      · exact keepsMem_none
      · exact keepsMem_some (memOk_advanceAxis _ _ _ _ _ h)

theorem memOk_firingRefused (d : Dev) (c n : Nat) (r : Rule) (e : Cause) (a : Word) (h : MemOk d) : MemOk (firingRefused d c n r e a) := by
  unfold firingRefused pendFault
  dsimp only
  refine (memOk_modStream _ _ _ _).2 ?_
  exact memOk_settleRules _ _ h

theorem keepsMem_fireAxis (d : Dev) (c x : Nat) (h : MemOk d) : KeepsMem (fireAxis d c x) := by
  unfold fireAxis
  dsimp only
  split
  · exact keepsMem_none
  · split
    · exact keepsMem_none
    · split
      · exact keepsMem_some (memOk_firingRefused _ _ _ _ _ _ h)
      · split
        · exact keepsMem_none
        · exact keepsMem_some (memOk_settleRules _ _ ((memOk_modCore _ _ _).2 (memOk_enqueueCmd _ _ _ _ h)))

/-! ### Fetching -/

theorem keepsMem_fillSector (d : Dev) (c s : Nat) (h : MemOk d) : KeepsMem (fillSector d c s) := by
  unfold fillSector; split
  · exact keepsMem_none
  · dsimp only
    split
    · exact keepsMem_some h
    · exact keepsMem_some (memOk_afterRead _ _ h)

theorem memOk_withSector (d : Dev) (c s : Nat) (h : MemOk d) : MemOk (withSector d c s) := by
  unfold withSector
  cases e : fillSector d c s with
  | none => exact h
  | some d' => exact keepsMem_fillSector d c s h d' e

theorem memOk_fetchAt (d : Dev) (c pc : Nat) (h : MemOk d) : MemOk (fetchAt d c pc).1 := by
  have k := memOk_withSector d c (pc / 64) h
  unfold fetchAt
  dsimp only
  split
  · exact k
  · split
    · exact k
    · split
      · exact k
      · split <;> exact memOk_withSector _ _ _ k

theorem memOk_gatherUntil (c n : Nat) (d : Dev) (pc : Nat) (l : List Slotted) (h : MemOk d) : MemOk (gatherUntil c n d pc l).1 := by
  induction n generalizing d pc l with
  | zero => exact h
  | succ n ih =>
    unfold gatherUntil
    have k := memOk_fetchAt d c pc h
    dsimp only
    split
    · split
      · exact k
      · exact ih _ _ _ k
    · exact k

theorem memOk_gatherBundle (d : Dev) (c pc : Nat) (split : Bool) (h : MemOk d) : MemOk (gatherBundle d c pc split).1 := by
  unfold gatherBundle
  split
  · exact memOk_gatherUntil _ _ _ _ _ h
  · have k := memOk_fetchAt d c pc h
    dsimp only
    split
    · exact memOk_fetchAt _ _ _ k
    · exact k

theorem memOk_gatherAt (d : Dev) (c : Nat) (split : Bool) (pc : Word) (h : MemOk d) : MemOk (gatherAt d c split pc).dev := by
  have k := memOk_gatherBundle d c pc.toNat split h
  unfold gatherAt
  dsimp only
  split
  · exact k
  · split
    · exact k
    · split
      · exact memOk_gatherBundle _ _ _ _ k
      · exact memOk_gatherBundle _ _ _ _ (memOk_gatherBundle _ _ _ _ k)

/-! ### Launches and placement -/

theorem memOk_takeLaunch (d : Dev) (t : Nat) (r : BitVec 1024) (p a q : Nat) (l : List Word) (s : Source) (h : MemOk d) :
    MemOk (takeLaunch d t r p a q l s).1 := h

theorem memOk_undefSpm (d : Dev) (c : Nat) (h : MemOk d) : MemOk (undefSpm d c) := h

theorem memOk_undefVectors (d : Dev) (c : Nat) (i : Option Nat) (h : MemOk d) : MemOk (undefVectors d c i) := h

theorem memOk_loadCore (d : Dev) (c i : Nat) (p : Point) (l : Launch) (h : MemOk d) : MemOk (loadCore d c i p l) := by
  unfold loadCore
  dsimp only
  exact memOk_acquire _ _ _ ((memOk_modCore _ _ _).2 (memOk_undefVectors _ _ _ (memOk_ite (memOk_undefSpm _ _ h) h)))

theorem memOk_dispatchFresh (d : Dev) (n : Nat) (l : Launch) (a : Nat × Nat) (q : Nat × Nat × Nat) (h : MemOk d) :
    MemOk (dispatchFresh d n l a q) := by
  unfold dispatchFresh
  dsimp only
  exact memOk_foldl _ _ (fun _ _ h => memOk_loadCore _ _ _ _ _ h) (memOk_ite ((memOk_setGang _ _ _).2 h) h)

theorem memOk_freeStream (d : Dev) (c i : Nat) (h : MemOk d) : MemOk (freeStream d c i) := by
  unfold freeStream
  dsimp only
  split
  · exact (memOk_modCore _ _ _).2 (memOk_foldl _ _ (fun _ _ h => memOk_unbindAxis _ _ _ h) h)
  · exact h

/-! ### Rings -/

theorem memOk_putRing (d : Dev) (n : Nat) (r : Ring) (h : MemOk d) : MemOk (putRing d n r) := memOk_homeStore _ _ _ h

theorem memOk_blockRing (d : Dev) (n a : Nat) (h : MemOk d) : MemOk (blockRing d n a) :=
  memOk_writeEvent _ _ _ _ (memOk_putRing _ _ _ h)

theorem memOk_writeCompletion {d d' : Dev} {c : Completion} (e : writeCompletion d c = .ok d') (h : MemOk d) : MemOk d' := by
  unfold writeCompletion at e
  dsimp only at e
  split at e
  · cases e
  · cases e
    exact memOk_ite (memOk_homeStore _ _ _ (memOk_homeStore _ _ _ h) :) (memOk_homeStore _ _ _ (memOk_homeStore _ _ _ h))

theorem memOk_finishPacket (d : Dev) (r i st : Nat) (w : Word) (h : MemOk d) : MemOk (finishPacket d r i st w) := by
  unfold finishPacket
  dsimp only
  split
  · rename_i e
    exact memOk_writeCompletion e h
  · exact memOk_ite (memOk_writeEvent _ _ _ _ h) (memOk_blockRing _ _ _ h)

theorem memOk_finishAll (d : Dev) (l : List (Nat × Nat)) (w : Word) (h : MemOk d) : MemOk (finishAll d l w) :=
  memOk_foldl _ _ (fun _ _ h => memOk_finishPacket _ _ _ _ _ h) h

theorem keepsMem_resumeRing (d : Dev) (n : Nat) (h : MemOk d) : KeepsMem (resumeRing d n) :=
  keepsMem_ite keepsMem_none (keepsMem_some (memOk_foldl _ _ (fun _ _ h => memOk_finishPacket _ _ _ _ _ h) (memOk_putRing _ _ _ h)))

/-! ### Pre-emption and restore -/

theorem memOk_setPpend (d : Dev) (l : List (Nat × Nat)) (h : MemOk d) : MemOk (setPpend d l) := by
  refine memOk_foldl _ _ (fun d q h => ?_) h
  exact h

theorem memOk_haltSources (d : Dev) (l : List (Nat × Nat)) (h : MemOk d) : MemOk (haltSources d l) := by
  refine memOk_foldl _ _ (fun d q h => ?_) h
  exact h

theorem memOk_storeStreams (d : Dev) (a : Nat) (k : Core) (h : MemOk d) : MemOk (storeStreams d a k) :=
  memOk_foldl _ _ (fun _ _ h => memOk_storeArea _ _ _ _ (memOk_storeArea _ _ _ _ h)) h

theorem memOk_storeCmds (d : Dev) (a : Nat) (k : Core) (cs : List Contribution) (h : MemOk d) : MemOk (storeCmds d a k cs) :=
  memOk_storeArea _ _ _ _ (memOk_storeArea _ _ _ _ (memOk_storeArea _ _ _ _ h))

theorem memOk_writeContext (d : Dev) (c a n : Nat) (k : Core) (cs : List Contribution) (h : MemOk d) : MemOk (writeContext d c a n k cs) :=
  memOk_storeArea _ _ _ _ (memOk_storeArea _ _ _ _ (memOk_storeArea _ _ _ _ (memOk_storeArea _ _ _ _ (memOk_storeArea _ _ _ _
    (memOk_storeCmds _ _ _ _ (memOk_storeStreams _ _ _ (memOk_storeArea _ _ _ _ (memOk_storeArea _ _ _ _ (memOk_storeArea _ _ _ _ (memOk_storeArea _ _ _ _
      (memOk_storeArea _ _ _ _ (memOk_storeArea _ _ _ _ h))))))))))))

theorem memOk_fileContext (d : Dev) (cs : List (Nat × Context)) (n : Nat) (co : List Contribution) (h : MemOk d) :
    MemOk { d with contexts := cs, records := n, combining := co } := h

theorem memOk_saveCore (d : Dev) (c a : Nat) (h : MemOk d) : MemOk (saveCore d c a) :=
  (memOk_modCore _ _ _).2 (memOk_fileContext _ _ _ _
    (memOk_writeContext _ _ _ _ _ _ ((memOk_modCore _ _ _).2 (memOk_writeBackAll _ _ h))))

theorem keepsMem_saveGang (d : Dev) (c : Nat) (h : MemOk d) : KeepsMem (saveGang d c) := by
  unfold saveGang
  dsimp only
  split
  · exact keepsMem_none
  · split
    · exact keepsMem_some (memOk_haltSources _ _ h)
    · split
      · exact keepsMem_none
      · split
        · exact keepsMem_none
        · split
          · exact keepsMem_none
          · exact keepsMem_some (memOk_foldl _ _ (fun _ _ h => memOk_saveCore _ _ _ h) h)

theorem memOk_chainContexts (l : List Nat) (d : Dev) (h : MemOk d) : MemOk (chainContexts d l) := by
  induction l generalizing d with
  | nil => exact h
  | cons a r ih =>
    exact ih _ (memOk_homeStore _ _ _ h)

theorem keepsMem_saveLaunch (d : Dev) (n : Nat) (h : MemOk d) : KeepsMem (saveLaunch d n) := by
  unfold saveLaunch; split
  · exact keepsMem_none
  · split
    · exact keepsMem_none
    · split
      · exact keepsMem_none
      · exact keepsMem_some (memOk_finishAll _ _ _ (memOk_homeStore _ _ _ (memOk_chainContexts _ _ h)))

theorem memOk_levelBoards (d : Dev) (c : Nat) (h : MemOk d) : MemOk (levelBoards d c) := by
  refine memOk_foldl _ _ (fun d q h => ?_) h
  exact h

theorem memOk_moveWatches (d : Dev) (o c : Nat) (k : Core) (h : MemOk d) : MemOk (moveWatches d o c k) := h

theorem memOk_recommit (d : Dev) (c : Nat) (h : MemOk d) : MemOk (recommit d c) := by
  refine memOk_foldl _ _ (fun d p h => ?_) h
  dsimp only
  split
  · exact memOk_advanceAxis _ _ _ _ _ h
  · exact h

theorem memOk_redeliver (d : Dev) (c : Nat) (h : MemOk d) : MemOk (redeliver d c) :=
  memOk_foldl _ _ (fun _ _ h => memOk_ite (memOk_reportSuspension _ _ _ _ h) h) h

theorem memOk_loadContext (d : Dev) (c b a : Nat) (h : MemOk d) : MemOk (loadContext d c b a) := by
  unfold loadContext; split
  · exact h
  · dsimp only
    refine memOk_redeliver _ _ (memOk_recommit _ _ (memOk_levelBoards _ _ ?_))
    split <;> exact h

theorem memOk_placeHeld (d : Dev) (n : Nat) (l : Launch) (p : HeldPoint) (b : Nat) (h : MemOk d) : MemOk (placeHeld d n l p b) := by
  unfold placeHeld
  dsimp only
  have k (l' : Launch) : MemOk (p.ctxs.zipIdx.foldl (fun d p => loadContext d (b + p.2) b p.1) (setLaunch d n l')) :=
    memOk_foldl _ _ (fun _ _ h => memOk_loadContext _ _ _ _ h) h
  split
  · exact memOk_finishAll _ _ _ (k _)
  · exact k _

end Sys2Proof.Machine
end

