-- ==== Sys2Proof/Laws/MemoryOnyx.lean ====
section
/-!
SUPPORT. The canonical form of global memory through the dispatchers, packets and the Onyx die: one lemma per function.
-/

namespace Sys2Proof.Machine

/-! ### Dispatchers -/

theorem keepsMem_dispatchPoint (d : Dev) (die : Nat) (h : MemOk d) : KeepsMem (dispatchPoint d die) := by
  unfold dispatchPoint; split
  · exact keepsMem_none
  · split
    · exact keepsMem_none
    · exact keepsMem_some (memOk_placeHeld _ _ _ _ _ h)
    · exact keepsMem_some (memOk_dispatchFresh _ _ _ _ _ h)

theorem keepsMem_finishPoint (d : Dev) (l o m n : Nat) (h : MemOk d) : KeepsMem (finishPoint d l o m n) := by
  unfold finishPoint; split
  · exact keepsMem_none
  · dsimp only
    split
    · exact keepsMem_none
    · refine keepsMem_some ((memOk_modLaunch _ _ _).2 ?_)
      exact memOk_foldl _ _ (fun _ _ h => memOk_freeStream _ _ _ h) (memOk_foldl _ _ (fun _ _ h => memOk_ite (memOk_publish _ _ _ h) h) h)

theorem memOk_raiseCword (d : Dev) (n : Nat) (l : Launch) (h : MemOk d) : MemOk (raiseCword d n l).1 := by
  unfold raiseCword
  dsimp only
  split
  · exact h
  · split
    · exact h
    · split
      · exact h
      · split
        · exact h
        · exact memOk_homeStore _ _ _ h

theorem memOk_writeSlip (d : Dev) (n : Nat) (l : Launch) (h : MemOk d) : MemOk (writeSlip d n l) := by
  unfold writeSlip; split
  · exact h
  · exact memOk_homeStore _ _ _ h

theorem memOk_completeSource (d : Dev) (n : Nat) (l : Launch) (e : Option Cause) (h : MemOk d) : MemOk (completeSource d n l e) := by
  unfold completeSource; split
  · exact h
  · exact memOk_finishPacket _ _ _ _ _ h
  · exact h

theorem keepsMem_completeLaunch (d : Dev) (n : Nat) (h : MemOk d) : KeepsMem (completeLaunch d n) := by
  unfold completeLaunch; split
  · exact keepsMem_none
  · rename_i l _
    split
    · exact keepsMem_none
    · have k := memOk_raiseCword d n l h
      dsimp only
      refine keepsMem_some (memOk_finishAll _ _ _ ?_)
      have k2 := memOk_completeSource _ n l (raiseCword d n l).2 (memOk_ite (p := (raiseCword d n l).2.isSome = true) (memOk_writeEvent _ 11 (handleOf l.serial n).toNat (recCword l.nrec) k) k)
      exact memOk_ite (memOk_writeSlip _ _ _ k2) k2

theorem keepsMem_releaseLaunch (d : Dev) (n : Nat) (h : MemOk d) : KeepsMem (releaseLaunch d n) := by
  unfold releaseLaunch; split
  · exact keepsMem_none
  · exact keepsMem_ite keepsMem_none (keepsMem_some h)

theorem keepsMem_slipLaunch (d : Dev) (n : Nat) (h : MemOk d) : KeepsMem (slipLaunch d n) := by
  unfold slipLaunch; split
  · exact keepsMem_none
  · exact keepsMem_ite keepsMem_none (keepsMem_some h)

theorem keepsMem_advanceTick (d : Dev) (h : MemOk d) : KeepsMem (advanceTick d) := keepsMem_ite (keepsMem_some h) keepsMem_none

/-! ### Packets -/

theorem memOk_advanceHead (d : Dev) (n : Nat) (h : MemOk d) : MemOk (advanceHead d n) := memOk_putRing _ _ _ h

theorem memOk_finishHead (d : Dev) (n st : Nat) (w : Word) (h : MemOk d) : MemOk (finishHead d n st w) :=
  memOk_advanceHead _ _ (memOk_finishPacket _ _ _ _ _ h)

theorem memOk_refusePacket (d : Dev) (n ty : Nat) (c : Cause) (h : MemOk d) : MemOk (refusePacket d n ty c) :=
  memOk_ite (memOk_finishHead _ _ _ _ h) (memOk_finishHead _ _ _ _ h)

theorem keepsMem_serveHead (d : Dev) (n : Nat) (mine : Nat → Bool) (body : Ring → Nat → Option Dev) (hb : ∀ r x, KeepsMem (body r x))
    (h : MemOk d) : KeepsMem (serveHead d n mine body) := by
  unfold serveHead
  dsimp only
  split
  · exact keepsMem_none
  · exact keepsMem_some (memOk_writeEvent _ _ _ _ (memOk_putRing _ _ _ h))
  · exact keepsMem_some (memOk_blockRing _ _ _ h)
  · split
    · exact keepsMem_none
    · split
      · exact keepsMem_some (memOk_refusePacket _ _ _ _ h)
      · exact hb _ _

theorem keepsMem_serveNop (d : Dev) (n : Nat) (h : MemOk d) : KeepsMem (serveNop d n) :=
  keepsMem_serveHead _ _ _ _ (fun _ _ => keepsMem_some (memOk_finishHead _ _ _ _ h)) h

theorem keepsMem_serveFence (d : Dev) (n : Nat) (h : MemOk d) : KeepsMem (serveFence d n) :=
  keepsMem_serveHead _ _ _ _ (fun _ _ => keepsMem_ite (keepsMem_some (memOk_finishHead _ _ _ _ h)) keepsMem_none) h

theorem keepsMem_admitPacket (d : Dev) (n : Nat) (r : Ring) (x : Nat) (rec : BitVec 1024) (f : Option (Cause × Nat)) (h : MemOk d) :
    KeepsMem (admitPacket d n r x rec f) := by
  unfold admitPacket; split
  · exact keepsMem_some (memOk_refusePacket _ _ _ _ h)
  · split
    · exact keepsMem_none
    · exact keepsMem_some (memOk_advanceHead _ _ ((memOk_setRing _ _ _).2 (memOk_takeLaunch _ _ _ _ _ _ _ _ h)))

theorem keepsMem_serveLaunch (d : Dev) (n : Nat) (h : MemOk d) : KeepsMem (serveLaunch d n) :=
  keepsMem_serveHead _ _ _ _ (fun _ _ => keepsMem_admitPacket _ _ _ _ _ _ h) h

theorem keepsMem_serveInvoke (d : Dev) (n : Nat) (h : MemOk d) : KeepsMem (serveInvoke d n) := by
  refine keepsMem_serveHead _ _ _ _ (fun r x => ?_) h
  dsimp only
  split
  · exact keepsMem_some (memOk_refusePacket _ _ _ _ h)
  · exact keepsMem_admitPacket _ _ _ _ _ _ h

theorem keepsMem_serveInval (d : Dev) (n : Nat) (h : MemOk d) : KeepsMem (serveInval d n) :=
  keepsMem_serveHead _ _ _ _ (fun _ _ => keepsMem_some (memOk_finishHead _ _ _ _ h)) h

theorem memOk_beginPreempt (d : Dev) (n : Nat) (l : Launch) (q : Preempt) (p : Nat × Nat) (h : MemOk d) : MemOk (beginPreempt d n l q p) :=
  memOk_setPpend _ _ h

theorem keepsMem_servePreempt (d : Dev) (n : Nat) (h : MemOk d) : KeepsMem (servePreempt d n) := by
  refine keepsMem_serveHead _ _ _ _ (fun r x => ?_) h
  dsimp only
  split
  · exact keepsMem_some (memOk_finishHead _ _ _ _ h)
  · split
    · exact keepsMem_some (memOk_finishHead _ _ _ _ h)
    · split
      · exact keepsMem_some (memOk_finishHead _ _ _ _ h)
      · exact keepsMem_some (memOk_advanceHead _ _ (memOk_beginPreempt _ _ _ _ _ h))

theorem keepsMem_serveRestore (d : Dev) (n : Nat) (h : MemOk d) : KeepsMem (serveRestore d n) := by
  refine keepsMem_serveHead _ _ _ _ (fun r x => ?_) h
  dsimp only
  split
  · exact keepsMem_some (memOk_finishHead _ _ _ _ h)
  · split
    · exact keepsMem_some (memOk_finishHead _ _ _ _ h)
    · split
      · exact keepsMem_some (memOk_finishHead _ _ _ _ ((memOk_setLaunch _ _ _).2 h))
      · exact keepsMem_some (memOk_advanceHead _ _ ((memOk_setLaunch _ _ _).2 h))

theorem memOk_resumeAction (d : Dev) (c i a z : Nat) (t : Stream) (h : MemOk d) : MemOk (resumeAction d c i a z t) := by
  unfold resumeAction
  dsimp only
  split
  · exact memOk_resumeRule _ _ _ _ h
  · exact memOk_resumeRule _ _ _ _ h
  · exact memOk_revokeRule _ _ _ _ h
  · split
    · exact memOk_resumeCommand _ _ _ _ _ h
    · exact h

theorem memOk_completeResumes (d : Dev) (c i : Nat) (p : Nat × Nat) (h : MemOk d) : MemOk (completeResumes d c i p) := by
  unfold completeResumes
  refine memOk_ite h (memOk_finishAll _ _ _ (memOk_foldl _ _ (fun d q h => ?_) h))
  exact h

theorem keepsMem_serveResume (d : Dev) (n : Nat) (h : MemOk d) : KeepsMem (serveResume d n) := by
  refine keepsMem_serveHead _ _ _ _ (fun r x => ?_) h
  dsimp only
  split
  · exact keepsMem_some (memOk_finishHead _ _ _ _ h)
  · split
    · exact keepsMem_some (memOk_finishHead _ _ _ _ h)
    · exact keepsMem_some (memOk_advanceHead _ _ (memOk_completeResumes _ _ _ _ (memOk_resumeAction _ _ _ _ _ _ ((memOk_modStream _ _ _ _).2 h))))

theorem memOk_zeroRegion (d : Dev) (p : Slot) (h : MemOk d) : MemOk (zeroRegion d p) := by
  refine memOk_foldl _ _ (fun d c h => ?_) h
  exact h

theorem keepsMem_serveSlotload (d : Dev) (n : Nat) (h : MemOk d) : KeepsMem (serveSlotload d n) := by
  refine keepsMem_serveHead _ _ _ _ (fun r x => ?_) h
  dsimp only
  split
  · exact keepsMem_some (memOk_finishHead _ _ _ _ h)
  · split
    · exact keepsMem_some (memOk_finishHead _ _ _ _ h)
    · refine keepsMem_some (memOk_finishHead _ _ _ _ (memOk_zeroRegion _ _ ?_))
      exact h

theorem keepsMem_serveSlotunload (d : Dev) (n : Nat) (h : MemOk d) : KeepsMem (serveSlotunload d n) := by
  refine keepsMem_serveHead _ _ _ _ (fun r x => ?_) h
  dsimp only
  split
  · exact keepsMem_some (memOk_finishHead _ _ _ _ h)
  · split
    · exact keepsMem_none
    · refine keepsMem_some (memOk_finishHead _ _ _ _ ?_)
      exact h

theorem keepsMem_servePush (d : Dev) (e : Nat) (h : MemOk d) : KeepsMem (servePush d e) := by
  unfold servePush; split
  · exact keepsMem_none
  · dsimp only
    split
    · exact keepsMem_none
    · split
      · exact keepsMem_some (memOk_writeEvent _ _ _ _ h)
      · split
        · exact keepsMem_none
        · exact keepsMem_some (memOk_homeStore _ _ _ (memOk_homeStore _ _ _ (memOk_takeLaunch _ _ _ _ _ _ _ _ h)))

/-! ### The Onyx die -/

theorem memOk_controlWrite (d : Dev) (o : Nat) (v : Word) (h : MemOk d) : MemOk (controlWrite d o v) :=
  memOk_ite h (memOk_ite (memOk_getD (keepsMem_resumeRing d v.toNat h) h) (memOk_ite h h))

theorem keepsMem_writeVf (d : Dev) (n : Nat) (r : BitVec 256) (h : MemOk d) : KeepsMem (writeVf d n r) := by
  unfold writeVf; split
  · exact keepsMem_none
  · dsimp only
    exact keepsMem_some (memOk_ite (memOk_writeEvent _ _ _ _ (memOk_homeStore _ _ _ h)) (memOk_homeStore _ _ _ h))

theorem memOk_watchTail (d : Dev) (n : Nat) (h : MemOk d) : MemOk (watchTail d n) := by
  unfold watchTail
  dsimp only
  split
  · exact h
  · split <;> exact h

theorem keepsMem_enableRing (d : Dev) (n : Nat) (r : BitVec 1024) (h : MemOk d) : KeepsMem (enableRing d n r) := by
  unfold enableRing; split
  · exact keepsMem_none
  · dsimp only
    split
    · exact keepsMem_some (memOk_writeEvent _ _ _ _ h)
    · have k (a : Nat) (l : List Byte) (x : Ring) := memOk_homeStore (putRing d n x) a l (memOk_putRing _ _ _ h)
      refine keepsMem_some (memOk_ite (memOk_watchTail _ _ (k _ _ _)) ?_)
      dsimp only [MemOk]
      exact k _ _ _

theorem keepsMem_bootDawn (d : Dev) (i : BootImage) (h : MemOk d) : KeepsMem (bootDawn d i) := keepsMem_ite (keepsMem_some h) keepsMem_none

theorem keepsMem_bootAgain (d : Dev) (i : BootImage) (h : MemOk d) : KeepsMem (bootAgain d i) := by
  unfold bootAgain; split
  · exact keepsMem_some h
  · exact keepsMem_none

theorem keepsMem_bootNoon (d : Dev) (r : ConfigRecord) (h : MemOk d) : KeepsMem (bootNoon d r) :=
  keepsMem_ite keepsMem_none (keepsMem_ite (keepsMem_some h) (keepsMem_some h))

theorem keepsMem_stepClock (d : Dev) (up : Bool) (t : Word) (h : MemOk d) : KeepsMem (stepClock d up t) :=
  keepsMem_ite keepsMem_none (keepsMem_some (memOk_writeEvent _ _ _ _ h))

theorem keepsMem_resetCompute (d : Dev) (h : MemOk d) : KeepsMem (resetCompute d) := keepsMem_ite keepsMem_none (keepsMem_some h)

theorem keepsMem_retryFlit (d : Dev) (i : Nat) (h : MemOk d) : KeepsMem (retryFlit d i) := keepsMem_ite (keepsMem_some h) keepsMem_none

theorem keepsMem_downLink (d : Dev) (i l : Nat) (h : MemOk d) : KeepsMem (downLink d i l) :=
  keepsMem_ite (keepsMem_some (memOk_writeEvent _ _ _ _ h)) keepsMem_none

theorem keepsMem_timeoutRing (d : Dev) (g m : Nat) (h : MemOk d) : KeepsMem (timeoutRing d g m) := by
  unfold timeoutRing; split
  · exact keepsMem_none
  · split
    · exact keepsMem_some (memOk_writeEvent _ _ _ _ (memOk_homeStore _ _ _ h))
    · exact keepsMem_none

theorem keepsMem_abortRing (d : Dev) (g m : Nat) (h : MemOk d) : KeepsMem (abortRing d g m) := by
  unfold abortRing; split
  · exact keepsMem_none
  · split
    · exact keepsMem_none
    · exact keepsMem_some (memOk_writeEvent _ _ _ _ (memOk_foldl _ _ (fun _ _ h => memOk_homeStore _ _ _ h) h))

theorem keepsMem_poisonSite (d : Dev) (x : ErrSite) (h : MemOk d) : KeepsMem (poisonSite d x) := by
  have k (c : Nat) (a : Nat) (f : Core → Core) :
      KeepsMem (if c < coreCount then some (writeEvent (modCore d c f) 2 c (BitVec.ofNat 64 a)) else none) :=
    keepsMem_ite (keepsMem_some (memOk_writeEvent _ _ _ _ h)) keepsMem_none
  unfold poisonSite
  dsimp only
  split
  · exact keepsMem_some (memOk_writeEvent _ _ _ _ h)
  · exact keepsMem_ite (k _ _ _) keepsMem_none
  · exact keepsMem_ite (k _ _ _) keepsMem_none
  · exact keepsMem_ite (k _ _ _) keepsMem_none
  · exact keepsMem_ite (k _ _ _) keepsMem_none
  · exact keepsMem_ite (k _ _ _) keepsMem_none
  · exact keepsMem_ite (k _ _ _) keepsMem_none
  · exact k _ _ _
  · exact keepsMem_none

theorem keepsMem_correctSite (d : Dev) (x : ErrSite) (h : MemOk d) : KeepsMem (correctSite d x) := by
  have k (c : Nat) (f : Core → Core) : KeepsMem (if c < coreCount then some (modCore d c f) else none) :=
    keepsMem_ite (keepsMem_some h) keepsMem_none
  unfold correctSite
  dsimp only
  split
  · exact keepsMem_some h
  · exact k _ _
  · exact k _ _
  · exact k _ _
  · exact k _ _
  · exact k _ _
  · exact k _ _
  · exact k _ _
  · exact keepsMem_ite (keepsMem_some h) keepsMem_none
  · exact keepsMem_some h
  · exact keepsMem_ite (keepsMem_some h) keepsMem_none

theorem keepsMem_inboundDma (d : Dev) (v : Nat) (a : Word) (l : List Byte) (h : MemOk d) : KeepsMem (inboundDma d v a l) := by
  unfold inboundDma; split
  · exact keepsMem_none
  · split
    · exact keepsMem_some (memOk_homeStore _ _ _ h)
    · split
      · exact keepsMem_none
      · exact keepsMem_some (memOk_homeRuns _ _ h)

theorem keepsMem_remoteRequest (d : Dev) (q : RemoteRequest) (h : MemOk d) : KeepsMem (remoteRequest d q) := by
  unfold remoteRequest
  dsimp only
  split
  · exact keepsMem_none
  · split
    · exact keepsMem_ite (keepsMem_some h) keepsMem_none
    · exact keepsMem_ite (keepsMem_some (memOk_homeStore _ _ _ h)) keepsMem_none
    · exact keepsMem_ite keepsMem_none (keepsMem_some h)
    · exact keepsMem_ite keepsMem_none (keepsMem_some (memOk_homeStore _ _ _ h))

/-- All that system software sets in a turn of the agenda is TICK_PERIOD and the ring groups. -/
theorem systemWrite_cases (d : Dev) (w : SystemWrite) :
    systemWrite d w = d ∨ (∃ v, systemWrite d w = { d with tickPeriod := v }) ∨ ∃ g, systemWrite d w = { d with groups := g } := by
  unfold systemWrite
  split
  · exact .inl rfl
  · split
    · split
      · exact .inr (.inl ⟨_, rfl⟩)
      · exact .inl rfl
    · split
      · exact .inl rfl
      · split <;> exact .inr (.inr ⟨_, rfl⟩)

theorem memOk_systemWrite (d : Dev) (w : SystemWrite) (h : MemOk d) : MemOk (systemWrite d w) := by
  obtain e | ⟨v, e⟩ | ⟨g, e⟩ := systemWrite_cases d w <;> rw [e] <;> exact h

end Sys2Proof.Machine
end

