-- ==== Sys2Proof/Laws/MemoryState.lean ====
section
/-!
SUPPORT. The canonical form of global memory through what an instruction does to the whole state: one lemma per shared operation, and one for
every meaning that is more than a register write.
-/

namespace Sys2Proof.Machine

/-- Memory is canonical in the device and in the device before the bundle. -/
def Good (s : State) : Prop := MemOk s.dev ∧ MemOk s.pre

/-- Every next state is good. -/
def KeepsGood (r : Result) : Prop := ∀ t, r = .next t → Good t

theorem keepsGood_next {s : State} (h : Good s) : KeepsGood (.next s) := by
  rintro t ⟨⟩; exact h

/-! ### Shared operations -/

theorem good_onDev {s : State} {f : Dev → Dev} (h : Good s) (hf : MemOk s.dev → MemOk (f s.dev)) : Good (onDev s f) := ⟨hf h.1, h.2⟩

theorem good_setDev {s : State} {d : Dev} (h : Good s) (k : MemOk d) : Good { s with dev := d } := ⟨k, h.2⟩

theorem good_onCore {s : State} {f : Core → Core} (h : Good s) : Good (onCore s f) := h

theorem good_onStream {s : State} {f : Stream → Stream} (h : Good s) : Good (onStream s f) := h

theorem good_ite {p : Prop} [Decidable p] {a b : State} (ha : Good a) (hb : Good b) : Good (if p then a else b) := by
  split <;> assumption

theorem good_takeFault {s : State} (c : Cause) (a : Word) (isw : Nat) (pc : Word) (h : Good s) : Good (takeFault c a isw pc s) :=
  ⟨memOk_deliverFault _ _ _ _ _ _ h.2, h.2⟩

theorem good_faultAt {s : State} (c : Cause) (a : Word) (h : Good s) : Good (faultAt c a s) := good_takeFault _ _ _ _ h

theorem good_ruleFault {s : State} (n : Nat) (h : Good s) : Good (ruleFault n s) := good_takeFault _ _ _ _ h

theorem good_stall {s : State} (h : Good s) : Good (stall s) := ⟨h.2, h.2⟩

theorem good_writeS {s : State} (r : BitVec 8) (v : Word) (h : Good s) : Good (writeS s r v) := good_ite h h

theorem good_writeA {s : State} (r : BitVec 8) (v : Word) (h : Good s) : Good (writeA s r v) := h

theorem good_writeC {s : State} (r : Nat) (v : Bool) (h : Good s) : Good (writeC s r v) := h

theorem good_writeB {s : State} (r : BitVec 8) (v : Word) (h : Good s) : Good (writeB s r v) := h

theorem good_writeTo {s : State} (c : Nat) (a : Bool) (r : BitVec 8) (v : Word) (h : Good s) : Good (writeTo s c a r v) := good_ite h h

theorem good_raiseFlags {s : State} (f : Flags) (h : Good s) : Good (raiseFlags s f) := h

theorem good_setTransfer {s : State} (t : Option Word) (h : Good s) : Good (setTransfer s t) := h

theorem good_setPc {s : State} (w : Word) (h : Good s) : Good (setPc s w) := h

theorem good_noteTlb {s : State} (va : Nat) (h : Good s) : Good (noteTlb s va) := by
  unfold noteTlb; split <;> exact h

theorem good_afterLoad {s : State} (p : Place) (n : Nat) (h : Good s) : Good (afterLoad s p n) := by
  unfold afterLoad; split
  · exact h
  · refine good_noteTlb _ ?_
    split
    · exact h
    · exact good_onDev h fun h => memOk_l1Fill _ _ _ _ h

theorem good_storeBytes {s : State} (p : Place) (l : List Byte) (h : Good s) : Good (storeBytes s p l) := by
  unfold storeBytes; split
  · exact good_onDev h fun h => memOk_spmWrite _ _ _ _ h
  · exact good_noteTlb _ h

theorem good_loading {s : State} (ea : Word) (n : Nat) (st : Bool) (k : Nat → State → State) (hk : ∀ v t, Good t → Good (k v t)) (h : Good s) :
    Good (loading s ea n st k) := by
  unfold loading; split
  · exact good_faultAt _ _ h
  · exact good_stall h
  · exact hk _ _ (good_afterLoad _ _ h)

theorem good_storing {s : State} (ea : Word) (n : Nat) (st : Bool) (v : Word) (k : State → State) (hk : ∀ t, Good t → Good (k t)) (h : Good s) :
    Good (storing s ea n st v k) := by
  unfold storing; split
  · exact good_faultAt _ _ h
  · exact good_stall h
  · exact hk _ (good_storeBytes _ _ h)

theorem good_pushing {s : State} (v : Word) (k : State → State) (hk : ∀ t, Good t → Good (k t)) (h : Good s) : Good (pushing s v k) :=
  good_storing _ _ _ _ _ (fun _ h => hk _ h) h

theorem good_popping {s : State} (k : Word → State → State) (hk : ∀ v t, Good t → Good (k v t)) (h : Good s) : Good (popping s k) :=
  good_loading _ _ _ _ (fun _ _ h => hk _ _ h) h

theorem good_atSync {s : State} (ea : Word) (p w : Bool) (k : Nat → Nat → Bool → State) (hk : ∀ c o b, Good (k c o b)) (h : Good s) :
    Good (atSync s ea p w k) := by
  unfold atSync; split
  · exact good_faultAt _ _ h
  · exact good_stall h
  · exact hk _ _ _
  · exact good_faultAt _ _ h

theorem good_withQuota {s : State} (t : Nat) (b : State → State) (hb : Good s → Good (b s)) (h : Good s) : Good (withQuota s t b) :=
  good_ite (good_faultAt _ _ h) (hb h)

theorem good_enqueueBody {s : State} (o : EngineOp) (f : Fields) (h : Good s) : Good (enqueueBody o f s) := by
  unfold enqueueBody
  dsimp only
  split
  · exact good_faultAt _ _ h
  · exact good_ite (good_stall h) (good_onDev h fun h => memOk_enqueueCmd _ _ _ _ h)

theorem keepsGood_instr {legal : Bool} {f : Fields} {s : State} {body : State → State} (hb : Good s → Good (body s)) (h : Good s) :
    KeepsGood (instr legal f s body) :=
  keepsGood_next (good_ite (good_ite (hb h) h) (good_faultAt _ _ h))

theorem keepsGood_transfer {legal : Bool} {f : Fields} {s : State} {body : State → State} (hb : Good s → Good (body s)) (h : Good s) :
    KeepsGood (transfer legal f s body) :=
  keepsGood_next (good_ite (good_ite (hb h) (good_setTransfer _ h)) (good_faultAt _ _ h))

theorem keepsGood_happen {s : State} {e : Dev → Option Dev} (he : MemOk s.dev → KeepsMem (e s.dev)) (h : Good s) : KeepsGood (happen s e) := by
  refine keepsGood_next ⟨?_, h.2⟩
  show MemOk ((e s.dev).getD s.dev)
  have k := he h.1
  cases x : e s.dev with
  | none => exact h.1
  | some d => rw [x] at k; exact k d rfl

theorem keepsGood_issueVec (o : VecOp) (f : Fields) {s : State} (h : Good s) : KeepsGood (issueVec o f s) :=
  keepsGood_instr (fun h => good_enqueueBody _ _ h) h

theorem keepsGood_issueMat (o : MatOp) (f : Fields) {s : State} (h : Good s) : KeepsGood (issueMat o f s) :=
  keepsGood_instr (fun h => good_enqueueBody _ _ h) h

theorem keepsGood_issueCpy (o : CpyOp) (f : Fields) {s : State} (h : Good s) : KeepsGood (issueCpy o f s) :=
  keepsGood_instr (fun h => good_enqueueBody _ _ h) h

/-! ### Scalar and address instructions -/

theorem good_aluBody {s : State} (o : AluOp) (f : Fields) (h : Good s) : Good (aluBody o f s) := good_writeS _ _ h

theorem good_divBody {s : State} (o : Bool → Word → Word → Word) (f : Fields) (h : Good s) : Good (divBody o f s) :=
  good_ite (good_faultAt _ _ h) (good_writeS _ _ h)

theorem keepsGood_execAmov (f : Fields) {s : State} (h : Good s) : KeepsGood (execAmov f s) :=
  keepsGood_instr (fun h => by split <;> first | exact good_writeA _ _ h | exact good_writeS _ _ h) h

theorem good_popTo {s : State} (f : Fields) (h : Good s) :
    Good (popping s fun v t => if fnBit f 0 then writeA t f.d v else writeS t f.d v) := by
  apply good_popping
  · intro v t h
    split
    · exact good_writeA _ _ h
    · exact good_writeS _ _ h
  · exact h

theorem keepsGood_execPop (f : Fields) {s : State} (h : Good s) : KeepsGood (execPop f s) := by
  unfold execPop
  exact keepsGood_instr (fun h => good_popTo _ h) h

theorem good_fetchLine {s : State} (c pa n : Nat) (h : Good s) : Good (onDev s fun d => l1Fill d c pa n) :=
  good_onDev h fun h => memOk_l1Fill _ _ _ _ h

theorem keepsGood_execPrfm (f : Fields) {s : State} (h : Good s) : KeepsGood (execPrfm f s) := by
  unfold execPrfm
  refine keepsGood_instr (fun h => ?_) h
  extract_lets ea va
  split
  · exact h
  · split
    · exact h
    · extract_lets pa
      split
      · exact h
      · exact good_fetchLine _ _ _ h

/-! ### Control -/

theorem keepsGood_execPbra (f : Fields) {s : State} (h : Good s) : KeepsGood (execPbra f s) :=
  keepsGood_instr (fun h => good_ite (good_faultAt _ _ h) (good_writeB _ _ h)) h

theorem keepsGood_execCall (f : Fields) {s : State} (h : Good s) : KeepsGood (execCall f s) :=
  keepsGood_transfer (fun h => good_pushing _ _ (fun _ h => good_setTransfer _ h) h) h

theorem keepsGood_execRet (f : Fields) {s : State} (h : Good s) : KeepsGood (execRet f s) :=
  keepsGood_transfer (fun h => good_popping _ (fun _ _ h => good_setTransfer _ h) h) h

theorem keepsGood_execLoop (f : Fields) {s : State} (h : Good s) : KeepsGood (execLoop f s) :=
  keepsGood_instr (fun h => by
    dsimp only
    split
    · exact good_faultAt _ _ h
    · exact good_ite (good_setPc _ (good_onStream h)) (good_onStream h)) h

theorem good_collapse {s : State} (a : Bool) (f : Fields) (h : Good s) : Good (collapse a f s) :=
  good_ite (good_stall h) (good_writeC _ _ h)

/-! ### Synchronisation -/

theorem keepsGood_execTset (f : Fields) {s : State} (h : Good s) : KeepsGood (execTset f s) :=
  keepsGood_instr (fun h => good_withQuota _ _ (fun h => good_ite (good_faultAt _ _ h) (good_onCore h)) h) h

theorem good_tpostBody {s : State} (f : Fields) (h : Good s) : Good (tpostBody f s) :=
  good_withQuota _ _ (fun h => by
    split
    · exact good_onDev h fun h => h
    · exact good_faultAt _ _ h) h

theorem good_twaitBody {s : State} (f : Fields) (h : Good s) : Good (twaitBody f s) :=
  good_withQuota _ _ (fun h => good_ite (good_stall h) (good_onCore h)) h

theorem keepsGood_execSwinit (f : Fields) {s : State} (h : Good s) : KeepsGood (execSwinit f s) :=
  keepsGood_instr (fun h => good_atSync _ _ _ _ (fun _ _ _ => good_onDev h fun h => memOk_writeSync _ _ _ _ h) h) h

theorem keepsGood_execSwarm (f : Fields) {s : State} (h : Good s) : KeepsGood (execSwarm f s) :=
  keepsGood_instr (fun h => good_atSync _ _ _ _ (fun _ _ _ => good_onDev h fun h => memOk_writeSync _ _ _ _ h) h) h

theorem keepsGood_execSwwait (f : Fields) {s : State} (h : Good s) : KeepsGood (execSwwait f s) :=
  keepsGood_instr (fun h => good_atSync _ _ _ _ (fun _ _ _ => good_ite (good_faultAt _ _ h) (good_ite (good_stall h) h)) h) h

theorem keepsGood_execSwarrive (f : Fields) {s : State} (h : Good s) : KeepsGood (execSwarrive f s) :=
  keepsGood_instr (fun h => good_atSync _ _ _ _ (fun _ _ _ => good_onDev h fun h => memOk_ite (memOk_syncArrive _ _ _ _ h) h) h) h

theorem keepsGood_execPublish (f : Fields) {s : State} (h : Good s) : KeepsGood (execPublish f s) :=
  keepsGood_instr (fun h => good_ite (good_onDev h fun h => memOk_publish _ _ _ h) (good_faultAt _ _ h)) h

theorem keepsGood_execAcquire (f : Fields) {s : State} (h : Good s) : KeepsGood (execAcquire f s) :=
  keepsGood_instr (fun h => good_ite (good_onDev h fun h => memOk_acquire _ _ _ h) (good_faultAt _ _ h)) h

theorem keepsGood_execFence (f : Fields) {s : State} (h : Good s) : KeepsGood (execFence f s) :=
  keepsGood_instr (fun h => good_ite h (good_stall h)) h

theorem memOk_atomPrepare (d : Dev) (c : Nat) (f : Fields) (pa : Nat) (h : MemOk d) : MemOk (atomPrepare d c f pa) :=
  memOk_evictSector _ _ _ (memOk_ite (memOk_publish _ _ _ h) h)

theorem memOk_atomCore (d : Dev) (c : Nat) (f : Fields) (pa : Nat) (x e : Word) (h : MemOk d) : MemOk (atomCore d c f pa x e) := by
  unfold atomCore
  dsimp only
  exact memOk_ite (memOk_acquire _ _ _ (memOk_postTo _ _ _ _ (memOk_homeStore _ _ _ (memOk_atomPrepare _ _ _ _ h))))
    (memOk_postTo _ _ _ _ (memOk_homeStore _ _ _ (memOk_atomPrepare _ _ _ _ h)))

theorem memOk_loseWord (d : Dev) (pa n : Nat) (h : MemOk d) : MemOk (loseWord d pa n) := Sparse.wf_setRange _ _ _ _ h

theorem keepsGood_execAtom (f : Fields) {s : State} (h : Good s) : KeepsGood (execAtom f s) :=
  keepsGood_instr (fun h => by
    dsimp only
    refine good_ite (good_faultAt _ _ h) (good_ite (good_faultAt _ _ h) (good_ite (good_faultAt _ _ h) ?_))
    split
    · exact good_faultAt _ _ h
    · exact good_ite (good_faultAt _ _ h) (good_ite
        (good_faultAt _ _ (by split; exacts [⟨h.1, memOk_loseWord _ _ _ h.2⟩, h]))
        (good_writeS _ _ (good_noteTlb _ (good_setDev h (memOk_atomCore _ _ _ _ _ _ h.1)))))) h

theorem keepsGood_execGarrive (f : Fields) {s : State} (h : Good s) : KeepsGood (execGarrive f s) :=
  keepsGood_instr (fun h => good_ite (good_faultAt _ _ h) (good_ite (good_stall h) (good_onDev h fun h => h))) h

theorem keepsGood_execGwait (f : Fields) {s : State} (h : Good s) : KeepsGood (execGwait f s) :=
  keepsGood_instr (fun h => good_ite (good_faultAt _ _ h) (good_ite h (good_stall h))) h

theorem good_registerWatch {s : State} (f : Fields) (w : WatchDesc) (h : Good s) : Good (registerWatch f w s) := by
  unfold registerWatch
  dsimp only
  refine good_ite (good_faultAt _ _ h) (good_ite (good_faultAt _ _ h) (good_ite (good_faultAt _ _ h) (good_ite (good_faultAt _ _ h)
    (good_ite (good_faultAt _ _ h) ?_))))
  split
  · exact good_faultAt _ _ h
  · refine good_ite (good_faultAt _ _ h) (good_ite (good_faultAt _ _ h) ?_)
    split
    · exact good_faultAt _ _ h
    · exact good_writeS _ _ (good_noteTlb _ (good_onDev h fun h => h))

theorem keepsGood_execWatch (f : Fields) {s : State} (h : Good s) : KeepsGood (execWatch f s) :=
  keepsGood_instr (fun h => good_atSync _ _ _ _ (fun _ _ _ => good_registerWatch _ _ h) h) h

theorem keepsGood_execUnwatch (f : Fields) {s : State} (h : Good s) : KeepsGood (execUnwatch f s) :=
  keepsGood_instr (fun h => by
    dsimp only
    split
    · exact h
    · exact good_ite h (good_ite (good_faultAt _ _ h) (good_ite (good_stall h) (good_onDev h fun h => h)))) h

/-! ### System instructions -/

theorem keepsGood_execTrap (f : Fields) {s : State} (h : Good s) : KeepsGood (execTrap f s) :=
  keepsGood_instr (fun h => good_takeFault _ _ _ _ h) h

theorem keepsGood_execExit (f : Fields) {s : State} (h : Good s) : KeepsGood (execExit f s) :=
  keepsGood_instr (fun h => good_ite (good_faultAt _ _ h) (good_ite (good_stall h) (good_onDev h fun h => memOk_publish _ _ _ h))) h

theorem good_writeStatus {s : State} (v : Nat) (h : Good s) : Good (writeStatus v s) :=
  good_ite (good_ite (good_onStream h) (good_faultAt _ _ h)) h

theorem good_writeThreshold {s : State} (n : Nat) (v : Word) (h : Good s) : Good (writeThreshold n v s) := by
  unfold writeThreshold
  dsimp only
  refine good_ite (good_stall h) (good_ite ?_ (good_onCore h))
  split
  · exact good_onDev h fun h => h
  · exact good_faultAt _ _ h

theorem keepsGood_execSyswr (f : Fields) {s : State} (h : Good s) : KeepsGood (execSyswr f s) :=
  keepsGood_instr (fun h => good_ite (good_faultAt _ _ h) (good_ite (good_faultAt _ _ h) (good_ite (good_writeStatus _ h)
    (good_ite (good_writeThreshold _ _ h) (good_onStream h))))) h

theorem keepsGood_execSplit (f : Fields) {s : State} (h : Good s) : KeepsGood (execSplit f s) :=
  keepsGood_instr (fun h => good_ite (good_faultAt _ _ h) (good_ite (good_stall h) (good_ite (good_faultAt _ _ h) (good_onCore h)))) h

theorem keepsGood_execJoin (f : Fields) {s : State} (h : Good s) : KeepsGood (execJoin f s) :=
  keepsGood_instr (fun h => good_ite (good_faultAt _ _ h) (good_ite (good_stall h) (good_onCore h))) h

theorem keepsGood_execLease (f : Fields) {s : State} (h : Good s) : KeepsGood (execLease f s) :=
  keepsGood_instr (fun h => good_ite h (good_ite (good_faultAt _ _ h) (good_onCore h))) h

theorem keepsGood_execLrel (f : Fields) {s : State} (h : Good s) : KeepsGood (execLrel f s) :=
  keepsGood_instr (fun h => by
    dsimp only
    split
    · exact good_ite h (good_ite (good_onCore h) (good_onStream h))
    · exact h) h

theorem keepsGood_execQcfg (f : Fields) {s : State} (h : Good s) : KeepsGood (execQcfg f s) :=
  keepsGood_instr (fun h => good_ite (good_faultAt _ _ h) (good_ite (good_stall h) (good_ite (good_faultAt _ _ h) (good_ite (good_faultAt _ _ h)
    (good_onStream h))))) h

theorem keepsGood_execGenf (f : Fields) {s : State} (h : Good s) : KeepsGood (execGenf f s) :=
  keepsGood_instr (fun h => good_ite (good_faultAt _ _ h) (good_ite (good_faultAt _ _ h) (good_ite (good_stall h) (good_onDev (good_onStream h) fun h =>
    memOk_foldl _ _ (fun _ _ h => (memOk_modCore _ _ _).2 (memOk_pushEntry _ _ _ _ _ h)) h)))) h

theorem keepsGood_execBoundcfg (f : Fields) {s : State} (h : Good s) : KeepsGood (execBoundcfg f s) :=
  keepsGood_instr (fun h => by
    dsimp only
    refine good_ite (good_stall h) ?_
    split
    · exact good_onDev h fun h => h
    · exact good_faultAt _ _ h) h

theorem keepsGood_execTick (f : Fields) {s : State} (h : Good s) : KeepsGood (execTick f s) :=
  keepsGood_instr (fun h => good_ite (good_stall h) (good_writeS _ _ h)) h

theorem memOk_stopOthers (d : Dev) (c i : Nat) (h : MemOk d) : MemOk (stopOthers d c i) := by
  unfold stopOthers; split
  · exact h
  · refine memOk_foldl _ _ (fun _ q k => ?_) h
    exact (memOk_modStream _ q.1 q.2 stopEpc).2 k

theorem keepsGood_execDbgbrk (f : Fields) {s : State} (h : Good s) : KeepsGood (execDbgbrk f s) :=
  keepsGood_instr (fun h => good_ite h (good_onDev h fun h => memOk_reportSuspension _ _ _ _ (memOk_stopOthers _ _ _ h))) h

/-! ### Rules and launches -/

theorem good_bindGlobal {s : State} (x : Nat) (a : Axis) (h : Good s) : Good (bindGlobal s x a) := by
  unfold bindGlobal
  dsimp only
  split
  · exact good_faultAt _ _ h
  · refine good_ite (good_faultAt _ _ h) ?_
    split
    · exact good_faultAt _ _ h
    · exact good_noteTlb _ (good_onDev h fun h => memOk_bindAxis _ _ _ _ (memOk_unbindAxis _ _ _ h))

theorem good_defineAxis {s : State} (x v : Nat) (h : Good s) : Good (defineAxis s x v) := by
  unfold defineAxis
  dsimp only
  refine good_ite (good_ruleFault _ h) ?_
  split
  · exact good_faultAt _ _ h
  · exact good_ite (good_faultAt _ _ h) (good_ite (good_faultAt _ _ h) (good_ite (good_onDev h fun h => memOk_bindAxis _ _ _ _ h) (good_bindGlobal _ _ h)))

theorem keepsGood_execOaxdef (f : Fields) {s : State} (h : Good s) : KeepsGood (execOaxdef f s) :=
  keepsGood_instr (fun h => by
    dsimp only
    refine good_ite (good_ite (good_ruleFault _ h) (good_onDev h fun h => memOk_unbindAxis _ _ _ h)) ?_
    split
    · exact good_faultAt _ _ h
    · exact good_stall h
    · exact good_ite (good_ruleFault _ h) (good_defineAxis _ _ h)
    · exact good_faultAt _ _ h) h

theorem keepsGood_execInstall (f : Fields) {s : State} (h : Good s) : KeepsGood (execInstall f s) := by
  unfold execInstall
  dsimp only
  refine keepsGood_instr (fun h => ?_) h
  split
  · exact good_ite (good_ruleFault _ h) (good_onDev h fun h => memOk_settleRules _ _ h)
  · exact good_ruleFault _ h

theorem keepsGood_execRevoke (f : Fields) {s : State} (h : Good s) : KeepsGood (execRevoke f s) :=
  keepsGood_instr (fun h => good_onDev h fun h => memOk_revokeRule _ _ _ _ h) h

theorem good_commitGlobal {s : State} (a : Axis) (n : Nat) (c : Bool) (h : Good s) : Good (commitGlobal s a n c) := by
  unfold commitGlobal
  dsimp only
  split
  · exact good_faultAt _ _ h
  · refine good_ite (good_faultAt _ _ h) (good_ite (good_faultAt _ _ ⟨h.1, memOk_publish _ _ _ h.2⟩) ?_)
    exact good_noteTlb _ (good_onDev h fun h =>
      memOk_postTo _ _ _ _ (memOk_homeStore _ _ _ (memOk_evictSector _ _ _ (memOk_publish _ _ _ h))))

theorem keepsGood_execSlcommit (f : Fields) {s : State} (h : Good s) : KeepsGood (execSlcommit f s) :=
  keepsGood_instr (fun h => by
    dsimp only
    split
    · exact good_ruleFault _ h
    · exact good_ite (good_ruleFault _ h) (good_ite
        (good_onStream (good_onDev h fun h => memOk_advanceAxis _ _ _ _ _ (memOk_publish _ _ _ h))) (good_commitGlobal _ _ _ h))) h

theorem keepsGood_execSlwait (f : Fields) {s : State} (h : Good s) : KeepsGood (execSlwait f s) :=
  keepsGood_instr (fun h => by
    split
    · exact good_ruleFault _ h
    · exact good_ite (good_stall h) h) h

theorem keepsGood_execRresume (f : Fields) {s : State} (h : Good s) : KeepsGood (execRresume f s) :=
  keepsGood_instr (fun h => good_onDev h fun h => memOk_resumeRule _ _ _ _ h) h

theorem good_submit {s : State} (f : Fields) (r : BitVec 1024) (h : Good s) : Good (submit f r s) := by
  unfold submit
  dsimp only
  split
  · exact good_takeFault _ _ _ _ h
  · refine good_ite (good_faultAt _ _ h) ?_
    have k : Good (onDev s fun d => publish d s.cur.core (effectiveScope r)) := good_onDev h fun h => memOk_publish _ _ _ h
    exact good_ite (good_writeS _ _ k) (good_writeS _ _ (good_setDev k (memOk_takeLaunch _ _ _ _ _ _ _ _ k.1)))

theorem keepsGood_execLaunch (f : Fields) {s : State} (h : Good s) : KeepsGood (execLaunch f s) :=
  keepsGood_instr (fun h => by
    dsimp only
    split
    · exact good_faultAt _ _ h
    · exact good_stall h
    · exact good_submit _ _ h
    · exact good_faultAt _ _ h) h

theorem keepsGood_execFrread (f : Fields) {s : State} (h : Good s) : KeepsGood (execFrread f s) :=
  keepsGood_instr (fun h => by
    dsimp only
    split
    · exact good_writeS _ _ h
    · exact good_ite (good_faultAt _ _ h) (good_writeS _ _ h)) h

theorem keepsGood_execPtinfo (f : Fields) {s : State} (h : Good s) : KeepsGood (execPtinfo f s) :=
  keepsGood_instr (fun h => by split <;> exact good_writeS _ _ h) h

theorem keepsGood_execCpyrContribution (n : Nat) {s : State} (h : Good s) : KeepsGood (execCpyrContribution n s) := by
  refine keepsGood_happen (fun h => ?_) h
  unfold combineNext
  split
  · exact keepsMem_none
  · exact keepsMem_ite keepsMem_none (keepsMem_some (memOk_contributionArrives _ _ h))

theorem keepsGood_execIcacheFill (c : Nat) (va : Word) {s : State} (h : Good s) : KeepsGood (execIcacheFill c va s) :=
  keepsGood_happen (fun h => keepsMem_ite keepsMem_none (keepsMem_fillSector _ _ _ h)) h

end Sys2Proof.Machine
end

