-- ==== Sys2Proof/Laws/MemoryArms.lean ====
section
/-!
SUPPORT. The canonical form of global memory through every remaining meaning: one lemma per arm.
-/

namespace Sys2Proof.Machine

theorem keepsGood_execAdd (f : Fields) {s : State} (h : Good s) : KeepsGood (execAdd f s) :=
  keepsGood_instr (fun h => good_aluBody _ _ h) h

theorem keepsGood_execAddB2 (fin : Bool) (d : BitVec 5) (e : BitVec 4) {s : State} (h : Good s) : KeepsGood (execAddB2 fin d e s) :=
  keepsGood_instr (fun h => good_aluBody _ _ h) h

theorem keepsGood_execSub (f : Fields) {s : State} (h : Good s) : KeepsGood (execSub f s) :=
  keepsGood_instr (fun h => good_aluBody _ _ h) h

theorem keepsGood_execSubB2 (fin : Bool) (d : BitVec 5) (e : BitVec 4) {s : State} (h : Good s) : KeepsGood (execSubB2 fin d e s) :=
  keepsGood_instr (fun h => good_aluBody _ _ h) h

theorem keepsGood_execMul (f : Fields) {s : State} (h : Good s) : KeepsGood (execMul f s) :=
  keepsGood_instr (fun h => good_aluBody _ _ h) h

theorem keepsGood_execMulh (f : Fields) {s : State} (h : Good s) : KeepsGood (execMulh f s) :=
  keepsGood_instr (fun h => good_aluBody _ _ h) h

theorem keepsGood_execAnd (f : Fields) {s : State} (h : Good s) : KeepsGood (execAnd f s) :=
  keepsGood_instr (fun h => good_aluBody _ _ h) h

theorem keepsGood_execAndB2 (fin : Bool) (d : BitVec 5) (e : BitVec 4) {s : State} (h : Good s) : KeepsGood (execAndB2 fin d e s) :=
  keepsGood_instr (fun h => good_aluBody _ _ h) h

theorem keepsGood_execOr (f : Fields) {s : State} (h : Good s) : KeepsGood (execOr f s) :=
  keepsGood_instr (fun h => good_aluBody _ _ h) h

theorem keepsGood_execOrB2 (fin : Bool) (d : BitVec 5) (e : BitVec 4) {s : State} (h : Good s) : KeepsGood (execOrB2 fin d e s) :=
  keepsGood_instr (fun h => good_aluBody _ _ h) h

theorem keepsGood_execXor (f : Fields) {s : State} (h : Good s) : KeepsGood (execXor f s) :=
  keepsGood_instr (fun h => good_aluBody _ _ h) h

theorem keepsGood_execXorB2 (fin : Bool) (d : BitVec 5) (e : BitVec 4) {s : State} (h : Good s) : KeepsGood (execXorB2 fin d e s) :=
  keepsGood_instr (fun h => good_aluBody _ _ h) h

theorem keepsGood_execAndn (f : Fields) {s : State} (h : Good s) : KeepsGood (execAndn f s) :=
  keepsGood_instr (fun h => good_aluBody _ _ h) h

theorem keepsGood_execShl (f : Fields) {s : State} (h : Good s) : KeepsGood (execShl f s) :=
  keepsGood_instr (fun h => good_aluBody _ _ h) h

theorem keepsGood_execShlB2 (fin : Bool) (d : BitVec 5) (e : BitVec 4) {s : State} (h : Good s) : KeepsGood (execShlB2 fin d e s) :=
  keepsGood_instr (fun h => good_aluBody _ _ h) h

theorem keepsGood_execShr (f : Fields) {s : State} (h : Good s) : KeepsGood (execShr f s) :=
  keepsGood_instr (fun h => good_aluBody _ _ h) h

theorem keepsGood_execShrB2 (fin : Bool) (d : BitVec 5) (e : BitVec 4) {s : State} (h : Good s) : KeepsGood (execShrB2 fin d e s) :=
  keepsGood_instr (fun h => good_aluBody _ _ h) h

theorem keepsGood_execSha (f : Fields) {s : State} (h : Good s) : KeepsGood (execSha f s) :=
  keepsGood_instr (fun h => good_aluBody _ _ h) h

theorem keepsGood_execRot (f : Fields) {s : State} (h : Good s) : KeepsGood (execRot f s) :=
  keepsGood_instr (fun h => good_aluBody _ _ h) h

theorem keepsGood_execMin (f : Fields) {s : State} (h : Good s) : KeepsGood (execMin f s) :=
  keepsGood_instr (fun h => good_aluBody _ _ h) h

theorem keepsGood_execMinB2 (fin : Bool) (d : BitVec 5) (e : BitVec 4) {s : State} (h : Good s) : KeepsGood (execMinB2 fin d e s) :=
  keepsGood_instr (fun h => good_aluBody _ _ h) h

theorem keepsGood_execMax (f : Fields) {s : State} (h : Good s) : KeepsGood (execMax f s) :=
  keepsGood_instr (fun h => good_aluBody _ _ h) h

theorem keepsGood_execMaxB2 (fin : Bool) (d : BitVec 5) (e : BitVec 4) {s : State} (h : Good s) : KeepsGood (execMaxB2 fin d e s) :=
  keepsGood_instr (fun h => good_aluBody _ _ h) h

theorem keepsGood_execSadd (f : Fields) {s : State} (h : Good s) : KeepsGood (execSadd f s) :=
  keepsGood_instr (fun h => good_aluBody _ _ h) h

theorem keepsGood_execSsub (f : Fields) {s : State} (h : Good s) : KeepsGood (execSsub f s) :=
  keepsGood_instr (fun h => good_aluBody _ _ h) h

theorem keepsGood_execAddi (f : Fields) {s : State} (h : Good s) : KeepsGood (execAddi f s) :=
  keepsGood_instr (fun h => good_writeS _ _ h) h

theorem keepsGood_execAddiB2 (fin : Bool) (d : BitVec 5) (e : BitVec 4) {s : State} (h : Good s) : KeepsGood (execAddiB2 fin d e s) :=
  keepsGood_instr (fun h => good_writeS _ _ h) h

theorem keepsGood_execMovi (f : Fields) {s : State} (h : Good s) : KeepsGood (execMovi f s) :=
  keepsGood_instr (fun h => good_writeS _ _ h) h

theorem keepsGood_execPopc (f : Fields) {s : State} (h : Good s) : KeepsGood (execPopc f s) :=
  keepsGood_instr (fun h => good_writeS _ _ h) h

theorem keepsGood_execPopcB2 (fin : Bool) (d : BitVec 5) (e : BitVec 4) {s : State} (h : Good s) : KeepsGood (execPopcB2 fin d e s) :=
  keepsGood_instr (fun h => good_writeS _ _ h) h

theorem keepsGood_execClz (f : Fields) {s : State} (h : Good s) : KeepsGood (execClz f s) :=
  keepsGood_instr (fun h => good_writeS _ _ h) h

theorem keepsGood_execCtz (f : Fields) {s : State} (h : Good s) : KeepsGood (execCtz f s) :=
  keepsGood_instr (fun h => good_writeS _ _ h) h

theorem keepsGood_execBfx (f : Fields) {s : State} (h : Good s) : KeepsGood (execBfx f s) :=
  keepsGood_instr (fun h => good_writeS _ _ h) h

theorem keepsGood_execBfi (f : Fields) {s : State} (h : Good s) : KeepsGood (execBfi f s) :=
  keepsGood_instr (fun h => good_writeS _ _ h) h

theorem keepsGood_execSel (f : Fields) {s : State} (h : Good s) : KeepsGood (execSel f s) :=
  keepsGood_instr (fun h => good_writeS _ _ h) h

theorem keepsGood_execMov (f : Fields) {s : State} (h : Good s) : KeepsGood (execMov f s) :=
  keepsGood_instr (fun h => good_writeS _ _ h) h

theorem keepsGood_execMovB2 (fin : Bool) (d : BitVec 5) (e : BitVec 4) {s : State} (h : Good s) : KeepsGood (execMovB2 fin d e s) := by
  unfold execMovB2
  exact keepsGood_instr (fun h => good_writeS _ _ h) h

theorem keepsGood_execXmov (f : Fields) {s : State} (h : Good s) : KeepsGood (execXmov f s) :=
  keepsGood_instr (fun h => good_writeTo _ _ _ _ h) h

theorem keepsGood_execDiv (f : Fields) {s : State} (h : Good s) : KeepsGood (execDiv f s) :=
  keepsGood_instr (fun h => good_divBody _ _ h) h

theorem keepsGood_execRem (f : Fields) {s : State} (h : Good s) : KeepsGood (execRem f s) :=
  keepsGood_instr (fun h => good_divBody _ _ h) h

theorem keepsGood_execRank (f : Fields) {s : State} (h : Good s) : KeepsGood (execRank f s) :=
  keepsGood_instr (fun h => good_writeS _ _ h) h

theorem keepsGood_execFcvt (f : Fields) {s : State} (h : Good s) : KeepsGood (execFcvt f s) :=
  keepsGood_instr (fun h => good_raiseFlags _ (good_writeS _ _ h)) h

theorem keepsGood_execFmas (f : Fields) {s : State} (h : Good s) : KeepsGood (execFmas f s) :=
  keepsGood_instr (fun h => good_raiseFlags _ (good_writeS _ _ h)) h

theorem keepsGood_execAadd (f : Fields) {s : State} (h : Good s) : KeepsGood (execAadd f s) :=
  keepsGood_instr (fun h => good_writeA _ _ h) h

theorem keepsGood_execAaddB2 (fin : Bool) (d : BitVec 5) (e : BitVec 4) {s : State} (h : Good s) : KeepsGood (execAaddB2 fin d e s) :=
  keepsGood_instr (fun h => good_writeA _ _ h) h

theorem keepsGood_execAidx (f : Fields) {s : State} (h : Good s) : KeepsGood (execAidx f s) :=
  keepsGood_instr (fun h => good_writeA _ _ h) h

theorem keepsGood_execAldi (f : Fields) {s : State} (h : Good s) : KeepsGood (execAldi f s) :=
  keepsGood_instr (fun h => good_writeA _ _ h) h

theorem keepsGood_execLd (f : Fields) {s : State} (h : Good s) : KeepsGood (execLd f s) :=
  keepsGood_instr (fun h => good_loading _ _ _ _ (fun _ _ h => good_writeS _ _ h) h) h

theorem keepsGood_execSt (f : Fields) {s : State} (h : Good s) : KeepsGood (execSt f s) :=
  keepsGood_instr (fun h => good_storing _ _ _ _ _ (fun _ h => h) h) h

theorem keepsGood_execLda (f : Fields) {s : State} (h : Good s) : KeepsGood (execLda f s) :=
  keepsGood_instr (fun h => good_loading _ _ _ _ (fun _ _ h => good_writeA _ _ h) h) h

theorem keepsGood_execSta (f : Fields) {s : State} (h : Good s) : KeepsGood (execSta f s) :=
  keepsGood_instr (fun h => good_storing _ _ _ _ _ (fun _ h => h) h) h

theorem keepsGood_execPush (f : Fields) {s : State} (h : Good s) : KeepsGood (execPush f s) :=
  keepsGood_instr (fun h => good_pushing _ _ (fun _ h => h) h) h

theorem keepsGood_execAcmp (f : Fields) {s : State} (h : Good s) : KeepsGood (execAcmp f s) :=
  keepsGood_instr (fun h => good_writeC _ _ h) h

theorem keepsGood_execPbr (f : Fields) {s : State} (h : Good s) : KeepsGood (execPbr f s) :=
  keepsGood_instr (fun h => good_writeB _ _ h) h

theorem keepsGood_execCmp (f : Fields) {s : State} (h : Good s) : KeepsGood (execCmp f s) :=
  keepsGood_instr (fun h => good_writeC _ _ h) h

theorem keepsGood_execCmpi (f : Fields) {s : State} (h : Good s) : KeepsGood (execCmpi f s) :=
  keepsGood_instr (fun h => good_writeC _ _ h) h

theorem keepsGood_execBr (f : Fields) {s : State} (h : Good s) : KeepsGood (execBr f s) :=
  keepsGood_transfer (fun h => good_setTransfer _ h) h

theorem keepsGood_execBrn (f : Fields) {s : State} (h : Good s) : KeepsGood (execBrn f s) :=
  keepsGood_transfer (fun h => good_setTransfer _ h) h

theorem keepsGood_execJmp (f : Fields) {s : State} (h : Good s) : KeepsGood (execJmp f s) :=
  keepsGood_transfer (fun h => good_setTransfer _ h) h

theorem keepsGood_execLset (f : Fields) {s : State} (h : Good s) : KeepsGood (execLset f s) :=
  keepsGood_instr (fun h => good_onStream h) h

theorem keepsGood_execVany (f : Fields) {s : State} (h : Good s) : KeepsGood (execVany f s) :=
  keepsGood_instr (fun h => good_collapse _ _ h) h

theorem keepsGood_execVall (f : Fields) {s : State} (h : Good s) : KeepsGood (execVall f s) :=
  keepsGood_instr (fun h => good_collapse _ _ h) h

theorem keepsGood_execGset (f : Fields) {s : State} (h : Good s) : KeepsGood (execGset f s) :=
  keepsGood_instr (fun h => good_writeS _ _ (good_onStream h)) h

theorem keepsGood_execNop (f : Fields) {s : State} (h : Good s) : KeepsGood (execNop f s) :=
  keepsGood_instr (fun h => h) h

theorem keepsGood_execNopB2 (fin : Bool) {s : State} (h : Good s) : KeepsGood (execNopB2 fin s) :=
  keepsGood_instr (fun h => h) h

theorem keepsGood_execTpost (f : Fields) {s : State} (h : Good s) : KeepsGood (execTpost f s) :=
  keepsGood_instr (fun h => good_tpostBody _ h) h

theorem keepsGood_execTpostB2 (fin : Bool) (d : BitVec 5) (e : BitVec 4) {s : State} (h : Good s) : KeepsGood (execTpostB2 fin d e s) :=
  keepsGood_instr (fun h => good_tpostBody _ h) h

theorem keepsGood_execTwait (f : Fields) {s : State} (h : Good s) : KeepsGood (execTwait f s) :=
  keepsGood_instr (fun h => good_twaitBody _ h) h

theorem keepsGood_execTwaitB2 (fin : Bool) (d : BitVec 5) (e : BitVec 4) {s : State} (h : Good s) : KeepsGood (execTwaitB2 fin d e s) :=
  keepsGood_instr (fun h => good_twaitBody _ h) h

theorem keepsGood_execSysrd (f : Fields) {s : State} (h : Good s) : KeepsGood (execSysrd f s) :=
  keepsGood_instr (fun h => good_writeS _ _ h) h

theorem keepsGood_execYield (f : Fields) {s : State} (h : Good s) : KeepsGood (execYield f s) :=
  keepsGood_instr (fun h => good_ite (good_onStream h) h) h

theorem keepsGood_execFtset (f : Fields) {s : State} (h : Good s) : KeepsGood (execFtset f s) :=
  keepsGood_instr (fun h => good_onStream h) h

theorem keepsGood_execRstat (f : Fields) {s : State} (h : Good s) : KeepsGood (execRstat f s) :=
  keepsGood_instr (fun h => good_writeS _ _ h) h

theorem keepsGood_execRsusp (f : Fields) {s : State} (h : Good s) : KeepsGood (execRsusp f s) :=
  keepsGood_instr (fun h => good_onCore h) h

theorem keepsGood_execVadd (f : Fields) {s : State} (h : Good s) : KeepsGood (execVadd f s) :=
  keepsGood_issueVec _ _ h

theorem keepsGood_execVsub (f : Fields) {s : State} (h : Good s) : KeepsGood (execVsub f s) :=
  keepsGood_issueVec _ _ h

theorem keepsGood_execVmul (f : Fields) {s : State} (h : Good s) : KeepsGood (execVmul f s) :=
  keepsGood_issueVec _ _ h

theorem keepsGood_execVfma (f : Fields) {s : State} (h : Good s) : KeepsGood (execVfma f s) :=
  keepsGood_issueVec _ _ h

theorem keepsGood_execVmax (f : Fields) {s : State} (h : Good s) : KeepsGood (execVmax f s) :=
  keepsGood_issueVec _ _ h

theorem keepsGood_execVmin (f : Fields) {s : State} (h : Good s) : KeepsGood (execVmin f s) :=
  keepsGood_issueVec _ _ h

theorem keepsGood_execVdiv (f : Fields) {s : State} (h : Good s) : KeepsGood (execVdiv f s) :=
  keepsGood_issueVec _ _ h

theorem keepsGood_execVsqrt (f : Fields) {s : State} (h : Good s) : KeepsGood (execVsqrt f s) :=
  keepsGood_issueVec _ _ h

theorem keepsGood_execVexp2 (f : Fields) {s : State} (h : Good s) : KeepsGood (execVexp2 f s) :=
  keepsGood_issueVec _ _ h

theorem keepsGood_execVlog2 (f : Fields) {s : State} (h : Good s) : KeepsGood (execVlog2 f s) :=
  keepsGood_issueVec _ _ h

theorem keepsGood_execVrcp (f : Fields) {s : State} (h : Good s) : KeepsGood (execVrcp f s) :=
  keepsGood_issueVec _ _ h

theorem keepsGood_execVrsq (f : Fields) {s : State} (h : Good s) : KeepsGood (execVrsq f s) :=
  keepsGood_issueVec _ _ h

theorem keepsGood_execVabs (f : Fields) {s : State} (h : Good s) : KeepsGood (execVabs f s) :=
  keepsGood_issueVec _ _ h

theorem keepsGood_execVneg (f : Fields) {s : State} (h : Good s) : KeepsGood (execVneg f s) :=
  keepsGood_issueVec _ _ h

theorem keepsGood_execVscale (f : Fields) {s : State} (h : Good s) : KeepsGood (execVscale f s) :=
  keepsGood_issueVec _ _ h

theorem keepsGood_execVcmp (f : Fields) {s : State} (h : Good s) : KeepsGood (execVcmp f s) :=
  keepsGood_issueVec _ _ h

theorem keepsGood_execViadd (f : Fields) {s : State} (h : Good s) : KeepsGood (execViadd f s) :=
  keepsGood_issueVec _ _ h

theorem keepsGood_execVisub (f : Fields) {s : State} (h : Good s) : KeepsGood (execVisub f s) :=
  keepsGood_issueVec _ _ h

theorem keepsGood_execVimul (f : Fields) {s : State} (h : Good s) : KeepsGood (execVimul f s) :=
  keepsGood_issueVec _ _ h

theorem keepsGood_execVand (f : Fields) {s : State} (h : Good s) : KeepsGood (execVand f s) :=
  keepsGood_issueVec _ _ h

theorem keepsGood_execVor (f : Fields) {s : State} (h : Good s) : KeepsGood (execVor f s) :=
  keepsGood_issueVec _ _ h

theorem keepsGood_execVxor (f : Fields) {s : State} (h : Good s) : KeepsGood (execVxor f s) :=
  keepsGood_issueVec _ _ h

theorem keepsGood_execVshl (f : Fields) {s : State} (h : Good s) : KeepsGood (execVshl f s) :=
  keepsGood_issueVec _ _ h

theorem keepsGood_execVshr (f : Fields) {s : State} (h : Good s) : KeepsGood (execVshr f s) :=
  keepsGood_issueVec _ _ h

theorem keepsGood_execVsel (f : Fields) {s : State} (h : Good s) : KeepsGood (execVsel f s) :=
  keepsGood_issueVec _ _ h

theorem keepsGood_execVperm (f : Fields) {s : State} (h : Good s) : KeepsGood (execVperm f s) :=
  keepsGood_issueVec _ _ h

theorem keepsGood_execVbcast (f : Fields) {s : State} (h : Good s) : KeepsGood (execVbcast f s) :=
  keepsGood_issueVec _ _ h

theorem keepsGood_execViota (f : Fields) {s : State} (h : Good s) : KeepsGood (execViota f s) :=
  keepsGood_issueVec _ _ h

theorem keepsGood_execVscan (f : Fields) {s : State} (h : Good s) : KeepsGood (execVscan f s) :=
  keepsGood_issueVec _ _ h

theorem keepsGood_execVpopc (f : Fields) {s : State} (h : Good s) : KeepsGood (execVpopc f s) :=
  keepsGood_issueVec _ _ h

theorem keepsGood_execVmov (f : Fields) {s : State} (h : Good s) : KeepsGood (execVmov f s) :=
  keepsGood_issueVec _ _ h

theorem keepsGood_execVicmp (f : Fields) {s : State} (h : Good s) : KeepsGood (execVicmp f s) :=
  keepsGood_issueVec _ _ h

theorem keepsGood_execVld (f : Fields) {s : State} (h : Good s) : KeepsGood (execVld f s) :=
  keepsGood_issueVec _ _ h

theorem keepsGood_execVst (f : Fields) {s : State} (h : Good s) : KeepsGood (execVst f s) :=
  keepsGood_issueVec _ _ h

theorem keepsGood_execVlds (f : Fields) {s : State} (h : Good s) : KeepsGood (execVlds f s) :=
  keepsGood_issueVec _ _ h

theorem keepsGood_execVgath (f : Fields) {s : State} (h : Good s) : KeepsGood (execVgath f s) :=
  keepsGood_issueVec _ _ h

theorem keepsGood_execVscat (f : Fields) {s : State} (h : Good s) : KeepsGood (execVscat f s) :=
  keepsGood_issueVec _ _ h

theorem keepsGood_execVred (f : Fields) {s : State} (h : Good s) : KeepsGood (execVred f s) :=
  keepsGood_issueVec _ _ h

theorem keepsGood_execVsegred (f : Fields) {s : State} (h : Good s) : KeepsGood (execVsegred f s) :=
  keepsGood_issueVec _ _ h

theorem keepsGood_execVmld (f : Fields) {s : State} (h : Good s) : KeepsGood (execVmld f s) :=
  keepsGood_issueVec _ _ h

theorem keepsGood_execMlogic (f : Fields) {s : State} (h : Good s) : KeepsGood (execMlogic f s) :=
  keepsGood_issueVec _ _ h

theorem keepsGood_execMpopc (f : Fields) {s : State} (h : Good s) : KeepsGood (execMpopc f s) :=
  keepsGood_issueVec _ _ h

theorem keepsGood_execVsetl (f : Fields) {s : State} (h : Good s) : KeepsGood (execVsetl f s) :=
  keepsGood_instr (fun h => good_writeS _ _ (good_onStream h)) h

theorem keepsGood_execVtrn (f : Fields) {s : State} (h : Good s) : KeepsGood (execVtrn f s) :=
  keepsGood_issueVec _ _ h

theorem keepsGood_execAread (f : Fields) {s : State} (h : Good s) : KeepsGood (execAread f s) :=
  keepsGood_issueVec _ _ h

theorem keepsGood_execAwrite (f : Fields) {s : State} (h : Good s) : KeepsGood (execAwrite f s) :=
  keepsGood_issueVec _ _ h

theorem keepsGood_execVcvt (f : Fields) {s : State} (h : Good s) : KeepsGood (execVcvt f s) :=
  keepsGood_issueVec _ _ h

theorem keepsGood_execVqnt (f : Fields) {s : State} (h : Good s) : KeepsGood (execVqnt f s) :=
  keepsGood_issueVec _ _ h

theorem keepsGood_execVdqnt (f : Fields) {s : State} (h : Good s) : KeepsGood (execVdqnt f s) :=
  keepsGood_issueVec _ _ h

theorem keepsGood_execBrd (f : Fields) {s : State} (h : Good s) : KeepsGood (execBrd f s) :=
  keepsGood_issueVec _ _ h

theorem keepsGood_execBwr (f : Fields) {s : State} (h : Good s) : KeepsGood (execBwr f s) :=
  keepsGood_issueVec _ _ h

theorem keepsGood_execMma (f : Fields) {s : State} (h : Good s) : KeepsGood (execMma f s) :=
  keepsGood_issueMat _ _ h

theorem keepsGood_execMmas (f : Fields) {s : State} (h : Good s) : KeepsGood (execMmas f s) :=
  keepsGood_issueMat _ _ h

theorem keepsGood_execMmaz (f : Fields) {s : State} (h : Good s) : KeepsGood (execMmaz f s) :=
  keepsGood_issueMat _ _ h

theorem keepsGood_execAclr (f : Fields) {s : State} (h : Good s) : KeepsGood (execAclr f s) :=
  keepsGood_issueMat _ _ h

theorem keepsGood_execAstore (f : Fields) {s : State} (h : Good s) : KeepsGood (execAstore f s) :=
  keepsGood_issueMat _ _ h

theorem keepsGood_execAload (f : Fields) {s : State} (h : Good s) : KeepsGood (execAload f s) :=
  keepsGood_issueMat _ _ h

theorem keepsGood_execAbound (f : Fields) {s : State} (h : Good s) : KeepsGood (execAbound f s) :=
  keepsGood_issueMat _ _ h

theorem keepsGood_execCpy (f : Fields) {s : State} (h : Good s) : KeepsGood (execCpy f s) :=
  keepsGood_issueCpy _ _ h

theorem keepsGood_execCpym (f : Fields) {s : State} (h : Good s) : KeepsGood (execCpym f s) :=
  keepsGood_issueCpy _ _ h

theorem keepsGood_execCpyr (f : Fields) {s : State} (h : Good s) : KeepsGood (execCpyr f s) :=
  keepsGood_issueCpy _ _ h

theorem keepsGood_execCpyg (f : Fields) {s : State} (h : Good s) : KeepsGood (execCpyg f s) :=
  keepsGood_issueCpy _ _ h

theorem keepsGood_execCpys (f : Fields) {s : State} (h : Good s) : KeepsGood (execCpys f s) :=
  keepsGood_issueCpy _ _ h

theorem keepsGood_execCpyf (f : Fields) {s : State} (h : Good s) : KeepsGood (execCpyf f s) :=
  keepsGood_issueCpy _ _ h

theorem keepsGood_execNset (f : Fields) {s : State} (h : Good s) : KeepsGood (execNset f s) :=
  keepsGood_instr (fun h => good_onStream h) h

theorem keepsGood_execNclr (f : Fields) {s : State} (h : Good s) : KeepsGood (execNclr f s) :=
  keepsGood_instr (fun h => good_onStream h) h

theorem keepsGood_execKvmap (f : Fields) {s : State} (h : Good s) : KeepsGood (execKvmap f s) :=
  keepsGood_issueCpy _ _ h

theorem keepsGood_execKvgath (f : Fields) {s : State} (h : Good s) : KeepsGood (execKvgath f s) :=
  keepsGood_issueCpy _ _ h

theorem keepsGood_execKvapp (f : Fields) {s : State} (h : Good s) : KeepsGood (execKvapp f s) :=
  keepsGood_issueCpy _ _ h

theorem keepsGood_execKvcomp (f : Fields) {s : State} (h : Good s) : KeepsGood (execKvcomp f s) :=
  keepsGood_issueCpy _ _ h

theorem keepsGood_execKvevict (f : Fields) {s : State} (h : Good s) : KeepsGood (execKvevict f s) :=
  keepsGood_issueCpy _ _ h

theorem keepsGood_execKvrank (f : Fields) {s : State} (h : Good s) : KeepsGood (execKvrank f s) :=
  keepsGood_issueCpy _ _ h

theorem keepsGood_execCommandStart (core stream : Nat) (q : QueueId) {s : State} (h : Good s) : KeepsGood (execCommandStart core stream q s) :=
  keepsGood_happen (fun h => keepsMem_startCommand _ _ _ _ h) h

theorem keepsGood_execCommandCompletion (core age : Nat) {s : State} (h : Good s) : KeepsGood (execCommandCompletion core age s) :=
  keepsGood_happen (fun h => keepsMem_completeCommand _ _ _ h) h

theorem keepsGood_execCopyVisibility (core age : Nat) {s : State} (h : Good s) : KeepsGood (execCopyVisibility core age s) :=
  keepsGood_happen (fun h => keepsMem_copyVisible _ _ _ h) h

theorem keepsGood_execKBlock (core age : Nat) {s : State} (h : Good s) : KeepsGood (execKBlock core age s) :=
  keepsGood_happen (fun h => keepsMem_stepBlock _ _ _ h) h

theorem keepsGood_execCopyPiece (core age : Nat) {s : State} (h : Good s) : KeepsGood (execCopyPiece core age s) :=
  keepsGood_happen (fun h => keepsMem_stepPiece _ _ _ h) h

theorem keepsGood_execArrival (k : Nat) {s : State} (h : Good s) : KeepsGood (execArrival k s) :=
  keepsGood_happen (fun h => keepsMem_arrive _ _ h) h

theorem keepsGood_execPeerAccess (core off : Nat) (data : List Byte) {s : State} (h : Good s) : KeepsGood (execPeerAccess core off data s) :=
  keepsGood_happen (fun h => keepsMem_peerAccess _ _ _ _ h) h

theorem keepsGood_execL1Eviction (core sector : Nat) {s : State} (h : Good s) : KeepsGood (execL1Eviction core sector s) :=
  keepsGood_happen (fun h => keepsMem_evictL1 _ _ _ h) h

theorem keepsGood_execFaultDelivery (core stream : Nat) {s : State} (h : Good s) : KeepsGood (execFaultDelivery core stream s) :=
  keepsGood_happen (fun h => keepsMem_deliverPending _ _ _ h) h

theorem keepsGood_execStatusResume (core stream : Nat) {s : State} (h : Good s) : KeepsGood (execStatusResume core stream s) :=
  keepsGood_happen (fun h => keepsMem_returnStatus _ _ _ _ h) h

theorem keepsGood_execStatusDiscard (core stream : Nat) {s : State} (h : Good s) : KeepsGood (execStatusDiscard core stream s) :=
  keepsGood_happen (fun h => keepsMem_returnStatus _ _ _ _ h) h

theorem keepsGood_execLeaseGrant (core : Nat) {s : State} (h : Good s) : KeepsGood (execLeaseGrant core s) :=
  keepsGood_happen (fun h => keepsMem_grantLease _ _ h) h

theorem keepsGood_execLeaseIdleEnd (core : Nat) {s : State} (h : Good s) : KeepsGood (execLeaseIdleEnd core s) :=
  keepsGood_happen (fun h => keepsMem_idleLease _ _ h) h

theorem keepsGood_execWatchMatch (pa n : Nat) {s : State} (h : Good s) : KeepsGood (execWatchMatch pa n s) :=
  keepsGood_happen (fun h => keepsMem_writeMatches _ _ _ h) h

theorem keepsGood_execNotification (handle : Nat) {s : State} (h : Good s) : KeepsGood (execNotification handle s) :=
  keepsGood_happen (fun h => keepsMem_deliverNote _ _ h) h

theorem keepsGood_execCommitWatch (core axis : Nat) {s : State} (h : Good s) : KeepsGood (execCommitWatch core axis s) :=
  keepsGood_happen (fun h => keepsMem_applyCommit _ _ _ h) h

theorem keepsGood_execFiring (core axis : Nat) {s : State} (h : Good s) : KeepsGood (execFiring core axis s) :=
  keepsGood_happen (fun h => keepsMem_fireAxis _ _ _ h) h

theorem keepsGood_execRegisteredLaunchPush (entry : Nat) {s : State} (h : Good s) : KeepsGood (execRegisteredLaunchPush entry s) :=
  keepsGood_happen (fun h => keepsMem_servePush _ _ h) h

theorem keepsGood_execPointDispatch (die : Nat) {s : State} (h : Good s) : KeepsGood (execPointDispatch die s) :=
  keepsGood_happen (fun h => keepsMem_dispatchPoint _ _ h) h

theorem keepsGood_execPointDone (launch o m n : Nat) {s : State} (h : Good s) : KeepsGood (execPointDone launch o m n s) :=
  keepsGood_happen (fun h => keepsMem_finishPoint _ _ _ _ _ h) h

theorem keepsGood_execLaunchCompletion (launch : Nat) {s : State} (h : Good s) : KeepsGood (execLaunchCompletion launch s) :=
  keepsGood_happen (fun h => keepsMem_completeLaunch _ _ h) h

theorem keepsGood_execRelease (launch : Nat) {s : State} (h : Good s) : KeepsGood (execRelease launch s) :=
  keepsGood_happen (fun h => keepsMem_releaseLaunch _ _ h) h

theorem keepsGood_execSlipped (launch : Nat) {s : State} (h : Good s) : KeepsGood (execSlipped launch s) :=
  keepsGood_happen (fun h => keepsMem_slipLaunch _ _ h) h

theorem keepsGood_execFrameTick  {s : State} (h : Good s) : KeepsGood (execFrameTick  s) :=
  keepsGood_happen (fun h => keepsMem_advanceTick _ h) h

theorem keepsGood_execLaunchSave (launch : Nat) {s : State} (h : Good s) : KeepsGood (execLaunchSave launch s) :=
  keepsGood_happen (fun h => keepsMem_saveLaunch _ _ h) h

theorem keepsGood_execContextSave (core : Nat) {s : State} (h : Good s) : KeepsGood (execContextSave core s) :=
  keepsGood_happen (fun h => keepsMem_saveGang _ _ h) h

theorem keepsGood_execNopPacket (ring : Nat) {s : State} (h : Good s) : KeepsGood (execNopPacket ring s) :=
  keepsGood_happen (fun h => keepsMem_serveNop _ _ h) h

theorem keepsGood_execLaunchPacket (ring : Nat) {s : State} (h : Good s) : KeepsGood (execLaunchPacket ring s) :=
  keepsGood_happen (fun h => keepsMem_serveLaunch _ _ h) h

theorem keepsGood_execInvoke (ring : Nat) {s : State} (h : Good s) : KeepsGood (execInvoke ring s) :=
  keepsGood_happen (fun h => keepsMem_serveInvoke _ _ h) h

theorem keepsGood_execFencePacket (ring : Nat) {s : State} (h : Good s) : KeepsGood (execFencePacket ring s) :=
  keepsGood_happen (fun h => keepsMem_serveFence _ _ h) h

theorem keepsGood_execInval (ring : Nat) {s : State} (h : Good s) : KeepsGood (execInval ring s) :=
  keepsGood_happen (fun h => keepsMem_serveInval _ _ h) h

theorem keepsGood_execPreempt (ring : Nat) {s : State} (h : Good s) : KeepsGood (execPreempt ring s) :=
  keepsGood_happen (fun h => keepsMem_servePreempt _ _ h) h

theorem keepsGood_execRestore (ring : Nat) {s : State} (h : Good s) : KeepsGood (execRestore ring s) :=
  keepsGood_happen (fun h => keepsMem_serveRestore _ _ h) h

theorem keepsGood_execResume (ring : Nat) {s : State} (h : Good s) : KeepsGood (execResume ring s) :=
  keepsGood_happen (fun h => keepsMem_serveResume _ _ h) h

theorem keepsGood_execSlotload (ring : Nat) {s : State} (h : Good s) : KeepsGood (execSlotload ring s) :=
  keepsGood_happen (fun h => keepsMem_serveSlotload _ _ h) h

theorem keepsGood_execSlotunload (ring : Nat) {s : State} (h : Good s) : KeepsGood (execSlotunload ring s) :=
  keepsGood_happen (fun h => keepsMem_serveSlotunload _ _ h) h

theorem keepsGood_execRingResume (ring : Nat) {s : State} (h : Good s) : KeepsGood (execRingResume ring s) :=
  keepsGood_happen (fun h => keepsMem_resumeRing _ _ h) h

theorem keepsGood_execRingEnable (ring : Nat) (desc : BitVec 1024) {s : State} (h : Good s) : KeepsGood (execRingEnable ring desc s) :=
  keepsGood_happen (fun h => keepsMem_enableRing _ _ _ h) h

theorem keepsGood_execVfRecordWrite (vf : Nat) (rec : BitVec 256) {s : State} (h : Good s) : KeepsGood (execVfRecordWrite vf rec s) :=
  keepsGood_happen (fun h => keepsMem_writeVf _ _ _ h) h

theorem keepsGood_execControlWindowWrite (off : Nat) (v : Word) {s : State} (h : Good s) : KeepsGood (execControlWindowWrite off v s) :=
  keepsGood_happen (fun h => keepsMem_some (memOk_controlWrite _ _ _ h)) h

theorem keepsGood_execDawn (img : BootImage) {s : State} (h : Good s) : KeepsGood (execDawn img s) :=
  keepsGood_happen (fun h => keepsMem_bootDawn _ _ h) h

theorem keepsGood_execNoon (rec : ConfigRecord) {s : State} (h : Good s) : KeepsGood (execNoon rec s) :=
  keepsGood_happen (fun h => keepsMem_bootNoon _ _ h) h

theorem keepsGood_execThermalStep (up : Bool) (temp : Word) {s : State} (h : Good s) : KeepsGood (execThermalStep up temp s) :=
  keepsGood_happen (fun h => keepsMem_stepClock _ _ _ h) h

theorem keepsGood_execThermalReset  {s : State} (h : Good s) : KeepsGood (execThermalReset  s) :=
  keepsGood_happen (fun h => keepsMem_resetCompute _ h) h

theorem keepsGood_execFlitRetry (link : Nat) {s : State} (h : Good s) : KeepsGood (execFlitRetry link s) :=
  keepsGood_happen (fun h => keepsMem_retryFlit _ _ h) h

theorem keepsGood_execLinkDown (link : Nat) (lostWrites : Nat) {s : State} (h : Good s) : KeepsGood (execLinkDown link lostWrites s) :=
  keepsGood_happen (fun h => keepsMem_downLink _ _ _ h) h

theorem keepsGood_execRingTimeout (group member : Nat) {s : State} (h : Good s) : KeepsGood (execRingTimeout group member s) :=
  keepsGood_happen (fun h => keepsMem_timeoutRing _ _ _ h) h

theorem keepsGood_execRingAbort (group member : Nat) {s : State} (h : Good s) : KeepsGood (execRingAbort group member s) :=
  keepsGood_happen (fun h => keepsMem_abortRing _ _ _ h) h

theorem keepsGood_execUncorrectableError (site : ErrSite) {s : State} (h : Good s) : KeepsGood (execUncorrectableError site s) :=
  keepsGood_happen (fun h => keepsMem_poisonSite _ _ h) h

theorem keepsGood_execCorrectedError (site : ErrSite) {s : State} (h : Good s) : KeepsGood (execCorrectedError site s) :=
  keepsGood_happen (fun h => keepsMem_correctSite _ _ h) h

theorem keepsGood_execInboundDmaWrite (vf : Nat) (va : Word) (data : List Byte) {s : State} (h : Good s) : KeepsGood (execInboundDmaWrite vf va data s) :=
  keepsGood_happen (fun h => keepsMem_inboundDma _ _ _ _ h) h

theorem keepsGood_execRemoteLinkRequest (req : RemoteRequest) {s : State} (h : Good s) : KeepsGood (execRemoteLinkRequest req s) :=
  keepsGood_happen (fun h => keepsMem_remoteRequest _ _ h) h

theorem keepsGood_execNewBootImage (img : BootImage) {s : State} (h : Good s) : KeepsGood (execNewBootImage img s) :=
  keepsGood_happen (fun h => keepsMem_bootAgain _ _ h) h

end Sys2Proof.Machine
end

