-- ==== Sys2Proof/Tests/Slice0.lean ====
section
/-!
SUPPORT. The model's own tests: ill-formed terms that WellFormed refuses, words put together from Tables 3.1, 3.3, 3.4 and 3.12 and what they
decode to, single steps on small states with the results that the manual gives, and for every statement of
Certificates/Slice0/Obligations.lean a state and operands that meet its hypotheses.
-/

namespace Sys2Proof.Tests

-- The tests are checked one after another, which bounds the memory that a check takes.
set_option Elab.async false

open Sys2Proof.Machine

/-! ### Ill-formed terms -/

theorem test_wf_short_address : wellFormed false (.aaddB2 true 16 1) = false := by decide
theorem test_wf_short_token : wellFormed false (.tpostB2 true 1 1) = false ∧ wellFormed false (.twaitB2 true 1 1) = false := by decide
/-- R43: a scalar register above 31, a token counter above 31, a condition above 7. -/
theorem test_wf_registers : wellFormed false (.add { d := 32 }) = false ∧ wellFormed false (.tpost { d := 32 }) = false ∧
    wellFormed false (.cmp { d := 8 }) = false ∧ wellFormed false (.ld { d := 1, s1 := 16 }) = false := by decide
/-- R44, R59: a MOD code and an unused field that are not 0. -/
theorem test_wf_unused_fields : wellFormed false (.ld { d := 1, modD := 1 }) = false ∧ wellFormed false (.clz { d := 1, s2 := 1 }) = false ∧
    wellFormed false (.add { d := 1, fn := 0x20 + 10, s3 := 1 }) = false := by decide
/-- R45: PRED on LSET. R55: scope 7. R51: type code 15. -/
theorem test_wf_codes : wellFormed false (.lset { pred := 1 }) = false ∧ wellFormed false (.publish { imm := 7 }) = false ∧
    wellFormed false (.fcvt { d := 1, s1 := 2, fn := 15 }) = false := by decide
/-- R56: a token field that is off but names a counter, and a reserved bit of ENG. -/
theorem test_wf_engine_words : wellFormed false (.vadd { d := 1, s1 := 1, s2 := 1, imm := 0x00040000 }) = false ∧
    wellFormed false (.vadd { d := 1, s1 := 1, s2 := 1, imm := 0x01000000 }) = false := by decide
/-- Table 4.3: vector register 20 exists in joined mode only. R88: XMOV is refused in split mode. -/
theorem test_wf_modes : wellFormed false (.vadd { d := 20, s1 := 1, s2 := 1 }) = true ∧ wellFormed true (.vadd { d := 20, s1 := 1, s2 := 1 }) = false ∧
    wellFormed false (.xmov { d := 1, s1 := 1 }) = true ∧ wellFormed true (.xmov { d := 1, s1 := 1 }) = false := by decide
/-- Events whose numbers name nothing of the device, one for each kind of number. -/
theorem test_wf_events : (wellFormed false (.commandStart 160 0 .vec) || wellFormed false (.faultDelivery 0 4) || wellFormed false (.kBlock 160 0) ||
    wellFormed false (.peerAccess 0 0x3FFFFF [0, 0]) || wellFormed false (.firing 0 16) || wellFormed false (.notification 2560) ||
    wellFormed false (.pointDispatch 4) || wellFormed false (.release 256) || wellFormed false (.invoke 256) ||
    wellFormed false (.registeredLaunchPush 65536) || wellFormed false (.vfRecordWrite 32 0) || wellFormed false (.inboundDmaWrite 33 0 []) ||
    wellFormed false (.controlWindowWrite 0x50 0) || wellFormed false (.flitRetry 16) || wellFormed false (.ringAbort 16 0)) = false := by decide

/-- iaca writes add s4, s2, s4 in two bytes, 02 42 (R376). -/
theorem test_assemble_short : (match internalOf (.addB2 false 4 2) with | some (_, f) => assemble (.add f) | none => []) = [0x02, 0x42] := by
  decide

/-- Table 8.4 and Table 11.3: vadd.f32 v3, v1, v2 takes B6, vmov v2, v1, m1 takes B12, and cpy [a4], [a3], s9 takes B6. -/
theorem test_assemble_rows : assemble (.vadd { fin := true, d := 3, s1 := 1, s2 := 2 }) = [0xD7, 0x00, 0x03, 0x04, 0x20, 0x00] ∧
    assemble (.vmov { fin := true, d := 2, s1 := 1, imm := 0x88000000 }) = [0xF6, 0x38, 0x00, 0x02, 0x01, 0x00, 0x00, 0x00, 0x88, 0x00, 0x00, 0x00] ∧
    assemble (.cpy { fin := true, d := 4, s1 := 3, s2 := 9 }) = [0xDC, 0x00, 0x04, 0x0C, 0x90, 0x00] ∧
    assemble (.cpy { fin := true, fn := 1, d := 6, s1 := 8, s2 := 11, s3 := 7, imm := 0x880000 }) =
      [0xF7, 0x00, 0x10, 0x06, 0x08, 0x0B, 0x07, 0x00, 0x00, 0x88, 0x00, 0x00] := by decide +kernel
/-- Table 9.7, and Table 9.6: a product of the types 0 with S3 = s0 takes B12, where R376's shortest form is B4. -/
theorem test_assemble_matrix_rows : assemble (.mma { fin := true, s1 := 3, s2 := 4, s3 := 5, imm := 0x11000000 }) =
      [0xF6, 0xC0, 0x00, 0x00, 0x03, 0x04, 0x05, 0x00, 0x11, 0x00, 0x00, 0x00] ∧
    assemble (.aclr { fin := true }) = [0xB6, 0x60, 0x00, 0x00] ∧ assemble (.astore { fin := true, fn := 1, d := 5 }) = [0xDB, 0x40, 0x45, 0x00, 0x00, 0x00] ∧
    (assemble (.mma { s1 := 3, s2 := 4 })).length = 12 ∧ (assembleShortest (.mma { s1 := 3, s2 := 4 })).length = 4 := by decide +kernel
/-- R376: a PBR to a line some 400 bytes on is widened; one to a line 16 bytes on keeps its narrowest form. -/
theorem test_assemble_distances : (assembleLines ((.pbr { d := 1 }, some 2) :: [(.mma {}, none), (.nop {}, none)])).map (·.length) = [4, 12, 2] ∧
    (lineLens ((.pbr { d := 1 }, some 34) :: List.replicate 34 (Instr.mma {}, none))).head? = some 6 := by decide +kernel

/-! ### Words -/

/-- END 1, D 1, S1 2, S2 3 and IMM 4, as the words below have them. -/
def g : Fields := { d := 1, s1 := 2, s2 := 3, imm := 4 }

/-- Every B4 word of a list decodes to its instruction. Each word is 10, END, OPC, D, S1, S2 and IMM6 from its top bit down (Table 3.3). -/
def decodesAll (l : List (Nat × Instr)) : Bool := l.all fun p => decode (Bits.toBytesBE 4 p.1) == .ok (p.2, 4)

theorem test_decode_scalar_alu : decodesAll
  [(0xA00110C4, .add g), (0xA02110C4, .sub g), (0xA04110C4, .mul g), (0xA06110C4, .mulh g), (0xA08110C4, .and g),
   (0xA0A110C4, .or g), (0xA0C110C4, .xor g), (0xA0E110C4, .andn g), (0xA10110C4, .shl g), (0xA12110C4, .shr g),
   (0xA14110C4, .sha g), (0xA16110C4, .rot g), (0xA18110C4, .min g), (0xA1A110C4, .max g), (0xA1C110C4, .sadd g),
   (0xA1E110C4, .ssub g)] = true := by decide +kernel

theorem test_decode_scalar_misc : decodesAll
  [(0xA20110C4, .addi g), (0xA22110C4, .movi g), (0xA24110C4, .popc g), (0xA26110C4, .clz g), (0xA28110C4, .ctz g),
   (0xA2A110C4, .bfx g), (0xA2C110C4, .bfi g), (0xA2E110C4, .sel g), (0xA30110C4, .mov g), (0xA32110C4, .xmov g),
   (0xA34110C4, .div g), (0xA36110C4, .rem g), (0xA38110C4, .rank g), (0xA3A110C4, .fcvt g), (0xA3C110C4, .fmas g)] = true := by decide +kernel

theorem test_decode_address_and_memory : decodesAll
  [(0xA40110C4, .aadd g), (0xA42110C4, .aidx g), (0xA44110C4, .amov g), (0xA46110C4, .aldi g), (0xA48110C4, .ld g),
   (0xA4A110C4, .st g), (0xA4C110C4, .lda g), (0xA4E110C4, .sta g), (0xA50110C4, .push g), (0xA52110C4, .pop g),
   (0xA54110C4, .prfm g), (0xA56110C4, .acmp g)] = true := by decide +kernel

theorem test_decode_control : decodesAll
  [(0xA60110C4, .pbr g), (0xA62110C4, .pbra g), (0xA64110C4, .cmp g), (0xA66110C4, .cmpi g), (0xA68110C4, .br g),
   (0xA6A110C4, .brn g), (0xA6C110C4, .jmp g), (0xA6E110C4, .call g), (0xA70110C4, .ret g), (0xA72110C4, .loop g),
   (0xA74110C4, .lset g), (0xA76110C4, .vany g), (0xA78110C4, .vall g), (0xA7A110C4, .gset g), (0xA7C110C4, .nop g)] = true := by decide +kernel

theorem test_decode_synchronisation : decodesAll
  [(0xA80110C4, .tset g), (0xA82110C4, .tpost g), (0xA84110C4, .twait g), (0xA86110C4, .swinit g), (0xA88110C4, .swarm g),
   (0xA8A110C4, .swwait g), (0xA8C110C4, .swarrive g), (0xA8E110C4, .publish g), (0xA90110C4, .acquire g), (0xA92110C4, .fence g),
   (0xA94110C4, .atom g), (0xA96110C4, .garrive g), (0xA98110C4, .gwait g), (0xA9A110C4, .watch g), (0xA9C110C4, .unwatch g)] = true := by decide +kernel

theorem test_decode_system : decodesAll
  [(0xAA0110C4, .trap g), (0xAA2110C4, .exit g), (0xAA4110C4, .sysrd g), (0xAA6110C4, .syswr g), (0xAA8110C4, .split g),
   (0xAAA110C4, .join g), (0xAAC110C4, .lease g), (0xAAE110C4, .lrel g), (0xAB0110C4, .yield g), (0xAB2110C4, .qcfg g),
   (0xAB4110C4, .genf g), (0xAB6110C4, .ftset g), (0xAB8110C4, .boundcfg g), (0xABA110C4, .tick g), (0xABC110C4, .dbgbrk g)] = true := by decide +kernel

theorem test_decode_standing_rules : decodesAll
  [(0xAC0110C4, .oaxdef g), (0xAC2110C4, .install g), (0xAC4110C4, .revoke g), (0xAC6110C4, .slcommit g), (0xAC8110C4, .slwait g),
   (0xACA110C4, .rstat g), (0xACC110C4, .rsusp g), (0xACE110C4, .rresume g)] = true := by decide +kernel

theorem test_decode_vector_fp : decodesAll
  [(0xAE0110C4, .vadd g), (0xAE2110C4, .vsub g), (0xAE4110C4, .vmul g), (0xAE6110C4, .vfma g), (0xAE8110C4, .vmax g),
   (0xAEA110C4, .vmin g), (0xAEC110C4, .vdiv g), (0xAEE110C4, .vsqrt g), (0xAF0110C4, .vexp2 g), (0xAF2110C4, .vlog2 g),
   (0xAF4110C4, .vrcp g), (0xAF6110C4, .vrsq g), (0xAF8110C4, .vabs g), (0xAFA110C4, .vneg g), (0xAFC110C4, .vscale g),
   (0xAFE110C4, .vcmp g)] = true := by decide +kernel

theorem test_decode_vector_integer : decodesAll
  [(0xB00110C4, .viadd g), (0xB02110C4, .visub g), (0xB04110C4, .vimul g), (0xB06110C4, .vand g), (0xB08110C4, .vor g),
   (0xB0A110C4, .vxor g), (0xB0C110C4, .vshl g), (0xB0E110C4, .vshr g), (0xB10110C4, .vsel g), (0xB12110C4, .vperm g),
   (0xB14110C4, .vbcast g), (0xB16110C4, .viota g), (0xB18110C4, .vscan g), (0xB1A110C4, .vpopc g), (0xB1C110C4, .vmov g),
   (0xB1E110C4, .vicmp g)] = true := by decide +kernel

theorem test_decode_vector_memory_reduce_mask : decodesAll
  [(0xB20110C4, .vld g), (0xB22110C4, .vst g), (0xB24110C4, .vlds g), (0xB26110C4, .vgath g), (0xB28110C4, .vscat g),
   (0xB2A110C4, .vred g), (0xB2C110C4, .vsegred g), (0xB2E110C4, .vmld g), (0xB30110C4, .mlogic g), (0xB32110C4, .mpopc g),
   (0xB34110C4, .vsetl g), (0xB36110C4, .vtrn g), (0xB38110C4, .aread g), (0xB3A110C4, .awrite g)] = true := by decide +kernel

theorem test_decode_vector_convert_and_bounds : decodesAll
  [(0xB40110C4, .vcvt g), (0xB42110C4, .vqnt g), (0xB44110C4, .vdqnt g), (0xB46110C4, .brd g), (0xB48110C4, .bwr g)] = true := by decide +kernel

theorem test_decode_matrix : decodesAll
  [(0xB60110C4, .mma g), (0xB62110C4, .mmas g), (0xB64110C4, .mmaz g), (0xB66110C4, .aclr g), (0xB68110C4, .astore g),
   (0xB6A110C4, .aload g), (0xB6C110C4, .abound g)] = true := by decide +kernel

theorem test_decode_copy : decodesAll
  [(0xB80110C4, .cpy g), (0xB82110C4, .cpym g), (0xB84110C4, .cpyr g), (0xB86110C4, .cpyg g), (0xB88110C4, .cpys g),
   (0xB8A110C4, .cpyf g), (0xB8C110C4, .nset g), (0xB8E110C4, .nclr g)] = true := by decide +kernel

theorem test_decode_kv : decodesAll
  [(0xBA0110C4, .kvmap g), (0xBA2110C4, .kvgath g), (0xBA4110C4, .kvapp g), (0xBA6110C4, .kvcomp g), (0xBA8110C4, .kvevict g),
   (0xBAA110C4, .kvrank g)] = true := by decide +kernel

theorem test_decode_launch : decodesAll
  [(0xBC0110C4, .launch g), (0xBC2110C4, .frread g), (0xBC4110C4, .ptinfo g)] = true := by decide +kernel

/-- Table 3.4: 0, END, SOP, d and e; END 1, d 5 and e 9 where the row has them. -/
theorem test_decode_short_forms : ([(0b0100000000000000, .nopB2 true), (0b0100001001011001, .addB2 true 5 9), (0b0100010001011001, .subB2 true 5 9),
   (0b0100011001011001, .andB2 true 5 9), (0b0100100001011001, .orB2 true 5 9), (0b0100101001011001, .xorB2 true 5 9),
   (0b0100110001011001, .shlB2 true 5 9), (0b0100111001011001, .shrB2 true 5 9), (0b0101000001011001, .movB2 true 5 9),
   (0b0101001001011001, .minB2 true 5 9), (0b0101010001011001, .maxB2 true 5 9), (0b0101011001011001, .popcB2 true 5 9),
   (0b0101100001011001, .addiB2 true 5 9), (0b0101101001011001, .aaddB2 true 5 9), (0b0101110001010000, .tpostB2 true 5 0),
   (0b0101111001010000, .twaitB2 true 5 0)] : List (Nat × Instr)).all (fun p => decode (Bits.toBytesBE 2 p.1) == .ok (p.2, 2)) = true := by
  decide +kernel

/-- B6: 110, END, OPC, FN, D, S1, S2 and IMM12, sign-extended. -/
theorem test_decode_b6 : decode (Bits.toBytesBE 6 0b110_0_00010000_101010_100001_100010_100011_100000000001) =
    .ok (.addi { fin := false, fn := 0b101010, d := 33, s1 := 34, s2 := 35, imm := 0xFFFFF801 }, 6) := by decide +kernel
/-- B8: 1110, END, OPC, FN, PRED, D, S1, S2 and IMM17, sign-extended. -/
theorem test_decode_b8 : decode (Bits.toBytesBE 8 0b1110_0_00100100_000101_1001_10000001_10000010_10000011_10000000000000001) =
    .ok (.ld { fin := false, fn := 5, pred := 9, d := 129, s1 := 130, s2 := 131, imm := 0xFFFF0001 }, 8) := by decide +kernel
/-- B12: 11110, END, OPC, FN, PRED, D, S1, S2, S3, four MOD codes and IMM. -/
theorem test_decode_b12 : decode (Bits.toBytesBE 12
      0b11110_1_10000000_011010_0011_00000001_00000010_00000011_00000100_01_10_11_00_10000000000000000000000000000001) =
    .ok (.viadd { fn := 26, pred := 3, d := 1, s1 := 2, s2 := 3, s3 := 4, modD := 1, modS1 := 2, modS2 := 3, imm := 0x80000001 }, 12) := by
  decide +kernel
/-- The bytes of ld s2, [a3] (05_sequencer_instructions.md) and of mma.a32.bf16.bf16 (09_matrix_engine.md). -/
theorem test_encode_shortest : encode (.ld { fin := false, d := 2, s1 := 3 }) = [0x84, 0x82, 0x18, 0x00] ∧
    encode (.mma { s1 := 3, s2 := 4, s3 := 5, imm := 0x11000000 }) = [0xF6, 0xC0, 0x00, 0x00, 0x03, 0x04, 0x05, 0x00, 0x11, 0x00, 0x00, 0x00] := by
  decide +kernel
theorem test_decode_refusals : decode [0xF8] = .error .reservedPrefix ∧ decode [0x20, 0x00] = .error .badShort ∧
    decode [0x83, 0xE0, 0x00, 0x00] = .error (.reservedOpcode 0x1F 4 false) ∧ decode [0x84, 0x82] = .error .truncated := by decide

/-! ### Small states -/

/-- A core whose stream 0 runs in joined mode: s1 = 5, s2 = 7, s3 = 2^64 - 1, s4 = 0x3F800001; a1 local at 0x100, a2 global at 0x2000, a15 at 0x800 in a
stack from 0x400 to 0x1000; memory from 0 on is mapped for tenant 0. -/
def k0 : Core :=
  { clusters := [(0, { s := [(1, 5), (2, 7), (3, 0xFFFFFFFFFFFFFFFF), (4, 0x3F800001)],
                       a := [(1, 0x8000000000000100), (2, 0x2000), (15, 0x8000000000000800)] })]
    streams := [(0, { run := .running, pc := 0x10000, sys := { stkBase := 0x400, stkLimit := 0x1000 } })]
    utlb := [{ vf := 0, va := 0, size := 0x200000, pa := 0, r := true, w := true, x := true }] }

/-- A device at Noon with one core. -/
def devOf (k : Core) : Dev := { cores := [(0, k)], boot := { phase := .noon, bays := 0xFFFFF, hbm := 0xFFFFFFFFFFFFFFFFFFFFFFFFFFFFFFFFFFFFFFFFFFFFFFFFFFFFFFFFFFFFFFFF } }

/-- A state in which a stream of a core issues the instruction at 0x10000. -/
def at_ (k : Core) (i : Nat := 0) : State :=
  { dev := devOf k, pre := devOf k, cur := { core := 0, stream := i, pc := 0x10000, bundle := 0x10000, next := 0x10004, after := 0x1000C } }

def s0 : State := at_ k0

/-- The core with its stream changed. -/
def withStream (g : Stream → Stream) (k : Core := k0) : Core := modCoreStream k 0 g

/-- What a next state shows. -/
def after {α : Type} (r : Result) (f : State → α) : Option α :=
  match r with
  | .next t => some (f t)
  | _ => none

/-- s(r) and a(r) of cluster 0, c(r), and the stream. -/
def sreg (r : Nat) (t : State) : Word := scalarIn t.dev 0 0 r
def areg (r : Nat) (t : State) : Word := addressIn t.dev 0 0 r
def strm (t : State) : Stream := getStream t.dev 0 0
def cond (r : Nat) (t : State) : Bool := (strm t).conds.getLsbD r
def causeOf (t : State) : Nat := (strm t).sys.cause.toNat

/-! ### Scalar instructions: steps, and states that meet the hypotheses of their statements -/

theorem test_add_wraps : after (exec (.add { d := 5, s1 := 3, s2 := 1 }) s0) (sreg 5) = some 4 := by decide
theorem test_sub_b2_order : after (exec (.subB2 true 1 2) s0) (sreg 1) = some 2 := by decide
theorem test_mulh_signed : after (exec (.mulh { d := 5, s1 := 3, s2 := 1 }) s0) (sreg 5) = some 0xFFFFFFFFFFFFFFFF := by decide
theorem test_shl_count_64 : after (exec (.shl { d := 5, s1 := 1, s2 := 2, imm := 57 }) s0) (sreg 5) = some 0 := by decide
theorem test_sha_keeps_sign : after (exec (.sha { d := 5, s1 := 3, s2 := 0, imm := 63 }) s0) (sreg 5) = some 0xFFFFFFFFFFFFFFFF := by decide
/-- s4 = 0x3F800001 as four i8 elements: each saturates on its own, and bits [63:32] become 0. -/
theorem test_sadd_container : after (exec (.sadd { d := 5, fn := 0x26, s1 := 4, s2 := 4 }) s0) (sreg 5) = some 0x7E800002 := by decide
theorem test_s0_discards : after (exec (.add { d := 0, s1 := 1, s2 := 1 }) s0) (sreg 0) = some 0 := by decide
theorem test_movi_h : after (exec (.movi { d := 4, fn := 1, imm := 0x12345678 }) s0) (sreg 4) = some 0x123456783F800001 := by decide
theorem test_addi_sign : after (exec (.addi { d := 5, s1 := 1, imm := 0xFFFFFFFF }) s0) (sreg 5) = some 4 := by decide
theorem test_clz_ctz_of_0 : after (exec (.clz { d := 5, s1 := 0 }) s0) (sreg 5) = some 64 ∧ after (exec (.ctz { d := 5, s1 := 0 }) s0) (sreg 5) = some 64 := by decide
theorem test_bfx_s : after (exec (.bfx { d := 5, fn := 1, s1 := 1, imm := 2 * 64 + 0 }) s0) (sreg 5) = some 0xFFFFFFFFFFFFFFFD := by decide
theorem test_bfi : after (exec (.bfi { d := 3, s1 := 1, imm := 3 * 64 + 4 }) s0) (sreg 3) = some 0xFFFFFFFFFFFFFF5F := by decide
theorem test_rank_absent : after (exec (.rank { d := 5, fn := 1, s1 := 1, s2 := 1 }) s0) (sreg 5) = some 0xFFFFFFFFFFFFFFFF ∧
    after (exec (.rank { d := 5, fn := 1, s1 := 2, s2 := 0 }) s0) (sreg 5) = some 0 := by decide
theorem test_div_truncates : after (exec (.div { d := 5, s1 := 3, s2 := 1 }) s0) (sreg 5) = some 0 ∧
    after (exec (.rem { d := 5, s1 := 3, s2 := 1 }) s0) (sreg 5) = some 0xFFFFFFFFFFFFFFFF := by decide
theorem test_div_by_0_faults : after (exec (.div { d := 1, s1 := 3, s2 := 0 }) s0) (fun t => (sreg 1 t, causeOf t)) = some (5, 20) := by decide
/-- The example of R92: 0x3F800001 to bf16 gives 0x3F80, with NX. -/
theorem test_fcvt_example : after (exec (.fcvt { d := 5, fn := 1, s1 := 4 }) s0) (fun t => (sreg 5 t, (strm t).sys.fflags.toNat)) = some (0x3F80, 1) := by
  decide +kernel
theorem test_aadd_keeps_tag : after (exec (.aadd { d := 1, s1 := 3 }) s0) (areg 1) = some 0x80000000000000FF := by decide
theorem test_aidx_scales : after (exec (.aidx { d := 3, s1 := 2, s2 := 1, imm := 3 }) s0) (areg 3) = some 0x2028 := by decide
theorem test_aldi_peer : after (exec (.aldi { d := 3, fn := 2, imm := 0x01000040 }) s0) (areg 3) = some 0x9000000001000040 := by decide
theorem test_st_then_bytes : after (exec (.st { s1 := 1, s2 := 4, imm := 4 }) s0) (fun t => (List.range 5).map fun j => spmByte t.dev 0 (0x104 + j)) =
    some [0x01, 0x00, 0x80, 0x3F, 0x00] := by decide
theorem test_push_lowers_a15 : after (exec (.push { s1 := 1 }) s0) (fun t => (areg 15 t, spmByte t.dev 0 0x7F8)) = some (0x80000000000007F8, 5) := by decide
theorem test_pop_a15_loads : after (exec (.pop { fn := 1, d := 15 }) s0) (areg 15) = some 0 := by decide
theorem test_st_misaligned : after (exec (.st { s1 := 1, s2 := 4, imm := 2 }) s0) causeOf = some 6 := by decide
theorem test_cmp_signs : after (exec (.cmp { d := 2, fn := 2, s1 := 3, s2 := 1 }) s0) (cond 2) = some true ∧
    after (exec (.cmp { d := 2, fn := 4, s1 := 3, s2 := 1 }) s0) (cond 2) = some false := by decide
theorem test_br_sets_delay : after (exec (.brn { s1 := 2, s2 := 0 }) (at_ (withStream fun x => { x with targets := [(0, 0x10100)] }))) (fun t => (strm t).delay) =
    some (some { left := 2, at_ := 0x10000, target := some 0x10100 }) := by decide
theorem test_lset_opens_gate : after (exec (.lset { d := 1, fn := 0x12, s2 := 3, imm := 0x20 }) s0) (fun t => ((strm t).gates, (strm t).loops)) =
    some (1, [(1, { count := 3, start := some 0x10020, stages := 3 })]) := by decide
theorem test_gate_closed : after (exec (.add { d := 5, s1 := 1, s2 := 1, pred := 1 }) s0) (sreg 5) = some 0 := by decide
theorem test_trap : after (exec (.trap { imm := 9 }) s0) (fun t => ((strm t).sys.epc, (strm t).sys.eaddr, causeOf t)) = some (0x10004, 9, 21) := by decide

theorem witness_alu_results : Ready (aluInstr .add { d := 5, s1 := 1, s2 := 2 }) s0 ∧ fnBit { d := 5, s1 := 1, s2 := 2 } 5 = false ∧
    Ready (aluInstr .sadd { d := 5, fn := 0x26, s1 := 4, s2 := 4, modS1 := 3 }) s0 ∧ fnBit { d := 5, fn := 0x26, s1 := 4, s2 := 4 } 5 = true ∧
    (AluOp.max, Instr.maxB2 true 31 15) ∈ [(AluOp.min, Instr.minB2 true 31 15), (.max, .maxB2 true 31 15)] ∧
    legal false (aluInstr .rot { d := 31, s1 := 31, s2 := 31, imm := 63 }) = true := by unfold Ready; decide
theorem witness_immediate_results : Ready (.addi { d := 31, s1 := 31, imm := 0x80000000 }) s0 ∧ Ready (.movi { d := 0, fn := 1, imm := 0xFFFFFFFF }) s0 := by
  unfold Ready; decide
theorem witness_moves : Ready (.sel { d := 5, s1 := 1, s2 := 2, imm := 7 }) s0 ∧ Ready (.mov { d := 5, fn := 32, s1 := 4, modD := 3, modS1 := 2 }) s0 ∧
    Ready (.xmov { d := 15, fn := 3, s1 := 15, imm := 15 }) s0 := by unfold Ready; decide
theorem witness_division : Ready (.div { d := 5, s1 := 3, s2 := 0 }) s0 ∧ srcS s0 0 = 0 ∧ Ready (.div { d := 5, fn := 16, s1 := 3, s2 := 1 }) s0 ∧
    srcS s0 1 ≠ 0 ∧ Ready (.rem { d := 5, s1 := 3, s2 := 1 }) s0 ∧ (3 : Word) ≠ 0 := by unfold Ready; decide
theorem witness_bits : Ready (.popc { d := 5, s1 := 3 }) s0 ∧ Ready (.clz { d := 5, s1 := 0 }) s0 ∧ Ready (.ctz { d := 5, s1 := 0 }) s0 ∧
    Ready (.bfx { d := 5, fn := 1, s1 := 3, imm := 63 }) s0 ∧ Ready (.bfi { d := 5, s1 := 3, imm := 63 * 64 }) s0 ∧
    Ready (.rank { d := 5, fn := 1, s1 := 3, s2 := 3 }) s0 ∧
    64 < ((64 : BitVec 32).extractLsb' 0 6).toNat + ((0xFFF : BitVec 32).extractLsb' 6 6).toNat + 1 + 1 := by unfold Ready; decide
theorem witness_field_too_long : 64 < ((0xFC1 : BitVec 32).extractLsb' 0 6).toNat + ((0xFC1 : BitVec 32).extractLsb' 6 6).toNat + 1 := by decide
theorem witness_scalar_floats : Ready (.fcvt { d := 5, fn := 12, s1 := 4, imm := 0x40 + 13 }) s0 ∧ Ready (.fmas { d := 5, fn := 2, s1 := 4, s2 := 4, imm := 4 }) s0 := by
  unfold Ready; decide
/-- R91: values that convert to an integer out of range, inexactly, from an infinity and from a NaN. -/
theorem witness_values_to_integers : (match elemValue .bf16 0xC320 with | .fin n m => n && decide (m = 160) | _ => false) = true ∧
    (match elemValue .f32 0x40200000 with | .fin n m => !n && decide (m = 5 / 2) | _ => false) = true ∧ elemValue .f16 0xFC00 = .inf true ∧
    fvalIsNan (elemValue .e4m3 0x7F) = true ∧ (match elemValue .pt8 0x45 with | .fin _ _ => true | _ => false) = true := by decide +kernel
theorem test_fcvt_saturates : (convert .i8 .rne (elemValue .bf16 0xC320)).bits = 0x80 ∧ (convert .i8 .rne (elemValue .f32 0x40200000)).flags = { nx := true } := by
  decide +kernel
theorem witness_integer_conversions : tyInt .i4 = true ∧ tyInt .n32 = true ∧ 15 < 2 ^ tyWidth .i4 := by decide
theorem witness_addresses : Ready (.aadd { d := 15, s1 := 3, imm := 0x80000000 }) s0 ∧ Ready (.aidx { d := 15, s1 := 1, s2 := 3, imm := 7 }) s0 ∧
    Ready (.amov { d := 15, fn := 0, s1 := 1 }) s0 ∧ Ready (.amov { d := 15, fn := 1, s1 := 3 }) s0 ∧ Ready (.amov { d := 31, fn := 2, s1 := 1 }) s0 ∧
    Ready (.aldi { d := 15, fn := 3, imm := 0xFF3FFFFF }) s0 ∧ (15#5).toNat < 16 ∧ (3 : BitVec 6).extractLsb' 0 2 = 3 := by unfold Ready; decide
theorem witness_local_checks : (0x80000000003FFFFF : Word).extractLsb' 60 4 = 8 ∧
    0x3FFFFF = ((0x80000000003FFFFF : Word).extractLsb' 0 22).toNat := by decide
/-- A global address, a peer's and the own rank's, and one of tag 0xA. -/
theorem witness_far_checks : (0x2000 : Word).extractLsb' 60 4 = 0 ∧ checkAccess s0 0x2000 4 true true = .raise .stackFault ∧
    checkAccess s0 0x9000000000000100 4 false true = .go (.spm 0 0x100 true) ∧ checkAccess s0 0x9000000001000100 4 false true = .raise .address ∧
    checkAccess (at_ { k0 with gangSize := 2 }) 0x9000000001000100 4 false true = .go (.spm 1 0x100 false) ∧
    checkAccess s0 0xA000000000000100 4 false true = .raise .address := by decide
theorem witness_loads_and_stores : Ready (.ld { d := 5, fn := 3, s1 := 1, imm := 0xFFFFFFF8 }) s0 ∧
    checkAccess s0 (accessAt s0 1 0xFFFFFFF8) 8 false false = .go (.spm 0 0xF8 true) ∧ Ready (.lda { d := 5, s1 := 2 }) s0 ∧
    checkAccess s0 (accessAt s0 2 0) 8 false false = .go (.global 0x2000) ∧ Ready (.st { fn := 1, s1 := 2, s2 := 3 }) s0 ∧
    checkAccess s0 (accessAt s0 2 0) 1 false true = .go (.global 0x2000) ∧ Ready (.sta { s1 := 1, s2 := 1 }) s0 ∧
    checkAccess s0 (accessAt s0 1 0) 8 false true = .go (.spm 0 0x100 true) := by unfold Ready; decide
theorem witness_stack : Ready (.push { fn := 1, s1 := 15 }) s0 ∧ checkAccess s0 (accessAt s0 15 (-8)) 8 true true = .go (.spm 0 0x7F8 true) ∧
    Ready (.pop { fn := 1, d := 15 }) s0 ∧ checkAccess s0 (srcA s0 15) 8 true false = .go (.spm 0 0x800 true) := by unfold Ready; decide
/-- A misaligned access, and one that the stores of an older engine command hold. -/
def kHeld : Core := { k0 with running := [{ cmd := { op := .cpy .cpyf, f := {}, writes := [(0x100, 0x10F)] } }] }
theorem witness_access_faults : Ready (.ld { d := 5, s1 := 1, imm := 1 }) s0 ∧ checkAccess s0 (accessAt s0 1 1) 4 false false = .raise .align ∧
    Ready (.ld { d := 5, s1 := 1 }) (at_ kHeld) ∧ checkAccess (at_ kHeld) (accessAt (at_ kHeld) 1 0) 4 false false = .wait := by unfold Ready; decide
theorem witness_transfers : Ready (.pbr { d := 3, imm := 0x80000000 }) s0 ∧ Ready (.pbra { d := 3, s1 := 2 }) s0 ∧ (srcA s0 2).extractLsb' 60 4 = 0 ∧
    Ready (.pbra { d := 3, s1 := 1 }) s0 ∧ (srcA s0 1).extractLsb' 60 4 ≠ 0 ∧ Ready (.br { s1 := 7, s2 := 3 }) s0 ∧ Ready (.jmp { s2 := 3 }) s0 ∧
    Ready (.call { s2 := 3 }) s0 ∧ checkAccess s0 (accessAt s0 15 (-8)) 8 true true = .go (.spm 0 0x7F8 true) ∧ Ready (.ret {}) s0 ∧
    checkAccess s0 (srcA s0 15) 8 true false = .go (.spm 0 0x800 true) := by unfold Ready; decide
def kLoop : Core := withStream fun x => { x with loops := [(3, { count := 1, start := some 0x10000, stages := 2 })], gates := 1 }
theorem witness_loops : Ready (.lset { d := 3, fn := 0x1E, s2 := 0xFF }) s0 ∧ Ready (.loop { s1 := 3 }) (at_ kLoop) ∧
    (Sparse.get (preStream (at_ kLoop)).loops {} 3).start = some 0x10000 ∧ Ready (.loop { s1 := 0 }) s0 ∧
    (Sparse.get (preStream s0).loops {} 0).start = none ∧ Ready (.gset { d := 5, fn := 1, imm := 0x7FFF }) s0 := by unfold Ready; decide
def kMask : Core := { k0 with running := [{ cmd := { op := .vec .vcmp, f := { d := 3 }, vl := 8 } }] }
theorem witness_conditions : Ready (.acmp { d := 7, fn := 3, s1 := 1, s2 := 2 }) s0 ∧ Ready (.cmp { d := 7, fn := 11, s1 := 1, s2 := 2 }) s0 ∧
    Ready (.cmpi { d := 7, fn := 11, s1 := 1, imm := 0xFFFFFFFF }) s0 ∧ 12 ≤ ((12 : BitVec 6).extractLsb' 0 4).toNat ∧ Ready (.vany { d := 7, s1 := 7 }) s0 ∧
    Ready (.vall { d := 7, s1 := 7 }) s0 ∧ maskBusy (preCore s0) 0 7 = false ∧ Ready (.vany { d := 7, s1 := 3 }) (at_ kMask) ∧
    maskBusy (preCore (at_ kMask)) 0 3 = true := by unfold Ready; decide
theorem witness_no_effect : Ready (.prfm { s1 := 2 }) s0 ∧ Ready (.nop {}) s0 ∧ Ready (.yield {}) s0 := by unfold Ready; decide

/-! ### Synchronisation and system instructions -/

theorem test_tpost_then_count : after (exec (.tpost { d := 3 }) s0) (fun t => (getToken (getCore t.dev 0) 3).count) = some 1 := by decide
theorem test_twait_stalls : after (exec (.twait { d := 3 }) s0) (fun t => t.status) = some .stalled := by decide
theorem test_swinit_and_arrive : after (exec (.swinit { s1 := 1, s2 := 1 }) s0) (fun t => readSync t.dev 0 0x100) =
    some { target := 5, count := 0, gen := 0, armed := false, auto := false, overrun := false, arrivals := 0 } := by decide
theorem test_atom_add : after (exec (.atom { d := 5, s1 := 2, s2 := 3 }) s0) (fun t => (sreg 5 t, (List.range 4).map fun j => homeByte t.dev (0x2000 + j))) =
    some (0, [0xFF, 0xFF, 0xFF, 0xFF]) := by decide
theorem test_sysrd_vcnt : after (exec (.sysrd { d := 5, imm := 0x13 }) s0) (sreg 5) = some 0xFFFFFFFF := by decide
theorem test_syswr_vl_too_large : after (exec (.syswr { s1 := 3, imm := 0x12 }) s0) causeOf = some 2 := by decide
theorem test_vsetl_caps : after (exec (.vsetl { d := 5, fn := 0x10, s1 := 3 }) s0) (fun t => (sreg 5 t, (strm t).sys.vl)) = some (2048, 2048) := by decide

def kFull : Core := { k0 with tokens := [(3, { count := 0xFFFF, ceiling := 0xFFFF }), (4, { count := 1, ceiling := 0xFFFF })], tquota := 8 }
def sFull : State := at_ kFull
theorem witness_tokens : Ready (.tset { d := 3, fn := 1, imm := 0xFFFFFFFF }) s0 ∧ (3#8).toNat < (preCore s0).tquota ∧ Ready (.tpostB2 true 7 0) sFull ∧
    7 < (preCore sFull).tquota ∧ (getToken (curCore sFull) 7).count.toNat < (getToken (curCore sFull) 7).ceiling.toNat ∧ Ready (.twait { d := 4 }) sFull ∧
    (getToken (curCore sFull) 4).count ≠ 0 := by unfold Ready; decide
theorem witness_token_faults : Ready (.twaitB2 true 8 0) sFull ∧ (preCore sFull).tquota ≤ 8 ∧ Ready (.tset { d := 3, fn := 1, imm := 0x00010000 }) sFull ∧
    ((0x00010000 : BitVec 32).extractLsb' 0 16).toNat < ((0x00010000 : BitVec 32).extractLsb' 16 16).toNat ∧ Ready (.tpost { d := 3 }) sFull ∧
    (getToken (curCore sFull) 3).ceiling.toNat ≤ (getToken (curCore sFull) 3).count.toNat ∧ Ready (.twait { d := 5 }) sFull ∧
    (getToken (curCore sFull) 5).count = 0 := by unfold Ready; decide

/-- A sync word at 0x100 of a peer of the gang, and one of the core itself: armed, target 5, count 4; and an overrun one. -/
def syncAt (late : Bool) : List Host.Cell :=
  Sparse.ofList 0 ((Bits.toBytes 32 (5 + 4 * 2 ^ 64 + (if late then 5 else 1) * 2 ^ 160)).zipIdx.map fun p => (0x100 + p.2, p.1))
def sWord : State := at_ { k0 with spm := syncAt false }
def sOver : State := at_ { k0 with spm := syncAt true }
def kGang : Core :=
  { k0 with gangSize := 2, clusters := [(0, { a := [(1, 0x9000000001000100)] })]
            streams := [(0, { run := .running, point := some { launch := 0, serial := 1, o := 0, m := 0, n := 0, rank := 0, base := 0, size := 2, tick := 0 } })] }
def sGang : State := at_ kGang
theorem witness_sync_words : Ready (.swinit { s1 := 1, s2 := 1 }) sWord ∧ checkSync sWord (srcA sWord 1) false true = .go (.spm 0 0x100 true) ∧
    Ready (.swarm { fn := 1, s1 := 1 }) sWord ∧ Ready (.swwait { s1 := 1, s2 := 1 }) sWord ∧
    checkSync sWord (srcA sWord 1) false false = .go (.spm 0 0x100 true) ∧ (readSync sWord.dev 0 0x100).overrun = false ∧
    (readSync sWord.dev 0 0x100).gen ≠ (srcS sWord 1).toNat % 2 ^ 32 ∧ (readSync sWord.dev 0 0x100).gen = (srcS sWord 0).toNat % 2 ^ 32 ∧
    checkSync sOver (srcA sOver 1) false false = .go (.spm 0 0x100 true) := by unfold Ready; decide
theorem witness_sync_checks : Ready (.swarm { s1 := 2 }) s0 ∧ checkSync s0 (srcA s0 2) false true = .raise .address ∧ Ready (.swwait { s1 := 1 }) (at_ kHeld) ∧
    checkSync (at_ kHeld) (srcA (at_ kHeld) 1) false false = .wait ∧ (srcA s0 1).extractLsb' 60 4 = 8 := by unfold Ready; decide
theorem witness_sync_arrivals : Ready (.swarrive { s1 := 1, s2 := 1 }) sWord ∧ checkSync sWord (srcA sWord 1) true false = .go (.spm 0 0x100 true) ∧
    Ready (.swarrive { s1 := 1, s2 := 1 }) sGang ∧ checkSync sGang (srcA sGang 1) true false = .go (.spm 1 0x100 false) := by unfold Ready; decide
theorem witness_scopes : Ready (.publish { imm := 5 }) s0 ∧ Ready (.acquire { imm := 6 }) s0 ∧ (preCore s0).scopeSys = false ∧ Ready (.fence { fn := 15 }) s0 := by
  unfold Ready; decide
/-- The board of the device holds a signature that core 0 has not applied, which matches sector 0x80 and not sector 0x81; its L1 holds clean bytes of both. -/
def dSigned : Dev := { devOf { k0 with l1clean := [(0x2000, 1), (0x2040, 2)] } with boards := [(4, { head := 1, sigs := [sigOf 0x80] })] }
theorem test_acquire_discards : (getCore (acquire dSigned 0 4) 0).l1clean = [(0x2040, 2)] := by decide +kernel
theorem witness_acquire : (boardAt dSigned 0 4).head - appliedAt (getCore dSigned 0) 4 = 1 ∧ sigMatch (sigOf 0x80) 0x80 = true ∧ sigMatch (sigOf 0x80) 0x81 = false ∧
    outside (64 * 0x80) = false := by decide +kernel
theorem witness_publish : (2 : Nat) ∈ [2, 3, 4, 5, 6] ∧ 0 < 160 := by decide
theorem witness_atom : Ready (.atom { d := 5, s1 := 2, s2 := 3, imm := 0 }) s0 ∧ (srcA s0 2).extractLsb' 60 4 = 0 ∧ (srcA s0 2).toNat % (32 / 8) = 0 ∧
    translateFor s0.dev 0 (srcA s0 2).toNat .write = .ok { vf := 0, va := 0, size := 0x200000, pa := 0, r := true, w := true, x := true } ∧
    region 0x2000 ≠ 3 ∧ homePoisoned s0.dev 0x2000 4 = false := by unfold Ready; decide
def sAhead : State := at_ { kGang with arrived := 2 }
theorem witness_gang_barriers : Ready (.garrive {}) sGang ∧ (preCore sGang).slaunch = false ∧ (preCore sGang).split = false ∧
    (preCore sGang).arrived - (getGang sGang.pre (gangBase (preCore sGang) 0)).c ≠ 2 ∧ 0 < (preCore sGang).gangSize ∧
    (preCore sAhead).arrived - (getGang sAhead.pre (gangBase (preCore sAhead) 0)).c = 2 ∧ Ready (.gwait {}) sGang ∧
    (preCore sGang).arrived = (getGang sGang.dev (gangBase (preCore sGang) 0)).c ∧ Ready (.gwait {}) sAhead ∧
    (preCore sAhead).arrived ≠ (getGang sAhead.dev (gangBase (preCore sAhead) 0)).c := by unfold Ready; decide

/-- A watch descriptor at 0x100 for the word at 0x2000, and a core that owns entry 3 with nothing owed, entry 4 owed, and not entry 5. -/
def sDesc : State := at_ { k0 with spm := [(0x101, 0x20)] }
def ownedBy (l : Nat) (owed : Bool) : Watch :=
  { owner := .point 0 l 0 0 0 0, pa := 0x2000, len := 0, cond := 0, value := 0, mask := 0, act := false, arg := 0, ten := false, tok := 0, owed := owed }
def sOwner : State :=
  let d := { devOf { k0 with clusters := [(0, { s := [(1, 3), (2, 4), (3, 5), (4, 2560)] })] } with
    watches := [(3, ownedBy 0 false), (4, ownedBy 0 true), (5, ownedBy 9 false)] }
  { at_ k0 with dev := d, pre := d }
theorem witness_watches : Ready (.watch { d := 5, s1 := 1 }) sDesc ∧ checkSync sDesc (srcA sDesc 1) false false = .go (.spm 0 0x100 true) ∧
    (readWatchDesc (spmNat sDesc.dev 0 0x100 32)).addr = 0x2000 ∧ (readWatchDesc (spmNat sDesc.dev 0 0x100 32)).resv = false ∧
    (readWatchDesc (spmNat sDesc.dev 0 0x100 32)).act = false ∧ (translate sDesc.dev 0 0x2000).map (fun e => physical e 0x2000) = some 0x2000 ∧
    region 0x2000 ≠ 3 ∧ (freeWatch sDesc.dev (homeSlice sDesc.dev 0x2000)).isSome = true ∧ Ready (.unwatch { s1 := 4 }) sOwner ∧
    2560 ≤ (srcS sOwner 4).toNat ∧ ownWatch sOwner (ownedBy 0 false) = true ∧ Sparse.find? sOwner.dev.watches 3 = some (ownedBy 0 false) ∧
    Sparse.find? sOwner.dev.watches 4 = some (ownedBy 0 true) ∧ ownWatch sOwner (ownedBy 9 false) = false ∧
    Sparse.find? sOwner.dev.watches 5 = some (ownedBy 9 false) ∧
    foreignRegion sDesc.dev sDesc.cur.core (readWatchDesc (spmNat sDesc.dev 0 0x100 32)).arg 8 = false := by unfold Ready; decide

theorem witness_system_registers : Ready (.sysrd { d := 5, imm := 0x62 }) s0 ∧ Ready (.syswr { s1 := 1, imm := 0x19 }) s0 ∧ (srcS s0 1).toNat < 2 ^ 26 ∧
    Ready (.syswr { s1 := 3, imm := 0x12 }) s0 ∧ ¬ (srcS s0 3).toNat ≤ 16384 ∧ Ready (.syswr { s1 := 1, imm := 0x31 }) s0 ∧
    Ready (.syswr { s1 := 1, imm := 0 }) s0 ∧ (srcS s0 1).toNat < 32 ∧ (srcS s0 1).getLsbD 3 = false := by unfold Ready; decide
def sReturn : State := at_ { withStream (fun x => { x with sys := { x.sys with inh := true } }) with clusters := [(0, { s := [(1, 8)] })] }
theorem witness_return_request : Ready (.syswr { s1 := 1, imm := 0 }) sReturn ∧ (srcS sReturn 1).getLsbD 3 = true ∧ (preStream sReturn).sys.inh = true := by
  unfold Ready; decide
/-- A matrix command on acc0 runs; and accumulators in which no write of a mode is refused, or each way of one. -/
def sMatrix : State := at_ { k0 with running := [{ cmd := { op := .mat .mma, f := { d := 0 } } }] }
def sArmed : State := at_ { k0 with bmode := 0x0060 }
def sLo : State := at_ { k0 with accPrec := [(1, .a2x32)] }
theorem witness_bound_controls : Ready (.syswr { s1 := 1, imm := 0x40 }) s0 ∧ (srcS s0 1).toNat < 2 ^ 16 ∧ accsBusy (preCore s0) [0] = false ∧
    accsBusy (preCore sMatrix) [0] = true ∧ Ready (.boundcfg { d := 0, s1 := 1, imm := 6 }) sMatrix ∧ Ready (.boundcfg { d := 0, s1 := 1, imm := 2 }) s0 ∧
    (curCore s0).split = false ∧ (∀ n < 4, armedNibble (nibble (setNibble (curCore s0).bmode 0 2) n) = armedNibble (nibble (curCore s0).bmode n)) ∧
    (∀ n < 4, armedNibble (nibble (setNibble (curCore s0).bmode 0 2) n) = false) ∧ Ready (.boundcfg { d := 0, s1 := 1, imm := 6 }) sArmed ∧
    armedNibble (nibble (setNibble (curCore sArmed).bmode 0 6) 0) = true ∧ armedNibble (nibble (setNibble (curCore sArmed).bmode 0 6) 1) = true ∧
    precOf (curCore sLo) (partner 0) = .a2x32 ∧ armedNibble (nibble (curCore s0).bmode 0) = false ∧
    armedNibble (nibble (setNibble (curCore s0).bmode 0 6) 0) = true ∧ precOf (curCore s0) 0 ≠ .a2x32 ∧ Ready (.syswr { s1 := 1, imm := 0x44 }) s0 ∧
    ((5 : Nat) < 2 ^ 16 ∧ ∀ a < 4, (5 : Nat).testBit (4 * a + 3) = false ∧ 5 / 16 ^ a % 4 ≠ 3) ∧ ¬ (8 : Nat).testBit 3 = false := by unfold Ready; decide
/-- acc0 is armed, and a product on it is stopped before its first bound test: disarming and arming act on acc1. -/
def sStoppedFirst : State :=
  at_ { k0 with bmode := 6, running := [{ cmd := { op := .mat .mma, f := { d := 0 } }, phase := .first, stopped := some { cause := .boundTrap } }] }
theorem witness_mode_changes : Claims.modeRefused (curCore sArmed) 0x0066 ∧ Claims.modeRefused (curCore sLo) 6 ∧ ¬ Claims.modeRefused (curCore s0) 6 ∧
    ¬ Claims.modeRefused (curCore sStoppedFirst) 0 ∧ Ready (.boundcfg { d := 0, s1 := 1, imm := 0 }) sStoppedFirst ∧ accsBusy (preCore sStoppedFirst) [0] = false ∧
    armedNibble (nibble (setNibble (curCore sStoppedFirst).bmode 0 0) 0) ≠ armedNibble (nibble (curCore sStoppedFirst).bmode 0) := by
  unfold Claims.modeRefused Ready; decide
/-- R243: disarming acc0 clears acc1, its checkpoint. -/
theorem test_disarming_clears : after (exec (.boundcfg { d := 0, s1 := 1, imm := 0 }) (at_ { k0 with bmode := 6, acc := [(32768, 1)], bnd := [(128, 1)] }))
    (fun t => ((getCore t.dev 0).acc, (getCore t.dev 0).bnd, (getCore t.dev 0).bmode)) = some ([], [], 0) := by decide +kernel
def sSplit : State := at_ { k0 with split := true, streams := [0, 1, 2, 3].map fun i => (i, { run := .running }) }
def sBusy : State := at_ { k0 with running := [{ cmd := { op := .vec .vadd, f := {} } }] }
theorem witness_split : Ready (.split {}) s0 ∧ isSplit s0 = false ∧ (preStream s0).sys.inh = false ∧ streamDrained (preCore s0) 0 = true ∧
    (∀ a < 4, precOf (preCore s0) a ≠ .a2x32) ∧ Ready (.split {}) sSplit ∧ isSplit sSplit = true ∧ streamDrained (preCore sBusy) 0 = false ∧
    (∃ a < 4, precOf (preCore sLo) a = .a2x32) := by unfold Ready; decide
def sLast : State :=
  at_ { k0 with split := true, streams := [(0, { run := .running }), (1, { run := .parked 0x20000 }), (2, { run := .parked 0x20000 }), (3, { run := .parked 0x20000 })] }
theorem witness_join : Ready (.join { s2 := 3 }) sSplit ∧ (preCore sSplit).split = true ∧ (preCore sSplit).slaunch = false ∧
    (preStream sSplit).sys.inh = false ∧ streamDrained (preCore sSplit) 0 = true ∧ (∃ j < 4, j ≠ 0 ∧ parkedAt (coreStream (curCore sSplit) j) = none) ∧
    Ready (.join { s2 := 3 }) sLast ∧ (∀ j < 4, j ≠ 0 → parkedAt (coreStream (curCore sLast) j) ≠ none) ∧ (preCore s0).split = false := by unfold Ready; decide
/-- R249: joined mode makes acc1, the partner of armed acc0, TRAP and CLEAR. -/
theorem test_join_pairs : after (exec (.join { s2 := 3 }) (at_ { curCore sLast with bmode := 0x0066, accPrec := [(1, .i32)] }))
    (fun t => ((getCore t.dev 0).split, (getCore t.dev 0).bmode, precOf (getCore t.dev 0) 1)) = some (false, 0x0026, .clear) := by decide +kernel
theorem witness_exit : Ready (.exit {}) s0 ∧ (preStream s0).sys.inh = false ∧ exitReady (preCore s0) 0 = true ∧ Ready (.exit {}) sBusy ∧
    exitReady (preCore sBusy) 0 = false ∧ (preStream sReturn).sys.inh = true := by unfold Ready; decide
def sDebug : State := let d := { devOf k0 with ctl := { dbgEn := 1 } }; { s0 with dev := d, pre := d }
theorem witness_trap_tick_break : Ready (.trap { imm := 0xFFFFFFFF }) s0 ∧ Ready (.tick { d := 5, fn := 1, s1 := 0 }) s0 ∧
    (srcS s0 0).toNat ≤ s0.dev.tick.toNat ∧ s0.dev.tick.toNat < (srcS s0 1).toNat ∧ Ready (.dbgbrk { imm := 1 }) sDebug ∧
    sDebug.dev.ctl.dbgEn.getLsbD sDebug.cur.core = true ∧ Sparse.sorted sDebug.dev.cores = true ∧ s0.dev.ctl.dbgEn.getLsbD s0.cur.core = false := by unfold Ready; decide
def kStopped : Core :=
  { withStream (fun x => { x with sys := { x.sys with inh := true, cause := 256 + 14 }, link := some 7, qvec := { stopped := [7] } }) with
    running := [{ cmd := { op := .vec .vadd, f := {}, age := 7 }, step := 3, stopped := some { cause := .boundTrap, step := 3 } }] }
/-- s1 is a QCW of base 0x10000 and depth 4. A stream whose three queues are bound, and one with a command in its vector queue, full. -/
def qcw : Word := 0x10000 + 4 * 2 ^ 22
def bind3 (full : Bool) (x : Stream) : Stream :=
  let e : List QEntry := if full then List.replicate 4 (.fence 0 0) else []
  { x with qcpy := { bound := some { base := 0x10000, depth := 4 }, entries := e }, qvec := { bound := some { base := 0x10080, depth := 4 } }
           qmtx := { bound := some { base := 0x10100, depth := 4 } } }
def sQcw : State := at_ { k0 with clusters := [(0, { s := [(1, qcw)] })] }
def sBound : State := at_ { withStream (bind3 false) with clusters := [(0, { s := [(1, qcw)] })] }
def sQFull : State := at_ (withStream (bind3 true))
theorem witness_queues : Ready (.qcfg { fn := 2, s1 := 1 }) sQcw ∧ (qcw.extractLsb' 33 31 = 0 ∧ (qcw.extractLsb' 0 22).toNat = 0x10000 ∧ (qcw.extractLsb' 22 11).toNat = 4) ∧
    queueDrained (preCore sQcw) 0 .mtx = true ∧ qcwOverlaps (preCore sQcw) 0 .mtx 0x10000 128 = false ∧ Ready (.qcfg { fn := 2, s1 := 1 }) sBound ∧
    qcwOverlaps (preCore sBound) 0 .mtx 0x10000 128 = true ∧ queueDrained (preCore sMatrix) 0 .mtx = false ∧
    (getQueue (preStream sQcw) .mtx).stopped = [] ∧ (getQueue (preStream (at_ kStopped)) .vec).stopped ≠ [] ∧ Ready (.ftset { s1 := 1, imm := 15 }) s0 := by
  unfold Ready; decide
/-- Slot 7 is resident with a persistent region at 0x10000, and core 0 runs no point of it. -/
def foreignSlot : Slot := { owner := 0, image := 0x40000, size := 64, poff := 0x10000, psize := 0x1000, nrec := BitVec.ofNat 1024 (2 ^ 256) }
def withForeign (s : State) : State := { s with dev := { s.dev with slots := [(7, foreignSlot)] } }
theorem witness_foreign_queue : Ready (.qcfg { fn := 2, s1 := 1 }) (withForeign sQcw) ∧ foreignRegion (withForeign sQcw).dev 0 0x10000 128 = true ∧
    foreignRegion sQcw.dev 0 0x10000 128 = false ∧ Ready (.genf {}) (withForeign sBound) ∧ (getQueue (preStream (withForeign sBound)) .mtx).bound = some { base := 0x10100, depth := 4 } ∧
    foreignRegion (withForeign sBound).dev 0 0x10100 128 = true ∧ foreignRegion sBound.dev 0 0x10100 128 = false := by unfold Ready; decide +kernel
/-- Words at 0x10000, in that region: a watch's note, an axis's retire word and a copy's sync word. -/
def sForeignNote : State := withForeign (at_ { k0 with spm := [(0x101, 0x20), (0x10F, 4)] })
theorem witness_foreign_note : Ready (.watch { d := 5, s1 := 1 }) sForeignNote ∧ checkSync sForeignNote (srcA sForeignNote 1) false false = .go (.spm 0 0x100 true) ∧
    (readWatchDesc (spmNat sForeignNote.dev 0 0x100 32)).act = false ∧
    foreignRegion sForeignNote.dev 0 (readWatchDesc (spmNat sForeignNote.dev 0 0x100 32)).arg 8 = true := by unfold Ready; decide +kernel
def sForeignCopy : State :=
  withForeign (at_ { withStream (bind3 false) with
    clusters := [(0, { s := [(1, 64)], a := [(1, 0x8000000000000100), (2, 0x2000), (3, 0x8000000000010000)] })], spm := [] })
/-- R327: each of them raises PERMISSION. -/
theorem test_foreign_words : after (exec (.watch { d := 5, s1 := 1 }) sForeignNote) causeOf = some 8 ∧
    after (exec (.cpy { fin := true, fn := 1, d := 1, s1 := 2, s2 := 1, s3 := 3, imm := 0 }) sForeignCopy) causeOf = some 8 ∧
    after (exec (.cpy { fin := true, fn := 1, d := 1, s1 := 2, s2 := 1, s3 := 3, imm := 0 }) { sForeignCopy with dev := { sForeignCopy.dev with slots := [] } })
      causeOf = some 0 := by decide +kernel
/-- R327: no ring is bound over another slot's persistent region. -/
theorem test_qcfg_permission : after (exec (.qcfg { fn := 2, s1 := 1 }) (withForeign sQcw)) causeOf = some 8 := by decide +kernel
theorem witness_generations : Ready (.genf {}) s0 ∧ (getQueue (preStream s0) .cpy).bound = none ∧ Ready (.genf {}) sBound ∧
    (∀ q, ∃ b, (getQueue (preStream sBound) q).bound = some b ∧ foreignRegion sBound.dev 0 b.base (32 * b.depth) = false ∧
      queueFull (getQueue (preStream sBound) q) = false) ∧ Ready (.genf {}) sQFull ∧
    (∀ q, ∃ b, (getQueue (preStream sQFull) q).bound = some b ∧ foreignRegion sQFull.dev 0 b.base (32 * b.depth) = false) ∧
    queueFull (getQueue (preStream sQFull) .cpy) = true := by
  unfold Ready; refine ⟨by decide, by decide, by decide, fun q => ?_, by decide, fun q => ?_, by decide⟩ <;> cases q <;> exact ⟨_, rfl, by decide⟩
def sLeased (explicit : Bool) (used : Nat) : State :=
  at_ { k0 with split := true, streams := [(0, { run := .running })], lease := some { holder := 0, len := 16, used := used, explicit := explicit } }
theorem witness_leases : Ready (.lease { imm := 64 }) s0 ∧ isSplit s0 = false ∧ Ready (.lease { imm := 0 }) sSplit ∧ leasePending (preCore sSplit) 0 = false ∧
    (curCore sSplit).lease = none ∧ leasePending (preCore (sLeased true 0)) 0 = true ∧ leasePending (preCore (sLeased false 4)) 0 = false ∧
    Ready (.lrel {}) (sLeased true 0) ∧ (queuedCmds (preStream (sLeased true 0)).qmtx).isEmpty = true := by unfold Ready; decide
def sHandler : State := at_ (withStream fun x => { x with sys := { x.sys with deleg := 2 ^ 20, trapVec := 0x30000 } })
theorem witness_faults : (preStream sHandler).sys.deleg.getLsbD (causeCode .divide) = true ∧ (preStream sHandler).sys.trapVec ≠ 0 ∧
    (preStream sHandler).sys.inh = false ∧ (3 : Nat) < 2 ^ 16 ∧ ¬ (preStream s0).sys.deleg.getLsbD (causeCode .divide) = true := by decide
theorem witness_fault_return : (getStream (devOf kStopped) 0 0).sys.cause.getLsbD 8 = true ∧ (getStream (devOf kStopped) 0 0).link = some 7 ∧
    (findRun (getCore (devOf kStopped) 0) 7).isSome = true ∧ (getStream (devOf k0) 0 0).sys.cause.getLsbD 8 = false := by decide

/-! ### Standing rules, launches and engine commands -/

/-- The bytes of a number from offset 0x100 of a scratchpad on. -/
def spmOf (n v : Nat) : List Host.Cell := Sparse.ofList 0 ((Bits.toBytes n v).zipIdx.map fun p => (0x100 + p.2, p.1))
def localDesc : Nat := 0x8000000000000200 + 64 * 2 ^ 64 + 64 * 2 ^ 96 + 4 * 2 ^ 128 + 2 ^ 160 + 3 * 2 ^ 161
def globalDesc (scope : Nat) : Nat := 0x8000000000000200 + 64 * 2 ^ 64 + 64 * 2 ^ 96 + 4 * 2 ^ 128 + scope * 2 ^ 161 + 0x2000 * 2 ^ 192
def axisNo (local' closed : Bool) : Axis :=
  { base := 0x8000000000000200, stride := 64, sbytes := 64, cap := 4, isLocal := local', scope := 3, commit := if local' then 0 else 0x2000, retire := 0
    n := 5, closed := closed, retired := 5 }
def ruleNo (st : RuleState) (held : Bool) : Rule :=
  { op := .vec .vmov, f := { fn := 0x2A, d := 16, s1 := 16 }, regD := 0, regS1 := 0, regS2 := 0, regS3 := 0, axis := 1, owner := 0, rank := 255, seq := 0
    first := 5, next := 5, horizon := 9, state := st, held := held }
def sAxis (desc : Nat) : State := at_ { k0 with spm := spmOf 64 desc }
def kRule (st : RuleState) (held : Bool) : Core := { k0 with axes := [(1, axisNo true false), (2, axisNo true true), (3, axisNo false false)], rules := [(0, ruleNo st held)] }
def sRule : State := at_ (kRule .active false)
def sHeld : State :=
  at_ { kRule .suspended true with running := [{ cmd := { op := .vec .vmov, f := {}, age := 3, firing := some (0, 5) }, held := true, stopped := some { cause := .poison } }] }
theorem witness_axis_definition : Ready (.oaxdef { d := 15, s1 := 1 }) (sAxis localDesc) ∧ srcA (sAxis localDesc) 1 ≠ 0 ∧
    checkDescriptor (sAxis localDesc) (srcA (sAxis localDesc) 1) = .go (.spm 0 0x100 true) ∧
    descriptorOk localDesc (readDescriptor localDesc) = true ∧ descriptorSpace (readDescriptor localDesc) = none ∧ (readDescriptor localDesc).isLocal = true ∧
    descriptorOk (globalDesc 3) (readDescriptor (globalDesc 3)) = true ∧ descriptorSpace (readDescriptor (globalDesc 3)) = none ∧
    (translateFor (sAxis (globalDesc 3)).dev 0 0x2000 .read).isOk = true ∧
    (freeWatch (sAxis (globalDesc 3)).dev (homeSlice (sAxis (globalDesc 3)).dev 0x2000)).isSome = true ∧ (readDescriptor (globalDesc 6)).scope = 6 ∧
    descriptorOk (globalDesc 7) (readDescriptor (globalDesc 7)) = false ∧
    descriptorSpace (readDescriptor (globalDesc 3 + 2 ^ 252)) = some (readDescriptor (globalDesc 3 + 2 ^ 252)).commit ∧
    Ready (.oaxdef { d := 1, s1 := 3 }) sRule ∧ srcA sRule 3 = 0 ∧ (∃ p ∈ (curCore sRule).rules, p.2.axis = 1) ∧
    (∀ p ∈ (curCore sRule).rules, p.2.axis ≠ 2) := by unfold Ready; decide +kernel
/-- A local descriptor whose retire word lies in another slot's persistent region. -/
def retireDesc : Nat := localDesc + 0x8000000000010000 * 2 ^ 256
theorem witness_foreign_retire : Ready (.oaxdef { d := 15, s1 := 1 }) (withForeign (sAxis retireDesc)) ∧
    descriptorOk retireDesc (readDescriptor retireDesc) = true ∧ descriptorSpace (readDescriptor retireDesc) = none ∧ tagOf (readDescriptor retireDesc).retire = 8 ∧
    foreignRegion (withForeign (sAxis retireDesc)).dev 0 ((readDescriptor retireDesc).retire.toNat % 2 ^ 22) 8 = true := by unfold Ready; decide +kernel
theorem test_foreign_retire : after (exec (.oaxdef { d := 15, s1 := 1 }) (withForeign (sAxis retireDesc))) causeOf = some 8 := by decide +kernel
def sInstall : State := { sRule with cur := { sRule.cur with body := some (.vmov { fn := 0x2A, d := 17, s1 := 17 }) } }
theorem witness_rule_installation : Ready (.install { s1 := 1, imm := 63 }) sInstall ∧ legalBody false 1 (.vmov { fn := 0x2A, d := 17, s1 := 17 }) = true ∧
    engineOf (.vmov { fn := 0x2A, d := 17, s1 := 17 }) = some (.vec .vmov, { fn := 0x2A, d := 17, s1 := 17 }) ∧
    findAxis (curCore sInstall) 0 = none ∧ findAxis (curCore sInstall) 1 = some (axisNo true false) ∧ findRule (curCore sInstall) 0 ≠ none ∧
    findRule (curCore sInstall) 63 = none ∧ (axisNo true false).n < 2 ^ 64 - 1 := by unfold Ready; decide
theorem witness_rule_control : findRule (curCore sRule) 1 = none ∧ Ready (.revoke { imm := 1 }) sRule ∧ Ready (.rresume { imm := 1 }) sRule ∧
    Ready (.rsusp { imm := 1 }) sRule ∧ Ready (.rstat { d := 5, imm := 1 }) sRule ∧ findRule (preCore sRule) 0 = some (ruleNo .active false) ∧
    Ready (.rstat { d := 5, fn := 4, imm := 0 }) sRule ∧ Ready (.rsusp { imm := 0 }) sRule ∧ Ready (.revoke { fn := 1, imm := 0x400 }) sRule ∧
    Ready (.rresume { fn := 1, imm := 0 }) sHeld ∧ findRule (curCore sHeld) 0 = some (ruleNo .suspended true) ∧
    (∃ v ∈ (curCore sHeld).running, v.held = true ∧ v.cmd.firing = some (0, 5)) := by unfold Ready; decide
theorem witness_slice_commits : Ready (.slcommit { s1 := 1, imm := 1 }) sRule ∧ findAxis (curCore sRule) 1 = some (axisNo true false) ∧
    findAxis (curCore sRule) 2 = some (axisNo true true) ∧ findAxis (curCore sRule) 3 = some (axisNo false false) ∧ findAxis (curCore sRule) 4 = none ∧
    Ready (.slcommit { fn := 1, s1 := 3, s2 := 1 }) sRule ∧
    (translateFor sRule.dev 0 ((axisNo false false).commit.toNat % 2 ^ 60) .write).isOk = true ∧ homePoisoned sRule.dev 0x2000 8 = false ∧
    Ready (.slwait { s1 := 1, imm := 5 }) sRule ∧ 5 ≤ (axisNo true false).retired ∧ Ready (.slwait { fn := 1, s1 := 1, s2 := 2 }) sRule ∧
    (axisNo true false).retired < (srcS sRule 2).toNat := by unfold Ready; decide

/-- A record of one point on bay 0 with its entry at 0x10000, and a function that may hold one launch. -/
def record : Nat := 0x10000 + 2 ^ 64 + 2 ^ 96 + 2 ^ 128 + 2 ^ 233 + 2 ^ 256 + 255 * 2 ^ 288
def launchOf' (serial tenant : Nat) : Launch :=
  { serial := serial, tenant := tenant, nrec := BitVec.ofNat 1024 record, prio := 0, scope := 3, acq := 0, rel := 0, entryPc := 0x10000, deps := [], source := .instr, vf := {} }
def sLaunch (quota : Nat) (spm : Nat) (l : List (Nat × Launch)) : State :=
  let d := { devOf { k0 with spm := spmOf 128 spm, clusters := [(0, { s := [(1, 256 * 9), (2, 256 * 9 + 1)], a := [(1, 0x8000000000000100)] })] } with
    vfs := [(0, { en := true, lquota := quota, bays := 0xFFFFF })], launches := l }
  { at_ k0 with dev := d, pre := d }
theorem witness_launch_submission : Ready (.launch { d := 5, s1 := 1, s2 := 0 }) (sLaunch 1 record []) ∧
    checkRecord (sLaunch 1 record []) 0x8000000000000100 = .go (.spm 0 0x100 true) ∧
    recordFault (sLaunch 1 record []).dev 0 false (BitVec.ofNat 1024 record) = none ∧ canAdmit (sLaunch 1 record []).dev 0 (BitVec.ofNat 1024 record) = true ∧
    canAdmit (sLaunch 0 record []).dev 0 (BitVec.ofNat 1024 record) = false ∧ (recordFault (sLaunch 1 0 []).dev 0 false 0).isSome = true ∧
    srcS (sLaunch 1 record [(0, launchOf' 9 1)]) 1 ≠ 0 ∧
    ((liveSerial (sLaunch 1 record [(0, launchOf' 9 1)]).dev (256 * 9)).any fun l => l.tenant ≠ 0) = true := by unfold Ready; decide +kernel
def sPoint : State :=
  let d := { devOf (withStream fun x => { x with point := some { launch := 1, serial := 9, o := 0, m := 0, n := 0, rank := 0, base := 0, size := 1, tick := 0 } }) with
    launches := [(0, launchOf' 9 1), (1, launchOf' 9 0)] }
  { at_ k0 with dev := d, pre := d }
theorem witness_launch_reads : Ready (.frread { d := 5, fn := 4, s1 := 2, s2 := 0 }) (sLaunch 1 0 [(0, launchOf' 9 1), (1, launchOf' 9 0)]) ∧
    srcS (sLaunch 1 0 [(0, launchOf' 9 1), (1, launchOf' 9 0)]) 2 = 256 * 9 + 1 ∧ getLaunch sPoint.dev 1 = some (launchOf' 9 0) ∧
    getLaunch sPoint.dev 0 = some (launchOf' 9 1) ∧ Ready (.ptinfo { d := 5, fn := 7 }) sPoint ∧
    (preStream sPoint).point.map (fun p => (p.launch, p.serial)) = some (1, 9) := by unfold Ready; decide +kernel
theorem witness_vector_length : Ready (.vsetl { d := 5, fn := 0x3C, imm := 16384 }) s0 ∧ Ready (.nset { s1 := 1, s2 := 2, s3 := 3, imm := 5 }) s0 ∧ Ready (.nclr {}) s0 := by
  unfold Ready; decide

/-- One command of each engine on a stream whose queues are bound; a full range checker and a full queue; and commands that fail a check. -/
def sVl : State := at_ (withStream fun x => { bind3 false x with sys := { x.sys with vl := 16 } })
def accepts (i : Instr) (s : State) : Bool :=
  match engineOf i with
  | some (o, f) => legal (isSplit s) i && gateOpen (fieldsOf i) s && (commandRanges s.dev s.cur.core (captureCmd s o f)).isOk &&
      !queueFull (getQueue (curStream s) (queueOf o)) && !checkerFull (curCore s)
  | none => false
theorem witness_vector_command : accepts (.vadd { d := 3, s1 := 1, s2 := 2 }) sVl = true := by decide
theorem witness_s_form_command : accepts (.vadd { fn := 0x20, d := 1, s1 := 1, s2 := 1 }) sVl = true := by decide
theorem witness_matrix_command : accepts (.aclr { d := 3 }) sVl = true := by decide
theorem witness_product : accepts (.mma { s1 := 1, s2 := 1, s3 := 1, imm := 0x11000000 }) sVl = true := by decide
theorem witness_copy_command : accepts (.cpy { d := 1, s1 := 2, s2 := 1 }) sVl = true := by decide
theorem witness_commands_refused : accepts (.vadd { d := 3, s1 := 1, s2 := 2 }) s0 = false ∧ (getQueue (curStream s0) .vec).bound = none ∧
    accepts (.vadd { d := 3, s1 := 1, s2 := 2, imm := 0x800000 }) sVl = true ∧ Ready (.vadd { d := 3, s1 := 1, s2 := 2 }) sQFull ∧
    queueFull (getQueue (curStream sQFull) .cpy) = true := by unfold Ready; decide

/-! ### Events of engines, cores and dispatchers -/

/-- A state on a device, and the state that a result goes on to. -/
def on (d : Dev) : State := { at_ k0 with dev := d, pre := d }
def goOn (r : Result) : State := match r with | .next t => t | _ => {}
/-- The vector command of `sVl` queued, and started; and the one run of core 0 as it is changed. -/
def sQueued : State := goOn (exec (.viadd { fn := 0x0A, d := 3, s1 := 1, s2 := 2 }) sVl)
def sRunning : State := goOn (exec (.commandStart 0 0 .vec) sQueued)
def kRun (r : Run) : Core := withStream (bind3 false) { k0 with running := [r] }
def sRun (r : Run) : State := on (devOf (kRun r))
theorem witness_command_start : (startable (popFences (getCore sQueued.dev 0) 0 .vec) 0 .vec).isSome = true ∧
    turnAllows (popFences (getCore sQueued.dev 0) 0 .vec) 0 .vec = true ∧ (∃ x ∈ startable (popFences (getCore sQueued.dev 0) 0 .vec) 0 .vec, x.firing = none) ∧
    (getCore sRunning.dev 0).running.length = 1 := by decide +kernel
def runClear : Run := { cmd := { op := .mat .aclr, f := { d := 1 } }, picked := true }
def runIadd : Run := { cmd := { op := .vec .viadd, f := { fn := 0x0A, d := 3, s1 := 1, s2 := 2 }, vl := 16, vcnt := 16 }, tyA := .i32, tyB := .i32, tyD := .i32, picked := true }
theorem witness_command_completion : liveRun (sRun runIadd).dev 0 0 = some runIadd ∧ blocksLeft runIadd = false ∧
    (runVector (sRun runIadd).dev 0 .viadd runIadd).fault = none ∧ liveRun (sRun runClear).dev 0 0 = some runClear ∧
    (runMatrix (sRun runClear).dev 0 .aclr runClear).fault = none := by decide +kernel
def runCopied : Run := { cmd := { op := .cpy .cpy, f := { d := 1, s1 := 2, s2 := 1, imm := 0x1023 } }, done := true }
theorem witness_copy_visibility : findRun (getCore (sRun runCopied).dev 0) 0 = some runCopied ∧ copyWritten (sRun runCopied).dev 0 runCopied = true ∧
    (visibilityPost runCopied.cmd).isSome = true := by decide +kernel
def runMma : Run := { cmd := { op := .mat .mma, f := { s1 := 1, s2 := 1, s3 := 1, imm := 0x11000000 }, regS3 := 64 }, picked := true }
def runFill : Run :=
  { cmd := { op := .cpy .cpyf, f := { d := 1, s1 := 2, s2 := 1 }, regD := 0x8000000000000100, regS1 := 0x0102030405060708, regS2 := 64, nest := List.replicate 6 {} } }
theorem witness_blocks_and_pieces : liveRun (sRun runMma).dev 0 0 = some runMma ∧ blocksLeft runMma = true ∧
    arrayTurn (getCore (sRun runMma).dev 0) runMma = true ∧ liveRun (sRun runFill).dev 0 0 = some runFill ∧ isKv .cpyf = false ∧ piecesLeft runFill = true ∧
    sideOf (sRun runFill).dev 0 runFill.cmd runFill.cmd.regD = some (.spm 0 0x100 true) ∧ cpyW runFill.cmd = false ∧
    pieceSpan runFill.cmd runFill.piece = (0, 64) ∧ nestOffset (dstLevels runFill.cmd) runFill.step none = 0 := by decide +kernel
def contrib : Contribution := { core := 0, off := 0x100, mask := 3, rank := 0, src := 0, age := 0, add := false, data := [1, 0, 0, 0], word := none, zero := false }
def sContrib : State := on { devOf k0 with combining := [contrib] }
def sMtx (l : Option Lease) (b : Bool) : State :=
  let y : List QEntry := if b then [.cmd { op := .mat .aclr, f := {} }] else []
  on (devOf { k0 with split := true, lease := l, streams := [(0, { run := .running, qmtx := { bound := some { base := 0x10000, depth := 4 }, entries := y } })] })
theorem witness_contributions_and_leases : sContrib.dev.combining[0]? = some contrib ∧
    gathered { sContrib.dev with combining := [{ contrib with done := true }] } { contrib with done := true } = none ∧
    (turnsAfter 3).find? (fun j => (startable (getCore (sMtx none true).dev 0) j .mtx).isSome) = some 0 ∧
    startable (getCore (sMtx (some { holder := 0, len := 16, used := 4, explicit := false }) false).dev 0) 0 .mtx = none := by decide +kernel

def pend : PendingFault := { age := 7, cause := .divide }
def sPend (ret : Option Bool) (deleg : BitVec 26) : State :=
  on (devOf (withStream fun x => { x with faults := [pend], ret := ret, sys := { x.sys with deleg := deleg, trapVec := 0x30000, epc := 0x20000 } }))
theorem witness_fault_events : oldestFault (getStream (sPend none 0).dev 0 0).faults = some pend ∧ (getStream (sPend none 0).dev 0 0).ret = none ∧
    (getStream (sPend none (2 ^ 20)).dev 0 0).sys.deleg.getLsbD (causeCode pend.cause) = true ∧ (getStream (sPend (some true) 0).dev 0 0).ret = some true ∧
    (getStream (sPend (some false) 0).dev 0 0).ret = some false ∧ axisBlocks (getCore (sPend none 0).dev 0) (getStream (sPend none 0).dev 0 0) = false := by decide +kernel
/-- R299: a stream whose SLCOMMIT still owes firings takes no fault before they are enqueued. -/
def kOwed : Core := { withStream (fun x => { x with waitAxis := [(1, 6)] }) (kRule .active false) with axes := [(1, { axisNo true false with n := 6 })], rules := [(0, ruleNo .active false)] }
theorem witness_owed_firings : axisBlocks (getCore (devOf kOwed) 0) (getStream (devOf kOwed) 0 0) = true := by decide +kernel
def sCoreEvent : State := on { devOf { k0 with l1dirty := [(0x2001, 7)] } with arrivals := [{ core := 0, off := 0x100, n := 2 }] }
theorem witness_core_events : sCoreEvent.dev.arrivals[0]? = some { core := 0, off := 0x100, n := 2 } ∧ ([7] : List Byte) ≠ [] ∧
    (∃ p ∈ (getCore sCoreEvent.dev 0).l1dirty ++ (getCore sCoreEvent.dev 0).l1clean, p.1 / 64 = 0x80) ∧ region 0x2001 ≠ 3 ∧
    Sparse.find? (getCore sCoreEvent.dev 0).icache 0x400 = none ∧ (translateFor sCoreEvent.dev 0 0x10000 .fetch).isOk = true ∧
    (translateFor sCoreEvent.dev 0 0x400000 .fetch).isOk = false ∧ homePoisoned sCoreEvent.dev 0x10000 64 = false := by decide +kernel
def watchOf (l : Nat) (owed : Bool) (ten : Bool) : Watch := { ownedBy l owed with arg := 0x100, ten := ten, tok := 3 }
def sWatch : State :=
  let p : Point := { launch := 0, serial := 1, o := 0, m := 0, n := 0, rank := 0, base := 0, size := 1, tick := 0 }
  on { devOf { withStream (fun x => { x with point := some p }) with axes := [(1, { axisNo false false with watch := some 5, note := true })] } with
    watches := [(3, watchOf 0 false true), (4, { watchOf 0 true true with owner := .point 0 0 1 0 0 0 }), (5, { watchOf 0 false false with owner := .axis 0 1 })] }
theorem witness_watch_events : Sparse.find? sWatch.dev.watches 3 = some (watchOf 0 false true) ∧ 0x2000 < (0x2000 : Nat) + 8 * (0 + 1) ∧
    watchHolds sWatch.dev (watchOf 0 false true) = true ∧ (∃ q ∈ pointPlaces sWatch.dev 0 1 0 0 0, q.1 = 0) ∧
    (getToken (getCore sWatch.dev 0) 3).count.toNat < (getToken (getCore sWatch.dev 0) 3).ceiling.toNat ∧
    (∃ a ∈ findAxis (getCore sWatch.dev 0) 1, a.note = true ∧ a.watch = some 5) := by decide +kernel
/-- R327: a note that has come to lie in another slot's persistent region is not written. -/
theorem test_foreign_note : (after (exec (.notification 4) (on { sWatch.dev with mem := [(0x2000, 9)], slots := [(7, { foreignSlot with poff := 0 })] })) fun t => spmByte t.dev 0 0x100) = some 0 ∧
    (after (exec (.notification 4) (on { sWatch.dev with mem := [(0x2000, 9)] })) fun t => spmByte t.dev 0 0x100) = some 9 := by decide +kernel
def ruleUp : Rule := { ruleNo .active false with f := { fn := 0x2A, d := 17, s1 := 17 } }
def sFiring : State :=
  on (devOf { withStream (bind3 false) (kRule .active false) with axes := [(1, { axisNo true false with n := 6 })], rules := [(0, ruleUp)] })
theorem witness_firing : nextRule (getCore sFiring.dev 0) 1 = some (0, ruleUp) ∧ dispatcherStopped sFiring.dev 0 = false ∧
    findRule (getCore sFiring.dev 0) 0 = some (ruleUp) ∧
    (commandRanges sFiring.dev 0 (firingCmd (getCore sFiring.dev 0) 0 (ruleUp))).isOk = true ∧
    queueFull (getQueue (coreStream (getCore sFiring.dev 0) 0) .vec) = false ∧ checkerFull (getCore sFiring.dev 0) = false := by decide +kernel

/-- A launch with release and deadline times 0, and one that stands ready on an empty part. -/
def timed : Launch := { launchOf' 9 0 with nrec := BitVec.ofNat 1024 (record + 3 * 2 ^ 235) }
def ready : Launch := { launchOf' 9 0 with released := true, w1 := 1, rows := [(0, {})] }
def sReady (l : Launch) (cores : List (Nat × Core)) : State :=
  on { devOf k0 with cores := cores, launches := [(0, l)], vfs := [(0, { en := true, lquota := 1, bays := 0xFFFFF })] }
theorem witness_timetable : recRlen timed.nrec = true ∧ recRelease timed.nrec ≤ (sReady timed []).dev.tick.toNat ∧ recDlen timed.nrec = true ∧
    recDeadline timed.nrec ≤ (sReady timed []).dev.tick.toNat ∧ launchComplete (sReady timed []).dev 0 timed = false := by decide +kernel
def freshAt (x : Option (Nat × Launch × Placing)) (n : Nat) (l : Launch) (p : Nat × Nat × Nat) (b : Nat × Nat) : Bool :=
  match x with
  | some (m, k, .fresh q c) => m = n && k = l && q = p && c = b
  | _ => false
def heldAt (x : Option (Nat × Launch × Placing)) (n : Nat) (l : Launch) (h : HeldPoint) (b : Nat) : Bool :=
  match x with
  | some (m, k, .held g c) => m = n && k = l && g = h && c = b
  | _ => false
def heldOne : HeldPoint := { o := 0, m := 0, n := 0, ctxs := [0x4000], size := 1 }
/-- The one point of a launch, placed on core 0 at a state of its stream. -/
def placed (run : RunState) (ppend : Bool) (tick : Nat) : Core :=
  { k0 with streams := [(0, { run := run, sys := { ppend := ppend }, point := some { launch := 0, serial := 9, o := 0, m := 0, n := 0, rank := 0, base := 0, size := 1, tick := tick } })] }
/-- A launch with a held point, whose record lies at 0x4000 under the number 5. -/
def sHeldPoint : State :=
  on { (sReady { ready with held := [heldOne] } []).dev with mem := [(0x4068, 5)], contexts := [(5, { core := placed .running true 0, number := 0 })] }
theorem witness_point_dispatch : freshAt (choose (sReady ready []).dev 0) 0 ready (0, 0, 0) (0, 0) = true ∧ recSplit ready.nrec = false ∧
    recGang ready.nrec = 1 ∧
    heldAt (choose sHeldPoint.dev 0) 0 { ready with held := [heldOne] } heldOne 0 = true ∧ MemoryCanonical sHeldPoint ∧ readAxes sHeldPoint.dev 0x4000 = [] ∧
    (contextAt sHeldPoint.dev 0x4000).isSome = true := by unfold MemoryCanonical; decide +kernel
/-- R333: what a record holds of a stream comes back as it was: here its loop counters, conditions, system registers, nest and queue bindings. -/
theorem test_record_of_a_stream : ∀ t ∈ [coreStream (withStream (bind3 false)) 0, coreStream kLoop 0],
    streamOfWords 0 (fun i => (streamWords {} t).getD i 0) { t with loops := [], pc := 0, sys := {}, nest := [], run := .idle, cmdIndex := 9 } = t := by decide +kernel
/-- R311, R333: so do a rule, and a stopped command with its captured nest, its step and its fault. -/
def ruleKept : Rule :=
  { op := .cpy .cpyr, f := { d := 4, s1 := 3, s2 := 9, imm := 0x882 }, regD := 5, regS1 := 6, regS2 := 7, regS3 := 8, axis := 3, owner := 2, rank := 5, seq := 11
    first := 12, next := 2 ^ 40, horizon := 99, state := .suspended, held := true, cause := 16, eaddr := 0x8000000000000040, estat := 7 }
def runKept : Run :=
  { cmd := { op := .mat .mmaz, f := { d := 1, s1 := 3, imm := 0x11000000 }, regS1 := 0x40, vl := 7, vcnt := 3, frm := .rdn, gen := 2, nest := List.replicate 6 {}
             entry := 4, index := 5, age := 6, stream := 2, split := true, firing := some (7, 8), rseq := 9 }
    tyA := .bf16, tyB := .e4m3, step := 3, piece := 1, flags := { nx := true }, stopped := some { cause := .boundTrap, step := 3, isw := 0x8A00, eaddr := 4 }
    resumed := true, picked := true, typed := true, phase := .rerun, sig := 2 ^ 500 + 1, index := some 0 }
def walkKept : Run :=
  { cmd := { op := .cpy .kvgath, f := { d := 1, s1 := 3, s2 := 4 }, regD := 0x40, nest := List.replicate 6 { count := 3, ss := 9, ds := 2 ^ 63 }, age := 6 }
    step := 70, piece := 1, block := some { page := 0x8000, s := 2 ^ 63 + 1, length := 99 } }
def contribKept : Contribution :=
  { core := 159, off := 0x3FFFC0, mask := 0x81, rank := 7, src := 2, age := 9, add := true, data := List.replicate 9 0xA5, word := some 3, zero := false, done := true }
/-- R265, R277, R331, R333: a walk with the block that it keeps and its nest, and a pending contribution. -/
theorem test_record_of_walks : runOfWords (fun i => (runWords walkKept).getD i 0) { cmd := { op := .vec .vadd, f := {}, nest := List.replicate 6 {} } } = walkKept ∧
    contribOfWords (fun i => (contribWords contribKept).getD i 0) = contribKept ∧ placesFrom runsAt [26, 47, 7] = [0xA040, 0xA110, 0xA288] := by decide +kernel
theorem test_record_of_commands : ruleOfWords (fun i => (ruleWords ruleKept).getD i 0) (fun i => (ruleTail ruleKept).getD i 0) = some ruleKept ∧
    runOfWords (fun i => (runWords runKept).getD i 0) { cmd := { op := .vec .vadd, f := {}, nest := List.replicate 6 {} } } = runKept ∧
    entryOfWords (fun i => (entryWords { runKept.cmd with reads := [(0, 63)], writes := [(64, 2 ^ 22 - 1), (0, 1)] }).getD i 0) =
      some (6, [(0, 63)], [(64, 2 ^ 22 - 1), (0, 1)]) := by decide +kernel
def busy (q : Option Preempt) : Launch := { ready with rows := [(0, { f := 1 })], preempt := q }
def pre' : Preempt := { forced := true, frontier := 0x4000, ctx := 0x10000, nctx := 4 }
theorem witness_point_done : getLaunch (sReady (busy none) [(0, placed .exited false 0)]).dev 0 = some (busy none) ∧
    pointPlaces (sReady (busy none) [(0, placed .exited false 0)]).dev 0 9 0 0 0 = [(0, 0)] ∧
    ownsRule (placed .exited false 0) 0 = false ∧ exitReady (placed .exited false 0) 0 = true ∧ rowOf (busy none) 0 = { f := 1 } ∧
    launchComplete (sReady { ready with w0 := 1, w1 := 1 } []).dev 0 { ready with w0 := 1, w1 := 1 } = true := by decide +kernel
theorem witness_saves : gangToSave (sReady (busy (some pre')) [(0, placed .running false 0)]).dev 0 = true ∧
    gangCores (sReady (busy (some pre')) [(0, placed .running false 0)]).dev 0 = [0] ∧
    (getStream (sReady (busy (some pre')) [(0, placed .running false 0)]).dev 0 0).sys.ppend = false ∧
    coreQuiet (sReady (busy (some pre')) [(0, placed .running true 0)]).dev 0 = true ∧
    linksDrained (sReady (busy (some pre')) [(0, placed .running true 0)]).dev 0 = true ∧
    launchOnCores (sReady { ready with preempt := some pre' } []).dev 0 = [] ∧ inFlight { ready with preempt := some pre' } = 0 ∧
    launchComplete (sReady { ready with preempt := some pre' } []).dev 0 { ready with preempt := some pre' } = false := by decide +kernel
/-- R339: a point whose streams have all ended is done before its gang is saved. -/
def sEnded : State := sReady (busy (some pre')) [(0, placed .exited false 0)]
theorem witness_ended_point : (0 ∈ gangCores sEnded.dev 0) ∧ (∃ q ∈ corePoints (getCore sEnded.dev 0), ∀ x ∈ placesOf sEnded.dev q.2, streamEnded sEnded.dev x = true) := by
  decide +kernel
theorem test_ended_point_not_saved : gangToSave sEnded.dev 0 = false ∧ (after (exec (.contextSave 0) sEnded) fun t => t.dev.records) = some sEnded.dev.records := by
  decide +kernel
/-- Registration table entries: entry 0 is valid for function 0, entry 1 is not. -/
def sPush (entry : Nat) : State :=
  let m := Sparse.ofList 0 ((Bits.toBytes 8 1).zipIdx.map (fun p => (0x8000 + p.2, p.1)) ++ (Bits.toBytes 128 record).zipIdx.map fun p => (0x8040 + p.2, p.1))
  let d := sReady ready []
  on { d.dev with launches := [], mem := m, pushes := [(7, entry)], ctl := { regTab := 0x8000, regN := 2 } }
theorem witness_registered_push : registeredFault (sPush 0).dev 0 = none ∧ canAdmit (sPush 0).dev 0 (regRecord (sPush 0).dev 0) = true ∧
    registeredFault (sPush 1).dev 1 = some .permission := by decide +kernel

/-! ### Packets, the Onyx die and what lies outside -/

/-- Ring 0 of function 0, privileged, active, 16 slots, TAIL at 0x3000 and slots at 0x4000, with one packet; the function's tables map [0, 2^39) to itself. -/
def ring0 : Ring := { desc := BitVec.ofNat 1024 (2 ^ 24 + 2 ^ 25 + 0x3000 * 2 ^ 128 + 0x4000 * 2 ^ 512), state := .active }
def ringDev (l : List Host.Cell) (more : List Host.Cell := []) : Dev :=
  { devOf k0 with mem := (0x3000, 1) :: l ++ more ++ [(0x100000, 0x03), (0x100001, 0x10), (0x100002, 0x10), (0x101000, 0x1D)], rings := [(0, ring0)],
                  vfs := [(0, { root := 0x100000, en := true, lquota := 1, bays := 0xFFFFF })] }
def atHead (d : Dev) (x : Nat) : Bool := match readHead d 0 with | .packet y => y = x | _ => false
/-- A packet that is read and passes its header checks. -/
def passes (d : Dev) (x : Nat) : Bool := atHead d x && (headerFault d (getRing d 0) x).isNone
/-- DEP0 names the live launch of serial 9 under number 0. -/
def dep0 : Nat := (256 * 9) * 2 ^ 256
def fencePk : List Host.Cell := [(0x4000, 3), (0x4021, 9)]
theorem witness_packet_refusals : atHead (ringDev [(0x4000, 12)]) 12 = true ∧ headerFault (ringDev [(0x4000, 12)]) (getRing (ringDev [(0x4000, 12)]) 0) 12 = some .illegalEncoding ∧ pkType 12 = 12 ∧
    headerFault (ringDev []) (getRing (ringDev []) 0) (3 + 2 ^ 27) = some .permission := by decide +kernel
theorem witness_plain_packets : passes (ringDev []) 0 = true ∧ passes (ringDev fencePk) (3 + dep0) = true ∧
    (packetDeps ring0 (3 + dep0)).all (depMet (ringDev fencePk)) = true ∧ packetDeps ring0 (3 + dep0) ≠ [] ∧
    passes { ringDev fencePk with launches := [(0, launchOf' 9 0)] } (3 + dep0) = true ∧
    ((packetDeps ring0 (3 + dep0)).any fun h => !depMet { ringDev fencePk with launches := [(0, launchOf' 9 0)] } h) = true ∧ passes (ringDev [(0x4000, 4)]) 4 = true := by decide +kernel
def launchPk (r : Nat) : Nat := 1 + r * 2 ^ 512
def recordAt (a : Nat) (slot : Byte) : List Host.Cell := [(a + 8, 1), (a + 12, 1), (a + 16, 1), (a + 29, 2), (a + 32, 1), (a + 36, slot)]
def launchCells : List Host.Cell := (0x4000, 1) :: (0x4042, 1) :: recordAt 0x4040 255
def slot5 : Slot := { owner := 0, image := 0x40000, size := 64, poff := 0, psize := 0, nrec := BitVec.ofNat 1024 (record - 0x10000 - 250 * 2 ^ 288) }
def invokePk : Nat := 2 + 5 * 2 ^ 512
theorem witness_launching_packets : passes (ringDev launchCells) (launchPk record) = true ∧
    recordFault (ringDev launchCells) 0 false (pkRecord (launchPk record)) = none ∧
    canAdmit (ringDev launchCells) 0 (pkRecord (launchPk record)) = true ∧
    canAdmit { ringDev launchCells with launches := [(0, launchOf' 9 0)] } 0 (pkRecord (launchPk record)) = false ∧
    passes (ringDev [(0x4000, 1)]) (launchPk 0) = true ∧ (recordFault (ringDev [(0x4000, 1)]) 0 false (pkRecord (launchPk 0))).isSome = true ∧
    passes (ringDev [(0x4000, 2), (0x4040, 5)]) invokePk = true ∧
    recordFaultBy { ringDev [(0x4000, 2), (0x4040, 5)] with slots := [(5, slot5)] } 0 false true (invokeRecord slot5.nrec invokePk) = none := by decide +kernel
def preemptPk : Nat := 5 + (256 * 9) * 2 ^ 512 + 2 ^ 576 + 0x10000 * 2 ^ 640 + 0x20000 * 2 ^ 704 + 4 * 2 ^ 768
def restorePk : Nat := 6 + 0x10000 * 2 ^ 512
def savedLaunch : Launch := { launchOf' 9 0 with saved := true }
def restoreDev : Dev := { ringDev [(0x4000, 6), (0x4042, 1)] [(0x10008, 1), (0x10011, 9)] with launches := [(0, savedLaunch)] }
def resumePk : Nat := 7
def resumeDev : Dev := { ringDev [(0x4000, 7)] with cores := [(0, withStream fun x => { x with suspended := true, sys := { x.sys with epc := 0x20000 } })] }
theorem witness_control_packets : passes { ringDev [(0x4000, 5), (0x4041, 9), (0x4048, 1), (0x4052, 1), (0x405A, 2), (0x4060, 4)] with launches := [(0, launchOf' 9 0)] } preemptPk = true ∧ pkWord preemptPk 64 = 256 * 9 ∧
    pkWord preemptPk 80 % 64 = 0 ∧ pkWord preemptPk 88 % 65536 = 0 ∧ coresOf { ringDev [(0x4000, 5), (0x4041, 9), (0x4048, 1), (0x4052, 1), (0x405A, 2), (0x4060, 4)] with launches := [(0, launchOf' 9 0)] } 0 ≤ pkWord preemptPk 96 ∧
    passes restoreDev restorePk = true ∧ (reloadFrontier restoreDev (pkWord restorePk 64)).isSome = true ∧ pkWord restorePk 64 % 64 = 0 ∧
    passes resumeDev resumePk = true ∧ (getStream resumeDev (pkWord resumePk 64) (pkWord resumePk 72 % 4)).suspended = true ∧ pkWord resumePk 80 % 8 ≤ 1 := by decide +kernel
def slotloadPk : Nat := 8 + 5 * 2 ^ 512 + 0x50000 * 2 ^ 640
def slotDev : Dev := ringDev [(0x4000, 8), (0x4040, 5), (0x4052, 5)] ((0x50002, 4) :: (0x50008, 64) :: recordAt 0x50040 5)
theorem witness_slots_and_rings : passes slotDev slotloadPk = true ∧ Sparse.find? slotDev.slots (pkWord slotloadPk 64 % 64) = none ∧ pkWord slotloadPk 80 % 64 = 0 ∧
    slotOk slotDev 5 (memNat slotDev (pkWord slotloadPk 80) 256) (readSlot (pkWord slotloadPk 72 % 32) (memNat slotDev (pkWord slotloadPk 80) 256)) = true ∧
    passes { ringDev [(0x4000, 9), (0x4040, 5)] with slots := [(5, slot5)] } (9 + 5 * 2 ^ 512) = true ∧
    (getRing { ringDev [] with rings := [(0, { ring0 with state := .blocked })] } 0).state = .blocked := by decide +kernel
theorem witness_function_and_ring_writes : vfRefused (ringDev []) 1 (2 ^ 65) = true ∧ vfRefused (ringDev []) 0 (2 ^ 65 + 2 ^ 69 + 2 ^ 78 + 2 ^ 84) = false ∧
    ring0.desc.getLsbD 24 = true ∧ (ring0.desc.extractLsb' 12 4).toNat < 13 ∧ (ringDev []).boot.phase = .noon := by decide +kernel
def atPhase (p : Phase) : State := on { devOf k0 with boot := { phase := p, bays := 0xFFFFF, roles := 2 } }
theorem witness_control_window : (after (exec (.controlWindowWrite 0x020 16) s0) fun t => t.dev.ctl.slipLog2n) = some 16 ∧
    (after (exec (.controlWindowWrite 0x020 17) s0) fun t => t.dev.ctl.slipLog2n) = some s0.dev.ctl.slipLog2n ∧
    (after (exec (.controlWindowWrite 0x000 0) s0) fun t => t.dev.ctl.ageLimit) = some s0.dev.ctl.ageLimit ∧
    (after (exec (.controlWindowWrite 0x000 1) s0) fun t => t.dev.ctl.ageLimit) = some 1 := by decide +kernel

theorem witness_boot : (atPhase .powerOn).dev.boot.phase = .powerOn ∧ (∃ n, (atPhase (.heldAtDawn 2)).dev.boot.phase = .heldAtDawn n) ∧
    (atPhase .dawn).dev.boot.phase = .dawn := ⟨rfl, ⟨2, rfl⟩, rfl⟩
/-- R356: a part that is held at Dawn takes no write of system software; one at Dawn does. -/
theorem test_held_part : ([Phase.heldAtDawn 2, .dawn].map fun p => (after (exec (.controlWindowWrite 0x020 16) (atPhase p)) fun t => t.dev.ctl.slipLog2n)) =
      [some (atPhase .dawn).dev.ctl.slipLog2n, some 16] ∧
    (after (step { atPhase (.heldAtDawn 2) with agenda := [.system (.tickPeriod 190)] }) fun t => t.dev.tickPeriod) = some (atPhase .dawn).dev.tickPeriod := by decide +kernel
def sLink : State := on { devOf k0 with links := [(0, { up := true })], boot := { phase := .noon, roles := 2, clockMhz := 1800 } }
theorem witness_thermal_and_links : sLink.dev.boot.phase = .noon ∧ sLink.dev.boot.clockMhz < 1900 ∧ 1200 < sLink.dev.boot.clockMhz ∧ (getLink sLink.dev 0).up = true := by decide
def ringGroup : RingGroup := { members := [(0x6000, 0x6008), (0x7000, 0x7008)], timeout := 10 }
theorem witness_ring_groups : ringGroup.members[0]? = some (0x6000, 0x6008) ∧ ringGroup.members[(0 + 1) % ringGroup.members.length]? = some (0x7000, 0x7008) ∧
    stepWord { devOf k0 with mem := [(0x6000, 1)], groups := [(0, ringGroup)] } (0x7000, 0x7008) <
      stepWord { devOf k0 with mem := [(0x6000, 1)], groups := [(0, ringGroup)] } (0x6000, 0x6008) := by decide
theorem witness_outside_writes : hasIo sLink.dev = true ∧ (∃ i < 16, (getLink sLink.dev i).up = true) ∧ region 0x2000 = 0 ∧ ([7] : List Byte) ≠ [] ∧
    0x2000 % (32 / 8) = 0 ∧ homePoisoned sLink.dev 0x2000 (32 / 8) = false := by decide
/-- R132, R344: what another package publishes at TENANT of function 3 reaches its board, 11. -/
theorem test_remote_post : (after (exec (.remoteLinkRequest (.post (some 3) 5)) sLink) fun t => ((getBoard t.dev 11).head, (getBoard t.dev 11).sigs, (getBoard t.dev 5).head)) =
    some (1, [5], 0) := by decide +kernel
/-- R355: steps 1 and 2 of a member are overdue; each raises one ring-timeout. -/
def sOverdue : State := on { devOf k0 with mem := [(0x6000, 2)], groups := [(0, { ringGroup with reached := [(0, (1, 5)), (0, (2, 6))] })], tick := 20 }
theorem test_ring_timeouts : [sOverdue, goOn (exec (.ringTimeout 0 0) sOverdue), goOn (exec (.ringTimeout 0 0) (goOn (exec (.ringTimeout 0 0) sOverdue)))].map
      (fun s => (after (exec (.ringTimeout 0 0) s) fun t => (memNat t.dev 0x6008 8, (Sparse.get t.dev.groups ringGroup 0).raised))) =
    [some (2 ^ 62 + 1, [(0, 1)]), some (2 ^ 62 + 2, [(0, 1), (0, 2)]), some (2 ^ 62 + 2, [(0, 1), (0, 2)])] := by decide +kernel

/-! ### Bytes, bundles and elements -/

/-- A core whose instruction cache holds the sector of 0x10000 with an encoded list of instructions at an offset, and the next sector. -/
def codeCore (off : Nat) (l : List Instr) (k : Core := k0) : Core :=
  let b := List.replicate off 0 ++ l.flatMap encode
  let c := b ++ List.replicate (128 - b.length) 0
  { k with icache := [(0x400, .bytes (c.take 64)), (0x401, .bytes (c.drop 64))] }
def codeState (off : Nat) (l : List Instr) (k : Core := k0) : State :=
  { dev := devOf (modCoreStream (codeCore off l k) 0 fun x => { x with pc := BitVec.ofNat 64 (0x10000 + off) }), agenda := [.issue 0 0] }
def fetches (s : State) (pc : Nat) (i : Instr) (n : Nat) : Bool :=
  match fetchAt s.dev 0 pc with | (d, .word j m) => j = i && m = n && d = s.dev | _ => false
def addWord : Instr := .add { d := 5, s1 := 1, s2 := 2 }
theorem witness_bytes_fetched : fetches (codeState 0 [addWord]) 0x10000 addWord 4 = true ∧ fetches (codeState 62 [addWord]) 0x1003E addWord 4 = true := by decide +kernel
theorem witness_one_instruction : canIssue (codeState 0 [addWord]).dev 0 0 = true ∧ (getStream (codeState 0 [addWord]).dev 0 0).pc = 0x10000 ∧
    legal false addWord = true ∧ isTransfer addWord = false ∧ compositionOk [(0, addWord)] = true := by decide +kernel
theorem test_step_add : after (step (codeState 0 [addWord])) (fun t => (sreg 5 t, (strm t).pc)) = some (12, 0x10004) := by decide +kernel
theorem witness_bundle : (gatherAt (codeState 0 [.addB2 false 1 2, .xmov { d := 2, s1 := 1 }]).dev 0 false 0x10000).fault = none ∧
    ((gatherAt (codeState 0 [.addB2 false 1 2, .push { s1 := 1 }]).dev 0 false 0x10000).fault.any fun f => f.poison.isNone) = true ∧ s0.status = .going ∧
    (after (exec addWord s0) fun _ => true) = some true := by decide +kernel
/-- R63, R88: XMOV in slot 1 reads s1 of cluster 0 as it stood before the bundle, whose slot 0 adds s2 = 7 to it. -/
theorem test_bundle_reads_before : after (step (codeState 0 [.addB2 false 1 2, .xmov { d := 2, s1 := 1 }])) (fun t => (sreg 1 t, sreg 2 t, (strm t).pc)) = some (12, 5, 0x10006) := by
  decide +kernel
def sDelay (left : Nat) (target : Option Word) : State := at_ (withStream fun x => { x with delay := some { left := left, at_ := 0x10000, target := target } })
theorem witness_delay_slots : (preStream (sDelay 2 none)).delay = some { left := 2, at_ := 0x10000, target := none } ∧ (preStream s0).delay = none ∧
    (preStream (sDelay 1 none)).delay = some { left := 1, at_ := 0x10000, target := none } ∧
    (preStream (sDelay 1 (some 0x10100))).delay = some { left := 1, at_ := 0x10000, target := some 0x10100 } ∧ (0x10100 : Word).extractLsb' 60 4 = 0 := by decide
/-- Two cores of a gang: the stream of core 1 has stopped at a DBGBRK. -/
def sGroupStop : State :=
  let p (rank : Nat) : Point := { launch := 0, serial := 1, o := 0, m := 0, n := 0, rank := rank, base := 0, size := 2, tick := 0 }
  let d := { devOf k0 with cores := [(0, withStream fun x => { x with point := some (p 0) }), (1, withStream fun x => { x with point := some (p 1), suspended := true, debugStop := true })] }
  { at_ k0 with dev := d, pre := d }
theorem witness_group_end : ∃ p, (curStream sGroupStop).point = some p ∧ (1, 0) ∈ placesOf sGroupStop.dev p ∧ (getStream sGroupStop.dev 1 0).debugStop = true :=
  ⟨{ launch := 0, serial := 1, o := 0, m := 0, n := 0, rank := 0, base := 0, size := 2, tick := 0 }, by decide +kernel, by decide +kernel, by decide +kernel⟩
def idle (k : Core) : State := { codeState 0 [addWord] k with agenda := [] }
theorem witness_turns : (idle k0).agenda = [] ∧ canIssue (idle k0).dev (idle k0).focus.1 (idle k0).focus.2 = true ∧
    (after (step { idle k0 with agenda := [.issue 0 0] }) fun t => t.status) = some .going ∧ isEncoded .frameTick = false ∧
    (after (step { codeState 0 [.twait { d := 3 }] with agenda := [.issue 0 0] }) fun t => t.status) = some .stalled := by decide +kernel
/-- A stream that has issued its turn and one that has not; and an event of a core that can happen. -/
theorem witness_focus : Sparse.sorted (idle k0).dev.cores = true ∧ issuers (idle k0).dev = [(0, 0)] ∧ (∃ k, (0, k) ∈ (idle k0).dev.cores) := by
  refine ⟨by decide +kernel, by decide +kernel, _, List.mem_singleton_self _⟩
theorem witness_core_turn : (fun d => deliverPending d 0 0) ∈ coreEvents 0 ∧ (deliverPending (sPend none 0).dev 0 0).isSome = true ∧
    Sparse.sorted (sPend none 0).dev.cores = true := by
  refine ⟨?_, by decide +kernel, by decide +kernel⟩
  simp only [coreEvents, List.mem_append, List.mem_flatMap]
  exact .inl (.inl (.inl ⟨0, by decide, .tail _ (.tail _ (.head _))⟩))
/-- Turns of system software: a legal TICK_PERIOD, one that is not, and a ring group. -/
theorem test_system_turns : (after (step { idle k0 with agenda := [.system (.tickPeriod 190)] }) fun t => t.dev.tickPeriod) = some 190 ∧
    (after (step { idle k0 with agenda := [.system (.tickPeriod 189)] }) fun t => t.dev.tickPeriod) = some 1900 ∧
    (after (step { idle k0 with agenda := [.system (.ringGroup 3 [(64, 128)] 5)] }) fun t => t.dev.groups) = some [(3, { members := [(64, 128)], timeout := 5 })] := by
  decide +kernel
/-- A bundle that stalls at its TWAIT notes it. -/
theorem witness_wait_noted : (after (step (codeState 0 [.twait { d := 3 }])) fun t => (strm t).wait.map fun w => (w.1, w.2.map (·.2.2))) = some (some (0, [.twait { d := 3 }])) := by decide +kernel
theorem witness_encoded : isEncoded addWord = true ∧ shortLimits addWord = true ∧ isEncoded (.addB2 true 15 15) = true ∧ shortLimits (.addB2 true 15 15) = true ∧
    internalOf (.addB2 true 15 15) ≠ none ∧ isEncoded (.mma { s1 := 255, imm := 0xFFFFFFFF }) = true ∧ decode [0x84, 0x82, 0x18, 0x00] ≠ .error .truncated ∧
    shortOf (.ld { fin := false, d := 2, s1 := 3 }) = none := by decide +kernel
theorem witness_refused_words : 248 ≤ (0xF8 : Byte).toNat ∧ (0x20 : Byte).toNat < 128 ∧ 16 ≤ (0x20 : Byte).toNat / 2 % 32 ∧
    formFits .b4 0x1F {} = true ∧ ofOpcode 0x1F {} = none ∧ formFits .b12 0xFF { imm := 0xFFFFFFFF } = true ∧ ofOpcode 0xFF { imm := 0xFFFFFFFF } = none := by decide +kernel
theorem witness_checks_and_gates : legal false (.add { fn := 8 }) = false ∧ legal (isSplit s0) (.add { d := 5, s1 := 1, s2 := 1, pred := 1 }) = true ∧
    gateOpen { d := 5, s1 := 1, s2 := 1, pred := 1 } s0 = false ∧ legal (isSplit s0) (.br { s2 := 0, pred := 1 }) = true ∧ isTransfer (.br { s2 := 0, pred := 1 }) = true := by decide
theorem witness_precision : matNames runMma.cmd = some 0 ∧ claimed k0 0 = false ∧ claimed { k0 with accPrec := [(1, .a2x32)] } 0 = true ∧
    precOf k0 0 = .clear ∧ precOf { k0 with accPrec := [(0, .i32)] } 0 = .i32 := by decide
theorem witness_vector_elements : tyInt .i8 = true ∧ (vecCtx 0 .viadd runIadd).tyD = .i32 ∧ (vecCtx 0 .viadd runIadd).wd = 32 ∧ (5 : Nat) < 2 ^ 32 := by decide
/-- Table 8.5: VIADD with X[0] saturates at the ends of i8. -/
theorem test_viadd_saturates : (vecElem { core := 0, o := .viadd, x := { op := .vec .viadd, f := { s3 := 1 } }, tyD := .i8, tyS := .i8, wd := 8, w1 := 8, n := 4 } 0x7F 1 0 true).bits = 0x7F := by
  decide +kernel
theorem test_viadd_wraps : (vecElem { core := 0, o := .viadd, x := { op := .vec .viadd, f := {} }, tyD := .i8, tyS := .i8, wd := 8, w1 := 8, n := 4 } 0x7F 1 0 true).bits = 0x80 := by
  decide +kernel
theorem witness_rounding : tyFloat .e4m3 = true ∧ (0x7E : Nat) < 2 ^ tyWidth .e4m3 ∧ fvalIsNan (elemValue .e4m3 0x7E) = false ∧ (0 : ℚ) ≤ 1 / 3 ∧ (1 / 3 : ℚ) ≤ maxFinite .e4m3 := by decide +kernel
/-- Table 7.1: the MAX of e4m3 is 448. -/
theorem test_e4m3_max : fvalRat (elemValue .e4m3 0x7E) = 448 := by decide +kernel
theorem witness_memory_canonical : MemoryCanonical State.reset ∧ MemoryCanonical { s0 with dev := { s0.dev with mem := [(3, 7)] } } := by unfold MemoryCanonical; decide
theorem witness_step_from_a_listed_memory : (after (step { codeState 0 [.st { s1 := 2, s2 := 1 }] with agenda := [.issue 0 0] }) fun t => memWf t.dev.mem) = some true := by decide +kernel

/-! ### Data of the engines, and clauses with states of their own -/

/-- The operands of the checks at enqueue: a1 lies at 0x100 and a15 at 0x800 of the own scratchpad. -/
theorem witness_enqueue_checks : Ready (.vld { fn := 0x0A, d := 3, s1 := 1 }) sVl ∧ Ready (.mma { fn := 0x20, s1 := 1, s2 := 15, s3 := 2, imm := 0x66000000 }) sVl ∧
    Ready (.cpy { d := 15, s1 := 1, s2 := 2, s3 := 1, fn := 1 }) sVl ∧ LocalAddress (srcA sVl 1) 0x100 ∧ LocalAddress (srcA sVl 15) 0x800 ∧ matPrecOf ((0x20 : BitVec 6).extractLsb' 4 2).toNat = .i32 ∧
    (srcS sVl 2).getLsbD 63 = false ∧ (srcS sVl 2).getLsbD 62 = false ∧
    cmdPlace sVl.dev 0 (captureCmd sVl (.cpy .cpy) { d := 15, s1 := 1, s2 := 2, s3 := 1, fn := 1 }) (srcA sVl 1) = some (.spm 0 0x100 true) := by
  unfold LocalAddress Ready; decide

/-- A VLD of 16 elements from a peer's bound queue region. -/
def sPeerQueue : State :=
  let k := modCoreStream kGang 0 fun x => { x with sys := { x.sys with vl := 16 } }
  let d := { devOf k with cores := [(0, k), (1, { gangSize := 2, streams := [(0, { run := .running, qvec := { bound := some { base := 0x100, depth := 4 } } })] })] }
  { at_ k with dev := d, pre := d }
theorem witness_peer_queue : Ready (.vld { fn := 0x0A, d := 3, s1 := 1 }) sPeerQueue ∧ touchesQueue (getCore sPeerQueue.dev 1) 0x100 64 = true ∧
    cmdPlace sPeerQueue.dev 0 (captureCmd sPeerQueue (.vec .vld) { fn := 0x0A, d := 3, s1 := 1 }) (srcA sPeerQueue 1) = some (.spm 1 0x100 false) ∧
    ∀ t ∈ tokenNames { fn := 0x0A, d := 3, s1 := 1 }, t < (curCore sPeerQueue).tquota := by unfold Ready; decide
/-- A product of a block at 0 by one at 0x10000 of the scratchpad, in I32 on i8 elements, or in A32 on bf16 elements. -/
def runBlock (ph : RunPhase) (prec : Nat := 0x20) (ty : Ty := .i8) : Run :=
  { runMma with cmd := { runMma.cmd with f := { runMma.cmd.f with fn := BitVec.ofNat 6 prec }, regS1 := 0x8000000000000000, regS2 := 0x8000000000010000, regS3 := 1 }
                tyA := ty, tyB := ty, phase := ph }
def sProduct (r : Run) (p : Precision) : State := on (devOf { kRun r with accPrec := [(0, p)] })
theorem unpoisoned_k0 (r : Run) (l : List (Nat × Precision)) : Unpoisoned { kRun r with accPrec := l } := ⟨rfl, rfl, rfl, rfl, rfl⟩
theorem witness_product_blocks (i : Bool) : ∃ r p, (r, p) = (if i then (runBlock .plain, .i32) else (runBlock .plain 0 .bf16, .a32)) ∧
    liveRun (sProduct r p).dev 0 0 = some r ∧ blocksLeft r = true ∧ arrayTurn (getCore (sProduct r p).dev 0) r = true ∧ r.picked = true ∧ matNames r.cmd = some 0 ∧
    nibble (getCore (sProduct r p).dev 0).bmode 0 % 4 = 0 ∧ matSparse r.cmd = false ∧ matPa r.cmd = false ∧ matPb r.cmd = false ∧
    cmdPlace (sProduct r p).dev 0 r.cmd r.cmd.regS1 = some (.spm 0 0 true) ∧ cmdPlace (sProduct r p).dev 0 r.cmd r.cmd.regS2 = some (.spm 0 0x10000 true) ∧
    matPrec r.cmd = (if i then .i32 else .a32) ∧ precOf (getCore (sProduct r p).dev 0) 0 = p := by
  cases i <;> exact ⟨_, _, rfl, by decide +kernel⟩
theorem witness_finite_operands : ∀ o x, fvalFinite (elemValue .bf16 (spmNumber (sProduct (runBlock .plain 0 .bf16) .a32).dev o x 2)) = true := by
  intro o x
  have e : (getCore (sProduct (runBlock .plain 0 .bf16) .a32).dev o).spm = [] := by rcases o with _ | o <;> rfl
  have h : spmNumber (sProduct (runBlock .plain 0 .bf16) .a32).dev o x 2 = 0 := by
    simp [spmNumber, spmByte, e, Sparse.get, List.range_succ]
  rw [h]; decide +kernel

/-- A copy of 64 bytes from 0x100 of the scratchpad, to 0x200 of it or to 0x2000 of global memory, with a list of indexes at 0. -/
def runCopy (o : CpyOp) (dst : Word) : Run :=
  { cmd := { op := .cpy o, f := { d := 1, s1 := 2, s2 := 1 }, regD := dst, regS1 := 0x8000000000000100, regS2 := 64, regS3 := 0x8000000000000000, nest := List.replicate 6 {} } }
def sCopy (o : CpyOp) (dst : Word) : State := sRun (runCopy o dst)
def movesPiece (o : CpyOp) (dst : Word) : Bool :=
  match pieceSource (sCopy o dst).dev 0 o (runCopy o dst) with
  | .ok g => g.zeroed = 0 && (pieceDest g.dev 0 o (runCopy o dst) g.bytes).isOk && (translateFor g.dev 0 0x2000 .write).isOk
  | .error _ => false
theorem witness_copy_pieces : ([(CpyOp.cpy, (0x2000 : Word)), (.cpy, 0x8000000000000200), (.cpym, 0x8000000000000200), (.cpyg, 0x2000), (.cpys, 0x2000)].all fun p =>
      decide (liveRun (sCopy p.1 p.2).dev 0 0 = some (runCopy p.1 p.2)) && piecesLeft (runCopy p.1 p.2) && !cpyW (runCopy p.1 p.2).cmd &&
      decide (pieceSpan (runCopy p.1 p.2).cmd (runCopy p.1 p.2).piece = (0, 64)) && movesPiece p.1 p.2) = true := by decide +kernel
theorem witness_copy_sides :
    sideOf (sCopy .cpy 0x2000).dev 0 (runCopy .cpy 0x2000).cmd 0x8000000000000100 = some (.spm 0 0x100 true) ∧
    (sideOf (sCopy .cpy 0x2000).dev 0 (runCopy .cpy 0x2000).cmd 0x2000).map Side.isGlobal = some true ∧
    region 0x2000 ≠ 3 ∧ linkCut (sCopy .cpy 0x2000).dev 0x2000 = false := by decide +kernel

/-- A table of two sequences at 0x4000: number 1 is of 5 positions, in one block of rows of 8 bytes at 0x8000 that its entry at 0x5000 names. -/
def runKv (o : CpyOp) (regD regS1 regS2 regS3 : Word) : Run :=
  { cmd := { op := .cpy o, f := {}, regD := regD, regS1 := regS1, regS2 := regS2, regS3 := regS3, age := 9 }, picked := true }
def sKvAt (page : Nat) (r : Run) : State :=
  let l := (Bits.toBytes 32 (5 + 0x5000 * 2 ^ 64 + 0x6000 * 2 ^ 128 + 2 ^ 192 + 8 * 2 ^ 224)).zipIdx.map (fun p => (0x4020 + p.2, p.1)) ++
    (Bits.toBytes 16 (page + 0x1B * 2 ^ 64)).zipIdx.map fun p => (0x5000 + p.2, p.1)
  on { devOf { withStream (fun x => { x with kv := some (0x4000, 2) }) with running := [r] } with mem := Sparse.ofList 0 l }
def sKv (r : Run) : State := sKvAt 0x8000 r
def lowest : TlbEntry := { vf := 0, va := 0, size := 0x200000, pa := 0, r := true, w := true, x := true }
def seqWord (r : Run) : Nat := homeNumber (sKv r).dev 0x4020 32
theorem working (r : Run) (h : liveRun (sKv r).dev 0 9 = some r) (p : r.picked = true) (q : r.done = false) (f : r.cmd.firing = none) : Working (sKv r).dev 0 9 r :=
  ⟨h, p, q, f, rfl⟩
def kvRank : Run := runKv .kvrank 0x8000000000001000 1 (7 * 2 ^ 32 + 3) 0
def kvGath : Run := runKv .kvgath 0x8000000000001000 1 (5 * 2 ^ 32 + 1) 0x8000000000000400
/-- The same walks within their block, with the entry that they keep, at and beyond LENGTH, and at their ends. -/
def kvAt (r : Run) (step : Nat) (b : Option KvKept := none) : Run := { r with piece := 1, step := step, block := b }
def kvEmpty : Run := runKv .kvgath 0x8000000000001000 1 (3 * 2 ^ 32 + 3) 0x8000000000000400
def kvKept : KvKept := { page := 0x8000, s := 0x1B, length := 5 }
def kvApp : Run := runKv .kvapp 0 0x8000000000000200 1 1
def kvComp : Run := runKv .kvcomp 0 1 0x8000000000000200 1
def kvEvict : Run := runKv .kvevict 0 1 0 8
theorem kv_sequence : ∀ r ∈ [kvRank, kvGath, kvApp, kvComp, kvEvict, kvAt kvRank 5, kvAt kvGath 3 kvKept, kvAt kvGath 3 (some { kvKept with page := 0 }), kvAt kvRank 7, kvAt kvGath 5, kvEmpty],
    Working (sKv r).dev 0 9 r ∧ Sequence (sKv r).dev 0 r 1 lowest (seqWord r) 0x4020 ∧ SoundSequence (sKv r).dev lowest (seqWord r) 0x4020 := by
  intro r h
  simp only [List.mem_cons, List.not_mem_nil, or_false] at h
  rcases h with rfl | rfl | rfl | rfl | rfl | rfl | rfl | rfl | rfl | rfl | rfl <;>
    exact ⟨⟨by decide +kernel, rfl, rfl, rfl, rfl⟩,
      ⟨⟨0x4000, 2, by decide +kernel⟩, by unfold Reaches; decide +kernel, by decide +kernel, by decide +kernel, by unfold Reaches; decide +kernel⟩,
      by unfold Clean; decide +kernel, by unfold Clean; decide +kernel⟩
theorem witness_kv_reads (p : Nat) (h : p ∈ [1, 3, 4]) : presentAt (sKv kvGath).dev lowest (seqWord kvGath) p = true ∧
    blockPage (sKv kvGath).dev lowest (seqWord kvGath) (p / 64) ≠ 0 ∧
    Readable (sKv kvGath).dev 0 lowest (rowAt (sKv kvGath).dev lowest (seqWord kvGath) p) (seqRow (seqWord kvGath)) := by
  simp only [List.mem_cons, List.not_mem_nil, or_false] at h
  rcases h with rfl | rfl | rfl <;> (unfold Readable Reaches Clean; decide +kernel)
theorem witness_kv_positions : presentAt (sKv kvGath).dev lowest (seqWord kvGath) 2 = false ∧ seqLength (seqWord kvRank) = 5 ∧ seqBlocks (seqWord kvRank) = 1 := by
  decide +kernel
/-- From position 3 on of a gather: what the record counts, and the rows that are left. -/
theorem witness_kv_walks : ([kvGath, kvAt kvGath 3 kvKept].all fun r =>
      let l := ((List.range (5 - walkStart r)).map (walkStart r + ·)).filter fun p => kvPresent kvKept p
      decide (spmNumber (sKv r).dev 0 0x400 8 + l.length ≤ 4 ∧ l ≠ [] ∧ 0x1000 + (5 - walkStart r) * seqRow (seqWord r) ≤ 2 ^ 22)) = true ∧ walkStart (kvAt kvRank 5) = 5 ∧ walkEnd (kvAt kvRank 5) = 7 ∧
    walkLeft kvEmpty = false ∧ walkLeft (kvAt kvRank 7) = false ∧ walkLeft (kvAt kvGath 5) = false ∧ blockBits (sKv kvGath).dev lowest (seqWord kvGath) 0 = 0x1B := by decide +kernel
/-- A sequence whose block has no page. -/
theorem witness_kv_no_page : ∀ r ∈ [kvGath, kvAt kvGath 3 (some { kvKept with page := 0 })],
    Working (sKvAt 0 r).dev 0 9 r ∧ Sequence (sKvAt 0 r).dev 0 r 1 lowest (homeNumber (sKvAt 0 r).dev 0x4020 32) 0x4020 ∧
    SoundSequence (sKvAt 0 r).dev lowest (homeNumber (sKvAt 0 r).dev 0x4020 32) 0x4020 ∧
    blockPage (sKvAt 0 r).dev lowest (homeNumber (sKvAt 0 r).dev 0x4020 32) 0 = 0 := by
  intro r h
  simp only [List.mem_cons, List.not_mem_nil, or_false] at h
  rcases h with rfl | rfl <;>
    exact ⟨⟨by decide +kernel, rfl, rfl, rfl, rfl⟩,
      ⟨⟨0x4000, 2, by decide +kernel⟩, by unfold Reaches; decide +kernel, by decide +kernel, by decide +kernel, by unfold Reaches; decide +kernel⟩,
      ⟨by unfold Clean; decide +kernel, by unfold Clean; decide +kernel⟩, by decide +kernel⟩
/-- R275, R277: a gather of the rows of positions 1, 3 and 4 in one block; one without a page stops at position 1 and keeps S and LENGTH. -/
theorem test_kvgath_block : (after (exec (.copyPiece 0 9) (sKv kvGath)) fun t =>
      (spmNumber t.dev 0 0x400 8, spmByte t.dev 0 0x408, (findRun (getCore t.dev 0) 9).map fun r => (r.step, r.block))) = some (3, 0x0D, some (5, none)) := by
  decide +kernel
theorem test_kvgath_no_page : (after (exec (.copyPiece 0 9) (sKvAt 0 kvGath)) fun t =>
      (findRun (getCore t.dev 0) 9).map fun r => (r.step, r.block)) = some (some (1, some { kvKept with page := 0 })) := by decide +kernel
/-- R277: within a block the bitmap that the walk keeps governs, whatever the entry now says. -/
theorem test_kvrank_keeps : (after (exec (.copyPiece 0 9) (sKv (kvAt kvRank 3 (some { kvKept with s := 0x10 })))) fun t =>
      (spmNumber t.dev 0 0x1000 4, spmNumber t.dev 0 0x1004 4)) = some (0xFFFFFFFF, 0) := by decide +kernel
theorem witness_kv_writes : (∀ r ∈ [kvApp, kvComp],
      Reaches (sKv r).dev 0 lowest .write (rowAt (sKv r).dev lowest (seqWord r) (seqLength (seqWord r))) (seqRow (seqWord r)) ∧
      Reaches (sKv r).dev 0 lowest .write 0x5008 8 ∧ Reaches (sKv r).dev 0 lowest .write 0x4020 4 ∧
      rowAt (sKv r).dev lowest (seqWord r) (seqLength (seqWord r)) = 0x8020 ∧ seqTable (seqWord r) = 0x5000) ∧
    (spmByte (sKv kvComp).dev 0 0x200).toNat < 64 ∧ Readable (sKv kvComp).dev 0 lowest 0x6000 8 ∧
    Reaches (sKv kvEvict).dev 0 lowest .read 0x8000 512 ∧ Reaches (sKv kvEvict).dev 0 lowest .write 0x8000 512 ∧ Reaches (sKv kvEvict).dev 0 lowest .write 0x5000 16 ∧
    (∀ o < 64, Nat.testBit 0x13 o = (Nat.testBit 0x1B o && !kvEvict.cmd.regS3.getLsbD o)) := by
  unfold Readable Reaches Clean; decide +kernel

/-- A k-block under a threshold: bound cell 0 is +inf, the threshold finite, and the mode 1 with TRAP, or 0. -/
def sTest (ph : RunPhase) (on' : Bool) : State :=
  on (devOf { kRun (runBlock ph) with bmode := if on' then 9 else 0, bth := [(0, 16)], bnd := [(0, 0xFF00)], accPrec := [(0, .i32)] })
def readsBack (d : Dev) (m : MatOperand) : Bool :=
  match readRuns d 0 m.place m.addr (sectionSpans m 0) 0 with | .ok z => z.2 = d | .error _ => false
theorem readRuns_of_readsBack {d : Dev} {m : MatOperand} (h : readsBack d m = true) :
    ∃ x, readRuns d 0 m.place m.addr (sectionSpans m 0) 0 = .ok (x, d) := by
  unfold readsBack at h
  split at h
  · rename_i z e; exact ⟨z.1, by rw [e, ← of_decide_eq_true h]⟩
  · cases h
theorem test_operands_read (ph : RunPhase) (b : Bool) : readsBack (sTest ph b).dev (operandA (sTest ph b).dev 0 (runBlock ph)) = true ∧
    readsBack (sTest ph b).dev (operandB (sTest ph b).dev 0 (runBlock ph)) = true := by
  cases ph <;> cases b <;> decide +kernel
theorem bndCell_grown (k : Core) (m : RMode) (F : Nat → List AccEl) (z : Array (BitVec 16)) (h : z.getD 0 0 = 0xFF00) :
    bndCell (setBndCells k 0 ((((List.range 128).map fun c => (c, F c)).map fun g => (g.1, g.2, growCell .i32 m none g.2 (z.getD g.1 0))).map (·.2.2))) 0 0 = 0xFF00 := by
  have h0 : (List.range 128)[0]? = some 0 := rfl
  simp only [bndCell, setBndCells, Sparse.get_setRange, List.map_map, List.length_take, List.length_map, List.length_range]
  rw [if_pos (by decide)]
  simp only [List.getD_eq_getElem?_getD, List.getElem?_take, List.getElem?_map, h0, Option.map_some, Function.comp, h, growCell, if_pos]
  simp
theorem witness_threshold_block (ph : RunPhase) (b : Bool) : liveRun (sTest ph b).dev 0 0 = some (runBlock ph) ∧ blocksLeft (runBlock ph) = true ∧
    arrayTurn (getCore (sTest ph b).dev 0) (runBlock ph) = true ∧ matNames (runBlock ph).cmd = some 0 ∧ (runBlock ph).step = 0 ∧ (runBlock ph).cmd.firing = none := by
  cases ph <;> cases b <;> decide +kernel
theorem witness_threshold_actions (ph : RunPhase) (b : Bool) : ∃ o, applyBlock (sTest ph b).dev 0 0 0 (runBlock ph) = .ok o ∧
    (b = true → CellExceeds (getCore o.dev 0) 0 0) ∧ (b = false → ∀ n < 128, ¬ CellExceeds (getCore o.dev 0) 0 n) := by
  obtain ⟨x, ha⟩ := readRuns_of_readsBack (test_operands_read ph b).1
  obtain ⟨y, hb⟩ := readRuns_of_readsBack (test_operands_read ph b).2
  have f1 : accPoisoned (getCore (sTest ph b).dev 0) 0 = false := by cases ph <;> cases b <;> rfl
  have f2 : precOf (getCore (sTest ph b).dev 0) 0 = .i32 := by cases ph <;> cases b <;> rfl
  have f3 : (matPa (runBlock ph).cmd || matPb (runBlock ph).cmd) = false := by cases ph <;> rfl
  have f4 : (Sparse.dense (getCore (sTest ph b).dev 0).bnd 0 (128 * 0) 128).toArray.getD 0 0 = 0xFF00 := by cases ph <;> cases b <;> decide +kernel
  have f5 : nibble (getCore (sTest ph b).dev 0).bmode 0 % 4 = if b then 1 else 0 := by cases ph <;> cases b <;> decide
  have f6 : Sparse.get (getCore (sTest ph b).dev 0).bth 0xFF00 0 = 16 := by cases ph <;> cases b <;> decide
  simp only [applyBlock, ha, hb, bind, Except.bind, f1, f2, f3, Bool.false_eq_true, if_false, reduceCtorEq]
  refine ⟨_, rfl, ?_⟩
  have e4 : ∀ k : Core, getCore (setCore (sTest ph b).dev 0 k) 0 = k := fun k => by simp [getCore, setCore]
  have e5 : ∀ (k : Core) (l : List (BitVec 16)), (setBndCells k 0 l).bmode = k.bmode ∧ (setBndCells k 0 l).bth = k.bth := fun _ _ => ⟨rfl, rfl⟩
  have e6 : ∀ (k : Core) (els : Array AccEl) (f : AccEl → BitVec 32), (putAcc k 0 els f).bmode = k.bmode ∧ (putAcc k 0 els f).bth = k.bth := fun _ _ _ => ⟨rfl, rfl⟩
  simp only [e4, CellExceeds, (e5 _ _).1, (e6 _ _ _).1, bthOf, (e5 _ _).2, (e6 _ _ _).2, f5, f6]
  refine ⟨fun h => .inl ⟨by simp [h], ?_⟩, fun h => by simp [h]⟩
  rw [bndCell_grown _ _ _ _ f4]
  rw [show ub16Value 0xFF00 = .inf by decide +kernel, show ub16Value 16 = .fin ((16 : ℚ) * pow2 (-134)) by decide +kernel]
  exact id

/-- t4 is 1, and the vector queue's head, older than the bundle, waits for it. -/
def sOlder : State :=
  at_ { withStream (fun x => { bind3 false x with qvec := { bound := some { base := 0x10080, depth := 4 }, entries := [.cmd { op := .vec .vadd, f := { imm := 0x24000 } }] } })
          kFull with nextAge := 3 }
theorem witness_token_order : Ready (.twait { d := 4 }) sOlder ∧ (getToken (curCore sOlder) 4).count ≠ 0 ∧
    Claims.olderWaiter sOlder.dev 0 (waitAge sOlder) (waitAge sOlder) 4 ∧ ¬ Claims.olderWaiter sFull.dev 0 (waitAge sFull) (waitAge sFull) 4 := by
  unfold Ready Claims.olderWaiter
  refine ⟨by decide, by decide, fun k e => by subst e; exact .inl (by decide), fun h => ?_⟩
  rcases h _ rfl with h | ⟨i, h, b, l, ts, e, -⟩
  · exact absurd h (by decide)
  · obtain rfl : i = 0 := List.mem_singleton.mp (show i ∈ [0] from h)
    exact absurd e (by simp [sFull, kFull, k0, at_, devOf, coreStream, getCore, Sparse.get, Sparse.find?])
/-- A bundle of TWAITs of t4, and one of SLWAIT and TWAIT. -/
def waits (n : Nat) : List (Nat × Word × Instr) := List.replicate n (0, 0x10000, .twait { d := 4 })
def waitBoth (n : BitVec 32) : List (Nat × Word × Instr) := [(0, 0x10000, .slwait { s1 := 1, imm := n }), (1, 0x10004, .twait { d := 4 })]
/-- Streams 0 and 1 of a split core: stream 0 has waited in a bundle since age 1; axis 1 has retired 5 slices. -/
def kTwait (l : List (Nat × Word × Instr)) : Core :=
  { kFull with split := true, nextAge := 3, streams := [(0, { run := .running, wait := some (1, l) }), (1, { run := .running })], axes := [(1, axisNo true false)] }
def sTwait : State := at_ (kTwait (waits 1)) 1
theorem witness_older_twait : Ready (.twait { d := 4 }) sTwait ∧ Claims.olderWaiter sTwait.dev 0 (waitAge sTwait) (waitAge sTwait) 4 := by
  unfold Ready Claims.olderWaiter
  exact ⟨by decide, fun k e => by subst e; exact .inr ⟨0, by decide, 1, waits 1, [4], by decide, by decide, by decide, by decide, by decide, by decide, by decide, by decide⟩⟩
def sStalled : State := { at_ { withStream (fun x => { x with wait := some (1, waits 1) }) kFull with nextAge := 3 } with status := .stalled }
/-- R24, R63: a bundle that now stalls at another slot keeps the age of its TWAITs; two TWAITs of t4, and one beside an SLWAIT that still stalls, keep
nothing from its one count. -/
theorem test_wait_keeps_age : (strm (noteWait [(0, 0x10000, .ld {}), (1, 0x10004, .twait { d := 4 })] sStalled)).wait.map (·.1) = some 1 ∧
    [waits 1, waits 2, waitBoth 5, waitBoth 6].map (fun l => waiterFirst (devOf (kTwait l)) 0 3 [4]) = [true, false, true, false] := by decide +kernel
theorem test_twait_order : after (exec (.twait { d := 4 }) sTwait) (fun t => t.status) = some .stalled := by decide
theorem witness_sync_peer : placeOf sGang 0x9000000001000100 = some (.spm 1 0x100 false) := by decide
/-- An ATOM on a word of another package, behind a link that is down. -/
def sAtomCut : State := at_ { k0 with utlb := [{ vf := 0, va := 0, size := 0x200000, pa := 2 ^ 53, r := true, w := true, x := true }] }
theorem witness_atom_cut : Ready (.atom { d := 5, s1 := 2, s2 := 3, imm := 0 }) sAtomCut ∧
    translateFor sAtomCut.dev 0 (srcA sAtomCut 2).toNat .write = .ok { vf := 0, va := 0, size := 0x200000, pa := 2 ^ 53, r := true, w := true, x := true } ∧
    linkCut sAtomCut.dev (2 ^ 53 + 0x2000) = true ∧
    homePoisoned (atomPrepare sAtomCut.dev 0 { d := 5, s1 := 2, s2 := 3 } (2 ^ 53 + 0x2000)) (2 ^ 53 + 0x2000) 4 = true := by unfold Ready; decide
theorem witness_atom_sound : homePoisoned (atomPrepare s0.dev 0 { d := 5, s1 := 2, s2 := 3, imm := 2 } 0x2000) 0x2000 4 = false ∧
    homePoisoned (atomPrepare { s0.dev with poison := [0x80] } 0 { d := 5, s1 := 2, s2 := 3, imm := 2 } 0x2000) 0x2000 4 = true := by decide
def sWaiting (running halted : Bool) : State :=
  at_ { withStream (fun x => { bind3 false x with halted := halted, qmtx := { bound := some { base := 0x10100, depth := 4 }, entries := [.fence 0 0, .cmd { op := .mat .aclr, f := {} }] } }) with
    running := if running then [{ cmd := { op := .mat .aclr, f := {} } }] else [] }
theorem witness_generation_cases : Ready (.genf {}) (sWaiting false false) ∧ Ready (.genf {}) (sWaiting true false) ∧ Ready (.genf {}) (sWaiting false true) ∧
    queueRunning (curCore (sWaiting false false)) 0 .mtx = false ∧ queueRunning (curCore (sWaiting true false)) 0 .mtx = true ∧
    (curStream (sWaiting false true)).halted = true ∧
    (getQueue (curStream (sWaiting false false)) .mtx).entries = [.fence 0 0] ++ .cmd { op := .mat .aclr, f := {} } :: [] := by unfold Ready; decide
theorem witness_generation_queues (b c : Bool) (q : QueueId) : ∃ x, (getQueue (preStream (sWaiting b c)) q).bound = some x ∧
    foreignRegion (sWaiting b c).dev 0 x.base (32 * x.depth) = false ∧ queueFull (getQueue (preStream (sWaiting b c)) q) = false := by
  cases b <;> cases c <;> cases q <;> exact ⟨_, rfl, by decide⟩
theorem witness_exit_with_rule : Ready (.exit {}) sRule ∧ exitReady (preCore sRule) 0 = true ∧ ∃ r ∈ (curCore sRule).rules, r.2.owner = sRule.cur.stream := by
  unfold Ready; decide
theorem witness_parked_fault : (getStream (devOf (withStream fun x => { x with run := .parked 0x20000, faults := [pend] })) 0 0).run = .parked 0x20000 ∧
    oldestFault (getStream (devOf (withStream fun x => { x with run := .parked 0x20000, faults := [pend] })) 0 0).faults = some pend ∧
    (getStream (devOf (withStream fun x => { x with run := .parked 0x20000, faults := [pend] })) 0 0).delay = none := by decide

/-- A scratchpad vector command of one lane: registers 2, 3, and addresses 0x100. -/
def runLane (o : VecOp) (a d : Ty) : Run :=
  { cmd := { op := .vec o, f := { d := 3, s1 := 1, s2 := 2 }, regD := 0x8000000000000100, regS1 := 0x8000000000000100, regS2 := 1, vl := 1, vcnt := 1 }
    tyA := a, tyB := a, tyD := d, picked := true }
theorem witness_vector_moves : ([(VecOp.vld, Ty.i32), (.vlds, .i32), (.vgath, .i32), (.vmld, .i32), (.vst, .i32), (.vscat, .i32), (.vcvt, .i32), (.vqnt, .f32),
      (.vdqnt, .i8), (.mlogic, .i8), (.vtrn, .i32), (.aread, .i32), (.awrite, .i32)].all fun p =>
    let r := runLane p.1 p.2 .i8
    let d := (sRun r).dev
    let v := vecCtx 0 p.1 r
    decide (cmdPlace d 0 r.cmd r.cmd.regS1 = some (.spm 0 0x100 true)) && decide (cmdPlace d 0 r.cmd r.cmd.regD = some (.spm 0 0x100 true)) &&
      v.n == 1 && activeLane (getCore d 0) v 0 && regElem (getCore d 0) 2 32 0 == 0 && !engBv r.cmd.f && (getCore d 0).poisonSpm.isEmpty) = true := by decide +kernel
/-- Only lane 0 is active, so that its address 0x100 alone is asked about. -/
theorem witness_one_lane (o : VecOp) (a d : Ty) (k : Core) (i : Nat) (h : (vecCtx 0 o (runLane o a d)).n = 1) (g : activeLane k (vecCtx 0 o (runLane o a d)) i = true) : i = 0 := by
  simp only [activeLane, h, Bool.and_eq_true, decide_eq_true_eq] at g; omega
theorem witness_lane_aligned : PlaceAligned (devOf k0) 4 (.spm 0 0x100 true) ∧ Unpoisoned k0 := ⟨by unfold PlaceAligned; decide, rfl, rfl, rfl, rfl, rfl⟩
/-- A block for VQNT that holds an infinity, and one of zeros. -/
theorem witness_scale_blocks : fvalFinite (elemValue .f32 (regElem { k0 with vreg := [(2048, 0x7F800000)] } 1 32 0)) = false ∧
    fvalFinite (elemValue .f32 (regElem k0 1 32 0)) = true := by decide +kernel
theorem leastUb16_zero : LeastUb16 0 (.fin 0) := by
  refine ⟨by decide, ?_, fun y _ => Nat.zero_le _⟩
  rw [show ub16Value 0 = .fin ((0 : ℚ) * pow2 (-134)) by decide +kernel]
  simp [Bound.le]
theorem witness_cell_growth : boundAdd (ub16Value 0) (ub16Value 0) = .fin 0 ∧ boundMul (ub16Value 0) (ub16Value 0) = .fin 0 ∧ wordSpecial 0x7F800000 = true ∧
    wordSpecial 0 = false ∧ (finish .f32 .rne (addExact .rne (elemValue .f32 0x3F800000) (.fin false (pow2 (-30))))).flags.nx = true ∧
    fvalFinite (elemValue .f32 (finish .f32 .rne (addExact .rne (elemValue .f32 0x3F800000) (.fin false (pow2 (-30))))).bits) = true := by decide +kernel

theorem witness_packet_completion : translateRoot (ringDev []) (ringRoot (ringDev []) (getRing (ringDev []) 0)) (slotVa (getRing (ringDev []) 0) 0) .write = .ok 0x4000 ∧
    region (0x4000 + 192) ≤ 1 ∧ region (0x4000 + 200) ≤ 1 := by decide +kernel
theorem witness_invoke_of_no_slot : passes (ringDev [(0x4000, 2), (0x4040, 5)]) invokePk = true ∧
    Sparse.find? (ringDev [(0x4000, 2), (0x4040, 5)]).slots (pkWord invokePk 64) = none := by decide +kernel
/-- A record that names one held point, whose context lies at 0x20000. -/
def heldDev : Dev :=
  { ringDev [(0x4000, 6), (0x4042, 1)] [(0x10008, 1), (0x1000C, 1), (0x10011, 9), (0x1001A, 2), (0x1002C, 1), (0x20001, 9), (0x20028, 1),
        (0x20068, 7), (0x22428, 1), (0x22459, 9), (0x22480, 1), (0x22490, 1)] with
    launches := [(0, savedLaunch)], contexts := [(7, { core := placed .running true 0, number := 0 })] }
theorem witness_restores : passes heldDev restorePk = true ∧ ((reloadFrontier heldDev 0x10000).any fun p => p.2.held ≠ []) = true ∧
    ((reloadFrontier restoreDev 0x10000).any fun p => p.2.held = []) = true := by decide +kernel
theorem witness_ring_resume : (getRing { ringDev [] with rings := [(0, { ring0 with state := .idle })] } 0).state ≠ .blocked ∧ ring0.owed = [] ∧
    (0xD000 + 0x1000000 : BitVec 1024).getLsbD 24 = true ∧ 13 ≤ ((0xD000 + 0x1000000 : BitVec 1024).extractLsb' 12 4).toNat := by decide +kernel
theorem witness_held_dispatch : heldOne.ctxs.Nodup ∧ ∀ i < 4, (memNat sHeldPoint.dev (0x4000 + 0x2438 + 0x1000 * i) 8).testBit 0 = false := by decide +kernel
def kHalted : Core := withStream (fun x => { x with halted := true }) (placed .running true 0)
theorem witness_saves_halted : gangToSave (sReady (busy (some pre')) [(0, kHalted)]).dev 0 = true ∧
    (getStream (sReady (busy (some pre')) [(0, kHalted)]).dev 0 0).halted = true ∧ gangCores (sReady (busy (some pre')) [(0, kHalted)]).dev 0 = [0] ∧
    coreQuiet (sReady (busy (some pre')) [(0, kHalted)]).dev 0 = true ∧ linksDrained (sReady (busy (some pre')) [(0, kHalted)]).dev 0 = true ∧
    ((corePoints (getCore (sReady (busy (some pre')) [(0, kHalted)]).dev 0)).head?.map Prod.fst) = some 0 ∧
    MemoryCanonical (sReady (busy (some pre')) [(0, kHalted)]) ∧ pre'.ctx + 0x550000 * pre'.used + 0x550000 ≤ 2 ^ 52 ∧
    (sReady (busy (some pre')) [(0, kHalted)]).dev.records < 2 ^ 64 := by unfold MemoryCanonical; decide +kernel
theorem witness_link_down : sLink.dev.ctl.evtLog2n = 0 ∧ sLink.dev.ctl.evtBase = 0 ∧ ∀ a < 32, region a ≤ 1 := by decide
theorem witness_ring_reached : (0, (1, 5)) ∈ ({ ringGroup with reached := [(0, (1, 5))] } : RingGroup).reached ∧ (0, 1) ∉ ringGroup.raised ∧ 5 + ringGroup.timeout ≤ (15 : BitVec 64).toNat ∧
    memNat { devOf k0 with mem := [(0x6000, 1)] } 0x7000 8 < 1 := by decide
theorem witness_l1_error : ∃ j < 64, l1Has (getCore sCoreEvent.dev 0) (64 * 0x80 + j) = true := by decide
theorem witness_group_bundle : ((getStream (devOf (withStream fun x => { x with delay := some { left := 2, at_ := 0x10000, target := none, group :=
    [{ pc := 0x10004, slots := [(0, 0x10004, addWord)], next := 0x10008 }] } })) 0 0).delay.bind (·.group.head?)).isSome = true ∧
    (preStream (sDelay 2 none)).delay ≠ none := by decide
theorem witness_turn_parity : (idle k0).turn % 2 = 0 ∧ ({ idle k0 with turn := 1 } : State).turn % 2 = 1 := by decide
/-- R376: add s4, s2, s4 at the end of a bundle takes two bytes. -/
theorem test_shortest_add : encode (shorten (.add { d := 4, s1 := 2, s2 := 4 })) = [0x42, 0x42] ∧ encode (shorten (.add { fin := false, d := 4, s1 := 2, s2 := 4 })) = [0x02, 0x42] := by
  decide +kernel

/-- Accesses of core 0 below 2 MiB go through its one translation. -/
theorem reaches_lowest (d : Dev) (k : AccessKind) (va n : Nat) (h : (getCore d 0).utlb = [lowest]) (t : (getCore d 0).tenant = 0) (l : va + n ≤ 0x200000) :
    Reaches d 0 lowest k va n := by
  intro a h1 h2
  have e : Machine.translate d 0 a = some lowest := by
    simp only [Machine.translate, h, t, lookupTlb, List.find?]
    rw [show (decide (lowest.vf = 0) && decide (lowest.va ≤ a) && decide (a < lowest.va + lowest.size)) = true by simp [lowest]; omega]
  have r : region (physical lowest a) = 0 := by simp [region, physical, lowest]; omega
  exact ⟨by simp only [translateFor, e]; rw [if_neg (by omega)]; cases k <;> rfl, by omega, by simp [linkCut, r]⟩
/-- Nothing of memory is poisoned there. -/
theorem readable_lowest (d : Dev) (va n : Nat) (h : (getCore d 0).utlb = [lowest]) (t : (getCore d 0).tenant = 0) (p : d.poison = []) (l : va + n ≤ 0x200000) :
    Readable d 0 lowest va n := by
  refine ⟨reaches_lowest d .read va n h t l, fun a h1 h2 => ?_⟩
  have := (reaches_lowest d .read va n h t l a h1 h2).2.2
  simp [homePoisoned, this, p]

/-- The second of two contributions to a piece of one word, on its way to the switch. -/
def sCombine (add : Bool) : State :=
  let x (rank : Nat) (done : Bool) : Contribution := { core := 0, off := 0x200, mask := 3, rank := rank, src := rank, age := 0, add := add, data := [0, 0, 128, 63], word := none, zero := false, done := done }
  on { devOf k0 with combining := [x 1 true, x 0 false] }
theorem witness_combination (b : Bool) : ∃ x, (sCombine b).dev.combining[1]? = some x ∧ x.done = false ∧ x.zero = false ∧ x.data.length = 4 ∧
    (∀ y ∈ (sCombine b).dev.combining.take 1, ¬ (samePiece y x = true ∧ y.rank = x.rank) ∧ ¬ (y.src = x.src ∧ y.age = x.age ∧ y.done = false)) ∧
    (gathered { (sCombine b).dev with combining := (sCombine b).dev.combining.set 1 { x with done := true } } x).any (fun l =>
      decide (l ≠ []) && l.all fun c => decide (c.word = none ∧ c.data.length = x.data.length ∧ c.add = b)) = true := by
  cases b <;> exact ⟨_, rfl, rfl, rfl, rfl, by decide +kernel, by decide +kernel⟩
/-- 1 + 1 = 2, on a destination that holds 0. -/
theorem test_combination : (after (exec (.cpyrContribution 1) (sCombine true)) fun t => spmNumber t.dev 0 0x200 4) = some 0x40000000 := by decide +kernel

/-- R257: of two pieces of one command, the second waits for the first. -/
def sPieces : State := on { devOf k0 with combining := [contrib, { contrib with off := 0x140 }] }
theorem witness_contribution_waits : ∃ x, sPieces.dev.combining[1]? = some x ∧ ∃ y ∈ sPieces.dev.combining.take 1, y.src = x.src ∧ y.age = x.age ∧ y.done = false :=
  ⟨_, rfl, contrib, by decide, by decide⟩
theorem test_pieces_in_order : (after (exec (.cpyrContribution 1) sPieces) fun t => t.dev.combining) = some sPieces.dev.combining ∧
    (after (exec (.cpyrContribution 0) sPieces) fun t => t.dev.combining.map (·.done)) = some [true, false] := by decide +kernel

/-- Products of one k-block in the forms of ProductForms, B in global memory for the first. -/
def runForm (op : MatOp) (fn : Nat) (ty : Ty) (b : Word) : Run :=
  let r := runBlock .plain fn ty
  { r with cmd := { r.cmd with op := .mat op, regS2 := b } }
def forms : List (Run × Precision × Place) :=
  [(runForm .mmas 0x20 .i8 0x10000, .i32, .global 0x10000), (runForm .mma 0x28 .i8 0x8000000000010000, .i32, .spm 0 0x10000 true),
   (runForm .mma 0 .i8 0x8000000000010000, .a32, .spm 0 0x10000 true), (runForm .mma 0x10 .bf16 0x8000000000010000, .a2x32, .spm 0 0x10000 true)]
theorem witness_product_forms : ∀ f ∈ forms, liveRun (sProduct f.1 f.2.1).dev 0 0 = some f.1 ∧ blocksLeft f.1 = true ∧
    arrayTurn (getCore (sProduct f.1 f.2.1).dev 0) f.1 = true ∧ f.1.picked = true ∧ matNames f.1.cmd = some 0 ∧ matPa f.1.cmd = false ∧ matPb f.1.cmd = false ∧
    nibble (getCore (sProduct f.1 f.2.1).dev 0).bmode 0 % 4 = 0 ∧ cmdPlace (sProduct f.1 f.2.1).dev 0 f.1.cmd f.1.cmd.regS1 = some (.spm 0 0 true) ∧
    cmdPlace (sProduct f.1 f.2.1).dev 0 f.1.cmd f.1.cmd.regS2 = some f.2.2 ∧ precOf (getCore (sProduct f.1 f.2.1).dev 0) 0 = f.2.1 := by decide +kernel
theorem witness_product_settings : forms.map (fun f => (matPrec f.1.cmd, matSparse f.1.cmd, f.1.tyA)) =
    [(MatPrec.i32, false, Ty.i8), (.i32, true, .i8), (.a32, false, .i8), (.a2x32, false, .bf16)] := by decide
theorem witness_product_operands (r : Run) (p : Precision) : PlaceReadable (sProduct r p).dev 0 lowest (1 * (4096 * 1)) (.global 0x10000) ∧
    PlaceReadable (sProduct r p).dev 0 lowest (1 * (4096 * 1 + 256)) (.spm 0 0x10000 true) ∧
    ∀ o x n, 2 * n ≤ 4 → fvalFinite (elemValue .bf16 (spmNumber (sProduct r p).dev o x n)) = true := by
  refine ⟨readable_lowest _ _ _ rfl rfl rfl (by decide), rfl, fun o x n _ => ?_⟩
  have e : (getCore (sProduct r p).dev o).spm = [] := by rcases o with _ | o <;> rfl
  rw [show spmNumber (sProduct r p).dev o x n = 0 by simp [spmNumber, spmByte, e, Sparse.get]]; decide +kernel
/-- ASTORE and ALOAD of a tile in a scratchpad and in global memory. -/
def runTile (o : MatOp) (a : Word) : Run := { cmd := { op := .mat o, f := { d := 1, s1 := 1 }, regD := a, regS1 := a }, picked := true }
theorem witness_tiles : (∀ p ∈ [(MatOp.astore, (0x8000000000010000 : Word), Place.spm 0 0x10000 true), (.aload, 0x8000000000010000, .spm 0 0x10000 true),
      (.astore, 0x10000, .global 0x10000), (.aload, 0x10000, .global 0x10000)],
      matNames (runTile p.1 p.2.1).cmd = some 1 ∧ cmdPlace (devOf k0) 0 (runTile p.1 p.2.1).cmd p.2.1 = some p.2.2 ∧ (runTile p.1 p.2.1).tyA = .f32 ∧ (runTile p.1 p.2.1).tyD = .f32) ∧
    Reaches (devOf k0) 0 lowest .write 0x10000 (255 * 512 + 512) ∧ PlaceReadable (devOf k0) 0 lowest (255 * 512 + 512) (.global 0x10000) ∧
    PlaceReadable (devOf k0) 0 lowest (255 * 512 + 512) (.spm 0 0x10000 true) := by
  refine ⟨by decide +kernel, reaches_lowest _ _ _ _ rfl rfl (by decide), readable_lowest _ _ _ rfl rfl rfl (by decide), rfl⟩
/-- A vector store of one lane to global memory. -/
theorem witness_global_store : (∀ o ∈ [VecOp.vst, .vscat],
      cmdPlace (devOf k0) 0 { (runLane o .f32 .f32).cmd with regD := 0x2000 } 0x2000 = some (.global 0x2000) ∧ (vecCtx 0 o (runLane o .f32 .f32)).n = 1) ∧
    Reaches (devOf k0) 0 lowest .write 0x2000 ((1 * 32 + 7) / 8) ∧ regElem k0 2 32 0 = 0 := by
  exact ⟨by decide +kernel, reaches_lowest _ _ _ _ rfl rfl (by decide), by decide⟩
theorem witness_float_elements : tyFloat .f32 = true ∧ fvalRat (elemValue .f32 0x3F800000) = 1 ∧ elemValue .f32 0x7F800000 = .inf false ∧
    fvalIsNan (elemValue .f32 0x7F800001) = true ∧ fvalRat (elemValue .f32 0x80000000) = 0 ∧ fvalFinite (elemValue .f32 0x80000000) = true ∧
    fvalRat (elemValue .f32 0xBF800000) < 0 ∧ fvalRat (elemValue .f32 0x40000000) = 2 ^ (1 : Int) := by decide +kernel
/-- Table 8.5 and R173: VADD of 1 and 1, and VMAX of the zeros. -/
theorem test_float_elements : (vecElem { core := 0, o := .vadd, x := { op := .vec .vadd, f := {} }, tyD := .f32, tyS := .f32, wd := 32, w1 := 32, n := 4 } 0x3F800000 0x3F800000 0 false).bits = 0x40000000 ∧
    (vecElem { core := 0, o := .vmax, x := { op := .vec .vmax, f := {} }, tyD := .f32, tyS := .f32, wd := 32, w1 := 32, n := 4 } 0x80000000 0 0 false).bits = 0 ∧
    fcmp 3 (elemValue .f32 0x80000000) (elemValue .f32 0) = (true, false) ∧ fcmp 1 (.nan true) (.inf false) = (true, true) := by decide +kernel
theorem witness_vector_results : Unpoisoned k0 ∧ (vecCtx 0 .vsegred (runLane .vsegred .f32 .f32)).n = 1 ∧ 0 < (vecCtx 0 .viadd (runLane .viadd .i8 .i8)).n ∧
    (runLane .viadd .i8 .i8).cmd.f.fn.getLsbD 5 = false ∧ ({ (runLane .viadd .i8 .i8).cmd.f with fn := 0x20 } : Fields).fn.getLsbD 5 = true ∧
    (runLane .viadd .i8 .i8).cmd.f.modS1 = 0 := ⟨⟨rfl, rfl, rfl, rfl, rfl⟩, by decide, by decide, by decide, by decide, by decide⟩

/-- R281: a completed copy whose stream is suspended over its queue goes on to its visibility. -/
theorem test_completed_goes_on : [true, false].map (fun b =>
    goesOn (withStream fun x => { x with suspended := true, qcpy := { x.qcpy with stopped := [0] } })
      { cmd := { op := .cpy .cpy, f := {} }, done := b }) = [true, false] := by decide
/-- R208: a BWR of acc1 does not start while a stopped product of acc0 has acc1 as its checkpoint. -/
theorem test_checkpoint_held : accsClear { k0 with bmode := 5, running := [{ cmd := { op := .mat .mma, f := {} }, stopped := some { cause := .boundTrap } }] }
    { op := .vec .bwr, f := { d := 1 }, age := 1 } = false := by decide

/-- Table 7.6: the identities of max and min in e4m3 are its smallest and largest values. -/
theorem test_identities_e4m3 : redIdentity 1 .e4m3 = 0xFE ∧ redIdentity 2 .e4m3 = 0x7E := by decide
/-- R226: without a plane too, a bound offset that is no multiple of 64 raises ALIGN. -/
theorem test_bound_offset_aligned : [32, 64].map (fun n : Word => (tileRanges (devOf k0) 0 { op := .mat .astore, f := {}, regS2 := n <<< 32 } 0x10000 512 false true).isOk) = [false, true] := by
  decide +kernel
/-- R255: cpyr.add without sync word or tokens, on registers below 64, takes B6. -/
theorem test_assemble_cpyr : (assemble (.cpyr { fn := 2, d := 4, s1 := 3, s2 := 9 })).length = 6 ∧ (assemble (.cpyr { fn := 3, d := 4, s1 := 3, s2 := 9, s3 := 1 })).length = 12 := by
  decide +kernel

/-! ### Planes, and rounding -/

/-- R234: 32 · (5 · 2^-63 + 3 · 17 · 2^-66 + 17 · 2^-129), rounded up to 365 · 2^-63, is 0x486D; without an entry of B and beside zeros it is 0. -/
theorem test_input_term : inputTerm 0x4000 0x4110 0x8080 0x8140 = 0x486D ∧ inputTerm 0x4000 0 0x8080 0 = 0 := by decide +kernel
/-- A product of one block of i8 with both planes. -/
def runPlanes : Run := { runBlock .plain with cmd := { (runBlock .plain).cmd with regS3 := BitVec.ofNat 64 (1 + 2 ^ 63 + 2 ^ 62) } }
def sPlanes (l : List Host.Cell) : State := on (devOf { kRun runPlanes with accPrec := [(0, .i32)], spm := l })
theorem witness_input_term : liveRun (sPlanes []).dev 0 0 = some runPlanes ∧ matPa runPlanes.cmd = true ∧ matSparse runPlanes.cmd = false ∧ matK runPlanes.cmd = 1 ∧
    cmdPlace (sPlanes []).dev 0 runPlanes.cmd runPlanes.cmd.regS1 = some (.spm 0 0 true) ∧
    cmdPlace (sPlanes []).dev 0 runPlanes.cmd runPlanes.cmd.regS2 = some (.spm 0 0x10000 true) := by decide +kernel
theorem witness_plane_operands (n : Nat) : PlaceReadable (sPlanes []).dev 0 lowest n (.spm 0 0 true) ∧ PlaceReadable (sPlanes []).dev 0 lowest n (.spm 0 0x10000 true) := ⟨rfl, rfl⟩
theorem witness_magnitude (g n : Nat) : Claims.IsMagnitude (fun _ _ => some 0) g n 0 := by
  refine ⟨fun ⟨_, _, _, _, _, h⟩ => absurd h (by simp), fun M _ h => ?_⟩
  have : M = 0 := by
    rcases h with h | ⟨i, m, x, _, _, _, h, e⟩
    · exact h
    · cases h; simpa using e.symm
  rw [this]; exact leastUb16_zero
/-- R165: a value that is kept, one that passes MAX, and one below the smallest normal value. -/
theorem witness_rounding_cases : (0 : ℚ) ≤ 464 ∧ overflowAt .e4m3 ≤ 464 ∧ ¬ overflowAt .e4m3 ≤ 463 ∧ ¬ maxFinite .e4m3 < 448 ∧ (480 : ℚ) ≤ 500 ∧
    (1 / 100 : ℚ) < (2 : ℚ) ^ (-6 : Int) := by decide +kernel

end Sys2Proof.Tests
end

section
/-!
SUPPORT. Bit fields of the manual (Table 0.2) in the words of bit vectors: what a field, a count, a search for the first or
last set bit, a two's complement reading and a replaced field are.
-/

namespace Sys2Proof.Bits

/-! ### Bits and fields -/

theorem bit_eq_testBit (x i : Nat) : bit x i = x.testBit i := by
  rw [bit, Nat.testBit_eq_decide_div_mod_eq]

@[simp] theorem bit_toNat {w : Nat} (x : BitVec w) (i : Nat) : bit x.toNat i = x.getLsbD i := bit_eq_testBit _ _

theorem field_toNat {w : Nat} (x : BitVec w) {hi lo n : Nat} (h : hi + 1 = lo + n) :
    field x.toNat hi lo = (x.extractLsb' lo n).toNat := by
  rw [field, BitVec.extractLsb'_toNat, Nat.shiftRight_eq_div_pow, h, Nat.add_sub_cancel_left]

theorem testBit_setField (x v j : Nat) {hi lo : Nat} (h : lo ≤ hi + 1) :
    (setField x hi lo v).testBit j = if lo ≤ j ∧ j < hi + 1 then v.testBit (j - lo) else x.testBit j := by
  have low : x % 2 ^ lo < 2 ^ lo := Nat.mod_lt _ (Nat.two_pow_pos _)
  have mid : 2 ^ lo * (v % 2 ^ (hi + 1 - lo)) + x % 2 ^ lo < 2 ^ (hi + 1) := by
    have hv : v % 2 ^ (hi + 1 - lo) < 2 ^ (hi + 1 - lo) := Nat.mod_lt _ (Nat.two_pow_pos _)
    calc 2 ^ lo * (v % 2 ^ (hi + 1 - lo)) + x % 2 ^ lo
        < 2 ^ lo * (v % 2 ^ (hi + 1 - lo) + 1) := by rw [Nat.mul_succ]; exact Nat.add_lt_add_left low _
      _ ≤ 2 ^ lo * 2 ^ (hi + 1 - lo) := Nat.mul_le_mul_left _ hv
      _ = 2 ^ (hi + 1) := by rw [← Nat.pow_add, Nat.add_sub_cancel' h]
  have split : setField x hi lo v =
      2 ^ (hi + 1) * (x / 2 ^ (hi + 1)) + (2 ^ lo * (v % 2 ^ (hi + 1 - lo)) + x % 2 ^ lo) := by
    unfold setField; ring
  rw [split, Nat.testBit_two_pow_mul_add _ mid, Nat.testBit_two_pow_mul_add _ low]
  by_cases above : hi + 1 ≤ j
  · rw [if_neg (by omega), if_neg (by omega), Nat.testBit_div_two_pow, Nat.sub_add_cancel above]
  · by_cases below : j < lo
    · rw [if_pos (by omega), if_pos below, if_neg (by omega), Nat.testBit_mod_two_pow]
      simp [below]
    · rw [if_pos (by omega), if_neg below, if_pos (by omega), Nat.testBit_mod_two_pow]
      simp [show j - lo < hi + 1 - lo by omega]

/-! ### Counts and searches -/

theorem popcount_toNat {w : Nat} (n : Nat) (x : BitVec w) : popcount n x.toNat = (List.range n).countP fun j => x.getLsbD j := by
  simp only [popcount, bit_toNat, List.countP_eq_length_filter]

theorem topBit_succ (w x : Nat) : topBit (w + 1) x = if bit x w then some w else topBit w x := by
  rw [topBit, List.range_succ, List.reverse_append, List.reverse_singleton, List.singleton_append, List.find?_cons]
  cases bit x w <;> rfl

/-- The top bit of a (w + 1)-bit number is set when the number does not fit in w bits. -/
theorem bit_top_iff {w x : Nat} (h : x < 2 ^ (w + 1)) : bit x w = true ↔ 2 ^ w ≤ x := by
  have : x / 2 ^ w < 2 := Nat.div_lt_of_lt_mul (by rwa [← Nat.pow_succ])
  rw [bit, decide_eq_true_iff, Nat.mod_eq_of_lt this, ← Nat.one_le_div_iff (Nat.two_pow_pos w)]
  omega

theorem topBit_eq_none {w x : Nat} (h : x < 2 ^ w) (e : topBit w x = none) : x = 0 := by
  induction w with
  | zero => omega
  | succ w ih =>
    rw [topBit_succ] at e
    split at e
    · cases e
    · next isClear => exact ih (by rw [bit_top_iff h] at isClear; omega) e

theorem topBit_eq_some {w x i : Nat} (h : x < 2 ^ w) (e : topBit w x = some i) : i < w ∧ 2 ^ i ≤ x ∧ x < 2 ^ (i + 1) := by
  induction w with
  | zero => cases e
  | succ w ih =>
    rw [topBit_succ] at e
    split at e
    · next isSet => cases e; exact ⟨Nat.lt_succ_self _, (bit_top_iff h).1 isSet, h⟩
    · next isClear =>
      obtain ⟨hi, bounds⟩ := ih (by rw [bit_top_iff h] at isClear; omega) e
      exact ⟨Nat.lt_succ_of_lt hi, bounds⟩

/-! ### Two's complement -/

theorem signed_toNat {w : Nat} (x : BitVec w) (h : 0 < w) : signed w x.toNat = x.toInt := by
  have half : 2 ^ w = 2 * 2 ^ (w - 1) := by rw [← Nat.pow_succ', Nat.succ_eq_add_one, Nat.sub_add_cancel h]
  rw [signed, BitVec.toInt_eq_toNat_cond, Nat.mod_eq_of_lt x.isLt]
  split <;> split <;> omega

end Sys2Proof.Bits
end

section
/-!
SUPPORT. The fields of a word, what the decode checks say of them, and the state that a scalar instruction leaves when it is ready.
-/

namespace Sys2Proof.Machine

/-! ### Fields of a word -/

theorem fnBit_eq (f : Fields) (i : Nat) : fnBit f i = f.fn.getLsbD i := Bits.bit_toNat _ _

theorem fnBits_eq (f : Fields) {hi lo n : Nat} (h : hi + 1 = lo + n) : fnBits f hi lo = (f.fn.extractLsb' lo n).toNat :=
  Bits.field_toNat _ h

theorem immBits_eq (f : Fields) {hi lo n : Nat} (h : hi + 1 = lo + n) : immBits f hi lo = (f.imm.extractLsb' lo n).toNat :=
  Bits.field_toNat _ h

/-- pos of a bit field (R87). -/
theorem fieldPos_eq (f : Fields) : immBits f 5 0 = (f.imm.extractLsb' 0 6).toNat := immBits_eq f rfl

/-- len - 1 of a bit field (R87). -/
theorem fieldLen_eq (f : Fields) : immBits f 11 6 = (f.imm.extractLsb' 6 6).toNat := immBits_eq f rfl

/-! ### Decode checks -/

theorem fn_within_of_shapeOk {split : Bool} {h : Shape} {f : Fields} (ok : shapeOk split h f = true) : within f.fn.toNat h.fn = true := by
  simp only [shapeOk, Bool.and_eq_true] at ok
  tauto

@[simp] theorem within_immAll (x : BitVec 32) : within x.toNat immAll = true :=
  decide_eq_true (Nat.and_two_pow_sub_one_of_lt_two_pow x.isLt)

@[simp] theorem within_zero (m : Nat) : within 0 m = true := by simp [within]

theorem specOk_none (split axes : Bool) (r : BitVec 8) : specOk split axes none r = decide (r = 0) := rfl

theorem specOk_scalar (split axes : Bool) (r : BitVec 8) : specOk split axes (some .s) r = decide (r.toNat < 32) := rfl

theorem specOk_address (split : Bool) (r : BitVec 8) : specOk split false (some .a) r = decide (r.toNat < 16) := rfl

/-- Where an instruction uses one FN bit, that bit says what all of FN is. -/
theorem fnBit_of_only_bit {f : Fields} (i : Fin 6) (h : within f.fn.toNat (2 ^ i.val) = true) :
    fnBit f i.val = decide (f.fn = 1#6 <<< i.val) := by
  have all : ∀ (i : Fin 6) (fn : BitVec 6), within fn.toNat (2 ^ i.val) = true → fn.getLsbD i.val = decide (fn = 1#6 <<< i.val) := by
    decide
  rw [fnBit_eq, all i _ h]

/-- What R87 says of a field's end: the field lies in the 64 bits of the register. -/
theorem field_fits_of_legalField {fn : Nat} {split : Bool} {f : Fields} (h : legalField fn split f = true) :
    (f.imm.extractLsb' 0 6).toNat + (f.imm.extractLsb' 6 6).toNat + 1 ≤ 64 := by
  rw [legalField, Bool.and_eq_true, decide_eq_true_iff, fieldPos_eq, fieldLen_eq] at h
  exact h.2

/-- The direction of AMOV (R93). -/
theorem amovDirection_eq (f : Fields) : fnBits f 1 0 = (f.fn.extractLsb' 0 2).toNat := fnBits_eq f rfl

theorem fn_of_legalAmov {split : Bool} {f : Fields} (h : legalAmov split f = true) : f.fn = 0 ∨ f.fn = 1 ∨ f.fn = 2 := by
  have all : ∀ fn : BitVec 6, within fn.toNat 3 = true → (fn.extractLsb' 0 2).toNat ≠ 3 → fn = 0 ∨ fn = 1 ∨ fn = 2 := by decide
  rw [legalAmov, Bool.and_eq_true, decide_eq_true_iff, amovDirection_eq] at h
  exact all f.fn (fn_within_of_shapeOk h.1) h.2

/-- The FN codes of ALDI (Table 5.5). -/
theorem fn_of_legalAldi {split : Bool} {f : Fields} (h : legalAldi split f = true) :
    f.fn = 0 ∨ f.fn = 1 ∨ f.fn = 2 ∨ f.fn = 3 ∨ f.fn = 4 := by
  have all : ∀ fn : BitVec 6, within fn.toNat 7 = true → (fn.extractLsb' 0 3).toNat ≤ 4 →
      fn = 0 ∨ fn = 1 ∨ fn = 2 ∨ fn = 3 ∨ fn = 4 := by decide
  have space : fnBits f 2 0 = (f.fn.extractLsb' 0 3).toNat := fnBits_eq f rfl
  rw [legalAldi, Bool.and_eq_true, decide_eq_true_iff, space] at h
  exact all f.fn (fn_within_of_shapeOk h.1) h.2

/-! ### Instructions that are ready -/

/-- An instruction of the shared frame that is ready leaves the state of its own effect; `ok` is its decode check as its meaning
writes it. -/
theorem exec_of_ready {i : Instr} {o : Nat} {f : Fields} {s : State} {ok : Bool} {body : State → State} (h : Ready i s)
    (meaning : exec i s = instr ok f s body) (check : legal (isSplit s) i = ok) (word : internalOf i = some (o, f)) :
    exec i s = .next (body s) := by
  rw [meaning, instr_ready (check ▸ h.1) (ready_gate h word)]

/-- A short form takes no predicate: its gate is 1. -/
theorem ready_of_unpredicated {i : Instr} {s : State} (l : legal (isSplit s) i = true) (p : (fieldsOf i).pred = 0) : Ready i s :=
  ⟨l, by simp [gateOpen, p]⟩

theorem ready_addiB2 (fin : Bool) (d : BitVec 5) (e : BitVec 4) (s : State) : Ready (.addiB2 fin d e) s := by
  have hd : d.toNat % 256 < 32 := by omega
  exact ready_of_unpredicated (by simp [legal, legalAddi, shapeOk, shortWord, specOk_scalar, specOk_none, hd]) rfl

theorem ready_popcB2 (fin : Bool) (d : BitVec 5) (e : BitVec 4) (s : State) : Ready (.popcB2 fin d e) s := by
  have hd : d.toNat % 256 < 32 := by omega
  have he : e.toNat % 256 < 32 := by omega
  exact ready_of_unpredicated (by simp [legal, legalCount, shapeOk, shortWord, specOk_scalar, specOk_none, hd, he]) rfl

/-- d names an address register below 16 (Table 3.4). -/
theorem ready_aaddB2 (fin : Bool) {d : BitVec 5} (e : BitVec 4) (s : State) (h : d.toNat < 16) : Ready (.aaddB2 fin d e) s := by
  have hd : d.toNat % 256 < 16 := by omega
  have he : e.toNat % 256 < 32 := by omega
  exact ready_of_unpredicated (by simp [legal, legalAadd, shapeOk, shortWord, specOk_scalar, specOk_address, specOk_none, hd, he]) rfl

end Sys2Proof.Machine
end

section
/-!
SUPPORT. The value that each scalar instruction writes, in the words of bit vectors (R85 to R94 without R88, R91 and R92).
-/

namespace Sys2Proof.Machine

/-! ### Immediates (R85) -/

theorem exec_addi {f : Fields} {s : State} (h : Ready (.addi f) s) :
    exec (.addi f) s = .next (writeS s f.d (srcS s f.s1 + f.imm.signExtend 64)) := by
  rw [exec_of_ready h (Eq.refl (execAddi f s)) rfl rfl, addiBody, readS_eq]; rfl

/-- The B2 form's e reaches 64 bits through the 32-bit IMM. -/
theorem signExtend_through_imm (e : BitVec 4) : (e.signExtend 32).signExtend 64 = e.signExtend 64 := by
  revert e; decide

theorem exec_addiB2 (fin : Bool) (d : BitVec 5) (e : BitVec 4) (s : State) :
    exec (.addiB2 fin d e) s = .next (writeS s (d.setWidth 8) (srcS s (d.setWidth 8) + e.signExtend 64)) := by
  rw [exec_of_ready (ready_addiB2 fin d e s) (Eq.refl (execAddiB2 fin d e s)) rfl rfl, addiBody, readS_eq, immS, Bits.sext,
    ← signExtend_through_imm]; rfl

theorem exec_movi {f : Fields} {s : State} (h : Ready (.movi f) s) :
    exec (.movi f) s = .next (writeS s f.d (if f.fn = 1 then f.imm ++ (srcS s f.d).setWidth 32 else f.imm.signExtend 64)) := by
  have fn : fnBit f 0 = decide (f.fn = 1) := fnBit_of_only_bit 0 (fn_within_of_shapeOk h.1)
  rw [exec_of_ready h (Eq.refl (execMovi f s)) rfl rfl]
  simp only [fn, decide_eq_true_eq, readS_eq]
  rfl

/-! ### Counts (R86) -/

theorem exec_popc {f : Fields} {s : State} (h : Ready (.popc f) s) :
    exec (.popc f) s = .next (writeS s f.d (BitVec.ofNat 64 ((List.range 64).countP fun j => (srcS s f.s1).getLsbD j))) := by
  rw [exec_of_ready h (Eq.refl (execPopc f s)) rfl rfl, popcBody, readS_eq, Bits.popcount_toNat]

theorem exec_popcB2 (fin : Bool) (d : BitVec 5) (e : BitVec 4) (s : State) :
    exec (.popcB2 fin d e) s = .next (writeS s (d.setWidth 8)
      (BitVec.ofNat 64 ((List.range 64).countP fun j => (srcS s (e.setWidth 8)).getLsbD j))) := by
  rw [exec_of_ready (ready_popcB2 fin d e s) (Eq.refl (execPopcB2 fin d e s)) rfl rfl, popcBody, readS_eq, Bits.popcount_toNat]; rfl

theorem exec_clz {f : Fields} {s : State} (h : Ready (.clz f) s) :
    exec (.clz f) s = .next (writeS s f.d (BitVec.ofNat 64 (leadingZeros (srcS s f.s1).toNat))) := by
  rw [exec_of_ready h (Eq.refl (execClz f s)) rfl rfl, readS_eq]

theorem exec_ctz {f : Fields} {s : State} (h : Ready (.ctz f) s) :
    exec (.ctz f) s = .next (writeS s f.d (BitVec.ofNat 64 (trailingZeros (srcS s f.s1).toNat))) := by
  rw [exec_of_ready h (Eq.refl (execCtz f s)) rfl rfl, readS_eq]

/-- A word with n leading zeros fits in 64 - n bits and in no fewer. -/
theorem leadingZeros_spec {x : Nat} (h : x < 2 ^ 64) :
    leadingZeros x ≤ 64 ∧ x < 2 ^ (64 - leadingZeros x) ∧ (leadingZeros x < 64 → 2 ^ (63 - leadingZeros x) ≤ x) := by
  unfold leadingZeros
  cases e : Bits.topBit 64 x with
  | none =>
    have zero : x = 0 := Bits.topBit_eq_none h e
    simp [zero]
  | some i =>
    obtain ⟨hi, low, high⟩ := Bits.topBit_eq_some h e
    refine ⟨?_, ?_, fun _ => ?_⟩
    · dsimp only; omega
    · rwa [show 64 - (63 - i) = i + 1 by omega]
    · rwa [show 63 - (63 - i) = i by omega]

/-- A word with n trailing zeros has its lowest 1 at bit n, where it has one. -/
theorem trailingZeros_spec (x : Word) :
    trailingZeros x.toNat ≤ 64 ∧ (∀ j < trailingZeros x.toNat, x.getLsbD j = false) ∧
      (trailingZeros x.toNat < 64 → x.getLsbD (trailingZeros x.toNat) = true) := by
  unfold trailingZeros Bits.lowBit
  simp only [Bits.bit_toNat]
  cases e : (List.range 64).find? fun i => x.getLsbD i with
  | none =>
    rw [List.find?_range_eq_none] at e
    exact ⟨le_rfl, fun j hj => by simpa using e j hj, fun h => absurd h (lt_irrefl _)⟩
  | some i =>
    obtain ⟨isSet, range, below⟩ := List.find?_range_eq_some.1 e
    exact ⟨(List.mem_range.1 range).le, fun j hj => by simpa using below j hj, fun _ => isSet⟩

/-! ### Bit fields (R87) -/

/-- The field that BFX reads. -/
theorem field_of_length (x : Word) (pos k : Nat) : Bits.field x.toNat (pos + (k + 1) - 1) pos = (x.extractLsb' pos (k + 1)).toNat :=
  Bits.field_toNat x (by omega)

theorem exec_bfx {f : Fields} {s : State} {pos len : Nat} (h : Ready (.bfx f) s) (hp : pos = (f.imm.extractLsb' 0 6).toNat)
    (hl : len = (f.imm.extractLsb' 6 6).toNat + 1) :
    exec (.bfx f) s = .next (writeS s f.d (if f.fn = 1 then ((srcS s f.s1).extractLsb' pos len).signExtend 64
      else ((srcS s f.s1).extractLsb' pos len).setWidth 64)) := by
  have fn : fnBit f 0 = decide (f.fn = 1) := fnBit_of_only_bit 0 (fn_within_of_shapeOk (Bool.and_eq_true_iff.1 h.1).1)
  subst hp hl
  rw [exec_of_ready h (Eq.refl (execBfx f s)) rfl rfl]
  simp only [fn, decide_eq_true_eq, readS_eq, fieldPos_eq, fieldLen_eq,
    field_of_length, Bits.signed_toNat _ (Nat.succ_pos _), BitVec.ofNat_toNat]
  rfl

theorem exec_bfi {f : Fields} {s : State} {pos len : Nat} (h : Ready (.bfi f) s) (hp : pos = (f.imm.extractLsb' 0 6).toNat)
    (hl : len = (f.imm.extractLsb' 6 6).toNat + 1) :
    exec (.bfi f) s = .next (writeS s f.d
      (BitVec.ofNat 64 (Bits.setField (srcS s f.d).toNat (pos + len - 1) pos (srcS s f.s1).toNat))) := by
  subst hp hl
  rw [exec_of_ready h (Eq.refl (execBfi f s)) rfl rfl]
  simp only [readS_eq, fieldPos_eq, fieldLen_eq]

/-- BFI replaces the bits of its field and no other. -/
theorem getLsbD_setField (x v : Word) {pos len j : Nat} (hl : 0 < len) (hj : j < 64) :
    (BitVec.ofNat 64 (Bits.setField x.toNat (pos + len - 1) pos v.toNat)).getLsbD j =
      if pos ≤ j ∧ j < pos + len then v.getLsbD (j - pos) else x.getLsbD j := by
  rw [BitVec.getLsbD_ofNat, Bits.testBit_setField _ _ _ (by omega), show pos + len - 1 + 1 = pos + len by omega]
  simp only [hj, decide_true, Bool.true_and]
  rfl

theorem legalField_too_long {fn : Nat} {split : Bool} {f : Fields}
    (h : 64 < (f.imm.extractLsb' 0 6).toNat + (f.imm.extractLsb' 6 6).toNat + 1) : legalField fn split f = false :=
  Bool.eq_false_iff.2 fun legal => absurd (field_fits_of_legalField legal) (by omega)

/-! ### Division (R89) -/

theorem quotient_eq (u : Bool) (x y : Word) : quotient u x y = if u then x.udiv y else x.sdiv y := by
  cases u with
  | true => rfl
  | false => exact BitVec.eq_of_toInt_eq ((BitVec.toInt_ofInt _).trans (BitVec.toInt_sdiv x y).symm)

theorem remainder_eq (u : Bool) (x y : Word) : remainder u x y = if u then x.umod y else x.srem y := by
  cases u with
  | true => rfl
  | false => show BitVec.ofInt 64 _ = x.srem y; rw [← BitVec.toInt_srem, BitVec.ofInt_toInt]

/-- Quotient times divisor plus remainder is the dividend, also where the quotient wraps. -/
theorem sdiv_mul_add_srem (x y : Word) : x.sdiv y * y + x.srem y = x := by
  calc x.sdiv y * y + x.srem y
      = BitVec.ofInt 64 (x.toInt.tdiv y.toInt) * BitVec.ofInt 64 y.toInt + BitVec.ofInt 64 (x.toInt.tmod y.toInt) := by
        rw [BitVec.ofInt_toInt]; exact congrArg₂ (· * y + ·) (quotient_eq false x y).symm (remainder_eq false x y).symm
    _ = BitVec.ofInt 64 (x.toInt.tdiv y.toInt * y.toInt + x.toInt.tmod y.toInt) := by rw [BitVec.ofInt_add, BitVec.ofInt_mul]
    _ = x := by rw [Int.tdiv_mul_add_tmod, BitVec.ofInt_toInt]

theorem udiv_mul_add_umod (x y : Word) : x.udiv y * y + x.umod y = x := by
  have bound : x.toNat / y.toNat * y.toNat + x.toNat % y.toNat < 2 ^ 64 := by rw [Nat.div_add_mod']; exact x.isLt
  apply BitVec.eq_of_toNat_eq
  rw [BitVec.toNat_add, BitVec.toNat_mul, BitVec.udiv_eq, BitVec.umod_eq, BitVec.toNat_udiv, BitVec.toNat_umod,
    Nat.mod_add_mod, Nat.mod_eq_of_lt bound, Nat.div_add_mod']

/-- The two outcomes of a division that is ready. -/
theorem divBody_eq {f : Fields} (op : Bool → Word → Word → Word) (s : State) (fn : fnBit f 4 = decide (f.fn = 16)) :
    divBody op f s = if srcS s f.s2 = 0 then faultAt .divide 0 s else writeS s f.d (op (f.fn = 16) (srcS s f.s1) (srcS s f.s2)) := by
  rw [divBody, fn, readS_eq, readS_eq]

theorem exec_div {f : Fields} {s : State} (h : Ready (.div f) s) :
    exec (.div f) s = .next (if srcS s f.s2 = 0 then faultAt .divide 0 s else
      writeS s f.d (if f.fn = 16 then (srcS s f.s1).udiv (srcS s f.s2) else (srcS s f.s1).sdiv (srcS s f.s2))) := by
  rw [exec_of_ready h (Eq.refl (execDiv f s)) rfl rfl, divBody_eq _ _ (fnBit_of_only_bit 4 (fn_within_of_shapeOk h.1)), quotient_eq]
  simp only [decide_eq_true_eq]

theorem exec_rem {f : Fields} {s : State} (h : Ready (.rem f) s) :
    exec (.rem f) s = .next (if srcS s f.s2 = 0 then faultAt .divide 0 s else
      writeS s f.d (if f.fn = 16 then (srcS s f.s1).umod (srcS s f.s2) else (srcS s f.s1).srem (srcS s f.s2))) := by
  rw [exec_of_ready h (Eq.refl (execRem f s)) rfl rfl, divBody_eq _ _ (fnBit_of_only_bit 4 (fn_within_of_shapeOk h.1)), remainder_eq]
  simp only [decide_eq_true_eq]

/-! ### The registers after a fault (R75) -/

theorem cores_writeEvent (d : Dev) (ty source : Nat) (arg : Word) : (writeEvent d ty source arg).cores = d.cores := by
  unfold writeEvent
  split
  · rfl
  · exact cores_homeStore _ _ _

theorem cores_reportSuspension (d : Dev) (c i : Nat) (dbg : Bool) : (reportSuspension d c i dbg).cores = d.cores :=
  (cores_writeEvent _ _ _ _).trans (cores_homeStore _ _ _)

theorem clusters_setStream (d : Dev) (c i e : Nat) (t : Stream) : (getCore (setStream d c i t) e).clusters = (getCore d e).clusters := by
  rw [setStream, getCore_modCore]
  split <;> rfl

theorem clusters_deliverFault (d : Dev) (c i e : Nat) (f : PendingFault) (engine : Bool) (epc : Word) :
    (getCore (deliverFault d c i f engine epc) e).clusters = (getCore d e).clusters := by
  unfold deliverFault
  dsimp only
  split
  · exact clusters_setStream _ _ _ _ _
  · rw [getCore_of_cores (cores_reportSuspension _ _ _ _)]
    exact clusters_setStream _ _ _ _ _

theorem scalarIn_of_clusters {d e : Dev} {c : Nat} (h : (getCore e c).clusters = (getCore d c).clusters) (u r : Nat) :
    scalarIn e c u r = scalarIn d c u r := by
  unfold scalarIn coreCluster
  rw [h]

/-- A precise fault leaves every scalar register as it stood before the bundle. -/
theorem scalarIn_faultAt (c : Cause) (a : Word) (s : State) (x u r : Nat) : scalarIn (faultAt c a s).dev x u r = scalarIn s.pre x u r :=
  scalarIn_of_clusters (clusters_deliverFault _ _ _ _ _ _ _) _ _

/-! ### Survivor ranks (R90) -/

theorem exec_rank {f : Fields} {s : State} (h : Ready (.rank f) s) :
    exec (.rank f) s = .next (writeS s f.d
      (if f.fn = 1 ∧ (srcS s f.s1).getLsbD ((srcS s f.s2).extractLsb' 0 6).toNat = false then BitVec.allOnes 64
       else BitVec.ofNat 64 ((List.range ((srcS s f.s2).extractLsb' 0 6).toNat).countP fun j => (srcS s f.s1).getLsbD j))) := by
  have fn : fnBit f 0 = decide (f.fn = 1) := fnBit_of_only_bit 0 (fn_within_of_shapeOk h.1)
  rw [exec_of_ready h (Eq.refl (execRank f s)) rfl rfl]
  simp only [rankValue, fn, readS_eq, Bits.field_toNat (srcS s f.s2) (show 5 + 1 = 0 + 6 from rfl), Bits.bit_toNat, Bits.popcount_toNat,
    Bool.and_eq_true, decide_eq_true_eq, Bool.not_eq_true']
  rfl

/-! ### Address arithmetic (R93) -/

/-- addr(tag, x) of R93 as the model and as the manual's bits write it. -/
theorem mkAddr_toNat (tag : BitVec 4) (x : Word) : mkAddr tag.toNat x.toNat = addrBits tag x := by
  apply BitVec.eq_of_toNat_eq
  have off : x.toNat % 2 ^ 60 < 2 ^ 60 := Nat.mod_lt _ (Nat.two_pow_pos _)
  have fits : tag.toNat * 2 ^ 60 + x.toNat % 2 ^ 60 < 2 ^ 64 := by have := tag.isLt; omega
  calc (mkAddr tag.toNat x.toNat).toNat
      = tag.toNat * 2 ^ 60 + x.toNat % 2 ^ 60 := by rw [mkAddr, BitVec.toNat_ofNat, Nat.mod_eq_of_lt fits]
    _ = tag.toNat <<< 60 ||| x.toNat % 2 ^ 60 := by rw [← Nat.shiftLeft_add_eq_or_of_lt off, Nat.shiftLeft_eq]
    _ = (addrBits tag x).toNat := by rw [addrBits, BitVec.toNat_append, BitVec.extractLsb'_toNat, Nat.shiftRight_zero]

theorem tagOf_eq (a : Word) : tagOf a = (a.extractLsb' 60 4).toNat := by
  rw [tagOf, BitVec.extractLsb'_toNat, Nat.shiftRight_eq_div_pow]
  have := a.isLt
  omega

theorem addAddr_eq (a x : Word) : addAddr a x = addrBits (a.extractLsb' 60 4) (a + x) := by
  rw [addAddr, tagOf_eq, mkAddr_toNat]

theorem exec_aadd {f : Fields} {s : State} (h : Ready (.aadd f) s) :
    exec (.aadd f) s = .next (writeA s f.d
      (addrBits ((srcA s f.d).extractLsb' 60 4) (srcA s f.d + srcS s f.s1 + f.imm.signExtend 64))) := by
  rw [exec_of_ready h (Eq.refl (execAadd f s)) rfl rfl, aaddBody, addAddr_eq, readA_eq, readS_eq, ← BitVec.add_assoc]; rfl

/-- The B2 form has IMM 0. -/
theorem exec_aaddB2 (fin : Bool) {d : BitVec 5} (e : BitVec 4) (s : State) (h : d.toNat < 16) :
    exec (.aaddB2 fin d e) s = .next (writeA s (d.setWidth 8)
      (addrBits ((srcA s (d.setWidth 8)).extractLsb' 60 4) (srcA s (d.setWidth 8) + srcS s (e.setWidth 8)))) := by
  rw [exec_of_ready (ready_aaddB2 fin e s h) (Eq.refl (execAaddB2 fin d e s)) rfl rfl, aaddBody, addAddr_eq, readA_eq, readS_eq,
    show immS (shortWord 13 fin d e).2 = 0#64 from rfl, BitVec.add_zero]; rfl

theorem shiftLeft_eq_mul_two_pow (x : Word) (n : Nat) : x <<< n = x * 2 ^ n :=
  BitVec.eq_of_toNat_eq (by simp [Nat.shiftLeft_eq, BitVec.toNat_pow])

theorem exec_aidx {f : Fields} {s : State} (h : Ready (.aidx f) s) :
    exec (.aidx f) s = .next (writeA s f.d
      (addrBits ((srcA s f.s1).extractLsb' 60 4) (srcA s f.s1 + srcS s f.s2 * 2 ^ (f.imm.extractLsb' 0 3).toNat))) := by
  have scale : immBits f 2 0 = (f.imm.extractLsb' 0 3).toNat := immBits_eq f rfl
  rw [exec_of_ready h (Eq.refl (execAidx f s)) rfl rfl, addAddr_eq, readA_eq, readS_eq, scale, shiftLeft_eq_mul_two_pow]

/-- The three directions of AMOV. -/
theorem exec_amov {f : Fields} {s : State} (h : Ready (.amov f) s) :
    exec (.amov f) s = .next (if f.fn = 0 then writeA s f.d (srcA s f.s1) else if f.fn = 1 then writeA s f.d (srcS s f.s1)
      else writeS s f.d (srcA s f.s1)) := by
  rw [exec_of_ready h (Eq.refl (execAmov f s)) rfl rfl]
  simp only [readA_eq, readS_eq]
  rcases fn_of_legalAmov h.1 with fn | fn | fn <;> rw [fnBits, fn] <;> rfl

theorem legalAmov_direction_three {split : Bool} {f : Fields} (h : f.fn.extractLsb' 0 2 = 3) : legalAmov split f = false := by
  have three : fnBits f 1 0 = 3 := by rw [amovDirection_eq, h]; rfl
  simp [legalAmov, three]

/-! ### Address immediates (R94) -/

theorem aldiValue_eq {split : Bool} {f : Fields} (h : legalAldi split f = true) (pc : Word) :
    aldiValue f pc = if f.fn = 4 then addrBits (pc.extractLsb' 60 4) (pc + f.imm.signExtend 64)
      else addrBits (if f.fn = 0 then 0 else if f.fn = 1 then 8 else if f.fn = 2 then 9 else 10) (f.imm.setWidth 64) := by
  have imm (tag : BitVec 4) : mkAddr tag.toNat f.imm.toNat = addrBits tag (f.imm.setWidth 64) := by
    rw [← mkAddr_toNat, BitVec.toNat_setWidth_of_le (by decide)]
  unfold aldiValue
  rcases fn_of_legalAldi h with fn | fn | fn | fn | fn <;> rw [fnBits, fn]
  · exact imm 0
  · exact imm 8
  · exact imm 9
  · exact imm 10
  · exact addAddr_eq _ _

theorem exec_aldi {f : Fields} {s : State} (h : Ready (.aldi f) s) :
    exec (.aldi f) s = .next (writeA s f.d
      (if f.fn = 4 then addrBits (s.cur.pc.extractLsb' 60 4) (s.cur.pc + f.imm.signExtend 64)
        else addrBits (if f.fn = 0 then 0 else if f.fn = 1 then 8 else if f.fn = 2 then 9 else 10) (f.imm.setWidth 64))) := by
  rw [exec_of_ready h (Eq.refl (execAldi f s)) rfl rfl, aldiValue_eq h.1]

end Sys2Proof.Machine
end

section
/-!
CLAIM. The statements of chapter 05 on immediates, division, bits and addresses.
-/

namespace Sys2Proof.Machine

/-- Settles O2: each instruction writes its one register. -/
theorem immediateResults : Obligations.ImmediateResults :=
  ⟨fun _ _ h => ⟨_, exec_addi h, onlyScalar_writeS _ _ _⟩,
   fun fin d e s => ⟨_, exec_addiB2 fin d e s, onlyScalar_writeS _ _ _⟩,
   fun _ _ h => ⟨_, exec_movi h, onlyScalar_writeS _ _ _⟩⟩

/-- Settles O4: the zero divisor and the others are the two branches of one equation. -/
theorem divisionResults : Obligations.DivisionResults := by
  refine ⟨fun f s zero => ⟨fun h => ?_, fun h => ?_⟩, scalarIn_faultAt, fun x y _ => ⟨sdiv_mul_add_srem x y, udiv_mul_add_umod x y⟩,
    fun f s h nonzero => ⟨_, ?_, onlyScalar_writeS _ _ _⟩, fun f s h nonzero => ⟨_, ?_, onlyScalar_writeS _ _ _⟩⟩
  · rw [exec_div h, if_pos zero]
  · rw [exec_rem h, if_pos zero]
  · rw [exec_div h, if_neg nonzero]
  · rw [exec_rem h, if_neg nonzero]

theorem bitCounts : Claims.BitCounts := by
  refine ⟨fun f s h => ⟨_, exec_popc h, onlyScalar_writeS _ _ _⟩, fun fin d e s => ⟨_, exec_popcB2 fin d e s, onlyScalar_writeS _ _ _⟩,
    fun f s h => ⟨_, _, exec_clz h, onlyScalar_writeS _ _ _, leadingZeros_spec (srcS s f.s1).isLt⟩,
    fun f s h => ⟨_, _, exec_ctz h, onlyScalar_writeS _ _ _, trailingZeros_spec _⟩⟩

theorem bitFields : Claims.BitFields := by
  refine ⟨fun f split long => ⟨legalField_too_long long, legalField_too_long long⟩, fun f s h => ?_, fun f s h => ?_⟩
  · refine ⟨_, _, exec_bfx h rfl rfl, onlyScalar_writeS _ _ _, ?_⟩
    rintro _ _ rfl rfl
    rfl
  · refine ⟨_, _, exec_bfi h rfl rfl, onlyScalar_writeS _ _ _, ?_⟩
    rintro _ _ rfl rfl j hj
    exact getLsbD_setField _ _ (Nat.succ_pos _) hj

theorem rankResults : Claims.RankResults := fun _ _ h => ⟨_, exec_rank h, onlyScalar_writeS _ _ _⟩

/-- Settles O5, from its three parts: the counts, the fields and the ranks. -/
theorem bitResults : Obligations.BitResults := ⟨bitCounts, bitFields, rankResults⟩

theorem addressResults : Claims.AddressResults := by
  refine ⟨fun f split three => legalAmov_direction_three three, fun f s h => ⟨_, exec_aadd h, onlyAddress_writeA _ _ _⟩,
    fun fin d e s h => ⟨_, exec_aaddB2 fin e s h, onlyAddress_writeA _ _ _⟩, fun f s h => ⟨_, exec_aidx h, onlyAddress_writeA _ _ _⟩,
    fun f s h fn => ⟨_, ?_, onlyAddress_writeA _ _ _⟩, fun f s h fn => ⟨_, ?_, onlyAddress_writeA _ _ _⟩,
    fun f s h fn => ⟨_, ?_, onlyScalar_writeS _ _ _⟩⟩ <;> rw [exec_amov h, fn] <;> rfl

theorem addressImmediates : Claims.AddressImmediates := fun _ _ h => ⟨_, exec_aldi h, onlyAddress_writeA _ _ _⟩

/-- Settles O8: each instruction writes one register, and addr(tag, x) of R93 is what the model computes. -/
theorem addressArithmetic : Obligations.AddressArithmetic := ⟨addressResults, addressImmediates⟩

end Sys2Proof.Machine
end
